-- ==== Sys2Proof/Word.lean ====
section
/-! DEFINITION. The word types of the SN-16: the byte of the show line and of the flash, and show time. -/

namespace Sys2Proof

/-- A character of the show line, a byte of the flash, an 8-bit component of a colour (R61, R152, R18). -/
abbrev Byte := BitVec 8

/-- Show time: a 32-bit count of milliseconds that wraps (R3, R4). -/
abbrev ShowTime := BitVec 32

end Sys2Proof
end

