-- ==== Sys2Proof/Config.lean ====
section
/-! DEFINITION. What one node or its attached flash fixes and the manual leaves open: constants with no body, so no
proof can see what they are. -/

namespace Sys2Proof

/-- The node's 48-bit factory serial number (R156): fixed for the node, not given by the manual (log 2). -/
opaque Config.serial : BitVec 48

/-- FREE VALUE (log 3). The byte the flash holds or returns where R62, R64 and R72 leave it unstated: `draw` is the
draw number (`State.draws`, advanced at each use), `addr` the byte's address. -/
opaque Config.flashByte (draw addr : Nat) : Byte

/-- FREE VALUE (log 36). The position an axis counts to when the exact count `exact` lies outside the range of a position
(Conventions, Positions): the manual gives that range and no result beyond it. -/
opaque Config.positionBeyond (exact : Int) : BitVec 24

end Sys2Proof
end

