-- ==== Sys2Proof/Syntax.lean ====
section
/-! DEFINITION. The commands of the SN-16: one constructor of `Instr` per row of spec/opcode_table.json. A command is one
whole step of the node (spec/95): an event of the time base, of a pin, of the flash, a character of the show line, or
the management unit taking the ask handed to it. Its operands are what comes from outside with the event. -/

namespace Sys2Proof

/-- A character as the receiver sees it (R152): eight data bits, and whether its stop bit was not at the idle level. -/
structure RxChar where
  byte : Byte
  framing : Bool
deriving DecidableEq, Repr

/-- The blocks that take the millisecond event (R1). -/
inductive Block
  | time | fixture | axis | scene | claim | trigger | line | store
deriving DecidableEq, Repr

/-- What comes with a millisecond event: the order in which the blocks take it (R1 gives none; log 5), whether the
trigger unit takes presses before it counts its lockouts (R141 allows both orders), and the levels read at the event:
the trigger pins (bit n: pin n high) and the home inputs (bit a: input a active). -/
structure MsInputs where
  order : List Block
  pressFirst : Bool
  trigPins : BitVec 12
  home : BitVec 4
deriving DecidableEq, Repr

/-- The commands, in the order of spec/opcode_table.json. -/
inductive Instr
  | powerOnReset
  | flashReady
  | flashReadyTimeout
  | startUp (home : BitVec 4) (trigPins : BitVec 12)
  | restartTakesEffect
  | millisecondEvent (inp : MsInputs)
  | gateTimeout (k : Fin 6)
  | holdTimeout (k : Fin 6)
  | resumeGuardExpiry (k : Fin 6)
  | requestExpiry
  | scheduleFire
  | lockoutExpiry (n : Fin 12)
  | indicatorFlash (n : Fin 12)
  | lineLost
  | frameCutOff
  | clearDelayExpiry (p : Fin 4)
  | audioSampleEvent
  | triggerPress (n : Fin 12) (late : Bool)
  | proximityActive (p : Fin 4)
  | proximityInactive (p : Fin 4)
  | quadratureChange (a : Fin 4) (pinA pinB : Bool)
  | refillReadStart
  | refillComplete
  | managementReadStart
  | managementReadDone
  | operationStepStart
  | flashStepReady (failed : Bool)
  | stepLimitExceeded
  | flashSuspend
  | flashSuspended
  | flashResume
  | goodHeader (c : RxChar)
  | headerError (c : RxChar)
  | timeFrame (c : RxChar) (expiryFirst : Bool)
  | levelFrame (c : RxChar)
  | cueGo (c : RxChar)
  | cueHaltAll (c : RxChar)
  | cueHouseDark (c : RxChar)
  | cueHouseShow (c : RxChar)
  | noticeFrame (c : RxChar)
  | noticeStrip (c : RxChar)
  | emptyFill (c : RxChar)
  | askFrame (c : RxChar)
  | setNumberBySerial (c : RxChar)
  | askRejectedCheck (c : RxChar)
  | badBodyFrame (c : RxChar)
  | frameForward (c : RxChar)
  | transmitStart
  | transmitDone
  | status (key : Bool)
  | readTable
  | readTableVoice
  | writeTable
  | writeTableConfig
  | writeTablePalette
  | writeTableHighlight
  | writeTableHouse
  | writeTableBank
  | writeTableFixture
  | writeTablePatch
  | writeTableClip
  | writeTableZone
  | writeTableAxis
  | writeTableProximity
  | writeTableScene
  | writeTableStep
  | writeTableTrigger
  | writeTableRemote
  | writeTableCue
  | paletteStream
  | startScene
  | stopScene
  | armTrigger
  | disarmTrigger
  | homeAxis (home : Bool)
  | clearFault
  | setMode
  | setBank
  | setNumber
  | setProtect (key : Bool)
  | freeze (key : Bool)
  | store
  | restart
  | eraseSectors
  | pageFill
  | pageProgram
  | readClip
  | unknownAsk
  | characterReceived (c : RxChar)
deriving DecidableEq, Repr

end Sys2Proof
end

