-- ==== Sys2Proof/Machine/Tab.lean ====
section
/-! DEFINITION. Tables of a fixed number of entries, kept as a list with its length (plain data that compares fast), and
the loops over them. -/

namespace Sys2Proof.Machine

/-- A table of `n` entries. -/
structure Tab (α : Type) (n : Nat) where
  list : List α
  len : list.length = n
deriving DecidableEq, Repr

/-- Every entry `x`. -/
def Tab.const {α : Type} (n : Nat) (x : α) : Tab α n := ⟨List.replicate n x, List.length_replicate⟩

/-- Entry `i`. -/
def Tab.get {α : Type} {n : Nat} (t : Tab α n) (i : Fin n) : α := t.list.get (i.cast t.len.symm)

/-- Replace entry `i`. -/
def Tab.set {α : Type} {n : Nat} (t : Tab α n) (i : Fin n) (x : α) : Tab α n :=
  ⟨t.list.set i.val x, (List.length_set).trans t.len⟩

/-- Change entry `i`. -/
def Tab.upd {α : Type} {n : Nat} (t : Tab α n) (i : Fin n) (f : α → α) : Tab α n := t.set i (f (t.get i))

/-- Change every entry. -/
def Tab.map {α β : Type} {n : Nat} (t : Tab α n) (f : α → β) : Tab β n :=
  ⟨t.list.map f, (List.length_map f).trans t.len⟩

/-- Do `f` for each member of a list, in its order. -/
def eachOf {ι β : Type} (l : List ι) (f : ι → β → β) (b : β) : β := l.foldl (fun b i => f i b) b

/-- Do `f` for each number below `n`, in ascending order. -/
def each {β : Type} (n : Nat) (f : Fin n → β → β) (b : β) : β := eachOf (List.finRange n) f b

/-- The members of a set of `n` kept as a bit mask, in ascending order (R173). -/
def members {n : Nat} (m : BitVec n) : List (Fin n) := (List.finRange n).filter (fun i => m.getLsbD i.val)

end Sys2Proof.Machine
end

