-- ==== Sys2Proof/WellFormed.lean ====
section
/-! DEFINITION. Which commands are well formed. Operands that number a trigger, an axis, a proximity input or a run record
are bounded by their types; what is left to check is the order in which a millisecond event reaches the blocks. -/

namespace Sys2Proof

/-- Every block that takes the millisecond event. -/
def Block.all : List Block := [.time, .fixture, .axis, .scene, .claim, .trigger, .line, .store]

/-- Each block takes the event once (R1). -/
def MsInputs.onceEach (m : MsInputs) : Bool :=
  m.order.length == Block.all.length && Block.all.all (m.order.contains ·)

/-- Show time changes before the checks that the change calls for (R6, R130, R138): the time unit stands before the
claim unit and the trigger unit. -/
def MsInputs.timeBeforeChecks (m : MsInputs) : Bool :=
  let before := m.order.takeWhile (· != .time)
  !before.contains .claim && !before.contains .trigger

/-- The order is one the manual allows. -/
def MsInputs.wf (m : MsInputs) : Bool := m.onceEach && m.timeBeforeChecks

/-- A well-formed command. -/
def Instr.wf : Instr → Bool
  | .millisecondEvent inp => inp.wf
  | _ => true

end Sys2Proof
end

