-- ==== Sys2Proof/Machine/Records.lean ====
section
/-! DEFINITION. The records of the node, block by block: the entries of the working tables and the run state, with the
values of the factory defaults and of reset. Fields with a range have a type that admits that range alone. -/

namespace Sys2Proof.Machine

/-! ### Lanes (chapter 1) -/

/-- The four components of a colour, in the order of R18 and R21. -/
inductive Comp
  | red | green | blue | white
deriving DecidableEq, Repr

/-- One value per component. -/
structure Quad (α : Type) where
  red : α
  green : α
  blue : α
  white : α
deriving DecidableEq, Repr

/-- A colour of four 8-bit components (R18). -/
abbrev Colour := Quad Byte

/-- The curves of R7. -/
inductive Curve
  | linear | ease | snap
deriving DecidableEq, Repr

/-- The clock a lane reads (R7). -/
inductive TimeSource
  | node
  | run (k : Fin 6)
deriving DecidableEq, Repr

/-- What a lane moves toward (R7). -/
inductive Target
  | index (i : Byte)
  | level (v : Nat)
  | house
  | position (p : Int)
deriving DecidableEq, Repr

/-- A lane record (R7). -/
structure Lane where
  start : Int
  target : Target
  startTime : Nat
  duration : Nat
  curve : Curve
  source : TimeSource
deriving DecidableEq, Repr

/-- The record of a lane at reset (R11). -/
def Lane.rest (start : Int) (target : Target) : Lane := ⟨start, target, 0, 0, .linear, .node⟩

/-! ### Sets of resources -/

/-- A claim set (R98): fixtures, narration lanes (A bit 0, B bit 1), axes. -/
structure ClaimSet where
  fixtures : BitVec 16
  lanes : BitVec 2
  axes : BitVec 4
deriving DecidableEq, Repr

/-- The two zones (R50). -/
inductive Zone
  | a | b
deriving DecidableEq, Repr

/-- The number of a zone: A 0, B 1. -/
def Zone.idx : Zone → Fin 2
  | .a => 0
  | .b => 1

/-! ### Working tables -/

/-- Mode of the node (R150). -/
inductive Mode
  | showMode | darkMode
deriving DecidableEq, Repr

/-- The entry of CONFIG (R176). -/
structure NodeConfig where
  number : Fin 251
  resumeGuard : Fin 5001
  startMode : Mode
deriving DecidableEq, Repr

/-- LOW or HIGH edge of a protected range (R182). -/
inductive Edge
  | low | high
deriving DecidableEq, Repr

/-- Protect mode (R182). -/
inductive ProtectMode
  | opened | keyed
deriving DecidableEq, Repr

/-- The protect record (R182). -/
structure Protect where
  sceneEdge : Edge
  sceneCount : Fin 33
  clipEdge : Edge
  clipCount : Byte
  complement : Bool
  mode : ProtectMode
deriving DecidableEq, Repr

/-- The entry of BANK (R20). -/
structure Bank where
  mask : Byte
  base : Byte
deriving DecidableEq, Repr

/-- How a fixture merges scene and line value (R30). -/
inductive FixtureMode
  | scene | line | highest
deriving DecidableEq, Repr

/-- The dimming curves (R31). -/
inductive Dimming
  | linear | square
deriving DecidableEq, Repr

/-- An entry of FIXTURE (R23). -/
structure FixtureCfg where
  mode : FixtureMode
  dimming : Dimming
deriving DecidableEq, Repr

/-- A patched entry of PATCH (R25); UNPATCHED is `none` of the option that holds it. -/
structure Patch where
  univ : Fin 16
  channel : Fin 512
deriving DecidableEq, Repr

/-- An entry of CLIP (R42). The fields are as wide as they are carried, because an entry with valid no is taken as written. -/
structure Clip where
  valid : Bool
  firstPage : BitVec 16
  count : BitVec 24
  gain : BitVec 16
deriving DecidableEq, Repr

/-- The configuration part of a zone (R50). -/
structure ZoneCfg where
  volume : Fin 257
  duckDepth : BitVec 16
  duckFade : Fin 60001
deriving DecidableEq, Repr

/-- Feedback of an axis (R76). -/
inductive Feedback
  | none | encoder
deriving DecidableEq, Repr

/-- Home direction (R76). -/
inductive HomeDir
  | negative | positive
deriving DecidableEq, Repr

/-- An entry of AXIS (R76). Positions are 24-bit two's complement (Conventions, R173). -/
structure AxisCfg where
  softMin : BitVec 24
  softMax : BitVec 24
  rate : Fin 51
  resumeRate : Fin 51
  feedback : Feedback
  stallLimit : BitVec 16
  homeDir : HomeDir
  homeRate : Fin 51
  homeTravel : BitVec 24
  homeAtStart : Bool
deriving DecidableEq, Repr

/-- The configuration of a proximity input (R89). -/
structure ProxCfg where
  axes : BitVec 4
  clearDelay : Fin 10001
deriving DecidableEq, Repr

/-- Retrigger policy (R98). -/
inductive Retrigger
  | ignore | restart
deriving DecidableEq, Repr

/-- Wait policy (R98). -/
inductive WaitPolicy
  | queue | discard
deriving DecidableEq, Repr

/-- A scene header (R98). -/
structure Header where
  enabled : Bool
  priority : Fin 16
  firstStep : Fin 1024
  stepCount : Byte
  duration : Fin 3600001
  claims : ClaimSet
  retrigger : Retrigger
  wait : WaitPolicy
  waitLimit : Fin 601
  holdLimit : Fin 600001
  releaseFade : Fin 60001
  resumeFade : Fin 60001
  rewind : Fin 30001
deriving DecidableEq, Repr

/-- The two kinds of voice (R43). -/
inductive LaneKind
  | narration | ambient
deriving DecidableEq, Repr

/-- What a step does, by kind (R100). A gain of `none` is DEFAULT. -/
inductive StepAct
  | colour (fixtures : BitVec 16) (index : Byte) (fade : Fin 600001) (curve : Curve)
  | colourDirect (fixtures : BitVec 16) (levels : Colour) (fade : Fin 600001) (curve : Curve)
  | intensity (fixtures : BitVec 16) (value : Byte)
  | highlight (fixtures : BitVec 16) (code : Fin 4)
  | play (clip : Fin 128) (zone : Zone) (kind : LaneKind) (gain : Option (BitVec 16)) (fadeIn : Fin 600001) (loop : Bool)
  | voiceFade (zone : Zone) (kind : LaneKind) (gain : BitVec 16) (fade : Fin 600001) (stop : Bool)
  | move (axis : Fin 4) (target : BitVec 24) (travel : Fin 600001) (curve : Curve)
  | waitAxis (axes : BitVec 4) (limit : Fin 600001)
  | signal (code : Byte)
  | start (slot : Fin 32)
deriving DecidableEq, Repr

/-- A step of the pool (R99). -/
structure SceneStep where
  offset : Fin 3600000
  act : StepAct
deriving DecidableEq, Repr

/-- Polarity of a trigger input (R136). -/
inductive Polarity
  | activeLow | activeHigh
deriving DecidableEq, Repr

/-- The configuration of a trigger (R136). -/
structure TriggerCfg where
  enabled : Bool
  slot : Option (Fin 32)
  polarity : Polarity
  lockout : Fin 601
  broadcast : Bool
deriving DecidableEq, Repr

/-- Kinds of notice (R144, R153). -/
inductive NoticeKind
  | trigger | signal
deriving DecidableEq, Repr

/-- A used entry of the remote-trigger map (R144). -/
structure Remote where
  origin : Fin 251
  kind : NoticeKind
  number : Byte
  slot : Fin 32
deriving DecidableEq, Repr

/-- A used entry of the cue map (R145). -/
structure CueMap where
  cue : BitVec 16
  slot : Fin 32
deriving DecidableEq, Repr

/-- The working tables and the protect record (R172, R182): what the image saves and start-up takes. -/
structure Tables where
  config : NodeConfig
  protect : Protect
  bank : Bank
  house : Colour
  highlight : Tab Colour 3
  zone : Tab ZoneCfg 2
  fixture : Tab FixtureCfg 16
  prox : Tab ProxCfg 4
  axis : Tab AxisCfg 4
  trigger : Tab TriggerCfg 12
  remote : Tab (Option Remote) 16
  cue : Tab (Option CueMap) 64
  patch : Tab (Option Patch) 64
  palette : Tab Colour 256
  clip : Tab Clip 128
  scene : Tab Header 32
  step : Tab SceneStep 1024
deriving DecidableEq, Repr

/-- The factory defaults (R188 and the rules it names). A clip entry's fields beside valid are the model's (log 9). -/
def Tables.factory : Tables where
  config := ⟨0, 500, .showMode⟩
  protect := ⟨.low, 0, .low, 0, false, .opened⟩
  bank := ⟨0xFF, 0⟩
  house := ⟨0, 0, 0, 0⟩
  highlight := Tab.const 3 ⟨0, 0, 0, 0⟩
  zone := Tab.const 2 ⟨0, 0xFFFF, 0⟩
  fixture := Tab.const 16 ⟨.scene, .linear⟩
  prox := Tab.const 4 ⟨0, 0⟩
  axis := Tab.const 4 ⟨0, 0, 1, 1, .none, 0, .negative, 1, 0, false⟩
  trigger := Tab.const 12 ⟨false, none, .activeLow, 0, false⟩
  remote := Tab.const 16 none
  cue := Tab.const 64 none
  patch := Tab.const 64 none
  palette := Tab.const 256 ⟨0, 0, 0, 0⟩
  clip := Tab.const 128 ⟨false, 0, 0, 0⟩
  scene := Tab.const 32 ⟨false, 1, 0, 0, 0, ⟨0, 0, 0⟩, .ignore, .discard, 0, 0, 0, 0, 0⟩
  step := Tab.const 1024 ⟨0, .intensity 0 255⟩

/-! ### Run state of the fixture unit -/

/-- The run state of a fixture (R23). -/
structure FixtureRun where
  intensity : Byte
  highlight : Fin 4
  scene : Quad Lane
  line : Quad Lane
deriving DecidableEq, Repr

/-- The palette staging record (R21); its component counter is the number of staged bytes. -/
structure Staging where
  pointer : Byte
  staged : List Byte
deriving DecidableEq, Repr

/-- The run state of the fixture unit: fixtures and the duties on the PWM outputs (R28). -/
structure FixtureUnit where
  run : Tab FixtureRun 16
  duty : Tab (Quad Nat) 16
deriving DecidableEq, Repr

/-- After reset (R11, R23, R28). -/
def FixtureUnit.reset : FixtureUnit where
  run := Tab.const 16
    { intensity := 255, highlight := 0
      scene := let l := Lane.rest 0 .house; ⟨l, l, l, l⟩
      line := let l := Lane.rest 0 (.level 0); ⟨l, l, l, l⟩ }
  duty := Tab.const 16 ⟨0, 0, 0, 0⟩

/-! ### Run state of the voice unit -/

/-- The states of a voice (R43). -/
inductive VoiceState
  | idle | priming | playing | paused | stopping
deriving DecidableEq, Repr

/-- A signed 16-bit sample (R41). -/
abbrev Sample := BitVec 16

/-- A voice record (R43). -/
structure Voice where
  state : VoiceState
  clip : Fin 128
  firstPage : Nat
  count : Nat
  zone : Zone
  kind : LaneKind
  owner : Option (Fin 6)
  readPos : Nat
  fetchPos : Nat
  fifo : List Sample
  refill : Option Nat
  loop : Bool
  underrun : Bool
  gain : Lane
deriving DecidableEq, Repr

/-- The run part of a zone record (R50) with its output samples (R53, R55): the sample formed at the last event and the
sample of the I2S frame being sent. -/
structure ZoneRun where
  duck : Lane
  clipFlag : Bool
  formed : Int
  sent : Int
deriving DecidableEq, Repr

/-- The run state of the voice unit (R43, R50). -/
structure VoiceUnit where
  voice : Tab Voice 6
  startList : List (Fin 6)
  zone : Tab ZoneRun 2
deriving DecidableEq, Repr

/-- A voice after reset (R43). -/
def Voice.reset : Voice :=
  ⟨.idle, 0, 0, 1, .a, .ambient, none, 0, 0, [], none, false, false, Lane.rest 0 (.level 0)⟩

/-- After reset (R43, R50, R11). -/
def VoiceUnit.reset : VoiceUnit where
  voice := Tab.const 6 Voice.reset
  startList := []
  zone := Tab.const 2 ⟨Lane.rest 65535 (.level 65535), false, 0, 0⟩

/-! ### Run state of the axis unit -/

/-- The states of an axis (R77). -/
inductive AxisState
  | unhomed | homing | ready | moving | held | faulted
deriving DecidableEq, Repr

/-- Fault reason of an axis (R77). -/
inductive AxisFault
  | none | stall | homeNotFound
deriving DecidableEq, Repr

/-- Homing phase (R77). -/
inductive HomingPhase
  | none | offSwitch | seek
deriving DecidableEq, Repr

/-- The run state of an axis (R77); `pulses` and `direction` are its step and direction outputs at the last update (R78). -/
structure Axis where
  state : AxisState
  stepped : Int
  measured : Int
  move : Lane
  fault : AxisFault
  held : BitVec 4
  phase : HomingPhase
  travel : Nat
  capDir : HomeDir
  capRate : Nat
  capTravel : Nat
  pulses : Nat
  direction : Bool
deriving DecidableEq, Repr

/-- The states of a proximity record (R89). -/
inductive ProxState
  | clear | active | clearing
deriving DecidableEq, Repr

/-- The run state of a proximity record (R89). -/
structure Prox where
  state : ProxState
  delay : Nat
deriving DecidableEq, Repr

/-- The run state of the axis unit. -/
structure AxisUnit where
  axis : Tab Axis 4
  prox : Tab Prox 4
deriving DecidableEq, Repr

/-- An axis after reset, its captured homing values those of configuration `c` (R77). -/
def Axis.reset (c : AxisCfg) : Axis :=
  { state := .unhomed, stepped := 0, measured := 0, move := Lane.rest 0 (.position 0), fault := .none, held := 0
    phase := .none, travel := 0, capDir := c.homeDir, capRate := c.homeRate.val, capTravel := c.homeTravel.toNat
    pulses := 0, direction := false }

/-- After reset, with the configuration of the factory defaults until start-up (R77, R89, log 9). -/
def AxisUnit.reset : AxisUnit where
  axis := Tables.factory.axis.map Axis.reset
  prox := Tab.const 4 ⟨.clear, 0⟩

/-! ### Run state of the scene runner -/

/-- The state of a run record (R101). -/
inductive RunState
  | free | running | suspended
deriving DecidableEq, Repr

/-- Where a request came from (R120). -/
inductive Origin
  | trigger (n : Fin 12)
  | remote | cue | control | scene
deriving DecidableEq, Repr

/-- The copy of the header taken at admission (R101). -/
structure Snapshot where
  priority : Nat
  claims : ClaimSet
  firstStep : Nat
  stepCount : Nat
  duration : Nat
  releaseFade : Nat
  resumeFade : Nat
  rewind : Nat
  holdLimit : Nat
deriving DecidableEq, Repr

/-- A gate in force (R101, R107). -/
structure Gate where
  axes : BitVec 4
  gated : Nat
  limit : Nat
deriving DecidableEq, Repr

/-- The look-memory target of a fixture (R35). -/
inductive LookTarget
  | index (i : Byte)
  | level (levels : Colour)
  | none
deriving DecidableEq, Repr

/-- The look memory of one fixture (R35). -/
structure FixtureLook where
  target : LookTarget
  intensity : Byte
  highlight : Fin 4
deriving DecidableEq, Repr

/-- Look memory (R35, R101): the entries of resources outside the claim set keep their first value and are never read. -/
structure Look where
  fixture : Tab FixtureLook 16
  axis : Tab (Option Int) 4
deriving DecidableEq, Repr

/-- Look memory at admission (R35, R102). -/
def Look.blank : Look := ⟨Tab.const 16 ⟨.none, 255, 0⟩, Tab.const 4 none⟩

/-- A run record (R101). GATED is in its stall set exactly when `gate` is not none (R107, R108). -/
structure RunRec where
  state : RunState
  held : Bool
  slot : Option (Fin 32)
  snap : Option Snapshot
  origin : Option Origin
  clock : Nat
  gateDelay : Nat
  gate : Option Gate
  next : Nat
  holdTime : Nat
  guard : Nat
  look : Option Look
deriving DecidableEq, Repr

/-- A FREE record (R101). -/
def RunRec.free : RunRec := ⟨.free, false, none, none, none, 0, 0, none, 0, 0, 0, none⟩

/-- End reasons (R112, R116). -/
inductive EndReason
  | none | complete | stopped | halted | houseDark | holdTimeout | axisFault | restartTruncated
deriving DecidableEq, Repr

/-- An entry of SCENE-STATUS (R116). -/
structure SceneStatus where
  lastEnd : EndReason
  skipped : Bool
  gateTimeout : Bool
deriving DecidableEq, Repr

/-- The run state of the scene runner. -/
structure SceneRunner where
  run : Tab RunRec 6
  status : Tab SceneStatus 32
deriving DecidableEq, Repr

/-- After reset (R101, R116). -/
def SceneRunner.reset : SceneRunner := ⟨Tab.const 6 RunRec.free, Tab.const 32 ⟨.none, false, false⟩⟩

/-! ### Run state of the claim unit -/

/-- A record of the claim table (R118); the stack has its top first. -/
structure Claim where
  owner : Option (Fin 6)
  stack : List (Fin 6)
deriving DecidableEq, Repr

/-- An entry of the request queue (R129). -/
structure QueueEntry where
  slot : Fin 32
  origin : Origin
  priority : Nat
  arrival : ShowTime
  deadline : Option ShowTime
deriving DecidableEq, Repr

/-- A request made and not yet taken by the claim unit (R120). -/
structure Request where
  slot : Fin 32
  origin : Origin
deriving DecidableEq, Repr

/-- The outcomes of a request (R120). -/
inductive ReqOutcome
  | admitted | restarted | ignored | queued | discarded
deriving DecidableEq, Repr

/-- The claim unit: the claim table, the request queue, the requests that have not reached it yet, and the outcome of a
CONTROL request on its way to the management unit (R125). -/
structure ClaimUnit where
  claim : Tab Claim 22
  queue : List QueueEntry
  inFlight : List Request
  control : Option ReqOutcome
deriving DecidableEq, Repr

/-- After reset (R118, R129). -/
def ClaimUnit.reset : ClaimUnit := ⟨Tab.const 22 ⟨none, []⟩, [], [], none⟩

/-! ### Run state of the trigger unit -/

/-- The states of a trigger (R137). -/
inductive TriggerState
  | armed | waiting | busy | lockout | disarmed
deriving DecidableEq, Repr

/-- The run state of a trigger (R137), with its slow flash (R142): millisecond events since the indicator last changed, and
whether this half of the period is the lit one. -/
structure Trigger where
  state : TriggerState
  pending : Bool
  lockout : Nat
  flash : Nat
  flashLit : Bool
deriving DecidableEq, Repr

/-- An entry of the start schedule (R146). -/
structure ScheduleEntry where
  slot : Fin 32
  time : ShowTime
deriving DecidableEq, Repr

/-- The run state of the trigger unit; `pins` are the pin levels at the previous reading (R138). -/
structure TriggerUnit where
  trigger : Tab Trigger 12
  pins : BitVec 12
  schedule : List ScheduleEntry
  mode : Mode
deriving DecidableEq, Repr

/-- After reset (R137, R146, R150; pins log 10, slow-flash count log 42). -/
def TriggerUnit.reset : TriggerUnit := ⟨Tab.const 12 ⟨.disarmed, false, 0, 0, true⟩, 0, [], .showMode⟩

/-! ### The bay: everything the node's own events move -/

/-- A notice (R166). -/
structure Notice where
  kind : NoticeKind
  number : Byte
deriving DecidableEq, Repr

/-- The items of the latched half of the error summary, at the bits R178 gives them (R177). -/
inductive ErrItem
  | underrun | axisFault | imageInvalid | lineLost | headerError | bodyError | txOverflow | noticeOverflow
  | scheduleFull | queueFull | voiceShort | zoneClip | storeFault | nodeRestarted
deriving DecidableEq, Repr

/-- The run state of the blocks that play the bay: time, fixtures, voices, axes, scenes, claims and triggers, with the
notice queue (R166) and the latched half of the error summary (R177) that they write. -/
structure Bay where
  time : ShowTime
  fixture : FixtureUnit
  voice : VoiceUnit
  axis : AxisUnit
  scene : SceneRunner
  claim : ClaimUnit
  trigger : TriggerUnit
  notices : List Notice
  latched : BitVec 14
deriving DecidableEq, Repr

/-- After reset, with the latched half empty (R3 and the resets of each block). -/
def Bay.reset : Bay :=
  { time := 0, fixture := .reset, voice := .reset, axis := .reset, scene := .reset, claim := .reset
    trigger := .reset, notices := [], latched := 0 }

/-! ### The store port -/

/-- A run of bytes asked of the port (R65). -/
structure ReadReq where
  address : Nat
  count : Nat
deriving DecidableEq, Repr

/-- The link (R62): FREE, a refill read for a voice, a management read, or the operation's own transfers (R63). -/
inductive Link
  | free
  | refill (voice : Fin 6) (req : ReadReq)
  | management (req : ReadReq)
  | operation
deriving DecidableEq, Repr

/-- Where the bytes of a page program come from (R67). -/
inductive PageSource
  | buffer
  | body (i : Nat)
  | trailer
deriving DecidableEq, Repr

/-- A flash step (R67). -/
inductive FlashStep
  | erase (sector : Nat)
  | program (page : Nat) (source : PageSource)
deriving DecidableEq, Repr

/-- Kinds of operation (R66). -/
inductive OpKind
  | pageProgram (page : Nat)
  | eraseSectors (first count : Nat)
  | store
deriving DecidableEq, Repr

/-- Phases of an operation (R67 to R71). -/
inductive Phase
  | gap | working | suspending | suspended
deriving DecidableEq, Repr

/-- An operation record (R66): the steps left, the present one first; the page bytes sent at the start of the present step
(R67); the CRC over the body pages as programmed (R187). -/
structure Operation where
  kind : OpKind
  steps : List FlashStep
  phase : Phase
  stepCount : Nat
  runCount : Nat
  sent : List Byte
  crc : BitVec 16
deriving DecidableEq, Repr

/-- The store state (R62). -/
inductive StoreState
  | idle | busy | failed
deriving DecidableEq, Repr

/-- The store port (R62). -/
structure StorePort where
  link : Link
  waiting : Option ReadReq
  op : Option Operation
  state : StoreState
  buffer : Tab Byte 256
  restartWaiting : Bool
deriving DecidableEq, Repr

/-- After reset (R62, R74). -/
def StorePort.reset : StorePort := ⟨.free, none, none, .idle, Tab.const 256 0xFF, false⟩

/-! ### The line unit -/

/-- A frame with a good header (R153): its header check is the CRC-8 of kind, node and length, so it is not held. -/
structure Frame where
  kind : Byte
  node : Byte
  body : List Byte
  crc : BitVec 16
deriving DecidableEq, Repr

/-- An ASK taken for an answer: its node byte, tag, ask kind and parameters (R153, R163). -/
structure Ask where
  node : Byte
  tag : Byte
  kind : Byte
  params : List Byte
deriving DecidableEq, Repr

/-- An entry of the transmit queue (R162): a frame known in full (and whether it is the ANSWER that a RESTART waits for,
R190), or a pending answer. -/
inductive TxEntry
  | frame (f : Frame) (restart : Bool)
  | answer (a : Ask)
deriving DecidableEq, Repr

/-- The receiver (R158). `own` is the node number read when the header was checked (R156). -/
inductive Receiver
  | hunt
  | header (chars : List RxChar)
  | body (own : Fin 251) (kind node : Byte) (length : Nat) (chars : List RxChar)
deriving DecidableEq, Repr

/-- Line state (R169). -/
inductive LineState
  | up | lost
deriving DecidableEq, Repr

/-- The line unit but for the notice queue, which stands in `Bay`. -/
structure LineUnit where
  rx : Receiver
  heard : Bool
  tx : List TxEntry
  sending : Bool
  state : LineState
  count : Nat
deriving DecidableEq, Repr

/-- After reset (R158, R162, R169). -/
def LineUnit.reset : LineUnit := ⟨.hunt, false, [], false, .lost, 250⟩

/-! ### The management unit -/

/-- Protect state (R184). -/
inductive ProtectState
  | normal | frozen
deriving DecidableEq, Repr

/-- Where start-up stands (R62, R188, R189): the port's ready wait with its count of millisecond events; the image reads,
with the bytes read so far (trailer page first); the image read in full; ready. -/
inductive StartUp
  | flashWait (ms : Nat)
  | reading (bytes : List Byte)
  | imageRead (bytes : List Byte)
  | ready
deriving DecidableEq, Repr

/-- An ask whose answer waits for another block (R170). -/
inductive Waiting
  | none | readClip | startScene
deriving DecidableEq, Repr

/-- A RESTART asked for and not yet in effect (R190). -/
inductive RestartState
  | none | answering | answered
deriving DecidableEq, Repr

/-- The management unit, its node configuration and protect record standing in `Tables`. -/
structure Management where
  protectState : ProtectState
  startUp : StartUp
  imageInvalid : Bool
  waiting : Waiting
  restart : RestartState
deriving DecidableEq, Repr

/-- The input pins that are kept (R62, R78, R84, R89, R184). -/
structure Pins where
  home : BitVec 4
  prox : BitVec 4
  quadA : BitVec 4
  quadB : BitVec 4
  key : Bool
deriving DecidableEq, Repr

end Sys2Proof.Machine
end

