-- ==== Sys2Proof/Machine/Memory.lean ====
section
/-! DEFINITION. The flash (R61): 16 MiB of bytes, kept as a list of (address, byte) with addresses strictly rising and no
entry equal to what an unlisted address reads as. -/

namespace Sys2Proof.Machine

/-- The content of the flash. -/
abbrev Memory := List Host.Cell

/-- What an unlisted address reads as: erased flash (R41, R61). What the flash holds before anything is written is not
stated: DESIGN CHOICE, unsafe (log 4). -/
def Memory.blank : Byte := 0xFF

/-- The number of bytes of the flash (R61). -/
def flashSize : Nat := 16777216

/-- The byte at an address. -/
def Memory.read : Memory → Nat → Byte
  | [], _ => Memory.blank
  | (b, v) :: rest, a => if b = a then v else Memory.read rest a

/-- The canonical form from address `lo` on: every address at or above `lo`, addresses strictly rising, none listed that
reads as an unlisted one does. -/
def Memory.wfFrom : Nat → Memory → Bool
  | _, [] => true
  | lo, (b, v) :: rest => decide (lo ≤ b) && decide (v ≠ Memory.blank) && Memory.wfFrom (b + 1) rest

/-- The canonical form. -/
def Memory.wf (m : Memory) : Bool := Memory.wfFrom 0 m

/-- Write one byte. -/
def Memory.write : Memory → Nat → Byte → Memory
  | [], a, x => if x = Memory.blank then [] else [(a, x)]
  | (b, v) :: rest, a, x =>
    if a < b then (if x = Memory.blank then (b, v) :: rest else (a, x) :: (b, v) :: rest)
    else if a = b then (if x = Memory.blank then rest else (a, x) :: rest)
    else (b, v) :: Memory.write rest a x

/-- Write a run of bytes from an address on. -/
def Memory.writeRun : Memory → Nat → List Byte → Memory
  | m, _, [] => m
  | m, a, x :: xs => Memory.writeRun (m.write a x) (a + 1) xs

/-- Read a run of bytes; past the last address it goes on from address 0 (R65). -/
def Memory.readRun (m : Memory) : Nat → Nat → List Byte
  | _, 0 => []
  | a, n + 1 => m.read (a % flashSize) :: Memory.readRun m (a % flashSize + 1) n

/-- A sector erase sets its 4,096 bytes to 0xFF (R61). -/
def Memory.eraseSector (m : Memory) (sector : Nat) : Memory :=
  m.filter (fun c => !(decide (sector * 4096 ≤ c.1) && decide (c.1 < sector * 4096 + 4096)))

/-- A page program leaves each byte its old value AND the new one (R61). -/
def Memory.programPage (m : Memory) (page : Nat) (bytes : List Byte) : Memory :=
  m.writeRun (page * 256) ((m.readRun (page * 256) bytes.length).zipWith (· &&& ·) bytes)

end Sys2Proof.Machine
end

