-- ==== Sys2Proof/Machine/State.lean ====
section
/-! DEFINITION. The state of the node, plain data, and its value right after a power-on reset. -/

namespace Sys2Proof.Machine

/-- The state of the node. The working tables, the run state of the bay, the palette staging record, the flash, whether the
last STORE was cut off and left it without a complete image (R72, R187, log 45), the store port, the line unit, the management
unit, the pins, the serial; the model's own free-value counter and command queue. -/
structure State where
  tables : Tables
  bay : Bay
  staging : Staging
  flash : Memory
  storeCut : Bool
  port : StorePort
  line : LineUnit
  mgmt : Management
  pins : Pins
  serial : BitVec 48
  draws : Nat
  pending : List Instr
deriving DecidableEq, Repr

/-- Why a command stops the node. The manual gives no such command, so there is no reason (INVENTORY, Faults): safe,
because every command then has its effect. -/
inductive Fault
deriving DecidableEq, Repr

/-- Why a command is refused. -/
inductive Refusal
  /-- Raised by `exec` for a command that has no meaning yet; safe. No arm raises it. -/
  | notModelled (mnemonic : String)
deriving DecidableEq, Repr

/-- The outcome of a command. -/
abbrev Result := Host.Outcome State Fault Refusal

/-- The bit of an item of the latched half (R178). -/
def ErrItem.bit : ErrItem → Nat
  | .underrun => 0
  | .axisFault => 1
  | .imageInvalid => 2
  | .lineLost => 3
  | .headerError => 4
  | .bodyError => 5
  | .txOverflow => 6
  | .noticeOverflow => 7
  | .scheduleFull => 8
  | .queueFull => 9
  | .voiceShort => 10
  | .zoneClip => 11
  | .storeFault => 12
  | .nodeRestarted => 13

/-- The latched half right after a reset: NODE-RESTARTED, and LINE-LOST, which becomes true at that moment (R177). -/
def latchedAtReset : BitVec 14 :=
  BitVec.ofNat 14 (2 ^ ErrItem.nodeRestarted.bit) ||| BitVec.ofNat 14 (2 ^ ErrItem.lineLost.bit)

/-- The node right after a power-on reset, its flash in the port's ready wait (R62). The pins stand inactive or low until
an event says otherwise (log 10), and no STORE has been cut off (log 47). -/
def State.reset : State where
  tables := Tables.factory
  bay := { Bay.reset with latched := latchedAtReset }
  staging := ⟨0, []⟩
  flash := []
  storeCut := false
  port := StorePort.reset
  line := LineUnit.reset
  mgmt := ⟨.normal, .flashWait 0, false, .none, .none⟩
  pins := ⟨0, 0, 0, 0, false⟩
  serial := Config.serial
  draws := 0
  pending := []

/-- Do to the bay what its blocks do under the working tables, which they only read. -/
def State.onBay (s : State) (f : Tables → Bay → Bay) : State := { s with bay := f s.tables s.bay }

end Sys2Proof.Machine
end

