-- ==== Sys2Proof/Machine/Ops.lean ====
section
/-! DEFINITION. The operations every block shares: show-time comparison, the lane engine (chapter 1), the numbering of the
resources, and the accessors of the bay's records. -/

namespace Sys2Proof.Machine

/-! ### Comparing show times (R4) -/

/-- The difference from an earlier show time `u` to a later `t`, modulo 2^32. -/
def timeDiff (u t : ShowTime) : Nat := (t - u).toNat

/-- Show time `now` has reached `u`: it is at or after it. -/
def reached (now u : ShowTime) : Bool := timeDiff u now < 2 ^ 31

/-- Show time `now` has passed `u`: it is after it. -/
def passed (now u : ShowTime) : Bool := 1 ≤ timeDiff u now && timeDiff u now < 2 ^ 31

/-! ### Components -/

/-- The number of a component (R172). -/
def Comp.idx : Comp → Fin 4
  | .red => 0
  | .green => 1
  | .blue => 2
  | .white => 3

/-- A component of a quadruple. -/
def Quad.get {α : Type} (q : Quad α) : Comp → α
  | .red => q.red
  | .green => q.green
  | .blue => q.blue
  | .white => q.white

/-- A quadruple made component by component from another. -/
def Quad.mapC {α β : Type} (q : Quad α) (f : Comp → α → β) : Quad β :=
  ⟨f .red q.red, f .green q.green, f .blue q.blue, f .white q.white⟩

/-- Put a value in the place of one component. -/
def Quad.put {α : Type} (q : Quad α) (c : Comp) (x : α) : Quad α :=
  match c with
  | .red => { q with red := x }
  | .green => { q with green := x }
  | .blue => { q with blue := x }
  | .white => { q with white := x }

/-- An 8-bit component widened to 16 bits (Conventions, R9). -/
def widen (v : Byte) : Nat := v.toNat * 257

/-- The effective index (R9, R20). -/
def Bank.effective (k : Bank) (i : Byte) : Byte := (i &&& k.mask) ||| (k.base &&& ~~~k.mask)

/-! ### Accessors of the bay's records -/

/-- Run record `k`. -/
def Bay.run (b : Bay) (k : Fin 6) : RunRec := b.scene.run.get k

/-- Change run record `k`. -/
def Bay.updRun (b : Bay) (k : Fin 6) (f : RunRec → RunRec) : Bay :=
  { b with scene := { b.scene with run := b.scene.run.upd k f } }

/-- Change the scene status of a slot. -/
def Bay.updStatus (b : Bay) (slot : Fin 32) (f : SceneStatus → SceneStatus) : Bay :=
  { b with scene := { b.scene with status := b.scene.status.upd slot f } }

/-- Voice `v`. -/
def Bay.voiceRec (b : Bay) (v : Fin 6) : Voice := b.voice.voice.get v

/-- Change voice `v`. -/
def Bay.updVoice (b : Bay) (v : Fin 6) (f : Voice → Voice) : Bay :=
  { b with voice := { b.voice with voice := b.voice.voice.upd v f } }

/-- Change the run part of a zone. -/
def Bay.updZone (b : Bay) (z : Fin 2) (f : ZoneRun → ZoneRun) : Bay :=
  { b with voice := { b.voice with zone := b.voice.zone.upd z f } }

/-- Axis `a`. -/
def Bay.axisRec (b : Bay) (a : Fin 4) : Axis := b.axis.axis.get a

/-- Change axis `a`. -/
def Bay.updAxis (b : Bay) (a : Fin 4) (f : Axis → Axis) : Bay :=
  { b with axis := { b.axis with axis := b.axis.axis.upd a f } }

/-- Change proximity record `p`. -/
def Bay.updProx (b : Bay) (p : Fin 4) (f : Prox → Prox) : Bay :=
  { b with axis := { b.axis with prox := b.axis.prox.upd p f } }

/-- Fixture `i`. -/
def Bay.fixtureRec (b : Bay) (i : Fin 16) : FixtureRun := b.fixture.run.get i

/-- Change fixture `i`. -/
def Bay.updFixture (b : Bay) (i : Fin 16) (f : FixtureRun → FixtureRun) : Bay :=
  { b with fixture := { b.fixture with run := b.fixture.run.upd i f } }

/-- Change the claim record of a resource. -/
def Bay.updClaim (b : Bay) (r : Fin 22) (f : Claim → Claim) : Bay :=
  { b with claim := { b.claim with claim := b.claim.claim.upd r f } }

/-- Trigger `n`. -/
def Bay.triggerRec (b : Bay) (n : Fin 12) : Trigger := b.trigger.trigger.get n

/-- Change trigger `n`. -/
def Bay.updTrigger (b : Bay) (n : Fin 12) (f : Trigger → Trigger) : Bay :=
  { b with trigger := { b.trigger with trigger := b.trigger.trigger.upd n f } }

/-- Latch an item of the error summary (R177). -/
def Bay.latch (b : Bay) (e : ErrItem) : Bay := { b with latched := b.latched ||| BitVec.ofNat 14 (2 ^ e.bit) }

/-! ### Resources (R118) -/

/-- The resource number of a fixture. -/
def fixtureRes (i : Fin 16) : Fin 22 := ⟨i.val, by omega⟩

/-- The resource number of a narration lane. -/
def laneRes (z : Zone) : Fin 22 := ⟨16 + z.idx.val, by omega⟩

/-- The resource number of an axis. -/
def axisRes (a : Fin 4) : Fin 22 := ⟨18 + a.val, by omega⟩

/-- What a resource number names. -/
inductive Resource
  | fixture (i : Fin 16)
  | lane (z : Fin 2)
  | axis (a : Fin 4)
deriving DecidableEq, Repr

/-- The resource of a number. -/
def resource (r : Fin 22) : Resource :=
  if h : r.val < 16 then .fixture ⟨r.val, h⟩
  else if h' : r.val < 18 then .lane ⟨r.val - 16, by omega⟩
  else .axis ⟨r.val - 18, by omega⟩

/-- Whether a claim set holds a resource. -/
def ClaimSet.has (c : ClaimSet) (r : Fin 22) : Bool :=
  match resource r with
  | .fixture i => c.fixtures.getLsbD i.val
  | .lane z => c.lanes.getLsbD z.val
  | .axis a => c.axes.getLsbD a.val

/-- The resources of a claim set in ascending number. -/
def ClaimSet.resources (c : ClaimSet) : List (Fin 22) := (List.finRange 22).filter (c.has ·)

/-- The owner of a resource (R118). -/
def Bay.owner (b : Bay) (r : Fin 22) : Option (Fin 6) := (b.claim.claim.get r).owner

/-- The resources a record holds (R101), in ascending number. -/
def Bay.owned (b : Bay) (k : Fin 6) : List (Fin 22) := (List.finRange 22).filter (fun r => b.owner r = some k)

/-- The fixtures a record holds. -/
def Bay.ownedFixtures (b : Bay) (k : Fin 6) : List (Fin 16) :=
  (List.finRange 16).filter (fun i => b.owner (fixtureRes i) = some k)

/-- The axes a record holds. -/
def Bay.ownedAxes (b : Bay) (k : Fin 6) : List (Fin 4) :=
  (List.finRange 4).filter (fun a => b.owner (axisRes a) = some k)

/-! ### The lane engine (R9 to R17) -/

/-- The present time of a time source (R10). -/
def Bay.present (b : Bay) : TimeSource → Nat
  | .node => b.time.toNat
  | .run k => (b.run k).clock

/-- The present target value (R9). `c` is the lane's component. -/
def targetValue (t : Tables) (c : Comp) : Target → Int
  | .index i => (widen ((t.palette.get (t.bank.effective i).toFin).get c) : Int)
  | .level v => (v : Int)
  | .house => (widen (t.house.get c) : Int)
  | .position p => p

/-- The elapsed time (R12). -/
def elapsed (b : Bay) (l : Lane) : Nat :=
  match l.source with
  | .node =>
    let d := timeDiff (BitVec.ofNat 32 l.startTime) b.time
    if d < 2 ^ 31 then d else 0
  | .run k => (b.run k).clock - l.startTime

/-- The lane's clock is that of a FREE record, so the lane is done (R10). -/
def sourceFree (b : Bay) (l : Lane) : Bool :=
  match l.source with
  | .node => false
  | .run k => (b.run k).state = .free

/-- Whether the lane is done (R12, R10). -/
def laneDone (b : Bay) (l : Lane) : Bool := sourceFree b l || l.duration = 0 || l.duration ≤ elapsed b l

/-- The fraction of a lane that is not done (R12). -/
def fraction (e d : Nat) : Nat := e * 65536 / d

/-- The progress a curve makes of the fraction (R13). -/
def progress : Curve → Nat → Nat
  | .linear, f => f
  | .ease, f =>
    let a := f * f / 65536
    let b := a * f / 65536
    min (3 * a - 2 * b) 65535
  | .snap, _ => 0

/-- The value between start `s` and target `t` at progress `g`, rounded toward start (R14). -/
def between (s t : Int) (g : Nat) : Int :=
  if s ≤ t then s + (t - s) * g / 65536 else s - (s - t) * g / 65536

/-- The value of a lane (R12 to R14). -/
def laneValue (t : Tables) (b : Bay) (c : Comp) (l : Lane) : Int :=
  let target := targetValue t c l.target
  if laneDone b l then target
  else between l.start target (progress l.curve (fraction (elapsed b l) l.duration))

/-- The longest duration of a lane (R7, R17). -/
def maxDuration : Nat := 600000

/-- A hold (R16) of a lane of any class but the axis class. `src` names the new time source, or none. -/
def holdLevel (t : Tables) (b : Bay) (c : Comp) (src : Option TimeSource) (l : Lane) : Lane :=
  let v := laneValue t b c l
  let s := src.getD l.source
  { start := v, target := .level v.toNat, startTime := b.present s, duration := 0, curve := l.curve, source := s }

/-- A hold (R16) of an axis move lane. -/
def holdPosition (t : Tables) (b : Bay) (src : Option TimeSource) (l : Lane) : Lane :=
  let v := laneValue t b .red l
  let s := src.getD l.source
  { start := v, target := .position v, startTime := b.present s, duration := 0, curve := l.curve, source := s }

/-- A retarget (R17). -/
def retarget (t : Tables) (b : Bay) (c : Comp) (target : Target) (duration : Nat) (curve : Curve) (src : TimeSource)
    (l : Lane) : Lane :=
  { start := laneValue t b c l, target := target, startTime := b.present src, duration := min duration maxDuration
    curve := curve, source := src }

/-! ### Notices (R166) -/

/-- Queue a notice; a fifth is dropped and latches NOTICE-OVERFLOW. -/
def Bay.notify (b : Bay) (n : Notice) : Bay :=
  if b.notices.length < 4 then { b with notices := b.notices ++ [n] } else b.latch .noticeOverflow

/-! ### Run records (R101) -/

/-- A record can fire (R101). -/
def RunRec.canFire (r : RunRec) : Bool := r.state = .running && r.gate.isNone && !r.held

/-- A record can play (R101, R56). -/
def RunRec.canPlay (r : RunRec) : Bool := r.state = .running && !r.held

/-- Step time (R104). -/
def RunRec.stepTime (r : RunRec) : Nat := r.clock - r.gateDelay

/-- The largest value of a record's clocks (R101). -/
def clockMax : Nat := 4294967295

/-- One more, stopping at the largest value (R101). -/
def tick (n : Nat) : Nat := min (n + 1) clockMax

/-- The record that carries a slot, if one does (R101). -/
def Bay.carrier (b : Bay) (slot : Fin 32) : Option (Fin 6) :=
  (List.finRange 6).find? (fun k => (b.run k).state != .free && (b.run k).slot = some slot)

/-- Set the skipped-step flag of a record's slot (R106). -/
def Bay.skip (b : Bay) (k : Fin 6) : Bay :=
  match (b.run k).slot with
  | some slot => b.updStatus slot (fun s => { s with skipped := true })
  | none => b

/-- Change a record's look memory (R35). -/
def Bay.updLook (b : Bay) (k : Fin 6) (f : Look → Look) : Bay := b.updRun k (fun r => { r with look := r.look.map f })

end Sys2Proof.Machine
end

