-- ==== Sys2Proof/Machine/Axes.lean ====
section
/-! DEFINITION. The axis unit (chapter 5), the part that reports nothing: positions, steps, quadrature, MOVE, and axes
changing hands. What it reports to the scene runner is in Reports.lean. -/

namespace Sys2Proof.Machine

/-! ### Positions and steps (R78) -/

/-- The position of an exact count: the count where it is a position (Conventions), else a free value (log 36). -/
def position (exact : Int) : Int :=
  if -8388608 ≤ exact ∧ exact ≤ 8388607 then exact else (Config.positionBeyond exact).toInt

/-- The commanded position (R77). -/
def commanded (t : Tables) (b : Bay) (a : Fin 4) : Int := laneValue t b .red (b.axisRec a).move

/-- Whether an axis is settled (R82). -/
def settled (t : Tables) (b : Bay) (a : Fin 4) : Bool :=
  match (b.axisRec a).state with
  | .moving => false
  | .held => (b.axisRec a).stepped = commanded t b a
  | .ready | .unhomed | .homing | .faulted => true

/-- Issue `n` steps (R78): pulses, direction, the stepped position, and with NONE the measured one. -/
def issue (n : Int) (t : Tables) (a : Fin 4) (b : Bay) : Bay :=
  b.updAxis a (fun x =>
    let p := position (x.stepped + n)
    { x with
      stepped := p
      measured := if (t.axis.get a).feedback = .none && p != x.stepped then p else x.measured
      pulses := n.natAbs
      direction := if 0 < n then true else if n < 0 then false else x.direction })

/-- No pulse is issued until an update issues one. -/
def noPulses (b : Bay) : Bay := each 4 (fun a b => b.updAxis a (fun x => { x with pulses := 0 })) b

/-- The place of an input pair in the cycle of R78. -/
def quadPlace : Bool → Bool → Fin 4
  | false, false => 0
  | true, false => 1
  | true, true => 2
  | false, true => 3

/-- What a change of the input pair counts (R78): one place forward 1, one place back -1, both inputs at once nothing. -/
def quadCount (oldA oldB newA newB : Bool) : Int :=
  let d := quadPlace newA newB - quadPlace oldA oldB
  if d = 1 then 1 else if d = 3 then -1 else 0

/-- Count a quadrature change (R78); with NONE the inputs are not read. -/
def countQuad (n : Int) (a : Fin 4) (t : Tables) (b : Bay) : Bay :=
  if (t.axis.get a).feedback = .encoder then b.updAxis a (fun x => { x with measured := position (x.measured + n) })
  else b

/-! ### The parts of a motion update that report nothing (R80) -/

/-- A number set into a range. -/
def clampTo (lo hi x : Int) : Int := max lo (min hi x)

/-- Part 2 of a motion update toward `c`. -/
def stepToward (c : Int) (t : Tables) (a : Fin 4) (b : Bay) : Bay :=
  let x := b.axisRec a
  let r : Int := (t.axis.get a).rate.val
  if x.state = .ready || x.state = .moving then issue (clampTo (-r) r (c - x.stepped)) t a b else b

/-- The stall test (R81). -/
def stalled (t : Tables) (b : Bay) (a : Fin 4) : Bool :=
  let x := b.axisRec a
  let cfg := t.axis.get a
  cfg.feedback = .encoder && cfg.stallLimit.toNat < (x.stepped - x.measured).natAbs

/-- Part 4 of a motion update. -/
def arrive (c : Int) (a : Fin 4) (b : Bay) : Bay :=
  let x := b.axisRec a
  if x.state = .moving && laneDone b x.move && x.stepped = c then b.updAxis a (fun x => { x with state := .ready })
  else b

/-! ### MOVE (R83) -/

/-- Quotient rounded toward plus infinity. -/
def ceilDiv (n d : Nat) : Nat := (n + d - 1) / d

/-- The least duration of a move over a distance at a rate limit. -/
def leastDuration : Curve → Nat → Nat → Nat
  | .linear, dist, r => ceilDiv dist r
  | .ease, dist, r => ceilDiv (3 * dist) (2 * r)
  | .snap, _, _ => 0

/-- A target set into the soft limits of an axis. -/
def AxisCfg.clamp (c : AxisCfg) (x : Int) : Int := clampTo c.softMin.toInt c.softMax.toInt x

/-- Change a record's look memory of an axis (R83). -/
def Bay.setAxisLook (b : Bay) (k : Fin 6) (a : Fin 4) (target : Int) : Bay :=
  b.updLook k (fun l => { l with axis := l.axis.set a (some target) })

/-- A MOVE step of record `k` that reaches the axis unit (R83). -/
def moveStep (k : Fin 6) (a : Fin 4) (target : Int) (travel : Nat) (curve : Curve) (t : Tables) (b : Bay) : Bay :=
  let x := b.axisRec a
  if x.state = .ready || x.state = .moving then
    let cfg := t.axis.get a
    let goal := cfg.clamp target
    let least := leastDuration curve (goal - commanded t b a).natAbs cfg.rate.val
    let lane := retarget t b .red (.position goal) (max travel least) curve (.run k) x.move
    (b.updAxis a (fun x => { x with move := lane, state := .moving })).setAxisLook k a goal
  else b.skip k

/-! ### Axes changing hands (R94, R96) -/

/-- Hold the move lane of an axis on a time source (R16). -/
def holdAxis (src : Option TimeSource) (t : Tables) (a : Fin 4) (b : Bay) : Bay :=
  b.updAxis a (fun x => { x with move := holdPosition t b src x.move })

/-- An axis given to record `k`, at its admission or while it is SUSPENDED (R94). -/
def giveAxis (k : Fin 6) : Tables → Fin 4 → Bay → Bay := holdAxis (some (.run k))

/-- An axis of a record that resumes (R94). -/
def resumeAxis (k : Fin 6) (t : Tables) (a : Fin 4) (b : Bay) : Bay :=
  let x := b.axisRec a
  if x.state = .ready || x.state = .moving || x.state = .held then
    match ((b.run k).look.map (fun l => l.axis.get a)).join with
    | none => giveAxis k t a b
    | some target =>
      let cfg := t.axis.get a
      let goal := cfg.clamp target
      let duration := ceilDiv (goal - commanded t b a).natAbs cfg.resumeRate.val
      let lane := retarget t b .red (.position goal) duration .linear (.run k) x.move
      b.updAxis a (fun x => { x with move := lane, state := if x.state = .ready then .moving else x.state })
  else b

/-- An axis of a record that ends (R96). -/
def endAxis : Tables → Fin 4 → Bay → Bay := holdAxis (some .node)

/-- An axis of a record that restarts (R96). -/
def restartAxis (k : Fin 6) : Tables → Fin 4 → Bay → Bay := holdAxis (some (.run k))

/-! ### Writes to AXIS (R79) and CLEAR-FAULT (R88) -/

/-- What a written configuration does to the axis: feedback that becomes NONE sets the measured position. -/
def axisWritten (old : AxisCfg) (new : AxisCfg) (a : Fin 4) (b : Bay) : Bay :=
  if new.feedback = .none && old.feedback != .none then b.updAxis a (fun x => { x with measured := x.stepped }) else b

/-- The value of a POSITION target. -/
def Target.pos : Target → Int
  | .position p => p
  | _ => 0

/-- The soft limits of a written configuration hold the axis's stepped position and both ends of its lane (R79). -/
def axisFits (new : AxisCfg) (x : Axis) : Bool :=
  let inside := fun p : Int => decide (new.softMin.toInt ≤ p) && decide (p ≤ new.softMax.toInt)
  if x.state = .ready || x.state = .moving || x.state = .held then
    inside x.stepped && inside x.move.start && inside x.move.target.pos
  else true

/-- CLEAR-FAULT (R88). -/
def clearAxisFault (a : Fin 4) (b : Bay) : Bay :=
  if (b.axisRec a).state = .faulted then b.updAxis a (fun x => { x with state := .unhomed, fault := .none }) else b

/-- Whether any axis is FAULTED: the AXIS-FAULT item is live (R81, R177). -/
def anyFaulted (b : Bay) : Bool := (List.finRange 4).any (fun a => (b.axisRec a).state = .faulted)

/-- An axis takes the captured values of a configuration (R77, R84). -/
def captureHoming (c : AxisCfg) (x : Axis) : Axis :=
  { x with capDir := c.homeDir, capRate := c.homeRate.val, capTravel := c.homeTravel.toNat }

/-- The sign of a step toward home. -/
def HomeDir.sign : HomeDir → Int
  | .negative => -1
  | .positive => 1

end Sys2Proof.Machine
end

