-- ==== Sys2Proof/Machine/Codec.lean ====
section
/-! DEFINITION. How fields are carried (R173): a codec is a field's width in bytes, its bytes, and the reading of them,
which answers nothing when the bytes are too few or the value lies outside its range. -/

namespace Sys2Proof.Machine

/-- How values of a type are carried. -/
structure Codec (α : Type) where
  size : Nat
  enc : α → List Byte
  dec : List Byte → Option (α × List Byte)

/-! ### Numbers -/

/-- The `n` low bytes of a number, most significant first. -/
def bytesOf : Nat → Nat → List Byte
  | 0, _ => []
  | n + 1, x => bytesOf n (x / 256) ++ [BitVec.ofNat 8 x]

/-- The number that bytes spell, most significant first. -/
def numberOf (l : List Byte) : Nat := l.foldl (fun x b => x * 256 + b.toNat) 0

/-- The first `n` bytes, and the rest. -/
def splitBytes (n : Nat) (l : List Byte) : Option (List Byte × List Byte) :=
  if n ≤ l.length then some (l.take n, l.drop n) else none

/-- A number of `n` bytes. -/
def Codec.number (n : Nat) : Codec Nat where
  size := n
  enc x := bytesOf n x
  dec l := (splitBytes n l).map (fun p => (numberOf p.1, p.2))

/-- Values that another codec carries, those that `mk` accepts. -/
def Codec.via {α β : Type} (c : Codec α) (of : β → α) (mk : α → Option β) : Codec β where
  size := c.size
  enc x := c.enc (of x)
  dec l := (c.dec l).bind (fun p => (mk p.1).map (fun x => (x, p.2)))

/-- The number as a value below `n`. -/
def toFin (n : Nat) (x : Nat) : Option (Fin n) := if h : x < n then some ⟨x, h⟩ else none

/-- A number from 0 to `n - 1` in `w` bytes. -/
def Codec.fin (w n : Nat) : Codec (Fin n) := (Codec.number w).via (·.val) (toFin n)

/-- The number as a word of `n` bits. -/
def toBits (n : Nat) (x : Nat) : Option (BitVec n) := if x < 2 ^ n then some (BitVec.ofNat n x) else none

/-- A word of `n` bits in `w` bytes: a number, a set as its mask, or two's complement. -/
def Codec.bits (w n : Nat) : Codec (BitVec n) := (Codec.number w).via (·.toNat) (toBits n)

/-- A field of two values, the first 0. -/
def Codec.bool : Codec Bool :=
  (Codec.number 1).via (fun b => if b then 1 else 0) (fun x => if x = 0 then some false else if x = 1 then some true else none)

/-- A field whose values are named words: the place of the word in the list of values. -/
def Codec.word {α : Type} [DecidableEq α] (values : List α) : Codec α :=
  (Codec.number 1).via (fun x => values.idxOf x) (fun n => values[n]?)

/-! ### Composition -/

/-- One field after another. -/
def Codec.pair {α β : Type} (c : Codec α) (d : Codec β) : Codec (α × β) where
  size := c.size + d.size
  enc x := c.enc x.1 ++ d.enc x.2
  dec l := (c.dec l).bind (fun p => (d.dec p.2).map (fun q => ((p.1, q.1), q.2)))

/-- Bytes of 0. -/
def zeros (n : Nat) : List Byte := List.replicate n 0

/-- A field that may hold a word in place of a value: a leading byte, then the value's bytes, 0 for the word. What stands
under a leading byte 0 is disregarded (log 17). -/
def Codec.opt {α : Type} (c : Codec α) : Codec (Option α) where
  size := 1 + c.size
  enc x := match x with
    | none => 0 :: zeros c.size
    | some v => 1 :: c.enc v
  dec l := match l with
    | [] => none
    | b :: rest =>
      if b = 0 then (splitBytes c.size rest).map (fun p => (none, p.2))
      else if b = 1 then (c.dec rest).map (fun p => (some p.1, p.2))
      else none

/-- A field followed by bytes of 0 to make up `n` bytes; a reading disregards what they hold (log 17). -/
def Codec.padTo {α : Type} (n : Nat) (c : Codec α) : Codec α where
  size := n
  enc x := c.enc x ++ zeros (n - c.size)
  dec l := (c.dec l).bind (fun p => (splitBytes (n - c.size) p.2).map (fun q => (p.1, q.2)))

/-- A value that a check must accept. -/
def Codec.check {α : Type} (c : Codec α) (p : α → Bool) : Codec α := c.via id (fun x => if p x then some x else none)

/-- `n` entries in entry order. -/
def decEntries {α : Type} (c : Codec α) : (n : Nat) → List Byte → Option (Tab α n × List Byte)
  | 0, l => some (⟨[], rfl⟩, l)
  | n + 1, l =>
    (c.dec l).bind (fun p => (decEntries c n p.2).map (fun q =>
      (⟨p.1 :: q.1.list, congrArg Nat.succ q.1.len⟩, q.2)))

/-- A table of `n` entries. -/
def Codec.tab {α : Type} (n : Nat) (c : Codec α) : Codec (Tab α n) where
  size := n * c.size
  enc t := t.list.flatMap c.enc
  dec := decEntries c n

/-- One or more whole entries that run to the end of a list of bytes (R175). -/
def wholeEntries {α : Type} (c : Codec α) : Nat → List Byte → Option (List α)
  | 0, l => if l = [] then some [] else none
  | n + 1, l =>
    if l = [] then some []
    else (c.dec l).bind (fun p => (wholeEntries c n p.2).map (p.1 :: ·))

/-- The value that a list of bytes carries whole: no byte is missing and none is left. -/
def Codec.whole {α : Type} (c : Codec α) (l : List Byte) : Option α :=
  (c.dec l).bind (fun p => if p.2 = [] then some p.1 else none)

end Sys2Proof.Machine
end

