-- ==== Sys2Proof/Machine/Tables.lean ====
section
/-! DEFINITION. The entries of the working tables as they are carried on the line and in the image (R173), and the image
(R186). -/

namespace Sys2Proof.Machine

/-! ### Small fields -/

/-- A colour: red, green, blue, white (R18). -/
def colourC : Codec Colour :=
  (((Codec.bits 1 8).pair (Codec.bits 1 8)).pair ((Codec.bits 1 8).pair (Codec.bits 1 8))).via
    (fun q => ((q.red, q.green), (q.blue, q.white))) (fun p => some ⟨p.1.1, p.1.2, p.2.1, p.2.2⟩)

/-- A curve (R7). -/
def curveC : Codec Curve := Codec.word [.linear, .ease, .snap]

/-- A zone (R50). -/
def zoneIdC : Codec Zone := Codec.word [.a, .b]

/-- A lane kind (R43). -/
def laneKindC : Codec LaneKind := Codec.word [.narration, .ambient]

/-- A mode (R150). -/
def modeC : Codec Mode := Codec.word [.showMode, .darkMode]

/-- An edge (R182). -/
def edgeC : Codec Edge := Codec.word [.low, .high]

/-- A claim set: fixtures, narration lanes, axes (R173). -/
def claimSetC : Codec ClaimSet :=
  ((Codec.bits 2 16).pair ((Codec.bits 1 2).pair (Codec.bits 1 4))).via
    (fun s => (s.fixtures, s.lanes, s.axes)) (fun p => some ⟨p.1, p.2.1, p.2.2⟩)

/-! ### Entries of the working tables -/

/-- CONFIG (R176). -/
def configC : Codec NodeConfig :=
  ((Codec.fin 1 251).pair ((Codec.fin 2 5001).pair modeC)).via
    (fun c => (c.number, c.resumeGuard, c.startMode)) (fun p => some ⟨p.1, p.2.1, p.2.2⟩)

/-- The protect record (R182). -/
def protectC : Codec Protect :=
  ((edgeC.pair (Codec.fin 1 33)).pair ((edgeC.pair (Codec.bits 1 8)).pair
      (Codec.bool.pair (Codec.word [ProtectMode.opened, .keyed])))).via
    (fun r => ((r.sceneEdge, r.sceneCount), (r.clipEdge, r.clipCount), r.complement, r.mode))
    (fun p => some ⟨p.1.1, p.1.2, p.2.1.1, p.2.1.2, p.2.2.1, p.2.2.2⟩)

/-- BANK (R20). -/
def bankC : Codec Bank :=
  ((Codec.bits 1 8).pair (Codec.bits 1 8)).via (fun k => (k.mask, k.base)) (fun p => some ⟨p.1, p.2⟩)

/-- FIXTURE (R23). -/
def fixtureC : Codec FixtureCfg :=
  ((Codec.word [FixtureMode.scene, .line, .highest]).pair (Codec.word [Dimming.linear, .square])).via
    (fun f => (f.mode, f.dimming)) (fun p => some ⟨p.1, p.2⟩)

/-- PATCH (R25). -/
def patchC : Codec (Option Patch) :=
  (((Codec.fin 1 16).pair (Codec.fin 2 512)).via (fun x : Patch => (x.univ, x.channel)) (fun p => some ⟨p.1, p.2⟩)).opt

/-- The checks of a CLIP entry with valid yes (R42). -/
def Clip.fits (c : Clip) : Bool :=
  !c.valid || (c.firstPage.toNat ≤ 65279 && 1 ≤ c.count.toNat && c.count.toNat ≤ 8355840 &&
    c.firstPage.toNat + (c.count.toNat + 127) / 128 - 1 ≤ 65279)

/-- CLIP (R42). -/
def clipC : Codec Clip :=
  ((Codec.bool.pair (Codec.bits 2 16)).pair ((Codec.bits 3 24).pair (Codec.bits 2 16))).via
    (fun c => ((c.valid, c.firstPage), c.count, c.gain))
    (fun p => let c : Clip := ⟨p.1.1, p.1.2, p.2.1, p.2.2⟩; if c.fits then some c else none)

/-- ZONE (R50). -/
def zoneC : Codec ZoneCfg :=
  ((Codec.fin 2 257).pair ((Codec.bits 2 16).pair (Codec.fin 2 60001))).via
    (fun z => (z.volume, z.duckDepth, z.duckFade)) (fun p => some ⟨p.1, p.2.1, p.2.2⟩)

/-- The ranges of R76 that the types of an AXIS entry do not give. -/
def AxisCfg.fits (c : AxisCfg) : Bool :=
  c.softMin.toInt ≤ 0 && 0 ≤ c.softMax.toInt && c.rate != 0 && c.resumeRate != 0 && c.homeRate != 0

/-- AXIS (R76). -/
def axisC : Codec AxisCfg :=
  ((((Codec.bits 3 24).pair (Codec.bits 3 24)).pair ((Codec.fin 1 51).pair (Codec.fin 1 51))).pair
    (((Codec.word [Feedback.none, .encoder]).pair (Codec.bits 2 16)).pair
      (((Codec.word [HomeDir.negative, .positive]).pair (Codec.fin 1 51)).pair ((Codec.bits 3 24).pair Codec.bool)))).via
    (fun c => (((c.softMin, c.softMax), c.rate, c.resumeRate), (c.feedback, c.stallLimit), (c.homeDir, c.homeRate),
      c.homeTravel, c.homeAtStart))
    (fun p =>
      let c : AxisCfg := ⟨p.1.1.1, p.1.1.2, p.1.2.1, p.1.2.2, p.2.1.1, p.2.1.2, p.2.2.1.1, p.2.2.1.2, p.2.2.2.1, p.2.2.2.2⟩
      if c.fits then some c else none)

/-- PROXIMITY (R89). -/
def proxC : Codec ProxCfg :=
  ((Codec.bits 1 4).pair (Codec.fin 2 10001)).via (fun x => (x.axes, x.clearDelay)) (fun p => some ⟨p.1, p.2⟩)

/-- The ranges of R98 that the types of a header do not give. -/
def Header.fits (h : Header) : Bool := h.priority != 0 && h.firstStep.val + h.stepCount.toNat ≤ 1024

/-- SCENE (R98). -/
def sceneC : Codec Header :=
  ((((Codec.bool.pair (Codec.fin 1 16)).pair ((Codec.fin 2 1024).pair (Codec.bits 1 8))).pair
    ((Codec.fin 3 3600001).pair claimSetC)).pair
    ((((Codec.word [Retrigger.ignore, .restart]).pair (Codec.word [WaitPolicy.queue, .discard])).pair
      ((Codec.fin 2 601).pair (Codec.fin 3 600001))).pair
      ((Codec.fin 2 60001).pair ((Codec.fin 2 60001).pair (Codec.fin 2 30001))))).via
    (fun h => ((((h.enabled, h.priority), h.firstStep, h.stepCount), h.duration, h.claims),
      ((h.retrigger, h.wait), h.waitLimit, h.holdLimit), h.releaseFade, h.resumeFade, h.rewind))
    (fun p =>
      let h : Header := ⟨p.1.1.1.1, p.1.1.1.2, p.1.1.2.1, p.1.1.2.2, p.1.2.1, p.1.2.2, p.2.1.1.1, p.2.1.1.2, p.2.1.2.1,
        p.2.1.2.2, p.2.2.1, p.2.2.2.1, p.2.2.2.2⟩
      if h.fits then some h else none)

/-- TRIGGER, as it is written and saved (R136). -/
def triggerC : Codec TriggerCfg :=
  ((Codec.bool.pair (Codec.fin 1 32).opt).pair
    ((Codec.word [Polarity.activeLow, .activeHigh]).pair ((Codec.fin 2 601).pair Codec.bool))).via
    (fun c => ((c.enabled, c.slot), c.polarity, c.lockout, c.broadcast))
    (fun p => some ⟨p.1.1, p.1.2, p.2.1, p.2.2.1, p.2.2.2⟩)

/-- A notice kind (R144). -/
def noticeKindC : Codec NoticeKind := Codec.word [.trigger, .signal]

/-- The ranges of R144 that the types of an entry do not give. -/
def Remote.fits (r : Remote) : Bool := r.origin != 0 && (r.kind = .signal || r.number.toNat ≤ 11)

/-- REMOTE (R144). -/
def remoteC : Codec (Option Remote) :=
  ((((Codec.fin 1 251).pair noticeKindC).pair ((Codec.bits 1 8).pair (Codec.fin 1 32))).via
    (fun r : Remote => ((r.origin, r.kind), r.number, r.slot))
    (fun p => let r : Remote := ⟨p.1.1, p.1.2, p.2.1, p.2.2⟩; if r.fits then some r else none)).opt

/-- CUE (R145). -/
def cueC : Codec (Option CueMap) :=
  (((Codec.bits 2 16).pair (Codec.fin 1 32)).via (fun c : CueMap => (c.cue, c.slot))
    (fun p => if p.1 = 0 then none else some ⟨p.1, p.2⟩)).opt

/-! ### STEP (R100, R173) -/

/-- A time of 0 to 600,000 ms. -/
def fadeC : Codec (Fin 600001) := Codec.fin 3 600001

/-- COLOUR. -/
def stepColourC : Codec (BitVec 16 × Byte × Fin 600001 × Curve) :=
  (Codec.bits 2 16).pair ((Codec.bits 1 8).pair (fadeC.pair curveC))

/-- COLOUR-DIRECT. -/
def stepDirectC : Codec (BitVec 16 × Colour × Fin 600001 × Curve) :=
  (Codec.bits 2 16).pair (colourC.pair (fadeC.pair curveC))

/-- INTENSITY. -/
def stepIntensityC : Codec (BitVec 16 × Byte) := (Codec.bits 2 16).pair (Codec.bits 1 8)

/-- HIGHLIGHT. -/
def stepHighlightC : Codec (BitVec 16 × Fin 4) := (Codec.bits 2 16).pair (Codec.fin 1 4)

/-- PLAY. -/
def stepPlayC : Codec ((Fin 128 × Zone × LaneKind) × Option (BitVec 16) × Fin 600001 × Bool) :=
  ((Codec.fin 1 128).pair (zoneIdC.pair laneKindC)).pair ((Codec.bits 2 16).opt.pair (fadeC.pair Codec.bool))

/-- VOICE-FADE. -/
def stepVoiceFadeC : Codec ((Zone × LaneKind) × BitVec 16 × Fin 600001 × Bool) :=
  (zoneIdC.pair laneKindC).pair ((Codec.bits 2 16).pair (fadeC.pair Codec.bool))

/-- MOVE. -/
def stepMoveC : Codec ((Fin 4 × BitVec 24) × Fin 600001 × Curve) :=
  ((Codec.fin 1 4).pair (Codec.bits 3 24)).pair (fadeC.pair curveC)

/-- WAIT-AXIS. -/
def stepWaitC : Codec (BitVec 4 × Fin 600001) := (Codec.bits 1 4).pair fadeC

/-- The width of a step's kind and fields. -/
def stepActSize : Nat := 11

/-- A step's kind byte and fields, without the bytes of 0. -/
def StepAct.fields : StepAct → List Byte
  | .colour s i f c => 0 :: stepColourC.enc (s, i, f, c)
  | .colourDirect s l f c => 1 :: stepDirectC.enc (s, l, f, c)
  | .intensity s v => 2 :: stepIntensityC.enc (s, v)
  | .highlight s c => 3 :: stepHighlightC.enc (s, c)
  | .play c z k g f l => 4 :: stepPlayC.enc ((c, z, k), g, f, l)
  | .voiceFade z k g f s => 5 :: stepVoiceFadeC.enc ((z, k), g, f, s)
  | .move a p f c => 6 :: stepMoveC.enc ((a, p), f, c)
  | .waitAxis a l => 7 :: stepWaitC.enc (a, l)
  | .signal c => 8 :: (Codec.bits 1 8).enc c
  | .start s => 9 :: (Codec.fin 1 32).enc s

/-- The step that a kind byte and the bytes after it spell. -/
def stepActOf (kind : Byte) (l : List Byte) : Option (StepAct) :=
  match kind.toNat with
  | 0 => (stepColourC.dec l).map (fun p => .colour p.1.1 p.1.2.1 p.1.2.2.1 p.1.2.2.2)
  | 1 => (stepDirectC.dec l).map (fun p => .colourDirect p.1.1 p.1.2.1 p.1.2.2.1 p.1.2.2.2)
  | 2 => (stepIntensityC.dec l).map (fun p => .intensity p.1.1 p.1.2)
  | 3 => (stepHighlightC.dec l).map (fun p => .highlight p.1.1 p.1.2)
  | 4 => (stepPlayC.dec l).map (fun p =>
      .play p.1.1.1 p.1.1.2.1 p.1.1.2.2 p.1.2.1 p.1.2.2.1 p.1.2.2.2)
  | 5 => (stepVoiceFadeC.dec l).map (fun p => .voiceFade p.1.1.1 p.1.1.2 p.1.2.1 p.1.2.2.1 p.1.2.2.2)
  | 6 => (stepMoveC.dec l).map (fun p => .move p.1.1.1 p.1.1.2 p.1.2.1 p.1.2.2)
  | 7 => (stepWaitC.dec l).map (fun p => .waitAxis p.1.1 p.1.2)
  | 8 => ((Codec.bits 1 8).dec l).map (fun p => .signal p.1)
  | 9 => ((Codec.fin 1 32).dec l).map (fun p => .start p.1)
  | _ => none

/-- A step's kind and fields in 11 bytes (R173). A write's bytes after the fields of its kind are disregarded (log 17). -/
def stepActC : Codec StepAct where
  size := stepActSize
  enc x := x.fields ++ zeros (stepActSize - x.fields.length)
  dec l := (splitBytes stepActSize l).bind (fun p =>
    match p.1 with
    | [] => none
    | kind :: fields => (stepActOf kind fields).map (fun x => (x, p.2)))

/-- STEP: 14 bytes (R173). -/
def stepC : Codec SceneStep :=
  ((Codec.fin 3 3600000).pair stepActC).via (fun s => (s.offset, s.act)) (fun p => some ⟨p.1, p.2⟩)

/-! ### The image (R186) -/

/-- The entries of the image body, in its order. -/
def Tables.body (t : Tables) : List Byte :=
  configC.enc t.config ++ (protectC.enc t.protect ++ (bankC.enc t.bank ++ (colourC.enc t.house ++
  ((colourC.tab 3).enc t.highlight ++ ((zoneC.tab 2).enc t.zone ++ ((fixtureC.tab 16).enc t.fixture ++
  ((proxC.tab 4).enc t.prox ++ ((axisC.tab 4).enc t.axis ++ ((triggerC.tab 12).enc t.trigger ++
  ((remoteC.tab 16).enc t.remote ++ ((cueC.tab 64).enc t.cue ++ ((patchC.tab 64).enc t.patch ++
  ((colourC.tab 256).enc t.palette ++ ((clipC.tab 128).enc t.clip ++ ((sceneC.tab 32).enc t.scene ++
  (stepC.tab 1024).enc t.step)))))))))))))))

/-- The tables that an image body holds. -/
def tablesOf (l : List Byte) : Option (Tables × List Byte) := do
  let (config, l) ← configC.dec l
  let (protect, l) ← protectC.dec l
  let (bank, l) ← bankC.dec l
  let (house, l) ← colourC.dec l
  let (highlight, l) ← (colourC.tab 3).dec l
  let (zone, l) ← (zoneC.tab 2).dec l
  let (fixture, l) ← (fixtureC.tab 16).dec l
  let (prox, l) ← (proxC.tab 4).dec l
  let (axis, l) ← (axisC.tab 4).dec l
  let (trigger, l) ← (triggerC.tab 12).dec l
  let (remote, l) ← (remoteC.tab 16).dec l
  let (cue, l) ← (cueC.tab 64).dec l
  let (patch, l) ← (patchC.tab 64).dec l
  let (palette, l) ← (colourC.tab 256).dec l
  let (clip, l) ← (clipC.tab 128).dec l
  let (scene, l) ← (sceneC.tab 32).dec l
  let (step, l) ← (stepC.tab 1024).dec l
  return ({ config, protect, bank, house, highlight, zone, fixture, prox, axis, trigger, remote, cue, patch, palette, clip
            scene, step }, l)

/-- The number of body pages, and of body bytes (R186). -/
def bodyPages : Nat := 80

/-- The bytes of the body pages. -/
def bodyBytes : Nat := 20480

/-- The body as its 80 pages hold it: 0xFF after the last entry. -/
def Tables.image (t : Tables) : List Byte := t.body ++ List.replicate (bodyBytes - t.body.length) 0xFF

/-- Body page `i`, counted from the first. -/
def Tables.page (t : Tables) (i : Nat) : List Byte := (t.image.drop (i * 256)).take 256

/-! ### Checks (R155) -/

/-- One bit of a CRC of `n` bits with polynomial `poly`. -/
def crcBit {n : Nat} (poly : BitVec n) (crc : BitVec n) : BitVec n :=
  if crc.msb then (crc <<< 1) ^^^ poly else crc <<< 1

/-- One byte of a CRC-16, taken most significant bit first. -/
def crc16Byte (crc : BitVec 16) (b : Byte) : BitVec 16 :=
  let c := crc ^^^ (b.zeroExtend 16 <<< 8)
  crcBit 0x1021 (crcBit 0x1021 (crcBit 0x1021 (crcBit 0x1021 (crcBit 0x1021 (crcBit 0x1021 (crcBit 0x1021 (crcBit 0x1021 c)))))))

/-- The CRC-16 of the body of a frame and of the image body (R155, R186), from a value reached so far. -/
def crc16From (crc : BitVec 16) (l : List Byte) : BitVec 16 := l.foldl crc16Byte crc

/-- The CRC-16 (R155). -/
def crc16 (l : List Byte) : BitVec 16 := crc16From 0xFFFF l

/-- One byte of a CRC-8, taken most significant bit first. -/
def crc8Byte (crc : BitVec 8) (b : Byte) : BitVec 8 :=
  let c := crc ^^^ b
  crcBit 0x07 (crcBit 0x07 (crcBit 0x07 (crcBit 0x07 (crcBit 0x07 (crcBit 0x07 (crcBit 0x07 (crcBit 0x07 c)))))))

/-- The header check (R154). -/
def crc8 (l : List Byte) : BitVec 8 := l.foldl crc8Byte 0

/-! ### The trailer and the test of the image (R186) -/

/-- The image identity. -/
def imageIdentity : List Byte := [0x5A, 0x4E, 0x31, 0x36]

/-- The trailer page for an image CRC. -/
def trailerPage (crc : BitVec 16) : List Byte :=
  imageIdentity ++ [80] ++ bytesOf 2 crc.toNat ++ List.replicate 249 0xFF

/-- The image is valid: identity, page count and CRC (R186). -/
def imageValid (trailer body : List Byte) : Bool :=
  trailer.take 4 = imageIdentity && trailer[4]? = some 80 && numberOf ((trailer.drop 5).take 2) = (crc16 body).toNat

/-- The tables of the image, if it is valid. A valid image that spells no tables counts as invalid (log 16). -/
def imageTables (trailer body : List Byte) : Option Tables :=
  if imageValid trailer body then (tablesOf body).map (·.1) else none

end Sys2Proof.Machine
end

