-- ==== Sys2Proof/Machine/Voices.lean ====
section
/-! DEFINITION. The voice unit (chapter 3): voices, their FIFOs, PLAY and VOICE-FADE steps, ducking, the zone mix, and
voices following their record. -/

namespace Sys2Proof.Machine

/-! ### Reading a voice -/

/-- A voice of the given record, zone and lane kind in PRIMING or PLAYING (R48, R49). -/
def Voice.plays (x : Voice) (k : Fin 6) (z : Zone) (kind : LaneKind) : Bool :=
  x.owner = some k && x.zone = z && x.kind = kind && (x.state = .priming || x.state = .playing)

/-- A voice that sounds (R46). -/
def Voice.sounds (x : Voice) : Bool := x.state = .playing || x.state = .stopping

/-- A voice wants a refill (R44). -/
def Voice.wants (x : Voice) : Bool :=
  (x.state = .priming || x.state = .playing || x.state = .stopping) && x.refill.isNone &&
    x.fifo.length + 128 ≤ 512 && (x.fetchPos < x.count || x.loop)

/-- A voice is urgent (R44, R64). -/
def Voice.urgent (x : Voice) : Bool := x.wants && x.fifo.length < 128

/-- The count of the next refill (R44). -/
def Voice.refillCount (x : Voice) : Nat := min 128 (x.count - x.fetchPos)

/-- A looping voice whose fetch position has come to its sample count sets it to 0, before it wants a refill again (R44). A
refill's completion alone brings it there, so it does so in that action (log 13). -/
def Voice.wrapFetch (x : Voice) : Voice := if x.loop && x.fetchPos = x.count then { x with fetchPos := 0 } else x

/-! ### States of a voice -/

/-- A voice enters IDLE (R43). -/
def voiceIdle (v : Fin 6) (b : Bay) : Bay :=
  let b := b.updVoice v (fun x => { x with state := .idle, fifo := [], refill := none, owner := none, underrun := false })
  { b with voice := { b.voice with startList := b.voice.startList.filter (· != v) } }

/-- A voice goes to STOPPING (R49): no owner, its gain fading on NODE time. -/
def voiceStop (gain fade : Nat) (t : Tables) (v : Fin 6) (b : Bay) : Bay :=
  b.updVoice v (fun x => { x with
    state := .stopping, owner := none, gain := retarget t b .red (.level gain) fade .linear .node x.gain })

/-- A voice pauses (R56): its refill in flight is cancelled, its underrun flag cleared. -/
def voicePause (v : Fin 6) (b : Bay) : Bay :=
  b.updVoice v (fun x => { x with state := .paused, refill := none, underrun := false })

/-- A PAUSED voice resumes (R57): a narration steps back, the FIFO is flushed, the voice primes. -/
def voiceResume (rewind : Nat) (v : Fin 6) (b : Bay) : Bay :=
  b.updVoice v (fun x =>
    let pos := if x.kind = .narration then x.readPos - rewind * 16 else x.readPos
    { x with state := .priming, readPos := pos, fetchPos := pos, fifo := [], refill := none })

/-- Do `f` to each voice a record owns that is in a state `p` picks. -/
def eachOwnedVoice (k : Fin 6) (p : VoiceState → Bool) (f : Fin 6 → Bay → Bay) (b : Bay) : Bay :=
  each 6 (fun v b => if (b.voiceRec v).owner = some k && p (b.voiceRec v).state then f v b else b) b

/-- The voice is in PRIMING or PLAYING. -/
def VoiceState.active (s : VoiceState) : Bool := s = .priming || s = .playing

/-- Record `k` can no longer play (R56). -/
def pauseVoices (k : Fin 6) (b : Bay) : Bay := eachOwnedVoice k VoiceState.active voicePause b

/-- Record `k` can play again (R57), with the narration rewind of its snapshot. -/
def resumeVoices (k : Fin 6) (b : Bay) : Bay :=
  let rewind := ((b.run k).snap.map (·.rewind)).getD 0
  eachOwnedVoice k (· = .paused) (voiceResume rewind) b

/-- Record `k` ends (R58): its voices fade out over `fade`, or fall silent if PAUSED. -/
def endVoices (k : Fin 6) (fade : Nat) (t : Tables) (b : Bay) : Bay :=
  eachOwnedVoice k (· = .paused) voiceIdle (eachOwnedVoice k VoiceState.active (voiceStop 0 fade t) b)

/-- Record `k` restarts (R59): every voice it owns becomes IDLE. -/
def idleVoices (k : Fin 6) (b : Bay) : Bay := eachOwnedVoice k (fun _ => true) voiceIdle b

/-! ### Ducking (R52) -/

/-- The duck target of a zone. -/
def duckTarget (t : Tables) (b : Bay) (z : Zone) : Nat :=
  if (List.finRange 6).any (fun v =>
      let x := b.voiceRec v
      x.kind = .narration && x.zone = z && x.state.active)
  then (t.zone.get z.idx).duckDepth.toNat else 65535

/-- Examine the duck target of one zone. -/
def duckZone (t : Tables) (z : Zone) (b : Bay) : Bay :=
  let target := duckTarget t b z
  if (b.voice.zone.get z.idx).duck.target = .level target then b
  else b.updZone z.idx (fun y => { y with
    duck := retarget t b .red (.level target) (t.zone.get z.idx).duckFade.val .linear .node y.duck })

/-- The voice unit examines the duck targets of both zones, at the end of an action. -/
def duckExamine (t : Tables) (b : Bay) : Bay := duckZone t .b (duckZone t .a b)

/-! ### PLAY and VOICE-FADE (R47 to R49) -/

/-- The lowest-numbered voice in IDLE. -/
def idleVoice (b : Bay) : Option (Fin 6) := (List.finRange 6).find? (fun v => (b.voiceRec v).state = .idle)

/-- The oldest ambient voice that may be stolen (R47). -/
def stealable (b : Bay) : Option (Fin 6) :=
  b.voice.startList.find? (fun v =>
    let x := b.voiceRec v
    x.kind = .ambient && (x.state = .priming || x.state = .playing || x.state = .stopping))

/-- Allocate a voice (R47): an IDLE one, else a stolen one, which stops at once. -/
def allocate (b : Bay) : Option (Fin 6 × Bay) :=
  match idleVoice b with
  | some v => some (v, b)
  | none => (stealable b).map (fun v => (v, voiceIdle v b))

/-- The record's own narration in the zone gives way to a new one (R48 part 1). -/
def replaceNarration (k : Fin 6) (z : Zone) (t : Tables) (b : Bay) : Bay :=
  match (List.finRange 6).find? (fun v => (b.voiceRec v).plays k z .narration) with
  | some v => voiceStop 0 50 t v b
  | none => b

/-- Set up an allocated voice (R48). -/
def setUpVoice (v k : Fin 6) (clip : Fin 128) (z : Zone) (kind : LaneKind) (gain : Option (BitVec 16)) (fadeIn : Nat)
    (loop : Bool) (t : Tables) (b : Bay) : Bay :=
  let e := t.clip.get clip
  let b := match kind with
    | .narration => replaceNarration k z t b
    | .ambient => b
  let b := b.updVoice v (fun x => { x with
    state := .priming, clip := clip, zone := z, kind := kind, loop := loop
    firstPage := e.firstPage.toNat, count := e.count.toNat, owner := some k
    readPos := 0, fetchPos := 0, fifo := [], refill := none, underrun := false })
  let b := { b with voice := { b.voice with startList := b.voice.startList ++ [v] } }
  let b := b.updVoice v (fun x => { x with gain := retarget t b .red (.level 0) 0 .linear (.run k) x.gain })
  b.updVoice v (fun x => { x with
    gain := retarget t b .red (.level (gain.getD e.gain).toNat) fadeIn .linear (.run k) x.gain })

/-- A PLAY step of record `k` (R47). -/
def playStep (k : Fin 6) (clip : Fin 128) (z : Zone) (kind : LaneKind) (gain : Option (BitVec 16)) (fadeIn : Nat)
    (loop : Bool) (t : Tables) (b : Bay) : Bay :=
  if (t.clip.get clip).valid then
    match allocate b with
    | some (v, b) => setUpVoice v k clip z kind gain fadeIn loop t b
    | none => (b.skip k).latch .voiceShort
  else b.skip k

/-- A VOICE-FADE step of record `k` (R49). -/
def voiceFadeStep (k : Fin 6) (z : Zone) (kind : LaneKind) (gain fade : Nat) (stop : Bool) (t : Tables) (b : Bay) : Bay :=
  each 6 (fun v b =>
    if (b.voiceRec v).plays k z kind then
      if stop then voiceStop gain fade t v b
      else b.updVoice v (fun x => { x with gain := retarget t b .red (.level gain) fade .linear (.run k) x.gain })
    else b) b

/-! ### Refills (R44, R45) -/

/-- The store port begins a refill for voice `v` (R44). -/
def refillBegun (v : Fin 6) (b : Bay) : Bay :=
  b.updVoice v (fun x => { x with refill := some x.refillCount })

/-- A voice that its refill primes becomes PLAYING (R45). -/
def Voice.prime (x : Voice) : Voice :=
  if x.state = .priming && (256 ≤ x.fifo.length || (!x.loop && x.fifo.length = x.count - x.readPos))
  then { x with state := .playing } else x

/-- The store port completes a refill for voice `v` (R45, R44); the samples of a cancelled one are discarded. -/
def refillDone (v : Fin 6) (samples : List Sample) (t : Tables) (b : Bay) : Bay :=
  match (b.voiceRec v).refill with
  | none => b
  | some n => duckExamine t (b.updVoice v (fun x =>
      ({ x with fifo := x.fifo ++ samples, fetchPos := x.fetchPos + n, refill := none } : Voice).wrapFetch.prime))

/-! ### The audio sample event (R46, R53 to R55) -/

/-- A voice's sample for the event: its oldest, or silence. -/
def Voice.sample (x : Voice) : Int :=
  match x.fifo with
  | [] => 0
  | s :: _ => s.toInt

/-- The contribution of a voice to its zone (R53). -/
def contribution (t : Tables) (b : Bay) (duck : Int) (x : Voice) : Int :=
  let g := laneValue t b .red x.gain
  match x.kind with
  | .narration => x.sample * g / 65536
  | .ambient => x.sample * (g * duck / 65536) / 65536

/-- The exact sum of a zone's voices (R53). -/
def zoneSum (t : Tables) (b : Bay) (z : Zone) : Int :=
  let duck := laneValue t b .red (b.voice.zone.get z.idx).duck
  (List.finRange 6).foldl (fun sum v =>
    let x := b.voiceRec v
    if x.sounds && x.zone = z then sum + contribution t b duck x else sum) 0

/-- The result of a zone before it is set to the range of a sample (R53). -/
def zoneResult (t : Tables) (b : Bay) (z : Zone) : Int :=
  zoneSum t b z * (t.zone.get z.idx).volume.val / 256

/-- Set a result to the range of a sample (R53). -/
def saturate (r : Int) : Int := if 32767 < r then 32767 else if r < -32768 then -32768 else r

/-- Mix a zone whose result is `r` (R53 to R55): the sample formed at the last event is sent, this one waits. -/
def mixZone (r : Int) (z : Zone) (b : Bay) : Bay :=
  let b := b.updZone z.idx (fun y => { y with
    sent := y.formed, formed := saturate r, clipFlag := y.clipFlag || saturate r != r })
  if saturate r = r then b else b.latch .zoneClip

/-- What drawing a sample does to a sounding voice (R46). -/
def Voice.draw (x : Voice) : Voice :=
  match x.fifo with
  | [] => { x with underrun := true }
  | _ :: rest =>
    let pos := x.readPos + 1
    { x with fifo := rest, underrun := false, readPos := if pos = x.count && x.loop then 0 else pos }

/-- The voice's clip ends at this event (R46). -/
def Voice.atEnd (x : Voice) : Bool := x.fifo != [] && x.readPos + 1 = x.count && !x.loop

/-- The voice becomes IDLE after this event's sample has been mixed (R46). -/
def endsNow (b : Bay) (x : Voice) : Bool := x.sounds && (x.atEnd || (x.state = .stopping && laneDone b x.gain))

/-- Whether the underrun flag of any voice is set (R46, R177). -/
def anyUnderrun (b : Bay) : Bool := (List.finRange 6).any (fun v => (b.voiceRec v).underrun)

/-- Every sounding voice draws (R46); UNDERRUN latches when it becomes live (log 15). -/
def drawVoices (b : Bay) : Bay :=
  let b' := each 6 (fun v b => if (b.voiceRec v).sounds then b.updVoice v Voice.draw else b) b
  if anyUnderrun b' && !anyUnderrun b then b'.latch .underrun else b'

/-- The audio sample event (R46, R53 to R55, R52). Until start-up has taken the tables the frames carry 0. -/
def audioEvent (started : Bool) (t : Tables) (b : Bay) : Bay :=
  let ra := if started then zoneResult t b .a else 0
  let rb := if started then zoneResult t b .b else 0
  let ending := (List.finRange 6).filter (fun v => endsNow b (b.voiceRec v))
  let b := drawVoices b
  let b := mixZone rb .b (mixZone ra .a b)
  duckExamine t (eachOf ending voiceIdle b)

/-! ### The flags a read of VOICE clears (R54) -/

/-- Clear the clip flag of a zone. -/
def clearClip (z : Fin 2) (b : Bay) : Bay := b.updZone z (fun y => { y with clipFlag := false })

end Sys2Proof.Machine
end

