-- ==== Sys2Proof/Machine/Flags.lean ====
section
/-! DEFINITION. The error summary (R177) in the form STATUS gives it (R178), and the node's readiness (R171). -/

namespace Sys2Proof.Machine

/-- The node is ready (R171). -/
def State.ready (s : State) : Bool := s.mgmt.startUp = .ready

/-- The bit of a live item: the bits of R178. -/
def liveBit (on : Bool) (e : ErrItem) : Byte := if on then BitVec.ofNat 8 (2 ^ e.bit) else 0

/-- The live half of the error summary (R177): UNDERRUN, AXIS-FAULT, IMAGE-INVALID, LINE-LOST at bits 0 to 3. -/
def State.liveHalf (s : State) : Byte :=
  liveBit (anyUnderrun s.bay) .underrun ||| liveBit (anyFaulted s.bay) .axisFault |||
    liveBit s.mgmt.imageInvalid .imageInvalid ||| liveBit (s.line.state = .lost) .lineLost

/-- The error summary as STATUS and REJECTED-CHECK carry it (R178, R164): the live half, then the latched half. -/
def State.errorSummary (s : State) : List Byte := s.liveHalf :: bytesOf 2 s.bay.latched.toNat

/-- Latch an item of the error summary (R177). -/
def State.latch (s : State) (e : ErrItem) : State := { s with bay := s.bay.latch e }

/-- Clear the latched half (R178). -/
def State.clearLatched (s : State) : State := { s with bay := { s.bay with latched := 0 } }

end Sys2Proof.Machine
end

