-- ==== Sys2Proof/Machine/Line.lean ====
section
/-! DEFINITION. The line unit (chapter 9): the receiver, the treatment of a complete frame, the transmit queue, and the
frames the node makes. -/

namespace Sys2Proof.Machine

/-! ### Frames (R153) -/

/-- The frame kinds. -/
def kindTime : Byte := 0x01
/-- LEVEL. -/
def kindLevel : Byte := 0x02
/-- CUE. -/
def kindCue : Byte := 0x03
/-- NOTICE. -/
def kindNotice : Byte := 0x04
/-- EMPTY. -/
def kindEmpty : Byte := 0x05
/-- ASK. -/
def kindAsk : Byte := 0x06
/-- ANSWER. -/
def kindAnswer : Byte := 0x07

/-- A frame the node makes: its body CRC is computed (R155). -/
def mkFrame (kind node : Byte) (body : List Byte) : Frame := ⟨kind, node, body, crc16 body⟩

/-- The characters of a frame (R153); its header check is that of its header (R154). -/
def Frame.chars (f : Frame) : List Byte :=
  let header := [f.kind, f.node, BitVec.ofNat 8 f.body.length]
  0x7E :: header ++ [crc8 header] ++ f.body ++ bytesOf 2 f.crc.toNat

/-- The number that bytes `i` to `i + n - 1` of a body spell. -/
def field (l : List Byte) (i n : Nat) : Nat := numberOf ((l.drop i).take n)

/-- A LEVEL body is well formed (R153). -/
def wellFormedLevel (l : List Byte) : Bool :=
  8 ≤ l.length && l.length ≤ 127 && field l 0 1 ≤ 15 && field l 1 2 ≤ 511

/-- A CUE body is well formed (R153). -/
def wellFormedCue (l : List Byte) : Bool :=
  (l.length = 3 || l.length = 7) && 1 ≤ field l 0 1 && field l 0 1 ≤ 4

/-- A NOTICE body is well formed (R153). -/
def wellFormedNotice (l : List Byte) : Bool := l.length = 2 && 1 ≤ field l 0 1 && field l 0 1 ≤ 2

/-- A body with a right CRC is good (R153). -/
def Frame.wellFormed (f : Frame) : Bool :=
  if f.kind = kindTime then f.body.length = 4
  else if f.kind = kindLevel then wellFormedLevel f.body
  else if f.kind = kindCue then wellFormedCue f.body
  else if f.kind = kindNotice then wellFormedNotice f.body
  else if f.kind = kindEmpty then f.body.length = 0
  else if f.kind = kindAsk then 2 ≤ f.body.length
  else true

/-! ### The receiver (R158) -/

/-- What an arriving character completes. -/
inductive RxEvent
  | quiet
  | goodHeader
  | headerError
  | frame (own : Fin 251) (f : Frame) (framing : Bool)
deriving DecidableEq, Repr

/-- A character that begins a frame. -/
def starts (c : RxChar) : Bool := c.byte = 0x7E && !c.framing

/-- The characters after the start character of a dropped frame are examined again. Four characters complete no header. -/
def rescan : List RxChar → Receiver
  | [] => .hunt
  | c :: rest => if starts c then .header rest else rescan rest

/-- A header is good (R153, R154). Framing errors are tested with it (log 11). -/
def goodHeaderChars (chars : List RxChar) : Bool :=
  match chars with
  | [k, n, l, x] =>
    !(k.framing || n.framing || l.framing || x.framing) && 1 ≤ k.byte.toNat && k.byte.toNat ≤ 7 && l.byte.toNat ≤ 200 &&
      crc8 [k.byte, n.byte, l.byte] = x.byte
  | _ => false

/-- The fourth character of a header has arrived. The frame keeps the node number read here to its end, over a SET-NUMBER
(R156) and over START_UP (log 43). -/
def testHeader (own : Fin 251) (chars : List RxChar) : Receiver × RxEvent :=
  match chars with
  | k :: n :: l :: _ =>
    if goodHeaderChars chars then (.body own k.byte n.byte l.byte.toNat [], .goodHeader)
    else (rescan chars, .headerError)
  | _ => (rescan chars, .headerError)

/-- The frame that a whole body and body CRC complete. -/
def completeFrame (kind node : Byte) (length : Nat) (chars : List RxChar) : Frame :=
  let bytes := chars.map (·.byte)
  ⟨kind, node, bytes.take length, BitVec.ofNat 16 (numberOf (bytes.drop length))⟩

/-- A character arrives; `own` is the node's present number. -/
def receive (own : Fin 251) (rx : Receiver) (c : RxChar) : Receiver × RxEvent :=
  match rx with
  | .hunt => (if starts c then .header [] else .hunt, .quiet)
  | .header chars =>
    let chars := chars ++ [c]
    if chars.length < 4 then (.header chars, .quiet) else testHeader own chars
  | .body own' kind node length chars =>
    let chars := chars ++ [c]
    if chars.length < length + 2 then (.body own' kind node length chars, .quiet)
    else (.hunt, .frame own' (completeFrame kind node length chars) (chars.any (·.framing)))

/-- What the arriving character completes. -/
def State.rxEvent (s : State) (c : RxChar) : RxEvent := (receive s.tables.config.number s.line.rx c).2

/-- The receiver takes the arriving character. -/
def State.rxTake (s : State) (c : RxChar) : State :=
  { s with line := { s.line with rx := (receive s.tables.config.number s.line.rx c).1, heard := true } }

/-! ### Treatment of a complete frame (R157, R161) -/

/-- How the node treats a frame. -/
inductive Treatment
  | time | level | go | haltAll | houseDark | houseShow | notice | strip | empty | ask | setNumber | rejected | badBody
  | forward
deriving DecidableEq, Repr

/-- The treatment of a CUE frame by its action. -/
def cueTreatment (action : Nat) : Treatment :=
  match action with
  | 1 => .go
  | 2 => .haltAll
  | 3 => .houseDark
  | _ => .houseShow

/-- The treatment of a frame with a good header and a good body (R157). -/
def treatGood (own : Fin 251) (ready : Bool) (f : Frame) : Treatment :=
  let node := f.node.toNat
  let numbered := own.val != 0
  let isOwn := numbered && node = own.val
  let mine := isOwn || (numbered && node = 255)
  if f.kind = kindTime then (if mine then .time else .forward)
  else if f.kind = kindLevel then (if mine && ready then .level else .forward)
  else if f.kind = kindCue then (if mine && ready then cueTreatment (field f.body 0 1) else .forward)
  else if f.kind = kindNotice then
    (if isOwn then .strip else if numbered && ready && 1 ≤ node && node ≤ 250 then .notice else .forward)
  else if f.kind = kindEmpty then (if mine && ready then .empty else .forward)
  else if f.kind = kindAsk then
    (if isOwn then .ask else if node = 0 && field f.body 1 1 = 0x0D then .setNumber else .forward)
  else .forward

/-- The treatment of a frame with a good header and a bad body (R161). -/
def treatBad (own : Fin 251) (f : Frame) : Treatment :=
  let isOwn := own.val != 0 && f.node.toNat = own.val
  if f.kind = kindAsk && isOwn then .rejected
  else if f.kind = kindNotice && isOwn then .strip
  else .badBody

/-- A body is good (R153). -/
def goodBody (f : Frame) (framing : Bool) : Bool := !framing && f.crc = crc16 f.body && f.wellFormed

/-- The treatment of a complete frame. -/
def treatment (own : Fin 251) (ready : Bool) (f : Frame) (framing : Bool) : Treatment :=
  if goodBody f framing then treatGood own ready f else treatBad own f

/-! ### The transmit queue (R160, R162) -/

/-- Replace the transmit queue. -/
def State.setTx (s : State) (l : List TxEntry) : State := { s with line := { s.line with tx := l } }

/-- Enter an entry at the tail. -/
def State.enter (s : State) (e : TxEntry) : State := s.setTx (s.line.tx ++ [e])

/-- Enter a frame that is known in full. -/
def State.enterFrame (s : State) (f : Frame) : State := s.enter (.frame f false)

/-- The line unit takes a frame (R160): `act` on it where the queue has room, else drop it. -/
def State.takeFrame (s : State) (act : State → State) : State :=
  if 4 ≤ s.line.tx.length then s.latch .txOverflow else act s

/-- The frame that the arriving character completes, if the node treats it as `t`, and the number its header was checked
with. -/
def State.frameFor (s : State) (c : RxChar) (t : Treatment) : Option (Fin 251 × Frame) :=
  match s.rxEvent c with
  | .frame own f framing => if treatment own s.ready f framing = t then some (own, f) else none
  | _ => none

/-- A character that completes a frame of treatment `t`: the receiver takes it and the line unit takes the frame. Any other
character leaves the node as it stands (log 7). -/
def State.onFrame (s : State) (c : RxChar) (t : Treatment) (act : Fin 251 → Frame → State → State) : State :=
  match s.frameFor c t with
  | some (own, f) => (s.rxTake c).takeFrame (act own f)
  | none => s

/-- A frame is forwarded unchanged. -/
def forward (f : Frame) (s : State) : State := s.enterFrame f

/-! ### Notices (R167, R168) -/

/-- The code of a notice kind (R153). -/
def NoticeKind.code : NoticeKind → Byte
  | .trigger => 1
  | .signal => 2

/-- The NOTICE frame of a notice (R167). -/
def noticeFrame (number : Byte) (n : Notice) : Frame := mkFrame kindNotice number [n.kind.code, n.number]

/-- The EMPTY frame of R154. -/
def emptyFrame : Frame := mkFrame kindEmpty 255 []

/-- The oldest notice takes the place of a frame (R167, R168); with none waiting, `other` does. `own` is the number the
frame's header was checked with (R156). -/
def fillOr (own : Fin 251) (other : Frame) (s : State) : State :=
  match s.bay.notices with
  | [] => s.enterFrame other
  | n :: rest => ({ s with bay := { s.bay with notices := rest } }).enterFrame (noticeFrame (BitVec.ofNat 8 own.val) n)

/-! ### Asks and answers (R163 to R165) -/

/-- The ask that an ASK frame carries (R153). -/
def askOf (f : Frame) : Ask := ⟨f.node, BitVec.ofNat 8 (field f.body 0 1), BitVec.ofNat 8 (field f.body 1 1), f.body.drop 2⟩

/-- An ASK enters as a pending answer (R163). -/
def enterAsk (f : Frame) (s : State) : State := s.enter (.answer (askOf f))

/-- The ANSWER frame of an ask (R163). -/
def answerFrame (a : Ask) (code : Byte) (data : List Byte) : Frame := mkFrame kindAnswer a.node (a.tag :: a.kind :: code :: data)

/-- The answer code REJECTED-CHECK (R153). -/
def codeRejectedCheck : Byte := 6

/-- An ASK with a bad body is answered by the line unit itself (R164). -/
def rejectAsk (f : Frame) (s : State) : State :=
  let s := s.latch .bodyError
  s.enterFrame (mkFrame kindAnswer f.node
    ([f.body.getD 0 0, f.body.getD 1 0, codeRejectedCheck] ++ s.errorSummary))

/-- A SET-NUMBER by serial (R165). -/
def setNumberAsk (f : Frame) (s : State) : State :=
  if 8 ≤ f.body.length && field f.body 2 6 = s.serial.toNat then enterAsk f s else forward f s

/-- The first pending answer of the queue. -/
def firstAsk : List TxEntry → Option Ask
  | [] => none
  | .answer a :: _ => some a
  | .frame _ _ :: rest => firstAsk rest

/-- The first pending answer becomes complete (R163). -/
def completeFirst (f : Ask → Frame) (restart : Bool) : List TxEntry → List TxEntry
  | [] => []
  | .answer a :: rest => .frame (f a) restart :: rest
  | e :: rest => e :: completeFirst f restart rest

/-- Give the answer of the first pending answer. -/
def State.answer (s : State) (code : Byte) (data : List Byte) : State :=
  s.setTx (completeFirst (fun a => answerFrame a code data) false s.line.tx)

/-! ### The transmitter (R162) -/

/-- The head of the queue begins to be sent, if it is complete and no frame is being sent. -/
def startSending (s : State) : State :=
  match s.line.tx with
  | .frame _ _ :: _ => if s.line.sending then s else { s with line := { s.line with sending := true } }
  | _ => s

/-- The last character of the head has gone: it leaves the queue. The ANSWER of a RESTART has then been sent (R190). -/
def doneSending (s : State) : State :=
  match s.line.sending, s.line.tx with
  | true, .frame _ restart :: rest =>
    { s with
      line := { s.line with sending := false, tx := rest }
      mgmt := if restart then { s.mgmt with restart := .answered } else s.mgmt }
  | _, _ => s

/-! ### Line state and cut-off (R159, R169) -/

/-- A good header: the count is 0 and the line is up (R169). -/
def headerHeard (s : State) : State := { s with line := { s.line with state := .up, count := 0 } }

/-- The count has reached 250 in LINE-UP (R169). -/
def lineLost (s : State) : State :=
  if s.line.state = .up && 250 ≤ s.line.count then
    { s with line := { s.line with state := .lost } }.latch .lineLost
  else s

/-- The cut-off test: a frame that received no character since the previous millisecond event is abandoned (R159). -/
def cutOff (s : State) : State :=
  let hunting := { s with line := { s.line with rx := .hunt } }
  match s.line.heard, s.line.rx with
  | false, .header _ => hunting.latch .headerError
  | false, .body _ _ _ _ _ => hunting.latch .bodyError
  | _, _ => s

/-- The line unit's work at a millisecond event. -/
def lineMillisecond (s : State) : State :=
  let s := cutOff s
  lineLost { s with line := { s.line with heard := false, count := min (s.line.count + 1) 250 } }

end Sys2Proof.Machine
end

