-- ==== Sys2Proof/Machine/Port.lean ====
section
/-! DEFINITION. The store port (chapter 4): the link, refills, management reads, program and erase operations, suspension,
abandonment, the page buffer, and the image reads of start-up (R188). -/

namespace Sys2Proof.Machine

/-! ### Reading the state of the port -/

/-- Change the port. -/
def State.setPort (s : State) (f : StorePort → StorePort) : State := { s with port := f s.port }

/-- Change the operation record. -/
def State.updOp (s : State) (f : Operation → Operation) : State := s.setPort (fun p => { p with op := p.op.map f })

/-- The phase of the operation in flight. -/
def StorePort.phase (p : StorePort) : Option Phase := p.op.map (·.phase)

/-- The flash is busy with a step: the count of R68 advances (R69, R70). -/
def StorePort.working (p : StorePort) : Bool := p.phase = some .working || p.phase = some .suspending

/-- A STORE is in flight (R187). -/
def State.storing (s : State) : Bool := (s.port.op.map (·.kind)) = some .store

/-- Any voice wants a refill (R63). -/
def anyWants (b : Bay) : Bool := (List.finRange 6).any (fun v => (b.voiceRec v).wants)

/-- Any voice is urgent (R70). -/
def anyUrgent (b : Bay) : Bool := (List.finRange 6).any (fun v => (b.voiceRec v).urgent)

/-! ### Reading the flash -/

/-- The pages of a flash step, as a first address and a number of bytes (R67). -/
def FlashStep.range : FlashStep → Nat × Nat
  | .erase sector => (sector * 4096, 4096)
  | .program page _ => (page * 256, 256)

/-- An address lies under the step that the flash holds suspended (R64). -/
def StorePort.under (p : StorePort) (a : Nat) : Bool :=
  match p.op with
  | none => false
  | some o =>
    match o.phase, o.steps with
    | .suspended, st :: _ => st.range.1 ≤ a && a < st.range.1 + st.range.2
    | _, _ => false

/-- A run of addresses; past the last address it goes on from address 0 (R65). -/
def addresses : Nat → Nat → List Nat
  | _, 0 => []
  | a, n + 1 => a % flashSize :: addresses (a % flashSize + 1) n

/-- The bytes that a read returns: the flash as it stands, a free value under a suspended step (R61, R64, log 3). -/
def State.flashBytes (s : State) (r : ReadReq) : List Byte :=
  (addresses r.address r.count).map (fun a => if s.port.under a then Config.flashByte s.draws a else s.flash.read a)

/-- The samples of a run of bytes, low byte first (R41). -/
def samplesOf : List Byte → List Sample
  | lo :: hi :: rest => (hi ++ lo) :: samplesOf rest
  | _ => []

/-! ### Refills (R64) -/

/-- The voice with the fewest samples among those that want a refill; of equals the lowest-numbered. -/
def chooseVoice (b : Bay) : Option (Fin 6) :=
  (List.finRange 6).foldl (fun best v =>
    if (b.voiceRec v).wants then
      match best with
      | none => some v
      | some w => if (b.voiceRec v).fifo.length < (b.voiceRec w).fifo.length then some v else some w
    else best) none

/-- The run of bytes of a voice's next refill. -/
def Voice.refillRead (x : Voice) : ReadReq := ⟨x.firstPage * 256 + 2 * x.fetchPos, 2 * x.refillCount⟩

/-- With the link FREE and no management read waiting, the port begins a refill read (R63, R64). -/
def beginRefill (s : State) : State :=
  match s.port.link, s.port.waiting, chooseVoice s.bay with
  | .free, none, some v =>
    { s.setPort (fun p => { p with link := .refill v (s.bay.voiceRec v).refillRead }) with bay := refillBegun v s.bay }
  | _, _, _ => s

/-- A refill read completes (R64, R45). -/
def endRefill (s : State) : State :=
  match s.port.link with
  | .refill v req =>
    { (s.setPort (fun p => { p with link := .free })).onBay (refillDone v (samplesOf (s.flashBytes req))) with
      draws := s.draws + 1 }
  | _ => s

/-! ### Management reads (R65) -/

/-- A waiting management read is taken when the link is FREE (R63). -/
def beginManagementRead (s : State) : State :=
  match s.port.link, s.port.waiting with
  | .free, some r => s.setPort (fun p => { p with link := .management r, waiting := none })
  | _, _ => s

/-- The page of the `n`-th image read: the trailer page first, then the body pages in ascending order (R188). -/
def imagePage (n : Nat) : Nat := if n = 0 then 65360 else 65279 + n

/-- The management unit asks the port for the `n`-th image read. -/
def askImagePage (n : Nat) (s : State) : State := s.setPort (fun p => { p with waiting := some ⟨imagePage n * 256, 256⟩ })

/-- The image reads begin (R62, R188). -/
def beginImageReads (s : State) : State :=
  askImagePage 0 { s with mgmt := { s.mgmt with startUp := .reading [] } }

/-- The bytes of an image read arrive: the next read follows, or the image has been read in full. -/
def imageBytes (old new : List Byte) (s : State) : State :=
  let bytes := old ++ new
  if bytes.length < 81 * 256 then
    askImagePage (bytes.length / 256) { s with mgmt := { s.mgmt with startUp := .reading bytes } }
  else { s with mgmt := { s.mgmt with startUp := .imageRead bytes } }

/-- The answer code DONE (R153). -/
def codeDone : Byte := 0

/-- A management read completes: its bytes are the READ-CLIP answer, or part of the image (R65). -/
def endManagementRead (s : State) : State :=
  match s.port.link with
  | .management req =>
    let bytes := s.flashBytes req
    let s := s.setPort (fun p => { p with link := .free })
    match s.mgmt.waiting, s.mgmt.startUp with
    | .readClip, _ => { s with mgmt := { s.mgmt with waiting := .none } }.answer codeDone bytes
    | _, .reading old => imageBytes old bytes s
    | _, _ => s
  | _ => s

/-! ### The ready wait (R62) -/

/-- The flash reports ready in the ready wait. -/
def flashReady (s : State) : State :=
  match s.mgmt.startUp with
  | .flashWait _ => beginImageReads s
  | _ => s

/-- The ready wait has lasted 500 millisecond events: STORE-FAULT, and the port goes on. -/
def readyTimeout (s : State) : State :=
  match s.mgmt.startUp with
  | .flashWait n => if 500 ≤ n then beginImageReads (s.latch .storeFault) else s
  | _ => s

/-- The ready wait counts a millisecond event. -/
def countReadyWait (s : State) : State :=
  match s.mgmt.startUp with
  | .flashWait n => readyTimeout { s with mgmt := { s.mgmt with startUp := .flashWait (n + 1) } }
  | _ => s

/-! ### Operations (R66 to R68) -/

/-- The steps of an operation (R67). -/
def OpKind.steps : OpKind → List FlashStep
  | .pageProgram page => [.program page .buffer]
  | .eraseSectors first count => (List.range count).map (fun i => .erase (first + i))
  | .store =>
    (List.range 16).map (fun i => .erase (4080 + i)) ++
      (List.range bodyPages).map (fun i => .program (65280 + i) (.body i)) ++ [.program 65360 .trailer]

/-- The port accepts an operation (R66). -/
def acceptOp (k : OpKind) (s : State) : State :=
  s.setPort (fun p => { p with
    op := some { kind := k, steps := k.steps, phase := .gap, stepCount := 0, runCount := 0, sent := [], crc := 0xFFFF }
    state := .busy })

/-- The page bytes that a program step sends (R67). -/
def stepBytes (s : State) (o : Operation) : FlashStep → List Byte
  | .erase _ => []
  | .program _ .buffer => s.port.buffer.list
  | .program _ (.body i) => s.tables.page i
  | .program _ .trailer => trailerPage o.crc

/-- The CRC over the body pages, with the page that a step programs (R187). -/
def stepCrc (s : State) (o : Operation) : FlashStep → BitVec 16
  | .program _ (.body i) => crc16From o.crc (s.tables.page i)
  | _ => o.crc

/-- In GAP, with the link FREE and nothing else to serve, the present step begins (R63, R67). -/
def beginStep (s : State) : State :=
  match s.port.op, s.port.link, s.port.waiting with
  | some o, .free, none =>
    match o.phase, o.steps with
    | .gap, st :: _ =>
      if anyWants s.bay then s
      else s.setPort (fun p => { p with
        link := .operation
        op := some { o with phase := .working, stepCount := 0, runCount := 0, sent := stepBytes s o st
                            crc := stepCrc s o st } })
    | _, _ => s
  | _, _, _ => s

/-- What a step does to the flash when it is complete (R61). -/
def FlashStep.apply (st : FlashStep) (bytes : List Byte) (m : Memory) : Memory :=
  match st with
  | .erase sector => m.eraseSector sector
  | .program page _ => m.programPage page bytes

/-- Each byte of the page or sector of a step that was cut off is left holding some value (R62, R72): free values, log 3. -/
def FlashStep.spoil (st : FlashStep) (draw : Nat) (m : Memory) : Memory :=
  m.writeRun st.range.1 ((List.range st.range.2).map (fun i => Config.flashByte draw (st.range.1 + i)))

/-- An operation ends (R73); the end of a STORE decides IMAGE-INVALID (R177, R187), and whether the flash holds the complete
image that it stored (R72, log 45). -/
def endOp (complete : Bool) (s : State) : State :=
  let store := s.storing
  let s := s.setPort (fun p => { p with op := none, link := .free, state := if complete then .idle else .failed })
  if store then
    let s := { s with storeCut := !complete, mgmt := { s.mgmt with imageInvalid := !complete } }
    if complete then s else s.latch .imageInvalid
  else s

/-- The port abandons the operation (R72). The bytes of its step become free values (log 3). -/
def abandon (s : State) : State :=
  match s.port.op with
  | some ⟨_, st :: _, _, _, _, _, _⟩ =>
    endOp false ({ s with flash := st.spoil s.draws s.flash, draws := s.draws + 1 }.latch .storeFault)
  | _ => s

/-- The present step is complete (R68). -/
def completeStep (s : State) : State :=
  match s.port.op with
  | none => s
  | some o =>
    match o.steps with
    | [] => s
    | st :: rest =>
      let s := { s with flash := st.apply o.sent s.flash }
      if rest = [] then endOp true s
      else s.setPort (fun p => { p with link := .free, op := some { o with steps := rest, phase := .gap } })

/-- The flash reports ready during a step, with or without its failure indication (R68, R70). -/
def stepReady (failed : Bool) (s : State) : State :=
  if s.port.working then (if failed then abandon s else completeStep s) else s

/-! ### The step limit (R69) -/

/-- The limit of a step in milliseconds. -/
def FlashStep.limit : FlashStep → Nat
  | .erase _ => 500
  | .program _ _ => 5

/-- The step count has passed the limit of the present step. -/
def Operation.overrun (o : Operation) : Bool :=
  match o.steps with
  | [] => false
  | st :: _ => st.limit < o.stepCount

/-- A step that has run beyond its limit is abandoned. -/
def stepLimit (s : State) : State :=
  match s.port.op with
  | some o => if s.port.working && o.overrun then abandon s else s
  | none => s

/-- The port's work at a millisecond event (R62, R68, R69). -/
def portMillisecond (s : State) : State :=
  let s := countReadyWait s
  if s.port.working then
    stepLimit (s.updOp (fun o => { o with stepCount := o.stepCount + 1, runCount := o.runCount + 1 }))
  else s

/-! ### Suspension (R70, R71) -/

/-- Set the phase of the operation. -/
def State.setPhase (s : State) (x : Phase) : State := s.updOp (fun o => { o with phase := x })

/-- The minimum run has passed (R70). -/
def StorePort.ranEnough (p : StorePort) : Bool := (p.op.map (fun o => decide (2 ≤ o.runCount))).getD false

/-- The port sends the suspend command (R70). -/
def suspendOp (s : State) : State :=
  if s.port.phase = some .working && anyUrgent s.bay && s.port.ranEnough then s.setPhase .suspending else s

/-- The flash reports the step suspended (R71). -/
def opSuspended (s : State) : State :=
  if s.port.phase = some .suspending then (s.setPhase .suspended).setPort (fun p => { p with link := .free }) else s

/-- The port sends the resume command (R71). -/
def resumeOp (s : State) : State :=
  if s.port.phase = some .suspended && s.port.link = .free && s.port.waiting = none && !anyWants s.bay then
    (s.updOp (fun o => { o with phase := .working, runCount := 0 })).setPort (fun p => { p with link := .operation })
  else s

/-! ### The port's own checks (R66, R60) -/

/-- The pages an operation erases or programs, as a first page and a count. -/
def OpKind.pages : OpKind → Nat × Nat
  | .pageProgram page => (page, 1)
  | .eraseSectors first count => (first * 16, count * 16)
  | .store => (65280, 256)

/-- An operation names a page of block 255. -/
def OpKind.inImage (k : OpKind) : Bool := 65280 < k.pages.1 + k.pages.2

/-- A voice not in IDLE holds in use a page of a run of pages (R60). -/
def Voice.holdsIn (x : Voice) (first count : Nat) : Bool :=
  x.state != .idle && x.firstPage < first + count && first < x.firstPage + (x.count + 127) / 128

/-- Any voice holds in use a page that an operation names (R66). -/
def pagesInUse (b : Bay) (k : OpKind) : Bool :=
  (List.finRange 6).any (fun v => (b.voiceRec v).holdsIn k.pages.1 k.pages.2)

/-! ### The page buffer (R74) -/

/-- Write bytes into the page buffer from an offset on; offset 255 is followed by offset 0. -/
def fillBuffer : Nat → List Byte → Tab Byte 256 → Tab Byte 256
  | _, [], t => t
  | o, x :: rest, t => fillBuffer (o + 1) rest (t.set (Fin.ofNat 256 o) x)

end Sys2Proof.Machine
end

