-- ==== Sys2Proof/Machine/Fixtures.lean ====
section
/-! DEFINITION. The fixture unit (chapter 2): the PWM period, LEVEL frames, the steps on fixtures, and fixtures changing
hands. -/

namespace Sys2Proof.Machine

/-! ### The output pipeline (R28 to R31) -/

/-- The number of a component's patch entry (R172). -/
def patchIdx (i : Fin 16) (c : Comp) : Fin 64 := ⟨i.val * 4 + c.idx.val, by omega⟩

/-- The scene value of a component in SHOW mode (R29). -/
def sceneValue (t : Tables) (b : Bay) (i : Fin 16) (c : Comp) : Nat :=
  let f := b.fixtureRec i
  let v := (laneValue t b c (f.scene.get c)).toNat
  match b.owner (fixtureRes i) with
  | none => v
  | some _ =>
    if h : f.highlight.val = 0 then v * f.intensity.toNat / 255
    else widen ((t.highlight.get ⟨f.highlight.val - 1, by omega⟩).get c)

/-- The line value of a component (R30). -/
def lineValue (t : Tables) (b : Bay) (i : Fin 16) (c : Comp) : Nat :=
  match t.patch.get (patchIdx i c) with
  | none => 0
  | some _ => (laneValue t b c ((b.fixtureRec i).line.get c)).toNat

/-- The merge by mode (R30). -/
def FixtureMode.merge : FixtureMode → Nat → Nat → Nat
  | .scene, s, _ => s
  | .line, _, l => l
  | .highest, s, l => max s l

/-- The dimming curves (R31). -/
def Dimming.duty : Dimming → Nat → Nat
  | .linear, l => l / 16
  | .square, l => l * l / 1048576

/-- The duty of a component (R29 to R31). -/
def componentDuty (t : Tables) (b : Bay) (i : Fin 16) (c : Comp) : Nat :=
  match b.trigger.mode with
  | .darkMode => 0
  | .showMode =>
    let cfg := t.fixture.get i
    cfg.dimming.duty (cfg.mode.merge (sceneValue t b i c) (lineValue t b i c))

/-- The duties of a fixture. -/
def fixtureDuty (t : Tables) (b : Bay) (i : Fin 16) : Quad Nat :=
  ⟨componentDuty t b i .red, componentDuty t b i .green, componentDuty t b i .blue, componentDuty t b i .white⟩

/-- A PWM period (R28): the 64 duties take effect together. Until start-up has taken the tables every duty is 0. -/
def pwmPeriod (started : Bool) (t : Tables) (b : Bay) : Bay :=
  { b with fixture := { b.fixture with
      duty := each 16 (fun i d => d.set i (if started then fixtureDuty t b i else ⟨0, 0, 0, 0⟩)) b.fixture.duty } }

/-! ### Line lanes (R25, R26) -/

/-- A LEVEL frame (R26): universe, first channel, fade time and levels. -/
def takeLevels (univ channel fade : Nat) (levels : List Byte) (t : Tables) (b : Bay) : Bay :=
  each 16 (fun i b => b.updFixture i (fun f => { f with
      line := f.line.mapC (fun c l =>
        match t.patch.get (patchIdx i c) with
        | none => l
        | some p =>
          if p.univ.val = univ && channel ≤ p.channel.val then
            match levels[p.channel.val - channel]? with
            | some v => retarget t b c (.level (widen v)) fade .linear .node l
            | none => l
          else l) })) b

/-- A written patch entry puts its component's line lane at 0 (R25), on the curve LINEAR (log 40). -/
def clearLine (e : Fin 64) (t : Tables) (b : Bay) : Bay :=
  let i : Fin 16 := ⟨e.val / 4, by omega⟩
  b.updFixture i (fun f => { f with
    line := f.line.mapC (fun c l => if c.idx.val = e.val % 4 then retarget t b c (.level 0) 0 .linear .node l else l) })

/-! ### Steps on fixtures (R32 to R34) -/

/-- Retarget the four scene lanes of a fixture. -/
def retargetScene (t : Tables) (b : Bay) (i : Fin 16) (target : Comp → Target) (fade : Nat) (curve : Curve)
    (src : TimeSource) : Bay :=
  b.updFixture i (fun f => { f with scene := f.scene.mapC (fun c l => retarget t b c (target c) fade curve src l) })

/-- Hold the four scene lanes of a fixture. -/
def holdScene (t : Tables) (b : Bay) (i : Fin 16) (src : TimeSource) : Bay :=
  b.updFixture i (fun f => { f with scene := f.scene.mapC (fun c l => holdLevel t b c (some src) l) })

/-- Change a record's look memory of a fixture (R35). -/
def Bay.updFixtureLook (b : Bay) (k : Fin 6) (i : Fin 16) (f : FixtureLook → FixtureLook) : Bay :=
  b.updLook k (fun l => { l with fixture := l.fixture.upd i f })

/-- A COLOUR step on one fixture (R32). -/
def colourStep (k : Fin 6) (index : Byte) (fade : Nat) (curve : Curve) (t : Tables) (i : Fin 16) (b : Bay) : Bay :=
  (retargetScene t b i (fun _ => .index index) fade curve (.run k)).updFixtureLook k i
    (fun l => { l with target := .index index })

/-- A COLOUR-DIRECT step on one fixture (R33). -/
def colourDirectStep (k : Fin 6) (levels : Colour) (fade : Nat) (curve : Curve) (t : Tables) (i : Fin 16) (b : Bay) : Bay :=
  (retargetScene t b i (fun c => .level (widen (levels.get c))) fade curve (.run k)).updFixtureLook k i
    (fun l => { l with target := .level levels })

/-- An INTENSITY step on one fixture (R34). -/
def intensityStep (k : Fin 6) (v : Byte) (i : Fin 16) (b : Bay) : Bay :=
  (b.updFixture i (fun f => { f with intensity := v })).updFixtureLook k i (fun l => { l with intensity := v })

/-- A HIGHLIGHT step on one fixture (R34). -/
def highlightStep (k : Fin 6) (code : Fin 4) (i : Fin 16) (b : Bay) : Bay :=
  (b.updFixture i (fun f => { f with highlight := code })).updFixtureLook k i (fun l => { l with highlight := code })

/-! ### Fixtures changing hands (R36 to R39) -/

/-- A fixture's intensity and highlight code as without an owner (R23, R36, R39). -/
def plainLook (i : Fin 16) (b : Bay) : Bay := b.updFixture i (fun f => { f with intensity := 255, highlight := 0 })

/-- A fixture given to record `k`, at its admission (R36) or while it is SUSPENDED (R37). -/
def giveFixture (k : Fin 6) (t : Tables) (i : Fin 16) (b : Bay) : Bay := plainLook i (holdScene t b i (.run k))

/-- The lane target of a look-memory target (R38). -/
def LookTarget.lane : LookTarget → Comp → Target
  | .index i, _ => .index i
  | .level levels, c => .level (widen (levels.get c))
  | .none, _ => .house

/-- A fixture of a record that resumes (R38). -/
def resumeFixture (k : Fin 6) (fade : Nat) (t : Tables) (i : Fin 16) (b : Bay) : Bay :=
  match (b.run k).look with
  | none => b
  | some look =>
    let m := look.fixture.get i
    (retargetScene t b i m.target.lane fade .linear (.run k)).updFixture i
      (fun f => { f with intensity := m.intensity, highlight := m.highlight })

/-- A fixture of a record that ends (R39). -/
def releaseFixture (fade : Nat) (t : Tables) (i : Fin 16) (b : Bay) : Bay :=
  plainLook i (retargetScene t b i (fun _ => .house) fade .linear .node)

/-- A fixture of a record that restarts (R39): its lanes stand still, its look stays. -/
def restartFixture (k : Fin 6) (t : Tables) (i : Fin 16) (b : Bay) : Bay := holdScene t b i (.run k)

end Sys2Proof.Machine
end

