-- ==== Sys2Proof/Machine/Triggers.lean ====
section
/-! DEFINITION. The trigger unit (chapter 8): trigger states, presses, notices from other nodes, cues, the start schedule
and the mode. A request it makes joins the requests in flight, which Claims.lean takes one at a time. -/

namespace Sys2Proof.Machine

/-- Send the claim unit a request (R120). -/
def Bay.request (b : Bay) (r : Request) : Bay := { b with claim := { b.claim with inFlight := b.claim.inFlight ++ [r] } }

/-! ### Outcomes and ends of runs (R140, R141) -/

/-- A trigger enters WAITING: its slow flash starts lit (R142). -/
def Trigger.await (x : Trigger) : Trigger := { x with state := .waiting, flash := 0, flashLit := true }

/-- The state a first outcome gives an ARMED trigger (R140). -/
def Trigger.outcome (o : ReqOutcome) (x : Trigger) : Trigger :=
  match o with
  | .admitted | .restarted => { x with state := .busy }
  | .queued => x.await
  | .ignored | .discarded => x

/-- The first outcome of a request of trigger `n` (R140). -/
def firstOutcome (n : Fin 12) (o : ReqOutcome) (b : Bay) : Bay :=
  b.updTrigger n (fun x =>
    let x := { x with pending := false }
    if x.state = .armed then x.outcome o else x)

/-- The second outcome of a queued request of trigger `n` (R140): ADMITTED, or EXPIRED or DISCARDED. -/
def secondOutcome (n : Fin 12) (admitted : Bool) (b : Bay) : Bay :=
  b.updTrigger n (fun x =>
    if x.state = .waiting then { x with state := if admitted then .busy else .armed } else x)

/-- A trigger enters LOCKOUT, or ARMED when its lockout is 0 (R141). -/
def Trigger.rest (seconds : Nat) (x : Trigger) : Trigger :=
  if seconds = 0 then { x with state := .armed, lockout := 0 } else { x with state := .lockout, lockout := 1000 * seconds }

/-- The run of trigger `n` has ended (R141). -/
def runEnded (n : Fin 12) (t : Tables) (b : Bay) : Bay :=
  b.updTrigger n (fun x => if x.state = .busy then x.rest (t.trigger.get n).lockout.val else x)

/-- Every trigger in WAITING or BUSY enters LOCKOUT (R149 part 3). -/
def restAll (t : Tables) (b : Bay) : Bay :=
  each 12 (fun n b => b.updTrigger n (fun x =>
    if x.state = .waiting || x.state = .busy then x.rest (t.trigger.get n).lockout.val else x)) b

/-- The claim unit reports the first outcome of a request to the block that made it (R125). -/
def reportFirst (origin : Origin) (o : ReqOutcome) (b : Bay) : Bay :=
  match origin with
  | .trigger n => firstOutcome n o b
  | .control => { b with claim := { b.claim with control := some o } }
  | .remote | .cue | .scene => b

/-- The claim unit reports the second outcome of a queued request (R125). -/
def reportSecond (origin : Origin) (admitted : Bool) (b : Bay) : Bay :=
  match origin with
  | .trigger n => secondOutcome n admitted b
  | .remote | .cue | .control | .scene => b

/-! ### Presses (R138, R139) -/

/-- A press on trigger `n` (R139). -/
def press (n : Fin 12) (t : Tables) (b : Bay) : Bay :=
  let cfg := t.trigger.get n
  let x := b.triggerRec n
  if b.trigger.mode = .showMode && x.state = .armed && !x.pending then
    let b := match cfg.slot with
      | some slot => (b.updTrigger n (fun x => { x with pending := true })).request ⟨slot, .trigger n⟩
      | none => b
    if cfg.broadcast then b.notify ⟨.trigger, BitVec.ofNat 8 n.val⟩ else b
  else b

/-- The active level of a polarity (R138): true is high. -/
def Polarity.active : Polarity → Bool
  | .activeLow => false
  | .activeHigh => true

/-- Whether a reading of the pins presses trigger `n` (R138). -/
def pressed (levels : BitVec 12) (t : Tables) (b : Bay) (n : Fin 12) : Bool :=
  let active := (t.trigger.get n).polarity.active
  levels.getLsbD n.val = active && b.trigger.pins.getLsbD n.val != active

/-- Keep a reading of the pins (R138). -/
def keepPins (levels : BitVec 12) (b : Bay) : Bay := { b with trigger := { b.trigger with pins := levels } }

/-! ### The millisecond event (R141, R142) -/

/-- A WAITING trigger's flash changes over after 500 events (R142). -/
def Trigger.flashOver (x : Trigger) : Trigger :=
  if x.state = .waiting && 500 ≤ x.flash then { x with flash := 0, flashLit := !x.flashLit } else x

/-- A trigger whose lockout has run out becomes ARMED (R141). -/
def Trigger.expire (x : Trigger) : Trigger :=
  if x.state = .lockout && x.lockout = 0 then { x with state := .armed } else x

/-- A trigger counts a millisecond event (R141, R142). -/
def Trigger.count (x : Trigger) : Trigger :=
  match x.state with
  | .lockout => ({ x with lockout := x.lockout - 1 } : Trigger).expire
  | .waiting => ({ x with flash := x.flash + 1 } : Trigger).flashOver
  | .armed | .busy | .disarmed => x

/-- Every trigger counts a millisecond event. -/
def countTriggers (b : Bay) : Bay := each 12 (fun n b => b.updTrigger n Trigger.count) b

/-- Whether the indicator of a trigger is lit (R142). -/
def indicator (b : Bay) (n : Fin 12) : Bool :=
  let x := b.triggerRec n
  b.trigger.mode = .showMode && (x.state = .armed || (x.state = .waiting && x.flashLit))

/-! ### ARM-TRIGGER, DISARM-TRIGGER and writes (R136, R143) -/

/-- DISARM-TRIGGER, and a write that disables (R143, R136). -/
def disarm (n : Fin 12) (b : Bay) : Bay := b.updTrigger n (fun x => { x with state := .disarmed, lockout := 0 })

/-- ARM-TRIGGER (R143). -/
def arm (n : Fin 12) (t : Tables) (b : Bay) : Bay :=
  if (t.trigger.get n).enabled then
    b.updTrigger n (fun x =>
      if x.state = .disarmed || x.state = .lockout then { x with state := .armed, lockout := 0 } else x)
  else b

/-- Every enabled trigger becomes ARMED: at start-up (R137) and at entry to SHOW (R151). -/
def armEnabled (t : Tables) (b : Bay) : Bay :=
  each 12 (fun n b =>
    if (t.trigger.get n).enabled then b.updTrigger n (fun x => { x with state := .armed, lockout := 0 }) else b) b

/-! ### Notices from other nodes (R144) -/

/-- A notice of another node: the first entry of the map whose key equals it makes a request. -/
def takeNotice (origin : Nat) (kind : NoticeKind) (number : Byte) (t : Tables) (b : Bay) : Bay :=
  match t.remote.list.findSome? (fun e => e.filter (fun e =>
      e.origin.val = origin && e.kind = kind && e.number = number)) with
  | some e => b.request ⟨e.slot, .remote⟩
  | none => b

/-! ### GO cues and the start schedule (R145 to R147) -/

/-- The slot a cue number maps to: the first entry that matches. -/
def cueSlot (t : Tables) (cue : BitVec 16) : Option (Fin 32) :=
  (t.cue.list.findSome? (fun e => e.filter (fun e => e.cue = cue))).map (·.slot)

/-- Replace the start schedule. -/
def Bay.setSchedule (b : Bay) (l : List ScheduleEntry) : Bay := { b with trigger := { b.trigger with schedule := l } }

/-- Place an entry: after every entry as near to the present show time or nearer, before the first that lies further
ahead (R146, log 29). -/
def placeEntry (now : ShowTime) (e : ScheduleEntry) : List ScheduleEntry → List ScheduleEntry
  | [] => [e]
  | x :: rest => if timeDiff now e.time < timeDiff now x.time then e :: x :: rest else x :: placeEntry now e rest

/-- A GO that is not due (R146). -/
def scheduleGo (slot : Fin 32) (time : ShowTime) (b : Bay) : Bay :=
  let others := b.trigger.schedule.filter (fun e => e.slot != slot)
  if others.length < 8 then b.setSchedule (placeEntry b.time ⟨slot, time⟩ others)
  else b.latch .scheduleFull

/-- A GO cue (R145). -/
def takeGo (cue : BitVec 16) (time : Option ShowTime) (t : Tables) (b : Bay) : Bay :=
  match b.trigger.mode, cueSlot t cue with
  | .showMode, some slot =>
    match time.filter (fun u => !reached b.time u) with
    | some u => scheduleGo slot u b
    | none => (b.setSchedule (b.trigger.schedule.filter (fun e => e.slot != slot))).request ⟨slot, .cue⟩
  | _, _ => b

/-- The check of the start schedule (R147). -/
def checkSchedule (b : Bay) : Bay :=
  let due := b.trigger.schedule.filter (fun e => reached b.time e.time)
  eachOf due (fun e b => b.request ⟨e.slot, .cue⟩)
    (b.setSchedule (b.trigger.schedule.filter (fun e => !reached b.time e.time)))

/-! ### Mode (R150, R151) -/

/-- Set the mode. -/
def Bay.setMode (b : Bay) (m : Mode) : Bay := { b with trigger := { b.trigger with mode := m } }

/-- HOUSE-SHOW or SET-MODE SHOW (R151). -/
def enterShow (t : Tables) (b : Bay) : Bay :=
  match b.trigger.mode with
  | .showMode => b
  | .darkMode => armEnabled t (b.setMode .showMode)

end Sys2Proof.Machine
end

