-- ==== Sys2Proof/Machine/Scenes.lean ====
section
/-! DEFINITION. The scene runner (chapter 6) but for the end of a run: firing a step, the examination, gates, holds,
suspension, resumption and restart. Whatever may end a run takes the end as an argument `endK` (Claims.lean gives it). -/

namespace Sys2Proof.Machine

/-- The claim set of a record (R101, R119). -/
def Bay.claims (b : Bay) (k : Fin 6) : ClaimSet := ((b.run k).snap.map (·.claims)).getD ⟨0, 0, 0⟩

/-! ### Firing a step (R105 to R107) -/

/-- Hand the claimed members of a fixture set to `f`; skip the others (R105, R106). -/
def onFixtures (k : Fin 6) (set : BitVec 16) (f : Fin 16 → Bay → Bay) (b : Bay) : Bay :=
  let claims := (b.claims k).fixtures
  let b := if set &&& ~~~claims = 0 then b else b.skip k
  eachOf (members (set &&& claims)) f b

/-- Whether a PLAY or VOICE-FADE of a lane kind in a zone needs a lane the record has not claimed (R106). -/
def laneOutside (b : Bay) (k : Fin 6) (z : Zone) (kind : LaneKind) : Bool :=
  kind = .narration && !(b.claims k).lanes.getLsbD z.idx.val

/-- Every axis of a set is settled. -/
def allSettled (t : Tables) (b : Bay) (axes : BitVec 4) : Bool := (members axes).all (settled t b)

/-- A WAIT-AXIS step (R107). -/
def waitAxisStep (k : Fin 6) (axes : BitVec 4) (limit : Nat) (t : Tables) (b : Bay) : Bay :=
  let claims := (b.claims k).axes
  let b := if axes &&& ~~~claims = 0 then b else b.skip k
  if allSettled t b (axes &&& claims) then b
  else b.updRun k (fun r => { r with gate := some ⟨axes &&& claims, 0, limit⟩ })

/-- The voice unit examines the duck targets after a step that is an action of its own (R52, log 14). -/
def duckIf (own : Bool) (t : Tables) (b : Bay) : Bay := if own then duckExamine t b else b

/-- A step of record `k` fires (R105). `own` says that a PLAY or VOICE-FADE is an action of its own (log 14). -/
def fireStep (own : Bool) (k : Fin 6) (act : StepAct) (t : Tables) (b : Bay) : Bay :=
  match act with
  | .colour set index fade curve => onFixtures k set (colourStep k index fade.val curve t) b
  | .colourDirect set levels fade curve => onFixtures k set (colourDirectStep k levels fade.val curve t) b
  | .intensity set value => onFixtures k set (intensityStep k value) b
  | .highlight set code => onFixtures k set (highlightStep k code) b
  | .play clip zone kind gain fadeIn loop =>
    if laneOutside b k zone kind then b.skip k
    else duckIf own t (playStep k clip zone kind gain fadeIn.val loop t b)
  | .voiceFade zone kind gain fade stop =>
    if laneOutside b k zone kind then b.skip k
    else duckIf own t (voiceFadeStep k zone kind gain.toNat fade.val stop t b)
  | .move axis target travel curve =>
    if (b.claims k).axes.getLsbD axis.val then moveStep k axis target.toInt travel.val curve t b else b.skip k
  | .waitAxis axes limit => waitAxisStep k axes limit.val t b
  | .signal code => b.notify ⟨.signal, code⟩
  | .start slot => if (b.run k).slot = some slot then b.skip k else b.request ⟨slot, .scene⟩

/-! ### The examination (R104) -/

/-- The steps of an examination. The fuel is the most steps a scene has. -/
def examineSteps (own : Bool) (k : Fin 6) (t : Tables) : Nat → Bay → Bay
  | 0, b => b
  | n + 1, b =>
    let r := b.run k
    match r.snap with
    | none => b
    | some s =>
      if r.canFire && r.next < s.stepCount then
        let step := t.step.get (Fin.ofNat 1024 (s.firstStep + r.next))
        if step.offset.val ≤ r.stepTime then
          examineSteps own k t n (fireStep own k step.act t (b.updRun k (fun r => { r with next := r.next + 1 })))
        else b
      else b

/-- What ends a run: the record and the reason. -/
abbrev EndRun := Fin 6 → EndReason → Tables → Bay → Bay

/-- An examination of record `k` (R104). -/
def examine (endK : EndRun) (own : Bool) (k : Fin 6) (t : Tables) (b : Bay) : Bay :=
  let b := examineSteps own k t 256 b
  let r := b.run k
  match r.snap with
  | none => b
  | some s => if r.state = .running && s.duration ≤ r.stepTime then endK k .complete t b else b

/-- An examination if record `k` can fire. -/
def examineIfFires (endK : EndRun) (own : Bool) (k : Fin 6) (t : Tables) (b : Bay) : Bay :=
  if (b.run k).canFire then examine endK own k t b else b

/-! ### Gates (R108) -/

/-- Open the gate of a record. -/
def openGate (k : Fin 6) (b : Bay) : Bay := b.updRun k (fun r => { r with gate := none })

/-- Whether the gate of a record can open: every axis of its set is settled. -/
def gateReady (t : Tables) (b : Bay) (k : Fin 6) : Bool :=
  match (b.run k).gate with
  | none => false
  | some g => (b.run k).state = .running && allSettled t b g.axes

/-- The test of the gate of record `k` at a report that an axis is settled (R108). -/
def testGate (endK : EndRun) (k : Fin 6) (t : Tables) (b : Bay) : Bay :=
  if gateReady t b k then examineIfFires endK true k t (openGate k b) else b

/-- The gate of record `k` has reached its limit (R108): it opens with the gate-timeout flag. -/
def gateLimit (endK : EndRun) (k : Fin 6) (t : Tables) (b : Bay) : Bay :=
  match (b.run k).gate with
  | none => b
  | some g =>
    if (b.run k).state = .running && 0 < g.limit && g.limit ≤ g.gated then
      let b := match (b.run k).slot with
        | some slot => b.updStatus slot (fun s => { s with gateTimeout := true })
        | none => b
      examineIfFires endK true k t (openGate k b)
    else b

/-! ### Holds (R109, R110) -/

/-- Whether record `k` owns an axis in HELD. -/
def ownsHeld (b : Bay) (k : Fin 6) : Bool := (b.ownedAxes k).any (fun a => (b.axisRec a).state = .held)

/-- HELD is added to the stall set of record `k` (R109). -/
def addHeld (k : Fin 6) (b : Bay) : Bay :=
  let r := b.run k
  if r.state = .free || r.held then b
  else
    let b := b.updRun k (fun r => { r with held := true, holdTime := 0 })
    if r.state = .running then pauseVoices k b else b

/-- HELD is removed from the stall set of record `k` when it owns no HELD axis any longer (R109). -/
def removeHeld (endK : EndRun) (k : Fin 6) (t : Tables) (b : Bay) : Bay :=
  let r := b.run k
  if r.held && !ownsHeld b k then
    let b := b.updRun k (fun r => { r with held := false })
    if r.state = .running then examineIfFires endK true k t (duckExamine t (resumeVoices k b)) else b
  else b

/-- The hold of record `k` has reached its limit (R110). -/
def holdLimit (endK : EndRun) (k : Fin 6) (t : Tables) (b : Bay) : Bay :=
  let r := b.run k
  match r.snap with
  | none => b
  | some s => if r.held && 0 < s.holdLimit && s.holdLimit ≤ r.holdTime then endK k .holdTimeout t b else b

/-! ### The millisecond event (R103) -/

/-- The counts of a record at a millisecond event (R103). That the gate delay goes on where the clock has stopped at its largest
value is the model's deduction (log 46). -/
def RunRec.count (r : RunRec) : RunRec :=
  if r.state = .running && !r.held then
    { r with
      clock := tick r.clock
      gateDelay := if r.gate.isSome then tick r.gateDelay else r.gateDelay
      gate := r.gate.map (fun g => { g with gated := tick g.gated }) }
  else if r.held && r.state != .free then { r with holdTime := tick r.holdTime }
  else r

/-- A record's turn: its counts, then the test of its gate's limit or of its hold limit (R103). -/
def countRun (endK : EndRun) (t : Tables) (k : Fin 6) (b : Bay) : Bay :=
  let held := (b.run k).held
  let b := b.updRun k RunRec.count
  if held then holdLimit endK k t b else gateLimit endK k t b

/-- The scene runner's work at a millisecond event (R103). -/
def sceneMillisecond (endK : EndRun) (t : Tables) (b : Bay) : Bay :=
  each 6 (fun k b => if (b.run k).state = .running then examine endK true k t b else b)
    (each 6 (countRun endK t) b)

/-! ### Suspension and resumption (R111) -/

/-- Record `k` is suspended. -/
def suspend (k : Fin 6) (b : Bay) : Bay := pauseVoices k (b.updRun k (fun r => { r with state := .suspended }))

/-- Record `k` owns its whole claim set. -/
def whole (b : Bay) (k : Fin 6) : Bool := (b.claims k).resources.all (fun r => b.owner r = some k)

/-- Record `k` resumes with a resume guard (R127, R111). Its examination fires here what is due; the end that its comparison
with the duration may find is an end of its own, which the claim unit takes after the release (R128, log 26). -/
def resume (k : Fin 6) (t : Tables) (b : Bay) : Bay :=
  let fade := ((b.run k).snap.map (·.resumeFade)).getD 0
  let b := b.updRun k (fun r => { r with state := .running, guard := t.config.resumeGuard.val })
  let b := eachOf (b.ownedFixtures k) (resumeFixture k fade t) b
  let b := eachOf (b.ownedAxes k) (resumeAxis k t) b
  let b := if (b.run k).held then b else resumeVoices k b
  let b := if gateReady t b k then openGate k b else b
  examineSteps false k t 256 b

/-! ### Restart (R115) -/

/-- Set the last end reason of a record's slot (R116). -/
def Bay.recordEnd (b : Bay) (k : Fin 6) (e : EndReason) : Bay :=
  match (b.run k).slot with
  | some slot => b.updStatus slot (fun s => { s with lastEnd := e })
  | none => b

/-- The trigger that a record's origin names is told that its run has ended. -/
def tellTrigger (origin : Option Origin) (t : Tables) (b : Bay) : Bay :=
  match origin with
  | some (.trigger n) => runEnded n t b
  | _ => b

/-- Record `k` restarts at a request of an origin (R115). -/
def restart (endK : EndRun) (k : Fin 6) (origin : Origin) (t : Tables) (b : Bay) : Bay :=
  let old := (b.run k).origin
  let b := b.recordEnd k .restartTruncated
  let b := eachOf (b.ownedFixtures k) (restartFixture k t) b
  let b := eachOf (b.ownedAxes k) (restartAxis k t) b
  let b := idleVoices k b
  let b := b.updRun k (fun r => { r with clock := 0, gateDelay := 0, next := 0, gate := none })
  let b := if old = some origin then b else tellTrigger old t b
  let b := b.updRun k (fun r => { r with origin := some origin })
  duckExamine t (examineIfFires endK false k t b)

end Sys2Proof.Machine
end

