-- ==== Sys2Proof/Machine/Claims.lean ====
section
/-! DEFINITION. The claim unit (chapter 7) and the end of a run (R112 to R114): admission, the request queue, release, and
the requests that reach the unit. -/

namespace Sys2Proof.Machine

/-! ### The admission test (R121, R122) -/

/-- R121 discards a request for slot `s` (steps 1 and 2). -/
def discards (t : Tables) (b : Bay) (s : Fin 32) : Bool :=
  let h := t.scene.get s
  b.trigger.mode = .darkMode || !h.enabled || h.stepCount = 0 || h.duration.val = 0

/-- The run priority of a record. -/
def runPriority (b : Bay) (k : Fin 6) : Nat := ((b.run k).snap.map (·.priority)).getD 0

/-- A resource blocks a request of priority `p` (R122). -/
def blocks (b : Bay) (p : Nat) (r : Fin 22) : Bool :=
  match b.owner r with
  | none => false
  | some k => !(runPriority b k < p && (b.run k).guard = 0)

/-- The lowest-numbered FREE run record. -/
def freeRecord (b : Bay) : Option (Fin 6) := (List.finRange 6).find? (fun k => (b.run k).state = .free)

/-- The record that a request for slot `s` takes, if it can be admitted (R122). -/
def admissible (t : Tables) (b : Bay) (s : Fin 32) : Option (Fin 6) :=
  let h := t.scene.get s
  if h.claims.resources.any (blocks b h.priority.val) then none else freeRecord b

/-! ### Admission (R124) -/

/-- Part 2: the owner of a resource is pushed on its stack, and suspended if it was RUNNING. -/
def preempt (r : Fin 22) (b : Bay) : Bay :=
  match b.owner r with
  | none => b
  | some j =>
    let b := b.updClaim r (fun c => { c with stack := j :: c.stack })
    if (b.run j).state = .running then suspend j b else b

/-- The snapshot of a header (R101). -/
def Header.snapshot (h : Header) : Snapshot :=
  { priority := h.priority.val, claims := h.claims, firstStep := h.firstStep.val, stepCount := h.stepCount.toNat
    duration := h.duration.val, releaseFade := h.releaseFade.val, resumeFade := h.resumeFade.val
    rewind := h.rewind.val, holdLimit := h.holdLimit.val }

/-- Part 3: record `k` is filled for slot `s` (R102). -/
def fillRun (k : Fin 6) (s : Fin 32) (origin : Origin) (t : Tables) (b : Bay) : Bay :=
  let h := t.scene.get s
  let held := (members h.claims.axes).any (fun a => (b.axisRec a).state = .held)
  b.updRun k (fun _ =>
    { state := .running, held := held, slot := some s, snap := some h.snapshot, origin := some origin, clock := 0
      gateDelay := 0, gate := none, next := 0, holdTime := 0, guard := 0, look := some Look.blank })

/-- Part 4 for one resource: record `k` becomes its owner, and its unit acts (R36, R94). -/
def take (k : Fin 6) (t : Tables) (r : Fin 22) (b : Bay) : Bay :=
  let b := b.updClaim r (fun c => { c with owner := some k })
  match resource r with
  | .fixture i => giveFixture k t i b
  | .lane _ => b
  | .axis a => giveAxis k t a b

/-- A suspended record that owns no HELD axis any longer loses HELD (R109, R124). -/
def dropHeld (b : Bay) : Bay :=
  each 6 (fun j b =>
    if (b.run j).state = .suspended && (b.run j).held && !ownsHeld b j
    then b.updRun j (fun r => { r with held := false }) else b) b

/-- Replace the request queue. -/
def Bay.setQueue (b : Bay) (l : List QueueEntry) : Bay := { b with claim := { b.claim with queue := l } }

/-- The queued entry for a slot. -/
def queued (b : Bay) (s : Fin 32) : Option QueueEntry := b.claim.queue.find? (fun e => e.slot = s)

/-- The queue without the entry for a slot. -/
def unqueue (s : Fin 32) (b : Bay) : Bay := b.setQueue (b.claim.queue.filter (fun e => e.slot != s))

/-- A queued entry for a slot is removed and reported DISCARDED (R132). -/
def withdraw (s : Fin 32) (b : Bay) : Bay :=
  match queued b s with
  | some e => reportSecond e.origin false (unqueue s b)
  | none => b

/-- A request for slot `s` is admitted into record `k` (R124). -/
def admitScene (endK : EndRun) (k : Fin 6) (s : Fin 32) (origin : Origin) (t : Tables) (b : Bay) : Bay :=
  let resources := (t.scene.get s).claims.resources
  let b := eachOf resources preempt b
  let b := fillRun k s origin t b
  let b := dropHeld (eachOf resources (take k t) b)
  let b := withdraw s b
  duckExamine t (examineIfFires endK false k t b)

/-! ### The scan (R131) -/

/-- A queued entry's turn in a scan. -/
def scanEntry (endK : EndRun) (t : Tables) (e : QueueEntry) (b : Bay) : Bay :=
  if (queued b e.slot).isNone then b
  else if discards t b e.slot then withdraw e.slot b
  else if (b.carrier e.slot).isSome then b
  else
    match admissible t b e.slot with
    | some k => reportSecond e.origin true (admitScene endK k e.slot e.origin t (unqueue e.slot b))
    | none => b

/-- A scan of the request queue. -/
def scan (endK : EndRun) (t : Tables) (b : Bay) : Bay := eachOf b.claim.queue (scanEntry endK t) b

/-! ### Release (R126) -/

/-- Part 1: record `k` leaves every return stack. -/
def leaveStacks (k : Fin 6) (b : Bay) : Bay :=
  each 22 (fun r b => b.updClaim r (fun c => { c with stack := c.stack.filter (· != k) })) b

/-- Part 2 for one resource: it goes to the top of its stack, or becomes free. -/
def handBack (t : Tables) (r : Fin 22) (b : Bay) : Bay :=
  match (b.claim.claim.get r).stack with
  | [] => b.updClaim r (fun c => { c with owner := none })
  | j :: rest =>
    let b := b.updClaim r (fun _ => ⟨some j, rest⟩)
    match resource r with
    | .fixture i => giveFixture j t i b
    | .lane _ => b
    | .axis a =>
      let b := giveAxis j t a b
      if (b.axisRec a).state = .held then addHeld j b else b

/-- Parts 1 and 2: what record `k` owned has gone to the tops of the stacks. -/
def handOver (k : Fin 6) (t : Tables) (b : Bay) : Bay :=
  let b := leaveStacks k b
  eachOf (b.owned k) (handBack t) b

/-- Record `j` stands at the top of the stack of a resource that record `k` owns. -/
def popsTo (b : Bay) (k j : Fin 6) : Bool :=
  (b.owned k).any (fun r => ((b.claim.claim.get r).stack.filter (· != k)).head? = some j)

/-- The SUSPENDED records that the release of record `k` makes whole again (R126 part 3), in ascending number. -/
def madeWhole (k : Fin 6) (t : Tables) (b : Bay) : List (Fin 6) :=
  let c := handOver k t b
  (List.finRange 6).filter (fun j => popsTo b k j && (c.run j).state = .suspended && whole c j)

/-- Record `k` is released (R126): its resources go back, the records made whole resume (R127), it becomes FREE, the queue
is scanned. No other end or request is taken in between (R128). -/
def release (endK : EndRun) (k : Fin 6) (t : Tables) (b : Bay) : Bay :=
  let c := eachOf (madeWhole k t b) (fun j c => resume j t c) (handOver k t b)
  scan endK t (c.updRun k (fun _ => RunRec.free))

/-- A RUNNING record that is not held and whose step time is at or beyond its duration (R104). -/
def overdue (b : Bay) (j : Fin 6) : Bool :=
  match (b.run j).snap with
  | none => false
  | some s => (b.run j).state = .running && !(b.run j).held && s.duration ≤ (b.run j).stepTime

/-- The end COMPLETE of a record that a release resumed, if its examination found it due: taken when that release is whole
(R128), as the record then stands (R112, log 26). -/
def endOverdue (endK : EndRun) (t : Tables) (j : Fin 6) (b : Bay) : Bay :=
  if overdue b j then endK j .complete t b else b

/-! ### The end of a run (R113) -/

/-- Part 2 of R113 for the resources a record owns. -/
def endEffects (k : Fin 6) (fade voiceFade : Nat) (t : Tables) (b : Bay) : Bay :=
  let b := eachOf (b.ownedFixtures k) (releaseFixture fade t) b
  eachOf (b.ownedAxes k) (endAxis t) (endVoices k voiceFade t b)

/-- The release fade of a record's snapshot. -/
def releaseFade (b : Bay) (k : Fin 6) : Nat := ((b.run k).snap.map (·.releaseFade)).getD 0

/-- The run of record `k` ends with a reason (R113). Ends that the resumptions of its release bring about follow it, each an
action of its own (log 26). The fuel bounds how many: each frees a record, and one admitted in between is not due. The duck
targets are examined at the end of each admission of the release's scan and again at the end of the whole end (log 14). -/
def endRunFuel : Nat → EndRun
  | 0, _, _, _, b => b
  | n + 1, k, e, t, b =>
    if (b.run k).state = .free then b
    else
      let origin := (b.run k).origin
      let fade := releaseFade b k
      let b := (endEffects k fade fade t b).recordEnd k e
      let resumed := madeWhole k t b
      let b := duckExamine t (tellTrigger origin t (release (endRunFuel n) k t b))
      eachOf resumed (endOverdue (endRunFuel n) t) b

/-- The run of record `k` ends with a reason (R113). -/
def endRun : EndRun := endRunFuel 8

/-! ### The end of every run together (R114, R133) -/

/-- Empty the start schedule and the request queue (R149, R150, R133). -/
def emptyQueues (b : Bay) : Bay := (b.setSchedule []).setQueue []

/-- A fade of 1,000 ms replaces the release fade of the voices when the reason is HOUSE-DARK (R58, R114). -/
def voiceFadeOf (e : EndReason) (fade : Nat) : Nat := if e = .houseDark then 1000 else fade

/-- Every run ends (R114). -/
def endAll (e : EndReason) (t : Tables) (b : Bay) : Bay :=
  let runs := (List.finRange 6).filter (fun k => (b.run k).state != .free)
  let origins := runs.map (fun k => (b.run k).origin)
  let b := eachOf runs (fun k b => (endEffects k (releaseFade b k) (voiceFadeOf e (releaseFade b k)) t b).recordEnd k e) b
  let b := { b with claim := { b.claim with claim := Tab.const 22 ⟨none, []⟩ } }
  let b := eachOf runs (fun k b => b.updRun k (fun _ => RunRec.free)) b
  duckExamine t (eachOf origins (fun o b => tellTrigger o t b) b)

/-- A HALT-ALL cue (R149). -/
def haltAll (t : Tables) (b : Bay) : Bay :=
  match b.trigger.mode with
  | .darkMode => b
  | .showMode => endAll .halted t (restAll t (emptyQueues b))

/-- Entry to DARK mode (R150). -/
def enterDark (t : Tables) (b : Bay) : Bay :=
  match b.trigger.mode with
  | .darkMode => b
  | .showMode => endAll .houseDark t (restAll t (emptyQueues (b.setMode .darkMode)))

/-! ### Requests (R120 to R123) -/

/-- A new entry stands after every entry of equal or higher request priority (R129). -/
def insertEntry (e : QueueEntry) : List QueueEntry → List QueueEntry
  | [] => [e]
  | x :: rest => if x.priority < e.priority then e :: x :: rest else x :: insertEntry e rest

/-- The deadline of an entry that joins now (R130). -/
def deadline (now : ShowTime) (limit : Nat) : Option ShowTime :=
  if limit = 0 then none else some (now + BitVec.ofNat 32 (1000 * limit))

/-- A request that cannot be admitted (R123). -/
def waitOrNot (q : Request) (t : Tables) (b : Bay) : ReqOutcome × Bay :=
  let h := t.scene.get q.slot
  match h.wait with
  | .discard => (.discarded, b)
  | .queue =>
    if (queued b q.slot).isSome then (.ignored, b)
    else if 8 ≤ b.claim.queue.length then (.discarded, b.latch .queueFull)
    else (.queued, b.setQueue (insertEntry
      ⟨q.slot, q.origin, h.priority.val, b.time, deadline b.time h.waitLimit.val⟩ b.claim.queue))

/-- The claim unit decides a request (R121 to R124). -/
def decideRequest (q : Request) (t : Tables) (b : Bay) : ReqOutcome × Bay :=
  if discards t b q.slot then (.discarded, b)
  else
    match b.carrier q.slot with
    | some k =>
      if (b.run k).state = .running && (t.scene.get q.slot).retrigger = .restart
      then (.restarted, restart endRun k q.origin t b)
      else (.ignored, b)
    | none =>
      match admissible t b q.slot with
      | some k => (.admitted, admitScene endRun k q.slot q.origin t b)
      | none => waitOrNot q t b

/-- The claim unit takes a request and reports its outcome (R120, R125). -/
def takeRequest (q : Request) (t : Tables) (b : Bay) : Bay :=
  let d := decideRequest q t b
  reportFirst q.origin d.1 d.2

/-- The claim unit takes the requests in flight, one at a time, in the order in which they were made (R120). The fuel bounds
a chain of START steps that never ends; what is left is taken at the next command (log 8). -/
def drainFuel (t : Tables) : Nat → Bay → Bay
  | 0, b => b
  | n + 1, b =>
    match b.claim.inFlight with
    | [] => b
    | q :: rest => drainFuel t n (takeRequest q t { b with claim := { b.claim with inFlight := rest } })

/-- The claim unit takes the requests in flight. -/
def drain (t : Tables) (b : Bay) : Bay := drainFuel t 4096 b

/-! ### Time (R127, R130) -/

/-- The expiry check (R130). -/
def expiryCheck (b : Bay) : Bay :=
  let late := fun e : QueueEntry => (e.deadline.map (passed b.time)).getD false
  eachOf (b.claim.queue.filter late) (fun e b => reportSecond e.origin false b)
    (b.setQueue (b.claim.queue.filter (fun e => !late e)))

/-- The resume guards count down (R127). -/
def countGuards (b : Bay) : Bay := each 6 (fun k b => b.updRun k (fun r => { r with guard := r.guard - 1 })) b

/-- The claim unit's work at a millisecond event (R130). -/
def claimMillisecond (t : Tables) (b : Bay) : Bay := scan endRun t (expiryCheck (countGuards b))

/-! ### START-SCENE and STOP-SCENE (R179) -/

/-- Withdraw the queued entry of a slot, or end its run STOPPED. -/
def stopScene (s : Fin 32) (t : Tables) (b : Bay) : Bay :=
  match b.carrier s with
  | some k => endRun k .stopped t b
  | none => withdraw s b

end Sys2Proof.Machine
end

