-- ==== Sys2Proof/Machine/Reports.lean ====
section
/-! DEFINITION. The axis unit (chapter 5), the part that reports to the scene runner: faults, motion and homing updates,
homing, and the proximity records. -/

namespace Sys2Proof.Machine

/-! ### Reports (R82, R108, R109) -/

/-- The axis unit tells the owner that an axis has entered or left HELD (R82, R109). -/
def reportHeld (a : Fin 4) (was : AxisState) (t : Tables) (b : Bay) : Bay :=
  let now := (b.axisRec a).state
  match b.owner (axisRes a) with
  | none => b
  | some k =>
    if now = .held && was != .held then duckExamine t (addHeld k b)
    else if now != .held && was = .held then removeHeld endRun k t b
    else b

/-- The axis unit reports that an axis is now settled: every gate that waits for it is tested (R108). -/
def reportSettled (a : Fin 4) (t : Tables) (b : Bay) : Bay :=
  each 6 (fun k b =>
    match (b.run k).gate with
    | some g => if g.axes.getLsbD a.val then testGate endRun k t b else b
    | none => b) b

/-- What the axis unit reports of axis `a` after it acted on it: `before` is the node before it did. HELD is reported
before the axis is reported settled (log 28). -/
def report (a : Fin 4) (before : Bay) (t : Tables) (b : Bay) : Bay :=
  let nowSettled := settled t b a && !settled t before a
  let b := reportHeld a (before.axisRec a).state t b
  if nowSettled then reportSettled a t b else b

/-! ### Faults (R81) -/

/-- An axis becomes FAULTED (R81, R86): its lane is held, AXIS-FAULT latches if it becomes live, its owner ends. -/
def faultAxis (reason : AxisFault) (a : Fin 4) (t : Tables) (b : Bay) : Bay :=
  let wasLive := anyFaulted b
  let b := b.updAxis a (fun x => { x with state := .faulted, fault := reason, phase := .none })
  let b := holdAxis none t a b
  let b := if wasLive then b else b.latch .axisFault
  match b.owner (axisRes a) with
  | some k => endRun k .axisFault t b
  | none => b

/-! ### Updates (R80, R85, R86) -/

/-- A motion update (R80). -/
def motionUpdate (a : Fin 4) (t : Tables) (b : Bay) : Bay :=
  let c := commanded t b a
  let moved := stepToward c t a b
  if stalled t moved a then faultAxis .stall a t moved else report a b t (arrive c a moved)

/-- Issue the steps of a homing update in a direction, and count them (R85). -/
def homingSteps (sign : Int) (a : Fin 4) (t : Tables) (b : Bay) : Bay :=
  let x := b.axisRec a
  let n := min x.capRate (x.capTravel - x.travel)
  (issue (sign * n) t a b).updAxis a (fun x => { x with travel := x.travel + n })

/-- Home is found (R86): the lane is retargeted on the curve LINEAR (log 40). -/
def homeFound (a : Fin 4) (t : Tables) (b : Bay) : Bay :=
  b.updAxis a (fun x => { x with
    state := .ready, phase := .none, stepped := 0, measured := 0
    move := retarget t b .red (.position 0) 0 .linear .node x.move })

/-- A homing update that reads the home input `home` (R85, R86). -/
def homingUpdate (home : Bool) (a : Fin 4) (t : Tables) (b : Bay) : Bay :=
  let x := b.axisRec a
  match x.phase with
  | .none => b
  | .offSwitch =>
    if !home then b.updAxis a (fun x => { x with phase := .seek, travel := 0 })
    else if x.travel = x.capTravel then faultAxis .homeNotFound a t b
    else homingSteps (-x.capDir.sign) a t b
  | .seek =>
    if home then homeFound a t b
    else if x.travel = x.capTravel then faultAxis .homeNotFound a t b
    else homingSteps x.capDir.sign a t b

/-- The update of one axis at a millisecond event. -/
def axisUpdate (home : BitVec 4) (a : Fin 4) (t : Tables) (b : Bay) : Bay :=
  let x := b.axisRec a
  match x.state with
  | .ready | .moving | .held => motionUpdate a t b
  | .homing => if x.held = 0 then homingUpdate (home.getLsbD a.val) a t b else b
  | .unhomed | .faulted => b

/-! ### Homing (R84) -/

/-- An axis enters HOMING, its home input reading `home`. -/
def enterHoming (home : Bool) (a : Fin 4) (t : Tables) (b : Bay) : Bay :=
  report a b t ((holdAxis (some .node) t a b).updAxis a (fun x =>
    { captureHoming (t.axis.get a) x with
      state := .homing, travel := 0, phase := if home then .offSwitch else .seek }))

/-! ### Proximity (R90 to R93) -/

/-- The bit of a proximity input in a held set. -/
def proxBit (p : Fin 4) : BitVec 4 := BitVec.ofNat 4 (2 ^ p.val)

/-- Proximity input `p` holds an axis (R90). -/
def holdBy (p : Fin 4) (a : Fin 4) (t : Tables) (b : Bay) : Bay :=
  report a b t (b.updAxis a (fun x => { x with
    held := x.held ||| proxBit p
    state := if x.state = .ready || x.state = .moving then .held else x.state }))

/-- Proximity input `p` no longer holds an axis (R92). -/
def unholdBy (p : Fin 4) (a : Fin 4) (t : Tables) (b : Bay) : Bay :=
  let x := b.axisRec a
  let left := x.held &&& ~~~proxBit p
  let state : AxisState :=
    if x.state = .held && left = 0 then
      if laneDone b x.move && x.stepped = commanded t b a then .ready else .moving
    else x.state
  report a b t (b.updAxis a (fun x => { x with held := left, state := state }))

/-- A proximity record becomes CLEAR (R92), the axes of its mask in ascending number (log 41). -/
def proxClear (p : Fin 4) (t : Tables) (b : Bay) : Bay :=
  eachOf (members (t.prox.get p).axes) (fun a b => unholdBy p a t b) (b.updProx p (fun _ => ⟨.clear, 0⟩))

/-- A proximity input goes active (R90), the axes of its mask in ascending number (log 41). -/
def proxActive (p : Fin 4) (t : Tables) (b : Bay) : Bay :=
  match (b.axis.prox.get p).state with
  | .clear => eachOf (members (t.prox.get p).axes) (fun a b => holdBy p a t b) (b.updProx p (fun _ => ⟨.active, 0⟩))
  | .clearing => b.updProx p (fun _ => ⟨.active, 0⟩)
  | .active => b

/-- A proximity input goes inactive (R91). -/
def proxInactive (p : Fin 4) (t : Tables) (b : Bay) : Bay :=
  match (b.axis.prox.get p).state with
  | .active =>
    let delay := (t.prox.get p).clearDelay.val
    if delay = 0 then proxClear p t b else b.updProx p (fun _ => ⟨.clearing, delay⟩)
  | .clear | .clearing => b

/-- A record in CLEARING whose delay has run out becomes CLEAR (R91). -/
def clearDelayEnd (p : Fin 4) (t : Tables) (b : Bay) : Bay :=
  let x := b.axis.prox.get p
  if x.state = .clearing && x.delay = 0 then proxClear p t b else b

/-- A record counts a millisecond event (R91). -/
def countDelay (p : Fin 4) (t : Tables) (b : Bay) : Bay :=
  clearDelayEnd p t (b.updProx p (fun x => if x.state = .clearing then { x with delay := x.delay - 1 } else x))

/-- A new axis mask of a record that is not CLEAR holds and releases axes at once (R93), in ascending number (log 41). -/
def proxWritten (p : Fin 4) (old new : BitVec 4) (t : Tables) (b : Bay) : Bay :=
  if (b.axis.prox.get p).state = .clear then b
  else
    each 4 (fun a b =>
      if new.getLsbD a.val && !old.getLsbD a.val then holdBy p a t b
      else if old.getLsbD a.val && !new.getLsbD a.val then unholdBy p a t b
      else b) b

/-- The axis unit's work at a millisecond event: the updates, then the clear delays (log 25). That the axes, and then the
inputs, come in ascending number, each with what follows from it before the next, is the model's choice (log 44). -/
def axisMillisecond (home : BitVec 4) (t : Tables) (b : Bay) : Bay :=
  each 4 (fun p b => countDelay p t b) (each 4 (fun a b => axisUpdate home a t b) (noPulses b))

end Sys2Proof.Machine
end

