-- ==== Sys2Proof/Machine/Reads.lean ====
section
/-! DEFINITION. What READ-TABLE and STATUS report (R172 to R174, R178, and the reports of R60, R97, R117, R135, R137). -/

namespace Sys2Proof.Machine

/-! ### The tables (R172) -/

/-- The tables, in the order of R172. -/
inductive TableId
  | config | palette | highlight | house | bank | fixture | patch | clip | zone | axis | proximity | scene | step
  | trigger | remote | cue | protect | run | voice | axisState | queue | schedule | sceneStatus
deriving DecidableEq, Repr

/-- The tables in the order that counts their codes (R173). -/
def TableId.all : List TableId :=
  [.config, .palette, .highlight, .house, .bank, .fixture, .patch, .clip, .zone, .axis, .proximity, .scene, .step, .trigger,
    .remote, .cue, .protect, .run, .voice, .axisState, .queue, .schedule, .sceneStatus]

/-- The code of a table: from CONFIG 0x01 (R173). -/
def TableId.code (t : TableId) : Nat := TableId.all.idxOf t + 1

/-- The table of a code. -/
def tableOf (code : Nat) : Option TableId := if code = 0 then none else TableId.all[code - 1]?

/-- The number of the first entry of a table (log 17). -/
def TableId.base : TableId → Nat
  | .highlight => 1
  | _ => 0

/-- The number of entries of a table (R172). -/
def TableId.entries : TableId → Nat
  | .config | .house | .bank | .protect => 1
  | .palette => 256
  | .highlight => 3
  | .fixture | .remote => 16
  | .patch | .cue => 64
  | .clip => 128
  | .zone => 2
  | .axis | .proximity => 4
  | .scene | .sceneStatus => 32
  | .step => 1024
  | .trigger => 12
  | .run => 6
  | .voice | .axisState | .schedule => 8
  | .queue => 30

/-! ### Fields (R173) -/

/-- A number of `n` bytes. -/
def num (n x : Nat) : List Byte := bytesOf n x

/-- A flag. -/
def flag (b : Bool) : List Byte := [if b then 1 else 0]

/-- A position: 3 bytes, two's complement. -/
def pos (p : Int) : List Byte := bytesOf 3 (BitVec.ofInt 24 p).toNat

/-- The place of a word in a list of values. -/
def wordOf {α : Type} [DecidableEq α] (l : List α) (x : α) : List Byte := [BitVec.ofNat 8 (l.idxOf x)]

/-- A field that may hold a word in place of a value, of `n` bytes. -/
def optOf {α : Type} (n : Nat) (f : α → List Byte) : Option α → List Byte
  | none => 0 :: zeros n
  | some x => 1 :: f x

/-- A run record's number, or none. -/
def ownerOf : Option (Fin 6) → List Byte := optOf 1 (fun k => num 1 k.val)

/-- An origin: a kind byte and a value (R173). -/
def originOf : Origin → List Byte
  | .trigger n => [0, BitVec.ofNat 8 n.val]
  | .remote => [1, 0]
  | .cue => [2, 0]
  | .control => [3, 0]
  | .scene => [4, 0]

/-- A lane target: a kind byte and 3 bytes (R7, R173). -/
def targetOf : Target → List Byte
  | .index i => 0 :: num 3 i.toNat
  | .level v => 1 :: num 3 v
  | .house => 2 :: zeros 3
  | .position p => 3 :: pos p

/-- A look-memory target: a kind byte and 4 bytes (R35, R173). -/
def lookTargetOf : LookTarget → List Byte
  | .index i => 0 :: num 4 i.toNat
  | .level q => 1 :: colourC.enc q
  | .none => 2 :: zeros 4

/-- The stall set of a record: GATED bit 0, HELD bit 1 (R101). -/
def RunRec.stallSet (r : RunRec) : Byte := (if r.gate.isSome then 1 else 0) ||| (if r.held then 2 else 0)

/-- The state of a run record. -/
def runStateOf (x : RunState) : List Byte := wordOf [RunState.free, .running, .suspended] x

/-! ### Entries of the run-time tables -/

/-- A snapshot (R101). -/
def snapshotOf (x : Snapshot) : List Byte :=
  num 1 x.priority ++ claimSetC.enc x.claims ++ num 2 x.firstStep ++ num 1 x.stepCount ++ num 3 x.duration ++
    num 2 x.releaseFade ++ num 2 x.resumeFade ++ num 2 x.rewind ++ num 3 x.holdLimit

/-- A gate (R101). -/
def gateOf (g : Gate) : List Byte := num 1 g.axes.toNat ++ num 4 g.gated ++ num 3 g.limit

/-- The resources a record holds, as a mask of the 22 (R101, R173). -/
def resourceMask (b : Bay) (k : Fin 6) : Nat := (b.owned k).foldl (fun m r => m + 2 ^ r.val) 0

/-- Look memory of the fixtures: bytes of 0 outside the claim set (R173). -/
def fixtureLookOf (r : RunRec) (claims : ClaimSet) : List Byte :=
  (List.finRange 16).flatMap (fun i =>
    match r.look with
    | some l =>
      let m := l.fixture.get i
      if claims.fixtures.getLsbD i.val then lookTargetOf m.target ++ num 1 m.intensity.toNat ++ num 1 m.highlight.val
      else zeros 7
    | none => zeros 7)

/-- Look memory of the axes. -/
def axisLookOf (r : RunRec) (claims : ClaimSet) : List Byte :=
  (List.finRange 4).flatMap (fun a =>
    match r.look with
    | some l => if claims.axes.getLsbD a.val then optOf 3 pos (l.axis.get a) else zeros 4
    | none => zeros 4)

/-- An entry of RUN (R117). -/
def runEntry (b : Bay) (k : Fin 6) : List Byte :=
  let r := b.run k
  runStateOf r.state ++ [r.stallSet] ++ optOf 1 (fun s : Fin 32 => num 1 s.val) r.slot ++ optOf 20 snapshotOf r.snap ++
    optOf 2 originOf r.origin ++ num 4 r.clock ++ num 4 r.gateDelay ++ num 4 r.stepTime ++ optOf 8 gateOf r.gate ++
    num 1 r.next ++ num 4 r.holdTime ++ num 2 r.guard ++ num 3 (resourceMask b k) ++
    fixtureLookOf r (b.claims k) ++ axisLookOf r (b.claims k)

/-- An entry of VOICE for a voice (R60). -/
def voiceEntry (t : Tables) (b : Bay) (v : Fin 6) : List Byte :=
  let x := b.voiceRec v
  wordOf [VoiceState.idle, .priming, .playing, .paused, .stopping] x.state ++ num 1 x.clip.val ++ zoneIdC.enc x.zone ++
    laneKindC.enc x.kind ++ ownerOf x.owner ++ num 3 x.readPos ++ num 3 x.fetchPos ++ num 2 x.fifo.length ++
    optOf 1 (num 1) x.refill ++ flag x.loop ++ flag x.underrun ++ num 2 (laneValue t b .red x.gain).toNat

/-- An entry of VOICE for a zone (R60). -/
def zoneEntry (t : Tables) (b : Bay) (z : Fin 2) : List Byte :=
  let y := b.voice.zone.get z
  ownerOf (b.owner ⟨16 + z.val, by omega⟩) ++ num 2 (laneValue t b .red y.duck).toNat ++ flag y.clipFlag

/-- An entry of AXIS-STATE for an axis (R97). -/
def axisEntry (t : Tables) (b : Bay) (a : Fin 4) : List Byte :=
  let x := b.axisRec a
  wordOf [AxisState.unhomed, .homing, .ready, .moving, .held, .faulted] x.state ++
    wordOf [AxisFault.none, .stall, .homeNotFound] x.fault ++ pos x.stepped ++ pos x.measured ++ pos (commanded t b a) ++
    targetOf x.move.target ++ flag (laneDone b x.move) ++ num 1 x.held.toNat ++
    wordOf [HomingPhase.none, .offSwitch, .seek] x.phase ++ num 3 x.travel

/-- An entry of AXIS-STATE for a proximity input (R97). -/
def proxEntry (b : Bay) (p : Fin 4) : List Byte :=
  let x := b.axis.prox.get p
  wordOf [ProxState.clear, .active, .clearing] x.state ++ num 2 x.delay

/-- An entry of QUEUE for a resource: its owner, and its stack from bottom to top (R135). -/
def resourceEntry (b : Bay) (r : Fin 22) : List Byte :=
  let c := b.claim.claim.get r
  ownerOf c.owner ++ num 1 c.stack.length ++ c.stack.reverse.flatMap (fun k => num 1 k.val) ++ zeros (5 - c.stack.length)

/-- An entry of QUEUE for a queue place (R135). -/
def placeEntryOf (e : Option QueueEntry) : List Byte :=
  optOf 13 (fun e : QueueEntry => num 1 e.slot.val ++ originOf e.origin ++ num 1 e.priority ++ num 4 e.arrival.toNat ++
    optOf 4 (fun d : ShowTime => num 4 d.toNat) e.deadline) e

/-- An entry of SCHEDULE (R146). -/
def scheduleEntryOf (e : Option ScheduleEntry) : List Byte :=
  optOf 5 (fun e : ScheduleEntry => num 1 e.slot.val ++ num 4 e.time.toNat) e

/-- An entry of SCENE-STATUS (R116). -/
def statusEntry (x : SceneStatus) : List Byte :=
  wordOf [EndReason.none, .complete, .stopped, .halted, .houseDark, .holdTimeout, .axisFault, .restartTruncated] x.lastEnd ++
    flag x.skipped ++ flag x.gateTimeout

/-- An entry of TRIGGER as it is read: its configuration, its state, its pending flag, its lockout remaining (R137). -/
def triggerEntry (t : Tables) (b : Bay) (n : Fin 12) : List Byte :=
  let x := b.triggerRec n
  triggerC.enc (t.trigger.get n) ++ wordOf [TriggerState.armed, .waiting, .busy, .lockout, .disarmed] x.state ++
    flag x.pending ++ num 3 x.lockout

/-- The bytes of the protect state (R184). -/
def protectStateOf (x : ProtectState) : List Byte := wordOf [ProtectState.normal, .frozen] x

/-! ### READ-TABLE (R174) -/

/-- Entry `i` of a table, counted from its first, as it stands. -/
def entryOf (s : State) (id : TableId) (i : Nat) : List Byte :=
  let t := s.tables
  let b := s.bay
  match id with
  | .config => configC.enc t.config
  | .palette => colourC.enc (t.palette.get (Fin.ofNat 256 i))
  | .highlight => colourC.enc (t.highlight.get (Fin.ofNat 3 i))
  | .house => colourC.enc t.house
  | .bank => bankC.enc t.bank
  | .fixture => fixtureC.enc (t.fixture.get (Fin.ofNat 16 i))
  | .patch => patchC.enc (t.patch.get (Fin.ofNat 64 i))
  | .clip => clipC.enc (t.clip.get (Fin.ofNat 128 i))
  | .zone => zoneC.enc (t.zone.get (Fin.ofNat 2 i))
  | .axis => axisC.enc (t.axis.get (Fin.ofNat 4 i))
  | .proximity => proxC.enc (t.prox.get (Fin.ofNat 4 i))
  | .scene => sceneC.enc (t.scene.get (Fin.ofNat 32 i))
  | .step => stepC.enc (t.step.get (Fin.ofNat 1024 i))
  | .trigger => triggerEntry t b (Fin.ofNat 12 i)
  | .remote => remoteC.enc (t.remote.get (Fin.ofNat 16 i))
  | .cue => cueC.enc (t.cue.get (Fin.ofNat 64 i))
  | .protect => protectC.enc t.protect ++ protectStateOf s.mgmt.protectState
  | .run => runEntry b (Fin.ofNat 6 i)
  | .voice => if i < 6 then voiceEntry t b (Fin.ofNat 6 i) else zoneEntry t b (Fin.ofNat 2 (i - 6))
  | .axisState => if i < 4 then axisEntry t b (Fin.ofNat 4 i) else proxEntry b (Fin.ofNat 4 (i - 4))
  | .queue => if i < 22 then resourceEntry b (Fin.ofNat 22 i) else placeEntryOf b.claim.queue[i - 22]?
  | .schedule => scheduleEntryOf b.trigger.schedule[i]?
  | .sceneStatus => statusEntry (b.scene.status.get (Fin.ofNat 32 i))

/-- The entries that fit whole in a number of bytes, from the first on. -/
def fitEntries : Nat → List (List Byte) → List (List Byte)
  | _, [] => []
  | room, e :: rest => if e.length ≤ room then e :: fitEntries (room - e.length) rest else []

/-- The entries that a READ-TABLE carries: its data has 197 bytes, one of them the count (R174). -/
def readEntries (s : State) (id : TableId) (i count : Nat) : List (List Byte) :=
  fitEntries 196 ((List.range (min count (id.entries - i))).map (fun j => entryOf s id (i + j)))

/-- The data of a READ-TABLE answer. -/
def readData (l : List (List Byte)) : List Byte := num 1 l.length ++ l.flatten

/-- A read of VOICE from entry `i` that carries `n` entries clears the clip flags of the zones it carries (R54, R174). -/
def clearReadClips (i n : Nat) (b : Bay) : Bay :=
  each 2 (fun z b => if i ≤ 6 + z.val && 6 + z.val < i + n then clearClip z b else b) b

/-! ### STATUS (R178) -/

/-- The run summary of a record. -/
def runSummary (b : Bay) (k : Fin 6) : List Byte :=
  let r := b.run k
  runStateOf r.state ++ (if r.state = .free then zeros 2 else num 1 ((r.slot.map (·.val)).getD 0) ++ [r.stallSet])

/-- The data of STATUS: 37 bytes. -/
def statusData (s : State) : List Byte :=
  modeC.enc s.bay.trigger.mode ++ flag (!s.ready) ++ num 1 s.tables.config.number.val ++ num 6 s.serial.toNat ++
    wordOf [LineState.up, .lost] s.line.state ++ wordOf [StoreState.idle, .busy, .failed] s.port.state ++
    flag s.port.restartWaiting ++ protectStateOf s.mgmt.protectState ++ flag s.pins.key ++
    (List.finRange 6).flatMap (runSummary s.bay) ++ num 1 s.bay.claim.queue.length ++
    num 1 s.bay.trigger.schedule.length ++ s.errorSummary

end Sys2Proof.Machine
end

