-- ==== Sys2Proof/Machine/Operands.lean ====
section
/-! DEFINITION. The parameters of the asks (R170, R173): what an ask's parameter bytes spell, and nothing when they are too
short, too long or out of range. -/

namespace Sys2Proof.Machine

/-! ### Ask kinds (R153) -/

/-- The ask kinds of R153 with their codes. -/
inductive AskKind
  | status | readTable | writeTable | paletteStream | startScene | stopScene | armTrigger | disarmTrigger | homeAxis
  | clearFault | setMode | setBank | setNumber | setProtect | freeze | store | restart | eraseSectors | pageFill
  | pageProgram | readClip
deriving DecidableEq, Repr

/-- The ask kinds in the order of their codes, from STATUS 0x01. -/
def AskKind.all : List AskKind :=
  [.status, .readTable, .writeTable, .paletteStream, .startScene, .stopScene, .armTrigger, .disarmTrigger, .homeAxis,
    .clearFault, .setMode, .setBank, .setNumber, .setProtect, .freeze, .store, .restart, .eraseSectors, .pageFill,
    .pageProgram, .readClip]

/-- The ask kind of an ask; none when it is unknown. -/
def Ask.askKind (a : Ask) : Option AskKind := if a.kind = 0 then none else AskKind.all[a.kind.toNat - 1]?

/-! ### Parameters -/

/-- No parameters. -/
def noParams (l : List Byte) : Option Unit := if l = [] then some () else none

/-- READ-TABLE: a table, the index of its first entry counted from 0, and a count (R174). -/
def readParams (l : List Byte) : Option (TableId × Nat × Nat) :=
  if l.length = 4 && field l 3 1 != 0 then
    match tableOf (field l 0 1) with
    | none => none
    | some id =>
      let first := field l 1 2
      if id.base ≤ first && first < id.base + id.entries then some (id, first - id.base, field l 3 1) else none
  else none

/-- WRITE-TABLE: the index of the first entry counted from 0, and one or more whole entries that lie within the table
(R175). The table's code is the first byte. -/
def writeParams {α : Type} (c : Codec α) (id : TableId) (l : List Byte) : Option (Nat × List α) :=
  if l.length < 3 then none
  else
    let first := field l 1 2
    let data := l.drop 3
    match wholeEntries c data.length data with
    | none => none
    | some entries =>
      if 1 ≤ entries.length && id.base ≤ first && first + entries.length ≤ id.base + id.entries
      then some (first - id.base, entries) else none

/-- The table that a READ-TABLE or WRITE-TABLE names. -/
def namedTable (l : List Byte) : Option TableId := l.head?.bind (fun b => tableOf b.toNat)

/-- A scene slot. -/
def slotParam : List Byte → Option (Fin 32) := (Codec.fin 1 32).whole

/-- A trigger. -/
def triggerParam : List Byte → Option (Fin 12) := (Codec.fin 1 12).whole

/-- An axis. -/
def axisParam : List Byte → Option (Fin 4) := (Codec.fin 1 4).whole

/-- A mode. -/
def modeParam : List Byte → Option Mode := modeC.whole

/-- An index mask and a bank base. -/
def bankParam : List Byte → Option Bank := bankC.whole

/-- A protect record. -/
def protectParam : List Byte → Option Protect := protectC.whole

/-- A serial that is the node's own, and a new number (R181). -/
def numberParam (serial : BitVec 48) (l : List Byte) : Option (Fin 251) :=
  if l.length = 7 && field l 0 6 = serial.toNat then toFin 251 (field l 6 1) else none

/-- PALETTE-STREAM: continue flag, start index, 0 to 196 component bytes (R181). -/
def streamParams (l : List Byte) : Option (Bool × Byte × List Byte) :=
  match l with
  | c :: i :: bytes =>
    if 196 < bytes.length then none
    else if c = 0 then some (false, i, bytes) else if c = 1 then some (true, i, bytes) else none
  | _ => none

/-- ERASE-SECTORS: first sector, count (R185). -/
def eraseParams (l : List Byte) : Option (Nat × Nat) :=
  let first := field l 0 2
  let count := field l 2 2
  if l.length = 4 && 1 ≤ count && first + count ≤ 4096 then some (first, count) else none

/-- PAGE-PROGRAM: a page (R185). -/
def pageParam (l : List Byte) : Option Nat := if l.length = 2 then some (field l 0 2) else none

/-- PAGE-FILL: start offset, 1 to 196 bytes (R185). -/
def fillParams (l : List Byte) : Option (Nat × List Byte) :=
  match l with
  | o :: x :: rest => if rest.length ≤ 195 then some (o.toNat, x :: rest) else none
  | _ => none

/-- READ-CLIP: a byte address, a count of 1 to 192 bytes (R185). -/
def clipParams (l : List Byte) : Option ReadReq :=
  let count := field l 3 1
  if l.length = 4 && 1 ≤ count && count ≤ 192 then some ⟨field l 0 3, count⟩ else none

end Sys2Proof.Machine
end

