-- ==== Sys2Proof/Machine/Management.lean ====
section
/-! DEFINITION. The management unit (chapter 10): taking an ask through its tests (R170), table writes (R175), protection
(R183, R184), the operations asked of the store port (R66), palette streaming (R21), start-up (R189) and the resets. -/

namespace Sys2Proof.Machine

/-! ### Answer codes (R153) -/

/-- BUSY. -/
def codeBusy : Byte := 1
/-- PROTECTED. -/
def codeProtected : Byte := 2
/-- IN-USE. -/
def codeInUse : Byte := 3
/-- NOT-READY. -/
def codeNotReady : Byte := 4
/-- BAD-REQUEST. -/
def codeBadRequest : Byte := 5

/-! ### Requests that reach the claim unit, and the answer that waits for one (R120, R179) -/

/-- The place of an outcome in the list of R179. -/
def ReqOutcome.code : ReqOutcome → Byte
  | .admitted => 0
  | .restarted => 1
  | .ignored => 2
  | .queued => 3
  | .discarded => 4

/-- The answer of a START-SCENE whose outcome has been reported (R179). -/
def answerOutcome (s : State) : State :=
  match s.mgmt.waiting, s.bay.claim.control with
  | .startScene, some o =>
    ({ s with
        bay := { s.bay with claim := { s.bay.claim with control := none } }
        mgmt := { s.mgmt with waiting := .none } } : State).answer codeDone [o.code]
  | _, _ => s

/-- The claim unit takes the requests in flight, and a waiting START-SCENE is answered. -/
def settle (s : State) : State := answerOutcome (s.onBay drain)

/-! ### Taking an ask (R163, R170) -/

/-- The ask that the management unit takes next: the first pending answer, when none waits for another block. -/
def State.nextAsk (s : State) : Option Ask := if s.mgmt.waiting = .none then firstAsk s.line.tx else none

/-- The next ask, if `p` picks it, is taken by `act`, its parameters first. Otherwise the node stands as it is (log 7). -/
def State.onAsk (s : State) (p : Ask → Bool) (act : List Byte → State → State) : State :=
  match s.nextAsk with
  | some a => if p a then act a.params s else s
  | none => s

/-- An ask is of a kind. -/
def isKind (k : AskKind) (a : Ask) : Bool := a.askKind = some k

/-- An ask is a READ-TABLE or WRITE-TABLE of a table. -/
def isOf (k : AskKind) (id : TableId) (a : Ask) : Bool := isKind k a && namedTable a.params = some id

/-- Test 1 of R170. -/
def whenReady (act : List Byte → State → State) (l : List Byte) (s : State) : State :=
  if s.ready then act l s else s.answer codeNotReady []

/-- Test 2 of R170: the parameters that a form reads. -/
def withParams {α : Type} (form : List Byte → Option α) (act : α → State → State) (l : List Byte) (s : State) : State :=
  match form l with
  | none => s.answer codeBadRequest []
  | some x => act x s

/-- An ask of a kind is taken: tests 1 and 2, then the rest. -/
def State.ask {α : Type} (s : State) (k : AskKind) (form : List Byte → Option α) (act : α → State → State) : State :=
  s.onAsk (isKind k) (whenReady (withParams form act))

/-- Test 4 of R170: an ask that would change a working table is BUSY while a STORE is in flight (R187). -/
def unlessStoring (act : State → State) (s : State) : State := if s.storing then s.answer codeBusy [] else act s

/-- DONE without data. -/
def State.done (s : State) : State := s.answer codeDone []

/-- Change the working tables. -/
def State.setTables (s : State) (f : Tables → Tables) : State := { s with tables := f s.tables }

/-! ### Protection (R182 to R184) -/

/-- A number lies in a range of `count` at an edge of `total`. -/
def Edge.holds (e : Edge) (count total x : Nat) : Bool :=
  match e with
  | .low => x < count
  | .high => total - count ≤ x

/-- A slot is protected. -/
def Protect.slot (r : Protect) (s : Fin 32) : Bool := r.sceneEdge.holds r.sceneCount.val 32 s.val != r.complement

/-- A block is protected; block 255 is in no range. -/
def Protect.block (r : Protect) (b : Nat) : Bool :=
  b < 255 && (r.clipEdge.holds r.clipCount.toNat 255 b != r.complement)

/-- A pool step is protected: it lies in the stretch of a protected slot's header. -/
def protectedStep (t : Tables) (i : Nat) : Bool :=
  (List.finRange 32).any (fun s =>
    let h := t.scene.get s
    t.protect.slot s && h.firstStep.val ≤ i && i < h.firstStep.val + h.stepCount.toNat)

/-- Any block of an operation's pages is protected (R183). -/
def protectedPages (r : Protect) (k : OpKind) : Bool :=
  let first := k.pages.1 / 256
  let last := (k.pages.1 + k.pages.2 - 1) / 256
  (List.range (last + 1 - first)).any (fun i => r.block (first + i))

/-- SET-PROTECT and FREEZE are forbidden (R184). -/
def protectLocked (s : State) : Bool :=
  s.mgmt.protectState = .frozen || (s.tables.protect.mode = .keyed && !s.pins.key)

/-- The level of the maintenance key as it is read (R184, log 30). -/
def State.withKey (s : State) (key : Bool) : State := { s with pins := { s.pins with key := key } }

/-! ### Table writes (R175) -/

/-- Put entries at consecutive numbers of a table. -/
def putEntries {α : Type} {n : Nat} : Nat → List α → Tab α n → Tab α n
  | _, [], t => t
  | i, x :: rest, t => putEntries (i + 1) rest (if h : i < n then t.set ⟨i, h⟩ x else t)

/-- How a table takes a write: its entries' codec, the check that reads the present state, what is protected, and the
effect of an accepted write. Entries are numbered from 0. -/
structure Writer (α : Type) where
  codec : Codec α
  check : State → Nat → List α → Bool
  locked : State → Nat → List α → Bool
  put : Nat → List α → State → State

/-- A table without check or protection, whose effect is `put`. -/
def Writer.plain {α : Type} (c : Codec α) (put : Nat → List α → State → State) : Writer α :=
  ⟨c, fun _ _ _ => true, fun _ _ _ => false, put⟩

/-- A WRITE-TABLE to a table (R175): its tests in the order of R170, then its effect. -/
def State.write {α : Type} (s : State) (id : TableId) (w : Writer α) : State :=
  s.onAsk (isOf .writeTable id) (whenReady (withParams (writeParams w.codec id) (fun p s =>
    if !w.check s p.1 p.2 then s.answer codeBadRequest []
    else if w.locked s p.1 p.2 then s.answer codeProtected []
    else unlessStoring (fun s => settle (w.put p.1 p.2 s).done) s)))

/-- The numbers of the entries a write names, in a table of `n`. -/
def named (n i count : Nat) : List (Fin n) := (List.finRange n).filter (fun j => i ≤ j.val && j.val < i + count)

/-! ### Operations (R66, R185, R187) -/

/-- Asks that the store port takes are BUSY while a RESTART waits (R190, log 19). -/
def unlessRestarting (act : State → State) (s : State) : State :=
  if s.mgmt.restart = .none then act s else s.answer codeBusy []

/-- The port's own checks, then acceptance (R66). A STORE names no page that the later checks concern. -/
def handOperation (k : OpKind) (s : State) : State :=
  if s.port.op.isSome then s.answer codeBusy []
  else if k != .store && k.inImage then s.answer codeProtected []
  else if k != .store && pagesInUse s.bay k then s.answer codeInUse []
  else (acceptOp k s).done

/-- PAGE-PROGRAM and ERASE-SECTORS: protection, then the port (R185). -/
def clipOperation (k : OpKind) (s : State) : State :=
  if protectedPages s.tables.protect k then s.answer codeProtected [] else unlessRestarting (handOperation k) s

/-! ### Palette streaming (R21, R22) -/

/-- One component byte of a stream. -/
def streamByte (p : Staging × Tab Colour 256) (x : Byte) : Staging × Tab Colour 256 :=
  match p.1.staged with
  | [r, g, b] => (⟨p.1.pointer + 1, []⟩, p.2.set p.1.pointer.toFin ⟨r, g, b, x⟩)
  | staged => (⟨p.1.pointer, staged ++ [x]⟩, p.2)

/-- A PALETTE-STREAM. -/
def streamPalette (continues : Bool) (start : Byte) (bytes : List Byte) (s : State) : State :=
  let r := bytes.foldl streamByte (if continues then s.staging else ⟨start, []⟩, s.tables.palette)
  { s.setTables (fun t => { t with palette := r.2 }) with staging := r.1 }

/-! ### Start-up (R189) -/

/-- The axis unit takes its configuration: the captured homing values are those of the configuration (R77). -/
def captureAll (t : Tables) (b : Bay) : Bay := each 4 (fun a b => b.updAxis a (captureHoming (t.axis.get a))) b

/-- The axis unit begins to watch the proximity inputs; an input that is active goes active now (R89). -/
def watchProximity (active : BitVec 4) (t : Tables) (b : Bay) : Bay :=
  eachOf (members active) (fun p b => proxActive p t b) b

/-- Each axis with home-at-start yes enters HOMING (R84). -/
def homeAtStart (home : BitVec 4) (t : Tables) (b : Bay) : Bay :=
  each 4 (fun a b => if (t.axis.get a).homeAtStart then enterHoming (home.getLsbD a.val) a t b else b) b

/-- The mode becomes the start mode (R189 part 6, R150). -/
def startMode (t : Tables) (b : Bay) : Bay :=
  match t.config.startMode with
  | .showMode => b
  | .darkMode => enterDark t b

/-- The blocks of the bay take their tables (R189 parts 3 to 6). -/
def startBay (home active : BitVec 4) (trigPins : BitVec 12) (t : Tables) (b : Bay) : Bay :=
  startMode t (armEnabled t (keepPins trigPins (homeAtStart home t (watchProximity active t (captureAll t b)))))

/-- The image test decides IMAGE-INVALID (R177, R188). -/
def markImage (invalid : Bool) (s : State) : State :=
  let s := { s with mgmt := { s.mgmt with imageInvalid := invalid } }
  if invalid then s.latch .imageInvalid else s

/-- What start-up finds in the image as read (R186, R188): after a STORE that failed or was interrupted, no valid image (R72,
R187, R190, log 45). -/
def State.imageFound (s : State) (bytes : List Byte) : Option Tables :=
  if s.storeCut then none else imageTables (bytes.take 256) (bytes.drop 256)

/-- Start-up takes the working tables (R189). -/
def startUp (home : BitVec 4) (trigPins : BitVec 12) (s : State) : State :=
  match s.mgmt.startUp with
  | .imageRead bytes =>
    let image := s.imageFound bytes
    let s := markImage image.isNone s
    let s := { s with tables := image.getD Tables.factory, pins := { s.pins with home := home } }
    let s := s.onBay (startBay home s.pins.prox trigPins)
    { s with mgmt := { s.mgmt with startUp := .ready } }
  | _ => s

/-! ### Resets (R62, R190) -/

/-- What the flash holds of a step when a power-on reset cuts it off (R62): free values (log 3). -/
def cutStep (s : State) : Memory :=
  match s.port.op with
  | some o =>
    match o.phase, o.steps with
    | .gap, _ => s.flash
    | _, st :: _ => st.spoil s.draws s.flash
    | _, [] => s.flash
  | none => s.flash

/-- A reset keeps the flash and whether its last STORE was cut off, the serial, the pins, the model's draws and the commands
that wait. -/
def State.keeping (r s : State) : State :=
  { r with
    flash := s.flash, storeCut := s.storeCut, serial := s.serial, pins := s.pins, draws := s.draws, pending := s.pending }

/-- A power-on reset (R62, R177). A STORE in flight is interrupted by it (R187). -/
def powerOnReset (s : State) : State :=
  { State.reset.keeping s with flash := cutStep s, storeCut := s.storing || s.storeCut, draws := s.draws + 1 }

/-- The transmit queue keeps only a frame whose transmission has begun (R162). -/
def keepSending (l : LineUnit) : List TxEntry := if l.sending then l.tx.take 1 else []

/-- A RESTART takes effect (R190): it needs its ANSWER sent and no operation in flight. The protect state and the node
number are kept, and start-up reads the image. -/
def restartNow (s : State) : State :=
  if s.mgmt.restart = .answered && s.port.op.isNone then
    let r := State.reset.keeping s
    beginImageReads { r with
      tables := { r.tables with config := { r.tables.config with number := s.tables.config.number } }
      line := { r.line with tx := keepSending s.line, sending := s.line.sending }
      mgmt := { r.mgmt with protectState := s.mgmt.protectState } }
  else s

end Sys2Proof.Machine
end

