-- ==== Sys2Proof/Machine/Asks.lean ====
section
/-! DEFINITION. The asks but READ-TABLE and WRITE-TABLE (R178 to R190). -/

namespace Sys2Proof.Machine

/-! ### STATUS (R178) -/

/-- STATUS takes its values, then clears the latched half. Parameters are answered BAD-REQUEST (R178). -/
def takeStatus (params : List Byte) (s : State) : State :=
  if params = [] then (s.answer codeDone (statusData s)).clearLatched else s.answer codeBadRequest []

/-- STATUS: `key` is the level of the maintenance key as it is read. -/
def execStatus (key : Bool) (s : State) : Result :=
  .next (s.onAsk (isKind .status) (fun params s => takeStatus params (s.withKey key)))

/-- An ask of an unknown kind (R170). -/
def isUnknown (a : Ask) : Bool := a.askKind = none

/-- UNKNOWN_ASK (R170). -/
def execUnknownAsk (s : State) : Result :=
  .next (s.onAsk isUnknown (whenReady (fun _ s => s.answer codeBadRequest [])))

/-! ### The bay (R179, R180) -/

/-- The management unit sends a request of origin CONTROL and waits for its outcome (R179). -/
def startSceneAsk (slot : Fin 32) (s : State) : State :=
  settle ({ s with mgmt := { s.mgmt with waiting := .startScene } }.onBay (fun _ b => b.request ⟨slot, .control⟩))

/-- START_SCENE. -/
def execStartScene (s : State) : Result := .next (s.ask .startScene slotParam startSceneAsk)

/-- What a STOP-SCENE stops: ENDED 0, WITHDRAWN 1, NONE 2 (R179). -/
def stopResult (b : Bay) (slot : Fin 32) : Byte :=
  if (b.carrier slot).isSome then 0 else if (queued b slot).isSome then 1 else 2

/-- A STOP-SCENE acts on the slot as it stands, and answers what it stopped (R179). -/
def stopSceneAsk (slot : Fin 32) (s : State) : State :=
  settle ((s.onBay (stopScene slot)).answer codeDone [stopResult s.bay slot])

/-- STOP_SCENE. -/
def execStopScene (s : State) : Result := .next (s.ask .stopScene slotParam stopSceneAsk)

/-- ARM_TRIGGER (R143). -/
def execArmTrigger (s : State) : Result := .next (s.ask .armTrigger triggerParam (fun n s => (s.onBay (arm n)).done))

/-- DISARM_TRIGGER (R143). -/
def execDisarmTrigger (s : State) : Result :=
  .next (s.ask .disarmTrigger triggerParam (fun n s => (s.onBay (fun _ b => disarm n b)).done))

/-- The home input of an axis as it is read (R84, log 30). -/
def State.withHome (s : State) (a : Fin 4) (home : Bool) : State :=
  let bit : BitVec 4 := BitVec.ofNat 4 (2 ^ a.val)
  { s with pins := { s.pins with home := if home then s.pins.home ||| bit else s.pins.home &&& ~~~bit } }

/-- The axis unit decides a HOME-AXIS (R84). -/
def homeAxisAsk (home : Bool) (a : Fin 4) (s : State) : State :=
  if (s.bay.owner (axisRes a)).isSome then s.answer codeInUse []
  else
    match (s.bay.axisRec a).state with
    | .faulted => s.answer codeBadRequest []
    | .homing => s.done
    | .unhomed | .ready | .moving | .held => settle ((s.withHome a home).onBay (enterHoming home a)).done

/-- HOME_AXIS: `home` is the level of the axis's home input as it is read. -/
def execHomeAxis (home : Bool) (s : State) : Result := .next (s.ask .homeAxis axisParam (homeAxisAsk home))

/-- CLEAR_FAULT (R88). -/
def execClearFault (s : State) : Result :=
  .next (s.ask .clearFault axisParam (fun a s => (s.onBay (fun _ b => clearAxisFault a b)).done))

/-- A change of mode (R150, R151). -/
def changeMode (m : Mode) : Tables → Bay → Bay :=
  match m with
  | .showMode => enterShow
  | .darkMode => enterDark

/-- SET_MODE (R180). -/
def execSetMode (s : State) : Result :=
  .next (s.ask .setMode modeParam (fun m s => settle (s.onBay (changeMode m)).done))

/-! ### Working tables outside WRITE-TABLE (R181) -/

/-- SET_BANK. -/
def execSetBank (s : State) : Result :=
  .next (s.ask .setBank bankParam (fun k => unlessStoring (fun s => (s.setTables (fun t => { t with bank := k })).done)))

/-- PALETTE_STREAM (R21, R22). -/
def execPaletteStream (s : State) : Result :=
  .next (s.ask .paletteStream streamParams (fun p => unlessStoring (fun s => (streamPalette p.1 p.2.1 p.2.2 s).done)))

/-- SET_NUMBER (R156, R181). -/
def execSetNumber (s : State) : Result :=
  .next (s.ask .setNumber (numberParam s.serial) (fun n => unlessStoring (fun s =>
    (s.setTables (fun t => { t with config := { t.config with number := n } })).done)))

/-! ### Protection (R184) -/

/-- A SET-PROTECT with a record of good form. -/
def setProtectAsk (r : Protect) (s : State) : State :=
  if protectLocked s then s.answer codeProtected []
  else unlessStoring (fun s => (s.setTables (fun t => { t with protect := r })).done) s

/-- SET_PROTECT: `key` is the level of the maintenance key as it is read. -/
def execSetProtect (key : Bool) (s : State) : Result :=
  .next (s.ask .setProtect protectParam (fun r s => setProtectAsk r (s.withKey key)))

/-- A FREEZE of good form. -/
def freezeAsk (s : State) : State :=
  if protectLocked s then s.answer codeProtected []
  else { s with mgmt := { s.mgmt with protectState := .frozen } }.done

/-- FREEZE: `key` is the level of the maintenance key as it is read. -/
def execFreeze (key : Bool) (s : State) : Result :=
  .next (s.ask .freeze noParams (fun _ s => freezeAsk (s.withKey key)))

/-! ### The store port (R185, R187) -/

/-- STORE (R187). -/
def execStore (s : State) : Result :=
  .next (s.ask .store noParams (fun _ => unlessRestarting (handOperation .store)))

/-- ERASE_SECTORS (R185). -/
def execEraseSectors (s : State) : Result :=
  .next (s.ask .eraseSectors eraseParams (fun p => clipOperation (.eraseSectors p.1 p.2)))

/-- PAGE_PROGRAM (R185). -/
def execPageProgram (s : State) : Result :=
  .next (s.ask .pageProgram pageParam (fun p => clipOperation (.pageProgram p)))

/-- PAGE_FILL (R74, R185). -/
def execPageFill (s : State) : Result :=
  .next (s.ask .pageFill fillParams (fun p s =>
    (s.setPort (fun x => { x with buffer := fillBuffer p.1 p.2 x.buffer })).done))

/-- A READ-CLIP of good form: BUSY while an operation is in flight, else its read waits (R65). -/
def readClipAsk (r : ReadReq) (s : State) : State :=
  if s.port.op.isSome then s.answer codeBusy []
  else { s.setPort (fun p => { p with waiting := some r }) with mgmt := { s.mgmt with waiting := .readClip } }

/-- READ_CLIP (R65, R185). -/
def execReadClip (s : State) : Result := .next (s.ask .readClip clipParams (fun r => unlessRestarting (readClipAsk r)))

/-! ### RESTART (R190, R75) -/

/-- The ANSWER that a RESTART waits for. -/
def State.answerRestart (s : State) : State :=
  s.setTx (completeFirst (fun a => answerFrame a codeDone []) true s.line.tx)

/-- A RESTART of good form; a second one changes nothing further. -/
def restartAsk (s : State) : State :=
  if s.mgmt.restart = .none then
    { s.setPort (fun p => { p with restartWaiting := p.op.isSome }) with
      mgmt := { s.mgmt with restart := .answering } }.answerRestart
  else s.done

/-- RESTART. -/
def execRestart (s : State) : Result := .next (s.ask .restart noParams (fun _ => restartAsk))

end Sys2Proof.Machine
end

