-- ==== Sys2Proof/Machine/Clock.lean ====
section
/-! DEFINITION. The commands of the time base: the millisecond event with the work of every block (R1), the parts of it that
the table also lists alone (log 6), and the audio sample event. -/

namespace Sys2Proof.Machine

/-! ### The blocks' turns -/

/-- Show time gains 1 (R3). -/
def advanceTime (s : State) : State := { s with bay := { s.bay with time := s.bay.time + 1 } }

/-- The check of the start schedule, and its requests (R147). -/
def fireSchedule (s : State) : State := settle (s.onBay (fun _ b => checkSchedule b))

/-- The expiry check (R130). -/
def expireRequests (s : State) : State := s.onBay (fun _ b => expiryCheck b)

/-- The reading of the trigger pins: presses in ascending trigger number, each request taken before the next (R138). -/
def readTriggers (levels : BitVec 12) (s : State) : State :=
  if s.ready then
    (eachOf ((List.finRange 12).filter (pressed levels s.tables s.bay)) (fun n s => settle (s.onBay (press n))) s).onBay
      (fun _ b => keepPins levels b)
  else s

/-- The trigger unit's turn: the schedule check, then lockouts and presses in the order given (R138, R141). That lockouts too
are counted after the schedule check, and that the order given holds for the slow-flash count too (R142), so that with presses
first the event that makes a trigger WAITING is the first of its 500, is the model's choice (log 5). -/
def triggerTurn (inp : MsInputs) (s : State) : State :=
  let s := fireSchedule s
  let count := fun s : State => s.onBay (fun _ b => countTriggers b)
  if inp.pressFirst then count (readTriggers inp.trigPins s) else readTriggers inp.trigPins (count s)

/-- A block's turn at a millisecond event (R1). -/
def blockTurn (inp : MsInputs) (x : Block) (s : State) : State :=
  match x with
  | .time => advanceTime s
  | .fixture => s.onBay (pwmPeriod s.ready)
  | .axis => settle ({ s with pins := { s.pins with home := inp.home } }.onBay (axisMillisecond inp.home))
  | .scene => settle (s.onBay (sceneMillisecond endRun))
  | .claim => settle (s.onBay claimMillisecond)
  | .trigger => triggerTurn inp s
  | .line => lineMillisecond s
  | .store => portMillisecond s

/-- The order of the blocks' turns: the one that comes with the event, if the manual allows it (log 5). -/
def turns (inp : MsInputs) : List Block := if inp.wf then inp.order else Block.all

/-- MILLISECOND_EVENT (R1). -/
def execMillisecondEvent (inp : MsInputs) (s : State) : Result := .next (eachOf (turns inp) (blockTurn inp) s)

/-! ### Parts of it alone (log 6) -/

/-- GATE_TIMEOUT (R108). -/
def execGateTimeout (k : Fin 6) (s : State) : Result := .next (settle (s.onBay (gateLimit endRun k)))

/-- HOLD_TIMEOUT (R110). -/
def execHoldTimeout (k : Fin 6) (s : State) : Result := .next (settle (s.onBay (holdLimit endRun k)))

/-- A scan, if record `k` has no resume guard (R127). -/
def guardExpiry (k : Fin 6) (t : Tables) (b : Bay) : Bay :=
  if (b.run k).state != .free && (b.run k).guard = 0 then scan endRun t b else b

/-- RESUME_GUARD_EXPIRY (R127). -/
def execResumeGuardExpiry (k : Fin 6) (s : State) : Result := .next (settle (s.onBay (guardExpiry k)))

/-- REQUEST_EXPIRY (R130). -/
def execRequestExpiry (s : State) : Result := .next (expireRequests s)

/-- SCHEDULE_FIRE (R147). -/
def execScheduleFire (s : State) : Result := .next (fireSchedule s)

/-- LOCKOUT_EXPIRY (R141). -/
def execLockoutExpiry (n : Fin 12) (s : State) : Result := .next (s.onBay (fun _ b => b.updTrigger n Trigger.expire))

/-- INDICATOR_FLASH (R142). -/
def execIndicatorFlash (n : Fin 12) (s : State) : Result := .next (s.onBay (fun _ b => b.updTrigger n Trigger.flashOver))

/-- LINE_LOST (R169). -/
def execLineLost (s : State) : Result := .next (lineLost s)

/-- FRAME_CUT_OFF (R159). -/
def execFrameCutOff (s : State) : Result := .next (cutOff s)

/-- CLEAR_DELAY_EXPIRY (R91, R92). -/
def execClearDelayExpiry (p : Fin 4) (s : State) : Result := .next (settle (s.onBay (clearDelayEnd p)))

/-- STEP_LIMIT_EXCEEDED (R69, R72). -/
def execStepLimitExceeded (s : State) : Result := .next (stepLimit s)

/-! ### The audio sample event -/

/-- AUDIO_SAMPLE_EVENT (R46, R53 to R55). -/
def execAudioSampleEvent (s : State) : Result := .next (s.onBay (audioEvent s.ready))

end Sys2Proof.Machine
end

