-- ==== Sys2Proof/Machine/LineEvents.lean ====
section
/-! DEFINITION. The commands of the show line: an arriving character by what it completes, and the transmitter. -/

namespace Sys2Proof.Machine

/-! ### Characters (R158) -/

/-- CHARACTER_RECEIVED: a character that completes neither a header nor a frame. -/
def execCharacterReceived (c : RxChar) (s : State) : Result :=
  if s.rxEvent c = .quiet then .next (s.rxTake c) else .next s

/-- GOOD_HEADER (R158, R169). -/
def execGoodHeader (c : RxChar) (s : State) : Result :=
  if s.rxEvent c = .goodHeader then .next (headerHeard (s.rxTake c)) else .next s

/-- HEADER_ERROR (R158). -/
def execHeaderError (c : RxChar) (s : State) : Result :=
  if s.rxEvent c = .headerError then .next ((s.rxTake c).latch .headerError) else .next s

/-! ### Frames the node acts on and forwards (R157, R160) -/

/-- Show time is adopted (R5); at a change the schedule and the deadlines are checked, in the order given (R6, log 24). -/
def adoptTime (u : ShowTime) (expiryFirst : Bool) (s : State) : State :=
  if s.bay.time = u then s
  else
    let s := { s with bay := { s.bay with time := u } }
    if expiryFirst then fireSchedule (expireRequests s) else expireRequests (fireSchedule s)

/-- TIME_FRAME (R5). -/
def execTimeFrame (c : RxChar) (expiryFirst : Bool) (s : State) : Result :=
  .next (s.onFrame c .time (fun _ f s =>
    adoptTime (BitVec.ofNat 32 (field f.body 0 4)) expiryFirst (forward f s)))

/-- LEVEL_FRAME (R26). -/
def execLevelFrame (c : RxChar) (s : State) : Result :=
  .next (s.onFrame c .level (fun _ f s =>
    (forward f s).onBay (takeLevels (field f.body 0 1) (field f.body 1 2) (field f.body 3 4) (f.body.drop 7))))

/-- The start time that a GO cue carries (R153). -/
def goTime (body : List Byte) : Option ShowTime :=
  if body.length = 7 then some (BitVec.ofNat 32 (field body 3 4)) else none

/-- CUE_GO (R145). -/
def execCueGo (c : RxChar) (s : State) : Result :=
  .next (s.onFrame c .go (fun _ f s =>
    settle ((forward f s).onBay (takeGo (BitVec.ofNat 16 (field f.body 1 2)) (goTime f.body)))))

/-- CUE_HALT_ALL (R149). -/
def execCueHaltAll (c : RxChar) (s : State) : Result :=
  .next (s.onFrame c .haltAll (fun _ f s => settle ((forward f s).onBay haltAll)))

/-- CUE_HOUSE_DARK (R150). -/
def execCueHouseDark (c : RxChar) (s : State) : Result :=
  .next (s.onFrame c .houseDark (fun _ f s => settle ((forward f s).onBay enterDark)))

/-- CUE_HOUSE_SHOW (R151). -/
def execCueHouseShow (c : RxChar) (s : State) : Result :=
  .next (s.onFrame c .houseShow (fun _ f s => settle ((forward f s).onBay enterShow)))

/-- The kind of a notice by its code (R153). -/
def noticeKindOf (code : Nat) : NoticeKind := if code = 1 then .trigger else .signal

/-- NOTICE_FRAME (R144). -/
def execNoticeFrame (c : RxChar) (s : State) : Result :=
  .next (s.onFrame c .notice (fun _ f s =>
    settle ((forward f s).onBay
      (takeNotice f.node.toNat (noticeKindOf (field f.body 0 1)) (BitVec.ofNat 8 (field f.body 1 1))))))

/-! ### Frames replaced by another (R157) -/

/-- The frame that the arriving character completes has a bad body. -/
def badFrame (s : State) (c : RxChar) : Bool :=
  match s.rxEvent c with
  | .frame _ f framing => !goodBody f framing
  | _ => false

/-- NOTICE_STRIP (R168); a bad body latches BODY-ERROR (R161). -/
def execNoticeStrip (c : RxChar) (s : State) : Result :=
  .next (s.onFrame c .strip (fun own _ s' => fillOr own emptyFrame (if badFrame s c then s'.latch .bodyError else s')))

/-- EMPTY_FILL (R167). -/
def execEmptyFill (c : RxChar) (s : State) : Result := .next (s.onFrame c .empty fillOr)

/-- ASK_FRAME (R163). -/
def execAskFrame (c : RxChar) (s : State) : Result := .next (s.onFrame c .ask (fun _ => enterAsk))

/-- SET_NUMBER_BY_SERIAL (R165). -/
def execSetNumberBySerial (c : RxChar) (s : State) : Result := .next (s.onFrame c .setNumber (fun _ => setNumberAsk))

/-- ASK_REJECTED_CHECK (R164). -/
def execAskRejectedCheck (c : RxChar) (s : State) : Result := .next (s.onFrame c .rejected (fun _ => rejectAsk))

/-! ### Frames only forwarded -/

/-- BAD_BODY_FRAME (R161). -/
def execBadBodyFrame (c : RxChar) (s : State) : Result :=
  .next (s.onFrame c .badBody (fun _ f s => forward f (s.latch .bodyError)))

/-- FRAME_FORWARD (R157). -/
def execFrameForward (c : RxChar) (s : State) : Result := .next (s.onFrame c .forward (fun _ => forward))

/-! ### The transmitter (R162) -/

/-- TRANSMIT_START. -/
def execTransmitStart (s : State) : Result := .next (startSending s)

/-- TRANSMIT_DONE. -/
def execTransmitDone (s : State) : Result := .next (doneSending s)

end Sys2Proof.Machine
end

