-- ==== Sys2Proof/Machine/PinEvents.lean ====
section
/-! DEFINITION. The commands of the pins: presses, proximity inputs and quadrature changes. -/

namespace Sys2Proof.Machine

/-- A bit of a set of pins, set to a level. -/
def setBit {n : Nat} (m : BitVec n) (i : Nat) (on : Bool) : BitVec n :=
  if on then m ||| BitVec.ofNat n (2 ^ i) else m &&& ~~~BitVec.ofNat n (2 ^ i)

/-- The reading that presses trigger `n` alone (R138). -/
def pressPin (n : Fin 12) (t : Tables) (b : Bay) : BitVec 12 :=
  setBit b.trigger.pins n.val (t.trigger.get n).polarity.active

/-- A press on trigger `n` is read: its pin changes to the active level, and the press is taken (R138, R139). -/
def takePress (n : Fin 12) (t : Tables) (b : Bay) : Bay := keepPins (pressPin n t b) (press n t b)

/-- TRIGGER_PRESS (R139): a reading of one pin between millisecond events, which finds a press and keeps that level (log 6).
With `late` its request reaches the claim unit only after the next command (R149, R151, log 8). -/
def execTriggerPress (n : Fin 12) (late : Bool) (s : State) : Result :=
  if s.ready && pressed (pressPin n s.tables s.bay) s.tables s.bay n then
    .next (if late then s.onBay (takePress n) else settle (s.onBay (takePress n)))
  else .next s

/-- Set the level of a proximity input. -/
def State.setProx (s : State) (p : Fin 4) (on : Bool) : State :=
  { s with pins := { s.pins with prox := setBit s.pins.prox p.val on } }

/-- PROXIMITY_ACTIVE (R90). Before start-up the inputs are not watched (R89): the level alone changes. -/
def execProximityActive (p : Fin 4) (s : State) : Result :=
  if s.pins.prox.getLsbD p.val then .next s
  else if s.ready then .next (settle ((s.setProx p true).onBay (proxActive p)))
  else .next (s.setProx p true)

/-- PROXIMITY_INACTIVE (R91). -/
def execProximityInactive (p : Fin 4) (s : State) : Result :=
  if !s.pins.prox.getLsbD p.val then .next s
  else if s.ready then .next (settle ((s.setProx p false).onBay (proxInactive p)))
  else .next (s.setProx p false)

/-- The levels of an axis's quadrature inputs become `a` and `b`. -/
def State.setQuad (s : State) (x : Fin 4) (a b : Bool) : State :=
  { s with pins := { s.pins with quadA := setBit s.pins.quadA x.val a, quadB := setBit s.pins.quadB x.val b } }

/-- QUADRATURE_CHANGE (R78): axis `a`'s inputs become `pinA` and `pinB`. -/
def execQuadratureChange (a : Fin 4) (pinA pinB : Bool) (s : State) : Result :=
  let n := quadCount (s.pins.quadA.getLsbD a.val) (s.pins.quadB.getLsbD a.val) pinA pinB
  .next ((s.setQuad a pinA pinB).onBay (countQuad n a))

end Sys2Proof.Machine
end

