-- ==== Sys2Proof/Machine/Resets.lean ====
section
/-! DEFINITION. The commands of reset and start-up. -/

namespace Sys2Proof.Machine

/-- POWER_ON_RESET (R62, R177). -/
def execPowerOnReset (s : State) : Result := .next (powerOnReset s)

/-- FLASH_READY (R62): the ready wait ends and the image reads begin. -/
def execFlashReady (s : State) : Result := .next (flashReady s)

/-- FLASH_READY_TIMEOUT (R62): the ready wait has lasted 500 millisecond events (log 6). -/
def execFlashReadyTimeout (s : State) : Result := .next (readyTimeout s)

/-- START_UP (R189): `home` and `trigPins` are the home inputs and the trigger pins as start-up reads them. -/
def execStartUp (home : BitVec 4) (trigPins : BitVec 12) (s : State) : Result := .next (startUp home trigPins s)

/-- RESTART_TAKES_EFFECT (R190). -/
def execRestartTakesEffect (s : State) : Result := .next (restartNow s)

end Sys2Proof.Machine
end

