-- ==== Sys2Proof/Machine/StoreEvents.lean ====
section
/-! DEFINITION. The commands of the store port: the moments at which its transfers and the flash's work begin and end
(log 21). -/

namespace Sys2Proof.Machine

/-- REFILL_READ_START (R64). -/
def execRefillReadStart (s : State) : Result := .next (beginRefill s)

/-- REFILL_COMPLETE (R45). -/
def execRefillComplete (s : State) : Result := .next (endRefill s)

/-- MANAGEMENT_READ_START (R63, R65). -/
def execManagementReadStart (s : State) : Result := .next (beginManagementRead s)

/-- MANAGEMENT_READ_DONE (R65, R188). -/
def execManagementReadDone (s : State) : Result := .next (endManagementRead s)

/-- OPERATION_STEP_START (R67). -/
def execOperationStepStart (s : State) : Result := .next (beginStep s)

/-- FLASH_STEP_READY (R68): `failed` is the flash's failure indication. -/
def execFlashStepReady (failed : Bool) (s : State) : Result := .next (stepReady failed s)

/-- FLASH_SUSPEND (R70). -/
def execFlashSuspend (s : State) : Result := .next (suspendOp s)

/-- FLASH_SUSPENDED (R71). -/
def execFlashSuspended (s : State) : Result := .next (opSuspended s)

/-- FLASH_RESUME (R71). -/
def execFlashResume (s : State) : Result := .next (resumeOp s)

end Sys2Proof.Machine
end

