-- ==== Sys2Proof/Machine/Writes.lean ====
section
/-! DEFINITION. The asks that read and write tables (R174 to R176, and the write rule of each table's block). -/

namespace Sys2Proof.Machine

/-! ### READ-TABLE -/

/-- A READ-TABLE is answered with entries (R174). -/
def answerRead (p : TableId × Nat × Nat) (s : State) : State :=
  s.answer codeDone (readData (readEntries s p.1 p.2.1 p.2.2))

/-- An ask is a READ-TABLE of a table other than VOICE, or of none. -/
def isPlainRead (a : Ask) : Bool := isKind .readTable a && namedTable a.params != some .voice

/-- READ_TABLE (R174). -/
def execReadTable (s : State) : Result := .next (s.onAsk isPlainRead (whenReady (withParams readParams answerRead)))

/-- READ_TABLE_VOICE (R54, R174). -/
def execReadTableVoice (s : State) : Result :=
  .next (s.onAsk (isOf .readTable .voice) (whenReady (withParams readParams (fun p s =>
    (answerRead p s).onBay (fun _ b => clearReadClips p.2.1 (readEntries s p.1 p.2.1 p.2.2).length b)))))

/-! ### WRITE-TABLE -/

/-- The working tables (R172). -/
def TableId.working : TableId → Bool
  | .protect | .run | .voice | .axisState | .queue | .schedule | .sceneStatus => false
  | _ => true

/-- An ask is a WRITE-TABLE of no working table. -/
def isStrayWrite (a : Ask) : Bool := isKind .writeTable a && !((namedTable a.params).map TableId.working).getD false

/-- WRITE_TABLE (R175): PROTECT, a run-time table or an unknown table is refused. -/
def execWriteTable (s : State) : Result :=
  .next (s.onAsk isStrayWrite (whenReady (fun _ s => s.answer codeBadRequest [])))

/-- WRITE_TABLE_CONFIG (R176): the node number it carries is disregarded. -/
def execWriteTableConfig (s : State) : Result :=
  .next (s.write .config (.plain configC (fun _ l s => s.setTables (fun t =>
    { t with config := { (l.headD t.config) with number := t.config.number } }))))

/-- WRITE_TABLE_PALETTE (R18). -/
def execWriteTablePalette (s : State) : Result :=
  .next (s.write .palette (.plain colourC (fun i l s => s.setTables (fun t => { t with palette := putEntries i l t.palette }))))

/-- WRITE_TABLE_HIGHLIGHT (R19). -/
def execWriteTableHighlight (s : State) : Result :=
  .next (s.write .highlight (.plain colourC (fun i l s =>
    s.setTables (fun t => { t with highlight := putEntries i l t.highlight }))))

/-- WRITE_TABLE_HOUSE (R19). -/
def execWriteTableHouse (s : State) : Result :=
  .next (s.write .house (.plain colourC (fun _ l s => s.setTables (fun t => { t with house := l.headD t.house }))))

/-- WRITE_TABLE_BANK (R20). -/
def execWriteTableBank (s : State) : Result :=
  .next (s.write .bank (.plain bankC (fun _ l s => s.setTables (fun t => { t with bank := l.headD t.bank }))))

/-- WRITE_TABLE_FIXTURE (R24). -/
def execWriteTableFixture (s : State) : Result :=
  .next (s.write .fixture (.plain fixtureC (fun i l s => s.setTables (fun t => { t with fixture := putEntries i l t.fixture }))))

/-- WRITE_TABLE_PATCH (R25): the line lane of each named component goes to 0. -/
def execWriteTablePatch (s : State) : Result :=
  .next (s.write .patch (.plain patchC (fun i l s =>
    (s.setTables (fun t => { t with patch := putEntries i l t.patch })).onBay (fun t b =>
      eachOf (named 64 i l.length) (fun e b => clearLine e t b) b))))

/-- WRITE_TABLE_CLIP (R42). -/
def execWriteTableClip (s : State) : Result :=
  .next (s.write .clip (.plain clipC (fun i l s => s.setTables (fun t => { t with clip := putEntries i l t.clip }))))

/-- WRITE_TABLE_ZONE (R50, R52). -/
def execWriteTableZone (s : State) : Result :=
  .next (s.write .zone (.plain zoneC (fun i l s =>
    (s.setTables (fun t => { t with zone := putEntries i l t.zone })).onBay duckExamine)))

/-- The soft limits of each written axis fit it (R79). -/
def axesFit (s : State) (i : Nat) (l : List AxisCfg) : Bool :=
  let new := putEntries i l s.tables.axis
  (named 4 i l.length).all (fun a => axisFits (new.get a) (s.bay.axisRec a))

/-- WRITE_TABLE_AXIS (R79). -/
def execWriteTableAxis (s : State) : Result :=
  .next (s.write .axis ⟨axisC, axesFit, fun _ _ _ => false, fun i l s =>
    let new := putEntries i l s.tables.axis
    (s.setTables (fun t => { t with axis := new })).onBay (fun _ b =>
      eachOf (named 4 i l.length) (fun a b => axisWritten (s.tables.axis.get a) (new.get a) a b) b)⟩)

/-- WRITE_TABLE_PROXIMITY (R93), the records in ascending number (log 41). -/
def execWriteTableProximity (s : State) : Result :=
  .next (s.write .proximity (.plain proxC (fun i l s =>
    let new := putEntries i l s.tables.prox
    (s.setTables (fun t => { t with prox := new })).onBay (fun t b =>
      eachOf (named 4 i l.length) (fun p b => proxWritten p (s.tables.prox.get p).axes (new.get p).axes t b) b))))

/-- WRITE_TABLE_SCENE (R98, R183): after it the claim unit scans the queue (R131). -/
def execWriteTableScene (s : State) : Result :=
  .next (s.write .scene ⟨sceneC, fun _ _ _ => true,
    fun s i l => (named 32 i l.length).any s.tables.protect.slot,
    fun i l s => (s.setTables (fun t => { t with scene := putEntries i l t.scene })).onBay (scan endRun)⟩)

/-- WRITE_TABLE_STEP (R99, R183). -/
def execWriteTableStep (s : State) : Result :=
  .next (s.write .step ⟨stepC, fun _ _ _ => true,
    fun s i l => (List.range l.length).any (fun j => protectedStep s.tables (i + j)),
    fun i l s => s.setTables (fun t => { t with step := putEntries i l t.step })⟩)

/-- A trigger whose written configuration has enabled no becomes DISARMED (R136). -/
def disarmDisabled (t : Tables) (n : Fin 12) (b : Bay) : Bay := if (t.trigger.get n).enabled then b else disarm n b

/-- WRITE_TABLE_TRIGGER (R136). -/
def execWriteTableTrigger (s : State) : Result :=
  .next (s.write .trigger (.plain triggerC (fun i l s =>
    (s.setTables (fun t => { t with trigger := putEntries i l t.trigger })).onBay (fun t b =>
      eachOf (named 12 i l.length) (disarmDisabled t) b))))

/-- WRITE_TABLE_REMOTE (R144). -/
def execWriteTableRemote (s : State) : Result :=
  .next (s.write .remote (.plain remoteC (fun i l s => s.setTables (fun t => { t with remote := putEntries i l t.remote }))))

/-- WRITE_TABLE_CUE (R145). -/
def execWriteTableCue (s : State) : Result :=
  .next (s.write .cue (.plain cueC (fun i l s => s.setTables (fun t => { t with cue := putEntries i l t.cue }))))

end Sys2Proof.Machine
end

