-- ==== Sys2Proof/Machine/Dispatch.lean ====
section
/-! DEFINITION. What each command does to everything but the queue: one arm per command. -/

namespace Sys2Proof.Machine

def exec (i : Instr) (s : State) : Host.Outcome State Fault Refusal :=
  match i with
  | .powerOnReset => Sys2Proof.Machine.execPowerOnReset s
  | .flashReady => Sys2Proof.Machine.execFlashReady s
  | .flashReadyTimeout => Sys2Proof.Machine.execFlashReadyTimeout s
  | .startUp home trigPins => Sys2Proof.Machine.execStartUp home trigPins s
  | .restartTakesEffect => Sys2Proof.Machine.execRestartTakesEffect s
  | .millisecondEvent inp => Sys2Proof.Machine.execMillisecondEvent inp s
  | .gateTimeout k => Sys2Proof.Machine.execGateTimeout k s
  | .holdTimeout k => Sys2Proof.Machine.execHoldTimeout k s
  | .resumeGuardExpiry k => Sys2Proof.Machine.execResumeGuardExpiry k s
  | .requestExpiry => Sys2Proof.Machine.execRequestExpiry s
  | .scheduleFire => Sys2Proof.Machine.execScheduleFire s
  | .lockoutExpiry n => Sys2Proof.Machine.execLockoutExpiry n s
  | .indicatorFlash n => Sys2Proof.Machine.execIndicatorFlash n s
  | .lineLost => Sys2Proof.Machine.execLineLost s
  | .frameCutOff => Sys2Proof.Machine.execFrameCutOff s
  | .clearDelayExpiry p => Sys2Proof.Machine.execClearDelayExpiry p s
  | .audioSampleEvent => Sys2Proof.Machine.execAudioSampleEvent s
  | .triggerPress n late => Sys2Proof.Machine.execTriggerPress n late s
  | .proximityActive p => Sys2Proof.Machine.execProximityActive p s
  | .proximityInactive p => Sys2Proof.Machine.execProximityInactive p s
  | .quadratureChange a pinA pinB => Sys2Proof.Machine.execQuadratureChange a pinA pinB s
  | .refillReadStart => Sys2Proof.Machine.execRefillReadStart s
  | .refillComplete => Sys2Proof.Machine.execRefillComplete s
  | .managementReadStart => Sys2Proof.Machine.execManagementReadStart s
  | .managementReadDone => Sys2Proof.Machine.execManagementReadDone s
  | .operationStepStart => Sys2Proof.Machine.execOperationStepStart s
  | .flashStepReady failed => Sys2Proof.Machine.execFlashStepReady failed s
  | .stepLimitExceeded => Sys2Proof.Machine.execStepLimitExceeded s
  | .flashSuspend => Sys2Proof.Machine.execFlashSuspend s
  | .flashSuspended => Sys2Proof.Machine.execFlashSuspended s
  | .flashResume => Sys2Proof.Machine.execFlashResume s
  | .goodHeader c => Sys2Proof.Machine.execGoodHeader c s
  | .headerError c => Sys2Proof.Machine.execHeaderError c s
  | .timeFrame c expiryFirst => Sys2Proof.Machine.execTimeFrame c expiryFirst s
  | .levelFrame c => Sys2Proof.Machine.execLevelFrame c s
  | .cueGo c => Sys2Proof.Machine.execCueGo c s
  | .cueHaltAll c => Sys2Proof.Machine.execCueHaltAll c s
  | .cueHouseDark c => Sys2Proof.Machine.execCueHouseDark c s
  | .cueHouseShow c => Sys2Proof.Machine.execCueHouseShow c s
  | .noticeFrame c => Sys2Proof.Machine.execNoticeFrame c s
  | .noticeStrip c => Sys2Proof.Machine.execNoticeStrip c s
  | .emptyFill c => Sys2Proof.Machine.execEmptyFill c s
  | .askFrame c => Sys2Proof.Machine.execAskFrame c s
  | .setNumberBySerial c => Sys2Proof.Machine.execSetNumberBySerial c s
  | .askRejectedCheck c => Sys2Proof.Machine.execAskRejectedCheck c s
  | .badBodyFrame c => Sys2Proof.Machine.execBadBodyFrame c s
  | .frameForward c => Sys2Proof.Machine.execFrameForward c s
  | .transmitStart => Sys2Proof.Machine.execTransmitStart s
  | .transmitDone => Sys2Proof.Machine.execTransmitDone s
  | .status key => Sys2Proof.Machine.execStatus key s
  | .readTable => Sys2Proof.Machine.execReadTable s
  | .readTableVoice => Sys2Proof.Machine.execReadTableVoice s
  | .writeTable => Sys2Proof.Machine.execWriteTable s
  | .writeTableConfig => Sys2Proof.Machine.execWriteTableConfig s
  | .writeTablePalette => Sys2Proof.Machine.execWriteTablePalette s
  | .writeTableHighlight => Sys2Proof.Machine.execWriteTableHighlight s
  | .writeTableHouse => Sys2Proof.Machine.execWriteTableHouse s
  | .writeTableBank => Sys2Proof.Machine.execWriteTableBank s
  | .writeTableFixture => Sys2Proof.Machine.execWriteTableFixture s
  | .writeTablePatch => Sys2Proof.Machine.execWriteTablePatch s
  | .writeTableClip => Sys2Proof.Machine.execWriteTableClip s
  | .writeTableZone => Sys2Proof.Machine.execWriteTableZone s
  | .writeTableAxis => Sys2Proof.Machine.execWriteTableAxis s
  | .writeTableProximity => Sys2Proof.Machine.execWriteTableProximity s
  | .writeTableScene => Sys2Proof.Machine.execWriteTableScene s
  | .writeTableStep => Sys2Proof.Machine.execWriteTableStep s
  | .writeTableTrigger => Sys2Proof.Machine.execWriteTableTrigger s
  | .writeTableRemote => Sys2Proof.Machine.execWriteTableRemote s
  | .writeTableCue => Sys2Proof.Machine.execWriteTableCue s
  | .paletteStream => Sys2Proof.Machine.execPaletteStream s
  | .startScene => Sys2Proof.Machine.execStartScene s
  | .stopScene => Sys2Proof.Machine.execStopScene s
  | .armTrigger => Sys2Proof.Machine.execArmTrigger s
  | .disarmTrigger => Sys2Proof.Machine.execDisarmTrigger s
  | .homeAxis home => Sys2Proof.Machine.execHomeAxis home s
  | .clearFault => Sys2Proof.Machine.execClearFault s
  | .setMode => Sys2Proof.Machine.execSetMode s
  | .setBank => Sys2Proof.Machine.execSetBank s
  | .setNumber => Sys2Proof.Machine.execSetNumber s
  | .setProtect key => Sys2Proof.Machine.execSetProtect key s
  | .freeze key => Sys2Proof.Machine.execFreeze key s
  | .store => Sys2Proof.Machine.execStore s
  | .restart => Sys2Proof.Machine.execRestart s
  | .eraseSectors => Sys2Proof.Machine.execEraseSectors s
  | .pageFill => Sys2Proof.Machine.execPageFill s
  | .pageProgram => Sys2Proof.Machine.execPageProgram s
  | .readClip => Sys2Proof.Machine.execReadClip s
  | .unknownAsk => Sys2Proof.Machine.execUnknownAsk s
  | .characterReceived c => Sys2Proof.Machine.execCharacterReceived c s

end Sys2Proof.Machine
end

