-- ==== Sys2Proof/Safety.lean ====
section
/-! DEFINITION. What the model's statements speak of: the invariant of the node, and the conditions under which an ask, a
table write or a frame is taken. -/

namespace Sys2Proof.Machine

/-! ### The working tables stay in range -/

/-- An entry of the cue map names a cue (R145). -/
def CueMap.fits (c : CueMap) : Bool := c.cue != 0

/-- Every entry of the working tables lies in the ranges that its rule gives beyond its types: axes (R76), clips (R42),
headers (R98), remote-trigger and cue map entries (R144, R145). -/
def Tables.fits (t : Tables) : Bool :=
  t.axis.list.all AxisCfg.fits && t.clip.list.all Clip.fits && t.scene.list.all Header.fits &&
    t.remote.list.all (fun e => e.all Remote.fits) && t.cue.list.all (fun e => e.all CueMap.fits)

/-! ### The invariant -/

/-- The head of the transmit queue is complete (R162). -/
def headComplete : List TxEntry → Bool
  | .frame _ _ :: _ => true
  | _ => false

/-- The line unit stays in its bounds: at most 4 entries wait (R162), one of them complete at the head while it is being
sent, and LINE-UP has heard a header within 250 events (R169). -/
def LineUnit.inv (l : LineUnit) : Bool :=
  l.tx.length ≤ 4 && l.count ≤ 250 && (l.state = .lost || l.count < 250) &&
    (!l.sending || headComplete l.tx)

/-- The link is the operation's own exactly while the flash works on a step (R63), and a step sends at most a page of bytes
(R67). -/
def StorePort.inv (p : StorePort) : Bool :=
  p.working == decide (p.link = .operation) && p.op.all (fun o => decide (o.sent.length ≤ 256))

/-- The claim table (R118, R119): an owner has the resource in its claim set; the return stack holds just the records that
have it in their claim set and lack it; run priorities fall from the owner down the stack, so that no record stands in it
twice; and a free resource has none. -/
def Bay.stacksInv (b : Bay) : Bool := decide (∀ r : Fin 22,
  (∀ k, b.owner r = some k → (b.claims k).has r = true) ∧
  (∀ k, k ∈ (b.claim.claim.get r).stack ↔ (b.claims k).has r = true ∧ b.owner r ≠ some k) ∧
  (((b.owner r).toList ++ (b.claim.claim.get r).stack).map (runPriority b)).Pairwise (· > ·) ∧
  (b.owner r = none → (b.claim.claim.get r).stack = []))

/-- The run records (R101, R111, R119): SUSPENDED is a record that lacks a resource of its claim set; a FREE one holds the
values of R101, and any other has a slot and a snapshot; no two records carry one slot. -/
def Bay.runsInv (b : Bay) : Bool := decide (∀ k : Fin 6,
  ((b.run k).state = .suspended ↔ whole b k = false) ∧
  ((b.run k).state = .free → b.run k = RunRec.free) ∧
  ((b.run k).state ≠ .free → (b.run k).slot.isSome = true ∧ (b.run k).snap.isSome = true) ∧
  ∀ j, (b.run j).slot = (b.run k).slot → (b.run k).slot ≠ none → j = k)

/-- The request queue (R129): at most 8 entries in falling request priority, no two for one slot, and none for a slot that a
record carries. -/
def Bay.queueInv (b : Bay) : Bool := decide (b.claim.queue.length ≤ 8 ∧
  (b.claim.queue.map (·.priority)).Pairwise (· ≥ ·) ∧ (b.claim.queue.map (·.slot)).Nodup ∧
  ∀ e ∈ b.claim.queue, b.carrier e.slot = none)

/-- The start schedule (R146): at most 8 entries, no two for one slot. -/
def Bay.scheduleInv (b : Bay) : Bool :=
  decide (b.trigger.schedule.length ≤ 8 ∧ (b.trigger.schedule.map (·.slot)).Nodup)

/-- The claim table, the run records, the request queue and the start schedule are as their rules have them. -/
def Bay.inv (b : Bay) : Bool := b.stacksInv && b.runsInv && b.queueInv && b.scheduleInv

/-- The invariant of the node: the flash keeps its canonical form, the tables stay in range, the line unit and the store
port stay in their bounds, at most three bytes are staged (R21), and the claim table, the run records and the two queues are
as their rules have them (R101, R118, R119, R129, R146). -/
def NodeInv (s : State) : Bool :=
  s.flash.wf && s.tables.fits && s.line.inv && s.port.inv && s.staging.staged.length ≤ 3 && s.bay.inv

/-! ### Which commands change what -/

/-- The commands that reset the node (R62, R190). -/
def isReset : Instr → Bool
  | .powerOnReset | .restartTakesEffect => true
  | _ => false

/-- The management commands that change working tables or the protect record (R187). -/
def isTableAsk : Instr → Bool
  | .writeTableConfig | .writeTablePalette | .writeTableHighlight | .writeTableHouse | .writeTableBank | .writeTableFixture
  | .writeTablePatch | .writeTableClip | .writeTableZone | .writeTableAxis | .writeTableProximity | .writeTableScene
  | .writeTableStep | .writeTableTrigger | .writeTableRemote | .writeTableCue | .paletteStream | .setBank | .setNumber
  | .setProtect _ => true
  | _ => false

/-- The commands by which the flash changes (R61, R62, R69, R72). -/
def isFlashWork : Instr → Bool
  | .powerOnReset | .flashStepReady _ | .stepLimitExceeded | .millisecondEvent _ => true
  | _ => false

/-- An address lies in the sector or page of the present step of the operation in flight. -/
def StorePort.atStep (p : StorePort) (a : Nat) : Prop :=
  ∃ o st rest, p.op = some o ∧ o.steps = st :: rest ∧ st.range.1 ≤ a ∧ a < st.range.1 + st.range.2

/-! ### Conditions -/

/-- The management unit takes next an ask of kind `k` with the parameters `params`. -/
def Asked (s : State) (k : AskKind) (params : List Byte) : Prop :=
  ∃ a, s.nextAsk = some a ∧ a.askKind = some k ∧ a.params = params

/-- The node is ready, and the management unit takes next an ask of kind `k` with the parameters `params`. -/
def Taken (s : State) (k : AskKind) (params : List Byte) : Prop := s.ready = true ∧ Asked s k params

/-- The node is ready, no STORE is in flight, and the management unit takes next a WRITE-TABLE to a table whose codec reads
the entries `l` from its entry `i` on (counted from 0). -/
def Writes {α : Type} (s : State) (id : TableId) (c : Codec α) (i : Nat) (l : List α) : Prop :=
  s.storing = false ∧ ∃ params, Taken s .writeTable params ∧ namedTable params = some id ∧ writeParams c id params = some (i, l)

/-- The arriving character completes a frame that the node treats as `t`, and the transmit queue has room. -/
def Completes (s : State) (c : RxChar) (t : Treatment) (own : Fin 251) (f : Frame) : Prop :=
  s.frameFor c t = some (own, f) ∧ s.line.tx.length < 4

/-- No request is in flight and no START-SCENE waits for its outcome. -/
def Settled (s : State) : Prop := s.bay.claim.inFlight = [] ∧ s.mgmt.waiting ≠ .startScene

/-! ### Effects that statements name -/

/-- What a step that names fixtures does to one fixture it is handed (R32 to R34). -/
def stepOnFixture (t : Tables) (b : Bay) (k : Fin 6) (act : StepAct) (x : FixtureRun) : FixtureRun :=
  match act with
  | .colour _ index fade curve =>
    { x with scene := x.scene.mapC (fun c l => retarget t b c (.index index) fade.val curve (.run k) l) }
  | .colourDirect _ levels fade curve =>
    { x with scene := x.scene.mapC (fun c l => retarget t b c (.level ((levels.get c).toNat * 257)) fade.val curve (.run k) l) }
  | .intensity _ value => { x with intensity := value }
  | .highlight _ code => { x with highlight := code }
  | _ => x

/-- What such a step records in the look memory of the fixture (R35). -/
def stepOnLook (act : StepAct) (m : FixtureLook) : FixtureLook :=
  match act with
  | .colour _ index _ _ => { m with target := .index index }
  | .colourDirect _ levels _ _ => { m with target := .level levels }
  | .intensity _ value => { m with intensity := value }
  | .highlight _ code => { m with highlight := code }
  | _ => m

end Sys2Proof.Machine
end

