-- ==== Sys2Proof/Certificates/Slice0/Obligations.lean ====
section
/-! DEFINITION. The statements for the provers. -/

section

open Sys2Proof Sys2Proof.Machine

/-! ### Steps, invariants and frames -/

/-- A step takes the command at the front of the queue and runs it with the queue's rest. -/
def Obligations.StepTakesFrontOfQueue : Prop :=
  ∀ (s : State) (c : Instr) (rest : List Instr), s.pending = c :: rest → step s = exec c { s with pending := rest }

/-- Every command completes in every state, and leaves the queue and the node's serial as they are; a step on an empty queue
idles, which is the model's choice (log 1). -/
def Obligations.EveryCommandCompletes : Prop :=
  (∀ (c : Instr) (s : State), ∃ t, exec c s = .next t ∧ t.pending = s.pending ∧ t.serial = s.serial) ∧
  (∀ s : State, s.pending = [] → step s = .next s)

/-- The invariant holds right after reset. -/
def Obligations.InvHoldsAtReset : Prop := NodeInv State.reset = true

/-- Every step keeps the invariant. -/
def Obligations.InvKeptByEveryStep : Prop := ∀ s t : State, NodeInv s = true → step s = .next t → NodeInv t = true

/-- An image of the tables, with the trailer that the CRC of its body makes, reads back as those tables; and the CRC that
a STORE forms page by page is the CRC of that body. -/
def Obligations.StoredImageReadsBack : Prop :=
  ∀ t : Tables, t.fits = true →
    imageTables (trailerPage (crc16 ((List.range 80).flatMap t.page))) ((List.range 80).flatMap t.page) = some t ∧
    (List.range 80).foldl (fun crc i => crc16From crc (t.page i)) 0xFFFF = crc16 ((List.range 80).flatMap t.page)

/-- The flash changes only by the commands of the flash's own work and of a power-on reset, and then at most in the sector
or page of the present step. By the same commands alone changes whether the last STORE was cut off (R72, R187, R190), and once
true only a STORE that ends complete makes it false: a field of the model's (log 45). -/
def Obligations.FlashChangesOnlyAtTheStep : Prop :=
  ∀ (c : Instr) (s t : State), exec c s = .next t →
    (isFlashWork c = false → t.flash = s.flash ∧ t.storeCut = s.storeCut) ∧
    (s.storeCut = true → t.storeCut = false → c = .flashStepReady false ∧ s.storing = true) ∧
    (NodeInv s = true → ∀ a, ¬ s.port.atStep a → t.flash.read a = s.flash.read a)

/-- The working tables change only by table asks, start-up and resets, and by no ask while a STORE is in flight; the
palette staging record changes only by PALETTE-STREAM and resets, the page buffer only by PAGE-FILL and resets. -/
def Obligations.TablesChangeOnlyByTableAsks : Prop :=
  ∀ (c : Instr) (s t : State), exec c s = .next t → isReset c = false →
    ((∀ h p, c ≠ .startUp h p) → (isTableAsk c = false ∨ s.storing = true) → t.tables = s.tables) ∧
    (c ≠ .paletteStream → t.staging = s.staging) ∧
    (c ≠ .pageFill → t.port.buffer = s.port.buffer)

/-- The latched half of the error summary loses no item but by STATUS and resets. -/
def Obligations.LatchedItemsStay : Prop :=
  ∀ (c : Instr) (s t : State), exec c s = .next t → isReset c = false → (∀ key, c ≠ .status key) →
    ∀ i, s.bay.latched.getLsbD i = true → t.bay.latched.getLsbD i = true

/-- Show time changes only by millisecond events, TIME frames and resets; the duties only by millisecond events and resets;
the samples on the I2S output only by audio sample events and resets; the mode only by HOUSE-DARK, HOUSE-SHOW, SET-MODE,
start-up and resets. -/
def Obligations.OutputsChangeOnlyByTheirEvents : Prop :=
  ∀ (c : Instr) (s t : State), exec c s = .next t → isReset c = false →
    ((∀ inp, c ≠ .millisecondEvent inp) → (∀ x e, c ≠ .timeFrame x e) → t.bay.time = s.bay.time) ∧
    ((∀ inp, c ≠ .millisecondEvent inp) → t.bay.fixture.duty = s.bay.fixture.duty) ∧
    (c ≠ .audioSampleEvent → ∀ z, (t.bay.voice.zone.get z).sent = (s.bay.voice.zone.get z).sent ∧
      (t.bay.voice.zone.get z).formed = (s.bay.voice.zone.get z).formed) ∧
    ((∀ x, c ≠ .cueHouseDark x) → (∀ x, c ≠ .cueHouseShow x) → c ≠ .setMode → (∀ h p, c ≠ .startUp h p) →
      t.bay.trigger.mode = s.bay.trigger.mode)

/-! ### Show time and lanes (chapter 1) -/

/-- How two show times compare (R4): the modular difference, at or after, after, before, and the table of the rule. -/
def Obligations.ShowTimesCompareByModularDifference : Prop :=
  (∀ u t : ShowTime,
    timeDiff u t = (t.toNat + 2 ^ 32 - u.toNat) % 2 ^ 32 ∧ timeDiff u t ≤ 4294967295 ∧
    (reached t u = true ↔ timeDiff u t < 2 ^ 31) ∧
    (passed t u = true ↔ 1 ≤ timeDiff u t ∧ timeDiff u t ≤ 2 ^ 31 - 1) ∧
    (reached t u = false ↔ 2 ^ 31 ≤ timeDiff u t)) ∧
  timeDiff 400 1000 = 600 ∧ passed 1000 400 = true ∧
  timeDiff 1000 400 = 4294966696 ∧ reached 400 1000 = false ∧
  timeDiff 4294967000 200 = 496 ∧ passed 200 4294967000 = true ∧
  timeDiff 5000 5000 = 0 ∧ reached 5000 5000 = true ∧ passed 5000 5000 = false ∧
  timeDiff 1000 2147484648 = 2147483648 ∧ reached 2147484648 1000 = false

/-- Show time (R3): every millisecond event adds 1, whatever the mode, the readiness and the line state; the event that
finds 4,294,967,295 makes it 0; a power-on reset and a RESTART that takes effect set it to 0. -/
def Obligations.ShowTimeGainsOneAtEachMillisecond : Prop :=
  ∀ s : State,
    (∀ inp, ∃ t, exec (.millisecondEvent inp) s = .next t ∧
      (s.bay.time.toNat < 4294967295 → t.bay.time.toNat = s.bay.time.toNat + 1) ∧
      (s.bay.time.toNat = 4294967295 → t.bay.time.toNat = 0)) ∧
    (∃ t, exec .powerOnReset s = .next t ∧ t.bay.time = 0) ∧
    (s.mgmt.restart = .answered → s.port.op = none → ∃ t, exec .restartTakesEffect s = .next t ∧ t.bay.time = 0)

/-- The elapsed time, when a lane is done, and the fraction of one that is not (R12); a lane on the clock of a FREE record
is done (R10). -/
def Obligations.LaneElapsedDoneAndFraction : Prop :=
  ∀ (t : Tables) (b : Bay) (c : Comp) (l : Lane),
    (l.source = .node →
      elapsed b l = if timeDiff (BitVec.ofNat 32 l.startTime) b.time < 2 ^ 31
        then timeDiff (BitVec.ofNat 32 l.startTime) b.time else 0) ∧
    (∀ k, l.source = .run k → ((elapsed b l : Nat) : Int) = max 0 ((b.run k).clock - l.startTime : Int)) ∧
    (laneDone b l = true ↔ l.duration = 0 ∨ l.duration ≤ elapsed b l ∨ ∃ k, l.source = .run k ∧ (b.run k).state = .free) ∧
    (laneDone b l = true → laneValue t b c l = targetValue t c l.target) ∧
    (laneDone b l = false →
      elapsed b l ≤ l.duration - 1 ∧ fraction (elapsed b l) l.duration = elapsed b l * 65536 / l.duration ∧
      fraction (elapsed b l) l.duration ≤ 65535)

/-- The progress that each curve makes of a fraction (R13), and a SNAP lane. -/
def Obligations.ProgressFollowsTheCurve : Prop :=
  (∀ f, f ≤ 65535 →
    progress .linear f = f ∧
    progress .ease f = min (3 * (f * f / 65536) - 2 * (f * f / 65536 * f / 65536)) 65535 ∧
    f * f / 65536 * f / 65536 ≤ f * f / 65536 ∧
    progress .snap f = 0 ∧
    ∀ curve, progress curve f ≤ 65535) ∧
  progress .ease 65535 = 65535 ∧ 3 * (65535 * 65535 / 65536) - 2 * (65535 * 65535 / 65536 * 65535 / 65536) = 65536 ∧
  (∀ (t : Tables) (b : Bay) (c : Comp) (l : Lane), l.curve = .snap →
    laneValue t b c l = if laneDone b l then targetValue t c l.target else l.start)

/-- The value of a lane, rounded toward its start (R14). -/
def Obligations.LaneValueRoundsTowardStart : Prop :=
  ∀ (t : Tables) (b : Bay) (c : Comp) (l : Lane),
    let S := l.start
    let T := targetValue t c l.target
    let g := progress l.curve (fraction (elapsed b l) l.duration)
    let v := laneValue t b c l
    (laneDone b l = true → v = T) ∧
    (laneDone b l = false →
      (S ≤ T → v = S + (T - S) * g / 65536) ∧ (T < S → v = S - (S - T) * g / 65536) ∧
      (S ≠ T → (v - S).natAbs < (T - S).natAbs)) ∧
    min S T ≤ v ∧ v ≤ max S T

/-- The present target value by target kind, read at the evaluation (R9). -/
def Obligations.TargetValueIsReadLive : Prop :=
  ∀ (t : Tables) (c : Comp),
    (∀ i : Byte, targetValue t c (.index i) =
      (((t.palette.get (((i &&& t.bank.mask) ||| (t.bank.base &&& ~~~t.bank.mask)).toFin)).get c).toNat * 257 : Nat)) ∧
    targetValue t c .house = ((t.house.get c).toNat * 257 : Nat) ∧
    (∀ v : Nat, targetValue t c (.level v) = v) ∧
    (∀ p : Int, targetValue t c (.position p) = p)

/-- A hold fixes a lane where it stands (R16): its new record, and that it is done and keeps its value whatever the tables
and the clocks do, through further holds as well. `src` is the time source that the holding block names, if it names one.
A lane of any class but the axis class starts at 0 or above and has no POSITION target (R7). -/
def Obligations.HoldFixesTheLane : Prop :=
  ∀ (t : Tables) (b : Bay) (c : Comp) (src : Option TimeSource) (l : Lane),
    (0 ≤ l.start → (∀ p, l.target ≠ .position p) →
      ∀ h, h = holdLevel t b c src l →
      h = { start := laneValue t b c l, target := .level (laneValue t b c l).toNat
            startTime := b.present (src.getD l.source), duration := 0, curve := l.curve, source := src.getD l.source } ∧
      ∀ (t' : Tables) (b' : Bay) (c' : Comp) (src' : Option TimeSource),
        laneDone b' h = true ∧ laneValue t' b' c' h = laneValue t b c l ∧
        laneValue t' b' c' (holdLevel t' b' c' src' h) = laneValue t b c l) ∧
    (∀ h, h = holdPosition t b src l →
      h = { start := laneValue t b .red l, target := .position (laneValue t b .red l)
            startTime := b.present (src.getD l.source), duration := 0, curve := l.curve, source := src.getD l.source } ∧
      ∀ (t' : Tables) (b' : Bay) (src' : Option TimeSource),
        laneDone b' h = true ∧ laneValue t' b' .red h = laneValue t b .red l ∧
        laneValue t' b' .red (holdPosition t' b' src' h) = laneValue t b .red l)

/-- A retarget starts a lane afresh from where it stands (R17). -/
def Obligations.RetargetStartsFromTheValue : Prop :=
  ∀ (t : Tables) (b : Bay) (c : Comp) (target : Target) (duration : Nat) (curve : Curve) (src : TimeSource) (l : Lane),
    let r := retarget t b c target duration curve src l
    r = { start := laneValue t b c l, target := target, startTime := b.present src
          duration := if 600000 < duration then 600000 else duration, curve := curve, source := src } ∧
    elapsed b r = 0 ∧
    (0 < duration → (∀ k, src = .run k → (b.run k).state ≠ .free) → laneValue t b c r = laneValue t b c l) ∧
    (duration = 0 → laneValue t b c r = targetValue t c target) ∧
    (laneValue t b c l = targetValue t c target → ∀ (t' : Tables) (b' : Bay),
      targetValue t' c target = targetValue t c target → laneValue t' b' c r = laneValue t b c l)

/-! ### Fixtures and the palette (chapter 2) -/

/-- The line value, the merge by mode (R30) and the dimming curves (R31). -/
def Obligations.LineValueMergeAndDimming : Prop :=
  (∀ (t : Tables) (b : Bay) (i : Fin 16) (c : Comp),
    (t.patch.get (patchIdx i c) = none → lineValue t b i c = 0) ∧
    (∀ p, t.patch.get (patchIdx i c) = some p →
      lineValue t b i c = (laneValue t b c ((b.fixtureRec i).line.get c)).toNat)) ∧
  (∀ scene line : Nat, FixtureMode.scene.merge scene line = scene ∧ FixtureMode.line.merge scene line = line ∧
    FixtureMode.highest.merge scene line = max scene line) ∧
  (∀ l, l ≤ 65535 →
    Dimming.linear.duty l = l / 16 ∧ Dimming.square.duty l = l * l / 1048576 ∧
    (∀ d : Dimming, d.duty l ≤ 4095 ∧ (l = 0 → d.duty l = 0) ∧ (l = 65535 → d.duty l = 4095)) ∧
    (l < 1024 → Dimming.square.duty l = 0))

/-- The millisecond event reaches every block once: in the order that comes with it, where that order is one that the
manual allows (log 5). What each block does at its turn: show time (R3), the PWM period (R28), motion and homing updates and
clear delays (R80, R85, R91), the counts of the run records and their examination (R103), the resume guards, the expiry check
and the scan (R127, R130), the schedule check, lockouts and presses (R138, R141, R147), the line unit (R159, R169), the ready
wait and the counts of a step (R62, R68, R69). The model's choices and deductions: the updates before the clear delays (log
25), the axes and the inputs each in ascending number (log 44), the home inputs as operands that the pins keep (log 30), the
requests in flight taken (`settle`) at the end of the axis, scene and claim turns and after each press (logs 8 and 20), and the
lockouts and slow-flash counts after the schedule check, before or after the presses by the operand (log 5). -/
def Obligations.MillisecondReachesEveryBlockOnce : Prop :=
  (∀ (inp : MsInputs) (s : State),
    exec (.millisecondEvent inp) s = .next (eachOf (turns inp) (blockTurn inp) s) ∧
    (∀ x : Block, (turns inp).count x = 1) ∧ (inp.wf = true → turns inp = inp.order)) ∧
  (∀ (inp : MsInputs) (s : State),
    blockTurn inp .time s = { s with bay := { s.bay with time := s.bay.time + 1 } } ∧
    blockTurn inp .fixture s = { s with bay := pwmPeriod s.ready s.tables s.bay } ∧
    blockTurn inp .line s = lineMillisecond s ∧
    (∃ quiet : Bay, quiet = { s.bay with axis := { s.bay.axis with axis := quiet.axis.axis } } ∧
      (∀ a, quiet.axisRec a = { s.bay.axisRec a with pulses := 0 }) ∧
      blockTurn inp .axis s = settle { s with
        pins := { s.pins with home := inp.home }
        bay := eachOf (List.finRange 4) (fun p b => countDelay p s.tables b) (eachOf (List.finRange 4) (fun a b =>
          match (b.axisRec a).state with
          | .ready | .moving | .held => motionUpdate a s.tables b
          | .homing => if (b.axisRec a).held = 0 then homingUpdate (inp.home.getLsbD a.val) a s.tables b else b
          | .unhomed | .faulted => b) quiet) }) ∧
    blockTurn inp .scene s = settle { s with
      bay := eachOf (List.finRange 6) (fun k b =>
          if (b.run k).state = .running then examine endRun true k s.tables b else b)
        (eachOf (List.finRange 6) (fun k b => countRun endRun s.tables k b) s.bay) } ∧
    (∃ (counted : Bay) (u : State), counted = { s.bay with scene := { s.bay.scene with run := counted.scene.run } } ∧
      (∀ k, counted.run k = { s.bay.run k with guard := (s.bay.run k).guard - 1 }) ∧
      exec .requestExpiry { s with bay := counted } = .next u ∧
      blockTurn inp .claim s = settle { u with bay := scan endRun s.tables u.bay }) ∧
    (∃ u, exec .scheduleFire s = .next u ∧ ∀ count read : State → State,
      (∀ v, count v = { v with bay := countTriggers v.bay }) →
      (∀ v, read v = if v.ready = true then
          (let w := eachOf ((List.finRange 12).filter (fun n =>
              let active := decide ((v.tables.trigger.get n).polarity = .activeHigh)
              inp.trigPins.getLsbD n.val = active && v.bay.trigger.pins.getLsbD n.val != active))
            (fun n v => settle { v with bay := press n v.tables v.bay }) v
           { w with bay := { w.bay with trigger := { w.bay.trigger with pins := inp.trigPins } } })
        else v) →
      blockTurn inp .trigger s = if inp.pressFirst then count (read u) else read (count u)) ∧
    (∃ u, (match s.mgmt.startUp with
        | .flashWait n => exec .flashReadyTimeout { s with mgmt := { s.mgmt with startUp := .flashWait (n + 1) } } = .next u
        | _ => u = s) ∧
      ((∀ o, u.port.op = some o → o.phase = .gap ∨ o.phase = .suspended) → blockTurn inp .store s = u) ∧
      (∀ o, u.port.op = some o → o.phase = .working ∨ o.phase = .suspending →
        exec .stepLimitExceeded { u with port := { u.port with
          op := some { o with stepCount := o.stepCount + 1, runCount := o.runCount + 1 } } } =
            .next (blockTurn inp .store s)))) ∧
  (∀ (t : Tables) (b c : Bay) (k : Fin 6) (r u : RunRec) (up : Nat → Nat), r = b.run k →
    (∀ n, up n = if n < 4294967295 then n + 1 else 4294967295) → c = b.updRun k (fun _ => u) →
    (r.state = .free ∨ r.state = .suspended ∧ r.held = false → countRun endRun t k b = b) ∧
    (r.state = .running → r.held = false →
      u = { r with
        clock := up r.clock, gateDelay := if r.gate = none then r.gateDelay else up r.gateDelay
        gate := r.gate.map (fun g => { g with gated := up g.gated }) } →
      ((∀ g, u.gate = some g → g.limit = 0 ∨ g.gated < g.limit) → countRun endRun t k b = c) ∧
      (∀ g slot, u.gate = some g → 0 < g.limit → g.limit ≤ g.gated → r.slot = some slot →
        countRun endRun t k b = examine endRun true k t
          ((c.updRun k (fun r => { r with gate := none })).updStatus slot (fun x => { x with gateTimeout := true })))) ∧
    (r.state ≠ .free → r.held = true → u = { r with holdTime := up r.holdTime } → ∀ x, r.snap = some x →
      countRun endRun t k b =
        if 0 < x.holdLimit ∧ x.holdLimit ≤ u.holdTime then endRun k .holdTimeout t c else c)) ∧
  (∀ (t : Tables) (b : Bay) (p : Fin 4) (x : Prox), x = b.axis.prox.get p →
    (x.state ≠ .clearing → countDelay p t b = b) ∧
    (x.state = .clearing → 1 < x.delay → countDelay p t b = b.updProx p (fun _ => ⟨.clearing, x.delay - 1⟩)) ∧
    (x.state = .clearing → x.delay ≤ 1 → countDelay p t b =
      eachOf ((List.finRange 4).filter (fun a => (t.prox.get p).axes.getLsbD a.val)) (fun a b => unholdBy p a t b)
        (b.updProx p (fun _ => ⟨.clear, 0⟩))))

/-- The fixture unit's turn at a millisecond event forms all 64 duties from the state `u` it finds (R28, R29): 0 before
start-up has taken the tables and in DARK mode; else by the scene value, which takes the scene lane alone without an owner,
the highlight colour under a highlight code, and the lane scaled by the intensity under code 0. -/
def Obligations.PwmPeriodFormsTheDuties : Prop :=
  ∀ (inp : MsInputs) (s : State) (before after : List Block), turns inp = before ++ .fixture :: after →
    ∃ t, exec (.millisecondEvent inp) s = .next t ∧
    ∀ u, u = eachOf before (blockTurn inp) s → ∀ (i : Fin 16) (c : Comp),
      let duty := (t.bay.fixture.duty.get i).get c
      let x := u.bay.fixtureRec i
      let lane := (laneValue u.tables u.bay c (x.scene.get c)).toNat
      let out := fun scene : Nat => (u.tables.fixture.get i).dimming.duty
        ((u.tables.fixture.get i).mode.merge scene (lineValue u.tables u.bay i c))
      (u.ready = false → duty = 0) ∧
      (u.bay.trigger.mode = .darkMode → duty = 0) ∧
      (u.ready = true → u.bay.trigger.mode = .showMode →
        (u.bay.owner (fixtureRes i) = none → duty = out lane) ∧
        (∀ k, u.bay.owner (fixtureRes i) = some k →
          (x.highlight = 0 → duty = out (lane * x.intensity.toNat / 255)) ∧
          (∀ n : Fin 3, x.highlight.val = n.val + 1 → duty = out (((u.tables.highlight.get n).get c).toNat * 257))))

/-- A PALETTE-STREAM (R21, R22): the bytes follow the staged ones, each four make one whole entry at the pointer and the
entries after it, the rest stays staged; nothing else changes but the answer. -/
def Obligations.PaletteStreamCommitsWholeEntries : Prop :=
  ∀ (s : State) (continues : Bool) (start : Byte) (bytes : List Byte),
    Taken s .paletteStream ((if continues then 1 else 0) :: start :: bytes) → s.storing = false →
    s.staging.staged.length ≤ 3 → bytes.length ≤ 196 →
    ∃ t, exec .paletteStream s = .next t ∧
      t = ({ s with tables := { s.tables with palette := t.tables.palette }, staging := t.staging } : State).done ∧
      ∀ (first : Byte) (l : List Byte), first = (if continues then s.staging.pointer else start) →
        l = (if continues then s.staging.staged else []) ++ bytes →
        t.staging = ⟨first + BitVec.ofNat 8 (l.length / 4), l.drop (l.length / 4 * 4)⟩ ∧
        ∀ i : Fin 256,
          let n := (BitVec.ofFin i - first).toNat
          t.tables.palette.get i =
            if n < l.length / 4 then ⟨l.getD (4 * n) 0, l.getD (4 * n + 1) 0, l.getD (4 * n + 2) 0, l.getD (4 * n + 3) 0⟩
            else s.tables.palette.get i

/-- A LEVEL frame (R26) is forwarded, and retargets the line lane of every component patched to a channel that it carries a
level for; every other lane, every intensity and highlight code and the rest of the node stay. -/
def Obligations.LevelFrameRetargetsPatchedLines : Prop :=
  ∀ (s : State) (c : RxChar) (own : Fin 251) (f : Frame), Completes s c .level own f →
    ∃ t, exec (.levelFrame c) s = .next t ∧
      t = { (s.rxTake c).enterFrame f with
            bay := { s.bay with fixture := { s.bay.fixture with run := t.bay.fixture.run } } } ∧
      ∀ (i : Fin 16) (comp : Comp) (level : Option Byte),
        level = (s.tables.patch.get (patchIdx i comp)).bind (fun p =>
          if p.univ.val = field f.body 0 1 ∧ field f.body 1 2 ≤ p.channel.val
          then (f.body.drop 7)[p.channel.val - field f.body 1 2]? else none) →
        (t.bay.fixtureRec i).scene = (s.bay.fixtureRec i).scene ∧
        (t.bay.fixtureRec i).intensity = (s.bay.fixtureRec i).intensity ∧
        (t.bay.fixtureRec i).highlight = (s.bay.fixtureRec i).highlight ∧
        (t.bay.fixtureRec i).line.get comp =
          match level with
          | some v => retarget s.tables s.bay comp (.level (v.toNat * 257)) (field f.body 3 4) .linear .node
              ((s.bay.fixtureRec i).line.get comp)
          | none => (s.bay.fixtureRec i).line.get comp

/-- A COLOUR, COLOUR-DIRECT, INTENSITY or HIGHLIGHT step of record `k` (R32 to R35, R105, R106) acts on the fixtures of its
set that the record has claimed, and on no other; it records each in the look memory; a member that is not claimed sets the
skipped-step flag of the record's slot, and no other flag. -/
def Obligations.FixtureStepsActOnClaimedFixtures : Prop :=
  ∀ (own : Bool) (k : Fin 6) (t : Tables) (b : Bay) (act : StepAct) (set : BitVec 16) (slot : Fin 32) (m : Look),
    (match act with
      | .colour s _ _ _ | .colourDirect s _ _ _ | .intensity s _ | .highlight s _ => s = set
      | _ => False) →
    (b.run k).slot = some slot → (b.run k).look = some m →
    (∀ i : Fin 16, ((fireStep own k act t b).fixtureRec i) =
      if (set &&& (b.claims k).fixtures).getLsbD i.val then stepOnFixture t b k act (b.fixtureRec i)
      else b.fixtureRec i) ∧
    (∃ m', ((fireStep own k act t b).run k).look = some m' ∧ m'.axis = m.axis ∧
      ∀ i : Fin 16, m'.fixture.get i =
        if (set &&& (b.claims k).fixtures).getLsbD i.val then stepOnLook act (m.fixture.get i)
        else m.fixture.get i) ∧
    (∀ x : Fin 32, (fireStep own k act t b).scene.status.get x =
      if x = slot ∧ set &&& ~~~(b.claims k).fixtures ≠ 0 then { b.scene.status.get x with skipped := true }
      else b.scene.status.get x)

/-! ### Voices (chapter 3) -/

/-- The mix of an audio sample event once start-up has taken the tables (R53, R54, R55): in each zone the sample formed at
the last event is sent, and the new one is formed from the samples, the gain lanes and the duck lane of the voices that
sound. -/
def Obligations.AudioSampleEventMixesEachZone : Prop :=
  ∀ s : State, s.ready = true → ∃ t, exec .audioSampleEvent s = .next t ∧
    ∀ (z : Zone) (duck result : Int) (part : Fin 6 → Int),
      duck = laneValue s.tables s.bay .red (s.bay.voice.zone.get z.idx).duck →
      (∀ v, ∀ x, x = s.bay.voiceRec v → ∀ g, g = laneValue s.tables s.bay .red x.gain →
        ((x.state = .playing ∨ x.state = .stopping) ∧ x.zone = z → ∀ sample : Int,
          sample = (match x.fifo with | [] => 0 | y :: _ => y.toInt) →
          part v = match x.kind with
            | .narration => sample * g / 65536
            | .ambient => sample * (g * duck / 65536) / 65536) ∧
        (¬ ((x.state = .playing ∨ x.state = .stopping) ∧ x.zone = z) → part v = 0)) →
      result = ((List.finRange 6).map part).sum * (s.tables.zone.get z.idx).volume.val / 256 →
      (t.bay.voice.zone.get z.idx).sent = (s.bay.voice.zone.get z.idx).formed ∧
      (t.bay.voice.zone.get z.idx).formed = (if 32767 < result then 32767 else if result < -32768 then -32768 else result) ∧
      ((t.bay.voice.zone.get z.idx).clipFlag = true ↔
        (s.bay.voice.zone.get z.idx).clipFlag = true ∨ 32767 < result ∨ result < -32768) ∧
      (32767 < result ∨ result < -32768 → t.bay.latched.getLsbD 11 = true)

/-- What an audio sample event does to each voice (R46), and the frames of zero before start-up has taken the tables
(R55). -/
def Obligations.AudioSampleEventDrawsFromVoices : Prop :=
  ∀ s : State, ∃ t, exec .audioSampleEvent s = .next t ∧
    t = { s with bay := { s.bay with voice := t.bay.voice, latched := t.bay.latched } } ∧
    (s.ready = false → ∀ z, (t.bay.voice.zone.get z).formed = 0) ∧
    ∀ (v : Fin 6) (x : Voice), x = s.bay.voiceRec v →
      (x.state ≠ .playing → x.state ≠ .stopping → t.bay.voiceRec v = x) ∧
      (x.state = .playing ∨ x.state = .stopping →
        (x.fifo = [] → (x.state = .playing ∨ laneDone s.bay x.gain = false) →
          t.bay.voiceRec v = { x with underrun := true }) ∧
        (∀ y rest, x.fifo = y :: rest →
          (x.readPos + 1 ≠ x.count → (x.state = .playing ∨ laneDone s.bay x.gain = false) →
            t.bay.voiceRec v = { x with fifo := rest, underrun := false, readPos := x.readPos + 1 }) ∧
          (x.readPos + 1 = x.count → x.loop = true → (x.state = .playing ∨ laneDone s.bay x.gain = false) →
            t.bay.voiceRec v = { x with fifo := rest, underrun := false, readPos := 0 }) ∧
          (x.readPos + 1 = x.count → x.loop = false →
            t.bay.voiceRec v = { x with state := .idle, fifo := [], refill := none, owner := none, underrun := false,
                                        readPos := x.readPos + 1 })) ∧
        (x.state = .stopping → laneDone s.bay x.gain = true →
          (t.bay.voiceRec v).state = .idle ∧ (t.bay.voiceRec v).fifo = [] ∧ (t.bay.voiceRec v).owner = none ∧
          v ∉ t.bay.voice.startList))

/-- A refill read (R44, R64): it begins for a voice that wants one, none having fewer samples, the lowest-numbered of
equals; its bytes are those of the clip from the fetch position on (R41). Its completion (R45) appends the samples, and
primes a voice; a looping voice whose fetch position has come to its sample count sets it to 0 there, in that action (log 13),
and the free bytes of the read are drawn anew (log 3): the model's. -/
def Obligations.RefillReadsTheClipIntoTheFifo : Prop :=
  (∀ (s : State) (v : Fin 6) (x : Voice) (pos count : Nat),
    s.port.link = .free → s.port.waiting = none → x = s.bay.voiceRec v → x.wants = true →
    (∀ w : Fin 6, (s.bay.voiceRec w).wants = true → x.fifo.length ≤ (s.bay.voiceRec w).fifo.length ∧
      ((s.bay.voiceRec w).fifo.length = x.fifo.length → v ≤ w)) →
    pos = x.fetchPos → count = min 128 (x.count - pos) →
    exec .refillReadStart s =
      .next { s with
        port := { s.port with link := .refill v ⟨x.firstPage * 256 + 2 * pos, 2 * count⟩ }
        bay := s.bay.updVoice v (fun x => { x with refill := some count }) }) ∧
  (∀ (s : State) (v : Fin 6) (req : ReadReq) (x : Voice) (l : List Sample),
    s.port.link = .refill v req → x = s.bay.voiceRec v → l = samplesOf (s.flashBytes req) →
    ∃ t, exec .refillComplete s = .next t ∧
      t = { s with port := { s.port with link := .free }, draws := s.draws + 1,
                   bay := { s.bay with voice := t.bay.voice } } ∧
      t.bay.voice.startList = s.bay.voice.startList ∧
      (∀ w, w ≠ v → t.bay.voiceRec w = s.bay.voiceRec w) ∧
      (x.refill = none → t.bay = s.bay) ∧
      (∀ n, x.refill = some n → ∀ fifo, fifo = x.fifo ++ l →
        t.bay.voiceRec v = { x with
          fifo := fifo, refill := none
          fetchPos := if x.loop = true ∧ x.fetchPos + n = x.count then 0 else x.fetchPos + n
          state := if x.state = .priming ∧ (256 ≤ fifo.length ∨ x.loop = false ∧ fifo.length = x.count - x.readPos)
            then .playing else x.state }) ∧
      (∀ j, 2 * j + 1 < req.count → (∀ a, s.port.under a = false) → req.address + req.count ≤ 16777216 →
        l[j]? = some (s.flash.read (req.address + 2 * j + 1) ++ s.flash.read (req.address + 2 * j))))

/-- A PLAY step of record `k` (R47, R48) whose lane is claimed (R106): the voice it takes, the record it fills, the start
list, and the narration it replaces; a step that takes no voice is skipped, and VOICE-SHORT latches where the clip is
valid. A VOICE-FADE step (R49) acts on the voices of the record, zone and lane kind that prime or play. Either step for
narration is only skipped where the record has not claimed the lane (R106). -/
def Obligations.PlayTakesAndFillsAVoice : Prop :=
  (∀ (own : Bool) (k : Fin 6) (t : Tables) (b r : Bay) (clip : Fin 128) (z : Zone) (kind : LaneKind)
    (gain : Option (BitVec 16)) (fadeIn : Fin 600001) (loop : Bool),
    r = fireStep own k (.play clip z kind gain fadeIn loop) t b →
    (kind = .narration → (b.claims k).lanes.getLsbD z.idx.val = true) →
    ((t.clip.get clip).valid = false →
      r.voice.voice = b.voice.voice ∧ r.voice.startList = b.voice.startList ∧ r.latched = b.latched ∧
      ∀ slot, (b.run k).slot = some slot → (r.scene.status.get slot).skipped = true) ∧
    ((t.clip.get clip).valid = true →
      (∀ v, ((b.voiceRec v).state = .idle ∧ (∀ w, w < v → (b.voiceRec w).state ≠ .idle)) ∨
          ((∀ w, (b.voiceRec w).state ≠ .idle) ∧
            b.voice.startList.find? (fun w => (b.voiceRec w).kind = .ambient && (b.voiceRec w).state != .idle &&
              (b.voiceRec w).state != .paused) = some v) →
        r.voiceRec v =
          { state := .priming, clip := clip, firstPage := (t.clip.get clip).firstPage.toNat
            count := (t.clip.get clip).count.toNat, zone := z, kind := kind, owner := some k, readPos := 0, fetchPos := 0
            fifo := [], refill := none, loop := loop, underrun := false
            gain := { start := 0, target := .level (gain.getD (t.clip.get clip).gain).toNat
                      startTime := (b.run k).clock, duration := fadeIn.val, curve := .linear, source := .run k } } ∧
        r.voice.startList.getLast? = some v ∧
        (∀ w, w ≠ v → (b.voiceRec w).plays k z .narration = false ∨ kind = .ambient → r.voiceRec w = b.voiceRec w) ∧
        (∀ w, w ≠ v → kind = .narration → (b.voiceRec w).plays k z .narration = true →
          (∀ u, u < w → (b.voiceRec u).plays k z .narration = false) →
          r.voiceRec w = { b.voiceRec w with
            state := .stopping, owner := none
            gain := retarget t b .red (.level 0) 50 .linear .node (b.voiceRec w).gain })) ∧
      ((∀ w, (b.voiceRec w).state ≠ .idle ∧ ((b.voiceRec w).kind = .narration ∨ (b.voiceRec w).state = .paused)) →
        r.voice.voice = b.voice.voice ∧ r.voice.startList = b.voice.startList ∧ r.latched.getLsbD 10 = true ∧
        ∀ slot, (b.run k).slot = some slot → (r.scene.status.get slot).skipped = true))) ∧
  (∀ (own : Bool) (k : Fin 6) (t : Tables) (b r : Bay) (z : Zone) (kind : LaneKind) (gain : BitVec 16)
    (fade : Fin 600001) (stop : Bool),
    r = fireStep own k (.voiceFade z kind gain fade stop) t b →
    (kind = .narration → (b.claims k).lanes.getLsbD z.idx.val = true) →
    r = { b with voice := r.voice } ∧ r.voice.startList = b.voice.startList ∧
    ∀ (v : Fin 6) (x : Voice), x = b.voiceRec v → r.voiceRec v =
      if x.owner = some k ∧ x.zone = z ∧ x.kind = kind ∧ (x.state = .priming ∨ x.state = .playing) then
        (if stop then { x with
            state := .stopping, owner := none, gain := retarget t b .red (.level gain.toNat) fade.val .linear .node x.gain }
         else { x with gain := retarget t b .red (.level gain.toNat) fade.val .linear (.run k) x.gain })
      else x) ∧
  (∀ (own : Bool) (k : Fin 6) (t : Tables) (b : Bay) (z : Zone) (act : StepAct) (slot : Fin 32),
    ((∃ clip gain fadeIn loop, act = .play clip z .narration gain fadeIn loop) ∨
      ∃ gain fade stop, act = .voiceFade z .narration gain fade stop) →
    (b.claims k).lanes.getLsbD z.idx.val = false → (b.run k).slot = some slot →
    fireStep own k act t b = b.updStatus slot (fun x => { x with skipped := true }))

/-- What becomes of a voice when its record is suspended or held (R56), can play again (R57), ends (R58) or restarts (R59);
and the duck lane of a zone after an examination of the duck targets (R52). -/
def Obligations.VoicesFollowTheirRecord : Prop :=
  (∀ (k : Fin 6) (fade : Nat) (t : Tables) (b : Bay) (v : Fin 6) (x idle : Voice), x = b.voiceRec v →
    idle = { x with state := .idle, fifo := [], refill := none, owner := none, underrun := false } →
    (x.owner ≠ some k →
      (pauseVoices k b).voiceRec v = x ∧ (resumeVoices k b).voiceRec v = x ∧ (endVoices k fade t b).voiceRec v = x ∧
      (idleVoices k b).voiceRec v = x) ∧
    (x.owner = some k →
      (idleVoices k b).voiceRec v = idle ∧
      (x.state = .priming ∨ x.state = .playing →
        (pauseVoices k b).voiceRec v = { x with state := .paused, refill := none, underrun := false } ∧
        (resumeVoices k b).voiceRec v = x ∧
        (endVoices k fade t b).voiceRec v =
          { x with state := .stopping, owner := none, gain := retarget t b .red (.level 0) fade .linear .node x.gain }) ∧
      (x.state = .paused →
        (pauseVoices k b).voiceRec v = x ∧ (endVoices k fade t b).voiceRec v = idle ∧
        ∀ snap pos, (b.run k).snap = some snap →
          pos = (if x.kind = .narration then x.readPos - snap.rewind * 16 else x.readPos) →
          (resumeVoices k b).voiceRec v =
            { x with state := .priming, readPos := pos, fetchPos := pos, fifo := [], refill := none }))) ∧
  (∀ (t : Tables) (b r : Bay) (z : Zone) (target : Nat), r = duckExamine t b →
    ((∃ v, (b.voiceRec v).kind = .narration ∧ (b.voiceRec v).zone = z ∧
        ((b.voiceRec v).state = .priming ∨ (b.voiceRec v).state = .playing)) →
      target = (t.zone.get z.idx).duckDepth.toNat) →
    ((∀ v, (b.voiceRec v).kind = .narration → (b.voiceRec v).zone = z →
        (b.voiceRec v).state ≠ .priming ∧ (b.voiceRec v).state ≠ .playing) → target = 65535) →
    (r.voice.zone.get z.idx).duck =
      if (b.voice.zone.get z.idx).duck.target = .level target then (b.voice.zone.get z.idx).duck
      else retarget t b .red (.level target) (t.zone.get z.idx).duckFade.val .linear .node (b.voice.zone.get z.idx).duck)

/-! ### The clip store port (chapter 4) -/

/-- A management read takes the link ahead of anything else (R63), and returns its bytes (R65): to the READ-CLIP that waits,
or to the image reads of start-up, which go on with the next page until all 81 have been read (R188). -/
def Obligations.ManagementReadsReturnTheBytes : Prop :=
  (∀ (s : State) (r : ReadReq), s.port.link = .free → s.port.waiting = some r →
    exec .managementReadStart s = .next { s with port := { s.port with link := .management r, waiting := none } }) ∧
  (∀ (s : State) (r : ReadReq), s.port.link = .management r → s.mgmt.waiting = .readClip →
    exec .managementReadDone s = .next
      (({ s with port := { s.port with link := .free }, mgmt := { s.mgmt with waiting := .none } } : State).answer 0
        (s.flashBytes r))) ∧
  (∀ (s : State) (r : ReadReq) (old bytes : List Byte), s.port.link = .management r → s.mgmt.waiting ≠ .readClip →
    s.mgmt.startUp = .reading old → bytes = old ++ s.flashBytes r →
    exec .managementReadDone s = .next
      (if bytes.length < 81 * 256 then
        { s with
          port := { s.port with
            link := .free
            waiting := some ⟨(if bytes.length / 256 = 0 then 65360 else 65279 + bytes.length / 256) * 256, 256⟩ }
          mgmt := { s.mgmt with startUp := .reading bytes } }
       else { s with port := { s.port with link := .free }, mgmt := { s.mgmt with startUp := .imageRead bytes } })) ∧
  (∀ (s : State) (r : ReadReq), s.port.op = none →
    s.flashBytes r = (List.range r.count).map (fun i => s.flash.read ((r.address + i) % 16777216)))

/-- A flash step begins (R63, R67) and ends complete (R68, R73): what the flash then holds (R61), and the next step or the
end of the operation, which for a STORE makes IMAGE-INVALID false (R187) and, in the model's field for it, the image one that a
STORE completed (log 45). -/
def Obligations.FlashStepBeginsAndCompletes : Prop :=
  (∀ (s : State) (o : Operation) (st : FlashStep) (rest : List FlashStep),
    s.port.op = some o → o.phase = .gap → o.steps = st :: rest → s.port.link = .free → s.port.waiting = none →
    (∀ v, (s.bay.voiceRec v).wants = false) →
    exec .operationStepStart s = .next { s with port := { s.port with
      link := .operation
      op := some { o with
        phase := .working, stepCount := 0, runCount := 0
        sent := match st with
          | .erase _ => []
          | .program _ .buffer => s.port.buffer.list
          | .program _ (.body i) => s.tables.page i
          | .program _ .trailer => trailerPage o.crc
        crc := match st with
          | .program _ (.body i) => crc16From o.crc (s.tables.page i)
          | _ => o.crc } } }) ∧
  (∀ (s : State) (o : Operation) (st : FlashStep) (rest : List FlashStep),
    NodeInv s = true → s.port.op = some o → o.phase = .working ∨ o.phase = .suspending → o.steps = st :: rest →
    ∃ t, exec (.flashStepReady false) s = .next t ∧
      t = { s with
        flash := t.flash
        storeCut := if rest = [] ∧ o.kind = .store then false else s.storeCut
        port := { s.port with
          link := .free
          op := if rest = [] then none else some { o with steps := rest, phase := .gap }
          state := if rest = [] then .idle else s.port.state }
        mgmt := { s.mgmt with
          imageInvalid := if rest = [] ∧ o.kind = .store then false else s.mgmt.imageInvalid } } ∧
      (∀ n, st = .erase n → ∀ a, t.flash.read a = if n * 4096 ≤ a ∧ a < n * 4096 + 4096 then 0xFF else s.flash.read a) ∧
      (∀ p src, st = .program p src → p < 65536 → ∀ a,
        t.flash.read a = if p * 256 ≤ a ∧ a < p * 256 + o.sent.length
          then s.flash.read a &&& o.sent.getD (a - p * 256) 0xFF else s.flash.read a))

/-- A step that fails (R68) or runs beyond its limit (R69) makes the port abandon the operation (R72): STORE-FAULT latches,
the operation ends FAILED, for a STORE with IMAGE-INVALID and no complete image left in the flash (R72, the model's field for
it: log 45), and the bytes of the step hold free values (log 3). The model's: IMAGE-INVALID latches though it may stand true already (log 37), and STEP_LIMIT_EXCEEDED makes the limit's test alone, on the
count as it stands (log 6). -/
def Obligations.AbandonedStepEndsTheOperationFailed : Prop :=
  ∀ (s : State) (o : Operation) (st : FlashStep) (rest : List FlashStep) (c : Instr),
    NodeInv s = true → s.port.op = some o → o.phase = .working ∨ o.phase = .suspending → o.steps = st :: rest →
    (c = .flashStepReady true ∨ c = .stepLimitExceeded ∧ (match st with | .erase _ => 500 | .program _ _ => 5) < o.stepCount) →
    ∃ t, exec c s = .next t ∧
      t = { s with
        flash := t.flash
        storeCut := if o.kind = .store then true else s.storeCut
        draws := s.draws + 1
        port := { s.port with link := .free, op := none, state := .failed }
        mgmt := { s.mgmt with imageInvalid := if o.kind = .store then true else s.mgmt.imageInvalid }
        bay := { s.bay with latched := s.bay.latched ||| (if o.kind = .store then 0x1004 else 0x1000) } } ∧
      ∀ a, t.flash.read a =
        if st.range.1 ≤ a ∧ a < st.range.1 + st.range.2 then Config.flashByte s.draws a else s.flash.read a

/-- Suspension of a step for an urgent voice, and its resumption (R70, R71). That FLASH_SUSPEND without its conditions leaves the
node as it stands is the model's choice (log 7). -/
def Obligations.StepIsSuspendedForUrgentVoices : Prop :=
  ∀ (s : State) (o : Operation), s.port.op = some o →
    (o.phase = .working → 2 ≤ o.runCount → (∃ v, (s.bay.voiceRec v).wants = true ∧ (s.bay.voiceRec v).fifo.length < 128) →
      exec .flashSuspend s = .next { s with port := { s.port with op := some { o with phase := .suspending } } }) ∧
    (o.phase = .working → (o.runCount < 2 ∨ ∀ v, (s.bay.voiceRec v).wants = true → 128 ≤ (s.bay.voiceRec v).fifo.length) →
      exec .flashSuspend s = .next s) ∧
    (o.phase = .suspending →
      exec .flashSuspended s = .next { s with port := { s.port with
        link := .free, op := some { o with phase := .suspended } } }) ∧
    (o.phase = .suspended → s.port.link = .free → s.port.waiting = none → (∀ v, (s.bay.voiceRec v).wants = false) →
      exec .flashResume s = .next { s with port := { s.port with
        link := .operation, op := some { o with phase := .working, runCount := 0 } } })

/-- STORE, PAGE-PROGRAM and ERASE-SECTORS (R66, R67, R183, R185, R187, R190): the answer, in the order of the tests, and the
operation that an accepted ask makes. That the BUSY of a waiting RESTART stands after the protection test and before the
port's own is deduced (log 19). -/
def Obligations.OperationsAreAcceptedOrRefused : Prop :=
  ∀ (s : State) (c : Instr) (params : List Byte) (kind : OpKind) (first count : Nat) (steps : List FlashStep),
    (c = .store ∧ Taken s .store params ∧ params = [] ∧ kind = .store ∧ first = 65280 ∧ count = 0 ∧
        steps = (List.range 16).map (fun i => .erase (4080 + i)) ++
          (List.range 80).map (fun i => .program (65280 + i) (.body i)) ++ [.program 65360 .trailer] ∨
      (∃ x y, c = .pageProgram ∧ Taken s .pageProgram params ∧ params = [x, y] ∧ kind = .pageProgram first ∧
        first = x.toNat * 256 + y.toNat ∧ count = 1 ∧ steps = [.program first .buffer]) ∨
      (∃ w x y z n m, c = .eraseSectors ∧ Taken s .eraseSectors params ∧ params = [w, x, y, z] ∧
        n = w.toNat * 256 + x.toNat ∧ m = y.toNat * 256 + z.toNat ∧ 1 ≤ m ∧ n + m ≤ 4096 ∧ kind = .eraseSectors n m ∧
        first = n * 16 ∧ count = m * 16 ∧ steps = (List.range m).map (fun i => .erase (n + i)))) →
    ((∃ p, first ≤ p ∧ p < first + count ∧ s.tables.protect.block (p / 256) = true) → exec c s = .next (s.answer 2 [])) ∧
    ((∀ p, first ≤ p → p < first + count → s.tables.protect.block (p / 256) = false) →
      (s.mgmt.restart ≠ .none ∨ s.port.op ≠ none → exec c s = .next (s.answer 1 [])) ∧
      (s.mgmt.restart = .none → s.port.op = none →
        (0 < count → 65280 < first + count → exec c s = .next (s.answer 2 [])) ∧
        (count = 0 ∨ first + count ≤ 65280 →
          ((∃ v, ∃ x, x = s.bay.voiceRec v ∧ 0 < count ∧ x.state ≠ .idle ∧ x.firstPage < first + count ∧
              first < x.firstPage + (x.count + 127) / 128) → exec c s = .next (s.answer 3 [])) ∧
          ((∀ v x, x = s.bay.voiceRec v → count = 0 ∨ x.state = .idle ∨ first + count ≤ x.firstPage ∨
              x.firstPage + (x.count + 127) / 128 ≤ first) →
            exec c s = .next (({ s with port := { s.port with
              state := .busy
              op := some { kind := kind, steps := steps, phase := .gap, stepCount := 0, runCount := 0, sent := []
                           crc := 0xFFFF } } } : State).answer 0 [])))))

/-- PAGE-FILL writes its bytes from the start offset on, offset 255 followed by offset 0 (R74); READ-CLIP waits for its read,
or is BUSY while an operation is in flight or a RESTART waits (R65, R190). -/
def Obligations.PageFillAndReadClip : Prop :=
  (∀ (s : State) (offset : Byte) (bytes : List Byte), Taken s .pageFill (offset :: bytes) →
    1 ≤ bytes.length → bytes.length ≤ 196 →
    ∃ t, exec .pageFill s = .next t ∧
      t = ({ s with port := { s.port with buffer := t.port.buffer } } : State).answer 0 [] ∧
      ∀ (i : Fin 256) (n : Nat), n = (i.val + 256 - offset.toNat) % 256 →
        t.port.buffer.get i = if n < bytes.length then bytes.getD n 0 else s.port.buffer.get i) ∧
  (∀ (s : State) (x y z n : Byte), Taken s .readClip [x, y, z, n] → 1 ≤ n.toNat → n.toNat ≤ 192 →
    exec .readClip s = .next
      (if s.mgmt.restart ≠ .none ∨ s.port.op ≠ none then s.answer 1 []
       else { s with
        port := { s.port with waiting := some ⟨x.toNat * 65536 + y.toNat * 256 + z.toNat, n.toNat⟩ }
        mgmt := { s.mgmt with waiting := .readClip } }))

/-! ### Axes and proximity inputs (chapter 5) -/

/-- QUADRATURE-CHANGE counts a change one place forward or back in the cycle (R78); HOME-AXIS is refused, or enters HOMING
(R84); CLEAR-FAULT makes a FAULTED axis UNHOMED (R88). The model's: a position outside its range is a free value (log 36), an
axis without feedback follows its pins without counting (log 31), and the home level is an operand that the pins keep (log 30).
-/
def Obligations.QuadratureHomeAndClearFault : Prop :=
  (∀ (s : State) (a : Fin 4) (pinA pinB : Bool) (n : Int) (old new : Bool × Bool) (forward : List ((Bool × Bool) × Bool × Bool)),
    old = (s.pins.quadA.getLsbD a.val, s.pins.quadB.getLsbD a.val) → new = (pinA, pinB) →
    forward = [((false, false), true, false), ((true, false), true, true), ((true, true), false, true),
      ((false, true), false, false)] →
    n = (if (old, new) ∈ forward then 1 else if (new, old) ∈ forward then -1 else 0) →
    ∃ t, exec (.quadratureChange a pinA pinB) s = .next t ∧
      t = { s with pins := { s.pins with quadA := t.pins.quadA, quadB := t.pins.quadB }, bay := t.bay } ∧
      (∀ i : Fin 4, t.pins.quadA.getLsbD i.val = (if i = a then pinA else s.pins.quadA.getLsbD i.val) ∧
        t.pins.quadB.getLsbD i.val = (if i = a then pinB else s.pins.quadB.getLsbD i.val)) ∧
      ((s.tables.axis.get a).feedback = .none → t.bay = s.bay) ∧
      ((s.tables.axis.get a).feedback = .encoder → t.bay = s.bay.updAxis a (fun x => { x with
        measured := if -8388608 ≤ x.measured + n ∧ x.measured + n ≤ 8388607 then x.measured + n
          else (Config.positionBeyond (x.measured + n)).toInt }))) ∧
  (∀ (s : State) (home : Bool) (p : Byte) (a : Fin 4) (x : Axis) (cfg : AxisCfg), Taken s .homeAxis [p] → p.toNat = a.val →
    x = s.bay.axisRec a → cfg = s.tables.axis.get a →
    (s.bay.owner (axisRes a) ≠ none → exec (.homeAxis home) s = .next (s.answer 3 [])) ∧
    (s.bay.owner (axisRes a) = none → x.state = .faulted → exec (.homeAxis home) s = .next (s.answer 5 [])) ∧
    (s.bay.owner (axisRes a) = none → x.state = .homing → exec (.homeAxis home) s = .next (s.answer 0 [])) ∧
    (s.bay.owner (axisRes a) = none → x.state ≠ .faulted → x.state ≠ .homing → Settled s →
      (∀ k g, (s.bay.run k).gate = some g → g.axes.getLsbD a.val = false) →
      ∃ pins : BitVec 4, (∀ i : Fin 4, pins.getLsbD i.val = if i = a then home else s.pins.home.getLsbD i.val) ∧
        exec (.homeAxis home) s = .next (({ s with
          pins := { s.pins with home := pins }
          bay := s.bay.updAxis a (fun x => { x with
            state := .homing, travel := 0, phase := if home then .offSwitch else .seek
            capDir := cfg.homeDir, capRate := cfg.homeRate.val, capTravel := cfg.homeTravel.toNat
            move := holdPosition s.tables s.bay (some .node) x.move }) } : State).answer 0 []))) ∧
  (∀ (s : State) (p : Byte) (a : Fin 4), Taken s .clearFault [p] → p.toNat = a.val →
    exec .clearFault s = .next (({ s with bay :=
      if (s.bay.axisRec a).state = .faulted then s.bay.updAxis a (fun x => { x with state := .unhomed, fault := .none })
      else s.bay } : State).answer 0 []))

/-- A proximity input goes active (R90), goes inactive (R91), or ends its clear delay (R92). First where no gate waits for an
axis of its mask and, at a release, no record owns one: its record, the axes of its mask, and the stall of their owners
(R109). Then for every state: the axes of the mask in ascending number (log 41), what holding and releasing one axis does, the
report to its owner (R82, R109), before that the axis is settled (log 28), and the records that HELD joins or leaves. Before
readiness, and at a level that stands already, nothing but the level changes. The model's choices: PROXIMITY_ACTIVE or
PROXIMITY_INACTIVE at a level that stands already leaves the node as it stands (log 7), and CLEAR_DELAY_EXPIRY acts on a delay
that already stands at 0 (log 6). The duck targets are examined by R52. -/
def Obligations.ProximityHoldsAndReleasesAxes : Prop :=
  (∀ (s : State) (p : Fin 4) (mask : BitVec 4) (rec : Prox) (on off : State),
    s.ready = true → Settled s → mask = (s.tables.prox.get p).axes → rec = s.bay.axis.prox.get p →
    on = { s with pins := { s.pins with prox := s.pins.prox ||| BitVec.ofNat 4 (2 ^ p.val) } } →
    off = { s with pins := { s.pins with prox := s.pins.prox &&& ~~~BitVec.ofNat 4 (2 ^ p.val) } } →
    (∀ k g, (s.bay.run k).gate = some g → g.axes &&& mask = 0) →
    (s.pins.prox.getLsbD p.val = false → rec.state = .clear →
      ∃ t, exec (.proximityActive p) s = .next t ∧ t = { on with bay := t.bay } ∧
        t.bay.axis.prox.get p = ⟨.active, 0⟩ ∧
        (∀ a, t.bay.axisRec a = if mask.getLsbD a.val = true then { s.bay.axisRec a with
            held := (s.bay.axisRec a).held ||| BitVec.ofNat 4 (2 ^ p.val)
            state := if (s.bay.axisRec a).state = .ready ∨ (s.bay.axisRec a).state = .moving then .held
              else (s.bay.axisRec a).state }
          else s.bay.axisRec a) ∧
        (∀ k, (s.bay.run k).state ≠ .free → (s.bay.run k).held = false →
          (∃ a : Fin 4, mask.getLsbD a.val = true ∧ s.bay.owner (axisRes a) = some k ∧
            ((s.bay.axisRec a).state = .ready ∨ (s.bay.axisRec a).state = .moving)) →
          (t.bay.run k).held = true ∧ (t.bay.run k).holdTime = 0)) ∧
    (s.pins.prox.getLsbD p.val = false → rec.state = .clearing →
      exec (.proximityActive p) s = .next { on with bay := s.bay.updProx p (fun _ => ⟨.active, 0⟩) }) ∧
    (s.pins.prox.getLsbD p.val = true → rec.state = .active → (s.tables.prox.get p).clearDelay.val ≠ 0 →
      exec (.proximityInactive p) s = .next
        { off with bay := s.bay.updProx p (fun _ => ⟨.clearing, (s.tables.prox.get p).clearDelay.val⟩) }) ∧
    ((∀ a : Fin 4, mask.getLsbD a.val = true → s.bay.owner (axisRes a) = none) →
      ∀ (c : Instr) (after : State),
        (c = .proximityInactive p ∧ s.pins.prox.getLsbD p.val = true ∧ rec.state = .active ∧
            (s.tables.prox.get p).clearDelay.val = 0 ∧ after = off ∨
          c = .clearDelayExpiry p ∧ rec = ⟨.clearing, 0⟩ ∧ after = s) →
        ∃ t, exec c s = .next t ∧ t = { after with bay := { s.bay with axis := t.bay.axis } } ∧
          (∀ q, t.bay.axis.prox.get q = if q = p then ⟨.clear, 0⟩ else s.bay.axis.prox.get q) ∧
          ∀ (a : Fin 4) (x : Axis) (left : BitVec 4), x = s.bay.axisRec a → left = x.held &&& ~~~BitVec.ofNat 4 (2 ^ p.val) →
            t.bay.axisRec a =
              if mask.getLsbD a.val = true then { x with
                held := left
                state := if x.state = .held ∧ left = 0 then
                  (if laneDone s.bay x.move = true ∧ x.stepped = commanded s.tables s.bay a then .ready else .moving)
                  else x.state }
              else x)) ∧
  (∀ (s : State) (p : Fin 4) (rec : Prox) (on off : State) (mask : List (Fin 4)) (put : Prox → Bay),
    mask = (List.finRange 4).filter (fun a => (s.tables.prox.get p).axes.getLsbD a.val) → rec = s.bay.axis.prox.get p →
    (∀ x, put x = s.bay.updProx p (fun _ => x)) →
    on = { s with pins := { s.pins with prox := s.pins.prox ||| BitVec.ofNat 4 (2 ^ p.val) } } →
    off = { s with pins := { s.pins with prox := s.pins.prox &&& ~~~BitVec.ofNat 4 (2 ^ p.val) } } →
    (s.pins.prox.getLsbD p.val = true → exec (.proximityActive p) s = .next s) ∧
    (s.pins.prox.getLsbD p.val = false → exec (.proximityInactive p) s = .next s) ∧
    (s.ready = false →
      (s.pins.prox.getLsbD p.val = false → exec (.proximityActive p) s = .next on) ∧
      (s.pins.prox.getLsbD p.val = true → exec (.proximityInactive p) s = .next off)) ∧
    (s.ready = true → s.pins.prox.getLsbD p.val = false → rec.state = .clear →
      exec (.proximityActive p) s = .next (settle { on with
        bay := eachOf mask (fun a b => holdBy p a s.tables b) (put ⟨.active, 0⟩) })) ∧
    (∀ (c : Instr) (after : State),
      (c = .proximityInactive p ∧ s.ready = true ∧ s.pins.prox.getLsbD p.val = true ∧ rec.state = .active ∧
          (s.tables.prox.get p).clearDelay.val = 0 ∧ after = off ∨
        c = .clearDelayExpiry p ∧ rec.state = .clearing ∧ rec.delay = 0 ∧ after = s) →
      exec c s = .next (settle { after with
        bay := eachOf mask (fun a b => unholdBy p a s.tables b) (put ⟨.clear, 0⟩) }))) ∧
  (∀ (p a : Fin 4) (t : Tables) (b : Bay) (x : Axis) (bit left : BitVec 4), x = b.axisRec a → bit = BitVec.ofNat 4 (2 ^ p.val) →
    left = x.held &&& ~~~bit →
    holdBy p a t b = report a b t (b.updAxis a (fun x => { x with
      held := x.held ||| bit, state := if x.state = .ready ∨ x.state = .moving then .held else x.state })) ∧
    unholdBy p a t b = report a b t (b.updAxis a (fun x => { x with
      held := left
      state := if x.state = .held ∧ left = 0 then
        (if laneDone b x.move = true ∧ x.stepped = commanded t b a then .ready else .moving) else x.state }))) ∧
  (∀ (a : Fin 4) (t : Tables) (before b told : Bay) (was now : AxisState),
    was = (before.axisRec a).state → now = (b.axisRec a).state →
    told = (match b.owner (axisRes a) with
      | none => b
      | some k => if now = .held ∧ was ≠ .held then duckExamine t (addHeld k b)
        else if now ≠ .held ∧ was = .held then removeHeld endRun k t b else b) →
    report a before t b =
      if settled t b a = true ∧ settled t before a = false then reportSettled a t told else told) ∧
  (∀ (k : Fin 6) (t : Tables) (b c : Bay) (r : RunRec), r = b.run k →
    (r.state = .free ∨ r.held = true → addHeld k b = b) ∧
    (r.state ≠ .free → r.held = false → c = b.updRun k (fun r => { r with held := true, holdTime := 0 }) →
      addHeld k b = if r.state = .running then pauseVoices k c else c) ∧
    (r.held = false ∨ (∃ a, b.owner (axisRes a) = some k ∧ (b.axisRec a).state = .held) → removeHeld endRun k t b = b) ∧
    (r.held = true → (∀ a, b.owner (axisRes a) = some k → (b.axisRec a).state ≠ .held) →
      c = b.updRun k (fun r => { r with held := false }) →
      (r.state ≠ .running → removeHeld endRun k t b = c) ∧
      (r.state = .running → ∀ d, d = duckExamine t (resumeVoices k c) →
        removeHeld endRun k t b = if r.gate = none then examine endRun true k t d else d)))

/-- A motion update of an axis in READY or MOVING (R80, R82): steps toward the commanded position within the rate limit, then
the stall test (R81), then READY where the lane is done and the position reached, which is reported to the gates. Where no
gate waits for the axis the report changes nothing. A HELD axis has the stall test alone. That a HELD axis that stalls ends its
owner's run with no report that it left HELD is the model's deduction (log 27), that the direction output stays at an update
without steps its choice (log 34), and a step beyond the position range is left out (log 36). -/
def Obligations.MotionUpdateStepsTowardCommanded : Prop :=
  (∀ (t : Tables) (b : Bay) (a : Fin 4) (x : Axis) (cfg : AxisCfg) (c n stepped measured : Int),
    x = b.axisRec a → cfg = t.axis.get a → c = commanded t b a →
    n = max (-(cfg.rate.val : Int)) (min (cfg.rate.val : Int) (c - x.stepped)) →
    stepped = x.stepped + n → -8388608 ≤ stepped → stepped ≤ 8388607 →
    measured = (if cfg.feedback = .none ∧ stepped ≠ x.stepped then stepped else x.measured) →
    (stepped - x.stepped).natAbs ≤ cfg.rate.val ∧ min c x.stepped ≤ stepped ∧ stepped ≤ max c x.stepped ∧
    (x.state = .ready ∨ x.state = .moving →
      ∀ y, y = { x with
        stepped := stepped, measured := measured, pulses := n.natAbs
        direction := if 0 < n then true else if n < 0 then false else x.direction } →
      (cfg.feedback = .none ∨ (stepped - measured).natAbs ≤ cfg.stallLimit.toNat →
        ∀ arrived : Bool, (arrived = true ↔ x.state = .moving ∧ laneDone b x.move = true ∧ stepped = c) → ∀ moved,
        moved = b.updAxis a (fun _ => { y with state := if arrived then .ready else x.state }) →
        motionUpdate a t b = (if arrived then reportSettled a t moved else moved) ∧
        ((∀ k g, (b.run k).gate = some g → g.axes.getLsbD a.val = false) → motionUpdate a t b = moved)) ∧
      (cfg.feedback = .encoder → cfg.stallLimit.toNat < (stepped - measured).natAbs →
        ∀ f, f = ({ b.updAxis a (fun _ => { y with
            state := .faulted, fault := .stall, phase := .none, move := holdPosition t b none x.move }) with
          latched := if ∃ a', (b.axisRec a').state = .faulted then b.latched else b.latched ||| 2 } : Bay) →
        motionUpdate a t b = match b.owner (axisRes a) with
          | some k => endRun k .axisFault t f
          | none => f))) ∧
  (∀ (t : Tables) (b f : Bay) (a : Fin 4) (x : Axis) (cfg : AxisCfg) (stalled : Bool),
    x = b.axisRec a → cfg = t.axis.get a → x.state = .held →
    (stalled = true ↔ cfg.feedback = .encoder ∧ cfg.stallLimit.toNat < (x.stepped - x.measured).natAbs) →
    f = ({ b.updAxis a (fun x => { x with
        state := .faulted, fault := .stall, phase := .none, move := holdPosition t b none x.move }) with
      latched := if ∃ a', (b.axisRec a').state = .faulted then b.latched else b.latched ||| 2 } : Bay) →
    motionUpdate a t b =
      if stalled then (match b.owner (axisRes a) with | some k => endRun k .axisFault t f | none => f) else b)

/-- A homing update (R85, R86) of an axis without an owner. The model's choices: the direction output
stays at an update without steps (log 34), and the retarget at home found has the curve LINEAR (log 40). -/
def Obligations.HomingUpdateSeeksHome : Prop :=
  ∀ (t : Tables) (b : Bay) (a : Fin 4) (home : Bool) (x : Axis) (n : Nat) (sign stepped : Int) (away : Bool),
    x = b.axisRec a → b.owner (axisRes a) = none →
    away = decide (x.phase = .offSwitch) →
    sign = (if x.capDir = .negative then (if away then 1 else -1) else (if away then -1 else 1)) →
    n = min x.capRate (x.capTravel - x.travel) →
    stepped = x.stepped + sign * n → -8388608 ≤ stepped → stepped ≤ 8388607 →
    (x.phase = .offSwitch → home = false →
      homingUpdate home a t b = b.updAxis a (fun x => { x with phase := .seek, travel := 0 })) ∧
    (x.phase = .seek → home = true →
      homingUpdate home a t b = b.updAxis a (fun x => { x with
        state := .ready, phase := .none, stepped := 0, measured := 0
        move := { start := laneValue t b .red x.move, target := .position 0, startTime := b.time.toNat, duration := 0
                  curve := .linear, source := .node } })) ∧
    (x.phase ≠ .none → home = away → x.travel ≠ x.capTravel →
      homingUpdate home a t b = b.updAxis a (fun x => { x with
        stepped := stepped
        measured := if (t.axis.get a).feedback = .none ∧ stepped ≠ x.stepped then stepped else x.measured
        travel := x.travel + n, pulses := (sign * n).natAbs
        direction := if 0 < sign * n then true else if sign * n < 0 then false else x.direction })) ∧
    (x.phase ≠ .none → home = away → x.travel = x.capTravel →
      homingUpdate home a t b = ({ b.updAxis a (fun x => { x with
          state := .faulted, fault := .homeNotFound, phase := .none, move := holdPosition t b none x.move }) with
        latched := if ∃ a', (b.axisRec a').state = .faulted then b.latched else b.latched ||| 2 } : Bay))

/-- A MOVE step of record `k` on an axis of its claim set (R83): the target is set into the soft limits, the travel time
stretched to the least duration of the curve; an axis that is not READY or MOVING is skipped, as is one outside the claim
set (R106). -/
def Obligations.MoveIsClampedAndStretched : Prop :=
  ∀ (own : Bool) (k : Fin 6) (t : Tables) (b : Bay) (a : Fin 4) (target : BitVec 24) (travel : Fin 600001) (curve : Curve)
    (x : Axis) (cfg : AxisCfg) (r dist least : Nat) (goal p : Int),
    x = b.axisRec a → cfg = t.axis.get a → r = cfg.rate.val → 1 ≤ r → p = commanded t b a →
    goal = max cfg.softMin.toInt (min cfg.softMax.toInt target.toInt) → dist = (goal - p).natAbs →
    (curve = .linear → dist ≤ r * least ∧ (∀ m, dist ≤ r * m → least ≤ m)) →
    (curve = .ease → 3 * dist ≤ 2 * r * least ∧ (∀ m, 3 * dist ≤ 2 * r * m → least ≤ m)) →
    (curve = .snap → least = 0) →
    ((b.claims k).axes.getLsbD a.val = false ∨ (x.state ≠ .ready ∧ x.state ≠ .moving) →
      fireStep own k (.move a target travel curve) t b = b.skip k) ∧
    ((b.claims k).axes.getLsbD a.val = true → x.state = .ready ∨ x.state = .moving →
      fireStep own k (.move a target travel curve) t b =
        (b.updAxis a (fun x => { x with
          state := .moving
          move := { start := p, target := .position goal, startTime := (b.run k).clock
                    duration := min (max travel.val least) 600000, curve := curve, source := .run k } })).updRun k
          (fun r => { r with look := r.look.map (fun l => { l with axis := l.axis.set a (some goal) }) }))

/-! ### Scenes, claims and the request queue (chapters 6 and 7) -/

/-- GATE-TIMEOUT opens a gate that has reached its limit (R108), HOLD-TIMEOUT ends a run whose hold has reached its limit
(R110), and an examination fires the steps that are due, then compares step time with the duration (R104). That the two
commands act on counts that already stand at their limits is the model's choice (log 6). Steps WAIT-AXIS (R107), SIGNAL and
START (R148), with what they skip (R105, R106), and the gates that a report of a settled axis opens (R82, R108). -/
def Obligations.GateTimeoutHoldTimeoutExamination : Prop :=
  (∀ (s : State) (k : Fin 6) (r : RunRec) (g : Gate) (slot : Fin 32) (b : Bay), r = s.bay.run k → r.state = .running →
    r.gate = some g → r.slot = some slot → 0 < g.limit → g.limit ≤ g.gated →
    b = (s.bay.updRun k (fun r => { r with gate := none })).updStatus slot (fun x => { x with gateTimeout := true }) →
    exec (.gateTimeout k) s =
      .next (settle { s with bay := if r.held = true then b else examine endRun true k s.tables b })) ∧
  (∀ (s : State) (k : Fin 6) (r : RunRec) (x : Snapshot), r = s.bay.run k → r.snap = some x → r.held = true →
    0 < x.holdLimit → x.holdLimit ≤ r.holdTime →
    exec (.holdTimeout k) s = .next (settle { s with bay := endRun k .holdTimeout s.tables s.bay })) ∧
  (∀ (own : Bool) (k : Fin 6) (t : Tables) (b : Bay) (r : RunRec) (x : Snapshot) (step : SceneStep),
    r = b.run k → r.snap = some x → r.state = .running →
    step = t.step.get (Fin.ofNat 1024 (x.firstStep + r.next)) → x.stepCount ≤ 255 →
    (r.gate ≠ none ∨ r.held = true ∨ x.stepCount ≤ r.next ∨ r.clock - r.gateDelay < step.offset.val →
      examine endRun own k t b = if x.duration ≤ r.clock - r.gateDelay then endRun k .complete t b else b) ∧
    (r.gate = none → r.held = false → r.next < x.stepCount → step.offset.val ≤ r.clock - r.gateDelay →
      examine endRun own k t b =
        examine endRun own k t (fireStep own k step.act t (b.updRun k (fun r => { r with next := r.next + 1 })))) ∧
    (r.gate ≠ none ∨ r.held = true ∨ x.stepCount ≤ r.next ∨ r.clock - r.gateDelay < step.offset.val →
      examineSteps own k t 256 b = b) ∧
    (r.gate = none → r.held = false → r.next < x.stepCount → step.offset.val ≤ r.clock - r.gateDelay →
      examineSteps own k t 256 b =
        examineSteps own k t 256 (fireStep own k step.act t (b.updRun k (fun r => { r with next := r.next + 1 }))))) ∧
  (∀ (own : Bool) (k : Fin 6) (t : Tables) (b : Bay) (slot : Fin 32), (b.run k).slot = some slot →
    ∀ skipped : Bay, skipped = b.updStatus slot (fun x => { x with skipped := true }) →
    (∀ (axes mine : BitVec 4) (limit : Fin 600001) (c : Bay), mine = axes &&& (b.claims k).axes →
      c = (if axes &&& ~~~(b.claims k).axes = 0 then b else skipped) →
      fireStep own k (.waitAxis axes limit) t b =
        if ∀ a : Fin 4, mine.getLsbD a.val = true → settled t b a = true then c
        else c.updRun k (fun r => { r with gate := some ⟨mine, 0, limit.val⟩ })) ∧
    (∀ code, fireStep own k (.signal code) t b =
      if b.notices.length < 4 then { b with notices := b.notices ++ [⟨.signal, code⟩] }
      else { b with latched := b.latched ||| 0x80 }) ∧
    (∀ other, fireStep own k (.start other) t b =
      if other = slot then skipped
      else { b with claim := { b.claim with inFlight := b.claim.inFlight ++ [⟨other, .scene⟩] } })) ∧
  (∀ (t : Tables) (b : Bay) (a : Fin 4),
    (settled t b a = true ↔ (b.axisRec a).state ≠ .moving ∧
      ((b.axisRec a).state = .held → (b.axisRec a).stepped = commanded t b a)) ∧
    reportSettled a t b = eachOf (List.finRange 6) (fun k b =>
      match (b.run k).gate with
      | none => b
      | some g =>
        if (b.run k).state = .running ∧ g.axes.getLsbD a.val = true ∧
          ∀ a' : Fin 4, g.axes.getLsbD a'.val = true → settled t b a' = true
        then (let c := b.updRun k (fun r => { r with gate := none })
              if (b.run k).held = true then c else examine endRun true k t c)
        else b) b)

/-- The end of a run (R113) where no record waits for its resources and no request is queued: the record, the scene
status, the claim table (R126), the fixtures (R39), axes (R96) and voices (R58) it owned, and the trigger it came from
(R141). STOP-SCENE (R179) ends the run of a slot, or withdraws its queued request (R132), or finds neither; its answer bytes 0,
1 and 2 are log 17. Then an end in full: the effects on what the record owned, the release (R126) with its hand-over to the
tops of the return stacks (R37, R94, R109), the records made whole and their resumption (R127, R111, R38, R57, R94), the scan,
and after the whole release (R128) the ends of the resumed records whose step time has reached their duration. That those ends
follow the release, each an action of its own, and the bound 8 on a chain of them are log 26. -/
def Obligations.EndOfRunReleasesItsResources : Prop :=
  (∀ (e : EndReason) (k : Fin 6) (t : Tables) (b u : Bay) (r : RunRec) (slot : Fin 32) (x : Snapshot),
    r = b.run k → r.state ≠ .free → r.slot = some slot → r.snap = some x → b.claim.queue = [] →
    (∀ res, b.owner res = some k → (b.claim.claim.get res).stack = []) → u = endRun k e t b →
    (∀ j, u.run j = if j = k then RunRec.free else b.run j) ∧
    (∀ y, u.scene.status.get y = if y = slot then { b.scene.status.get y with lastEnd := e } else b.scene.status.get y) ∧
    (∀ res, u.claim.claim.get res =
      ⟨if b.owner res = some k then none else b.owner res, (b.claim.claim.get res).stack.filter (· ≠ k)⟩) ∧
    (∀ i : Fin 16, u.fixtureRec i = if b.owner (fixtureRes i) = some k then { b.fixtureRec i with
        scene := (b.fixtureRec i).scene.mapC (fun c l => retarget t b c .house x.releaseFade .linear .node l)
        intensity := 255, highlight := 0 } else b.fixtureRec i) ∧
    (∀ a : Fin 4, u.axisRec a = if b.owner (axisRes a) = some k then { b.axisRec a with
        move := holdPosition t b (some .node) (b.axisRec a).move } else b.axisRec a) ∧
    (∀ v, u.voiceRec v = (endVoices k x.releaseFade t b).voiceRec v) ∧
    (∀ n : Fin 12, u.triggerRec n =
      if r.origin = some (.trigger n) ∧ (b.triggerRec n).state = .busy then
        (if (t.trigger.get n).lockout.val = 0 then { b.triggerRec n with state := .armed, lockout := 0 }
         else { b.triggerRec n with state := .lockout, lockout := 1000 * (t.trigger.get n).lockout.val })
      else b.triggerRec n)) ∧
  (∀ (s : State) (p : Byte) (slot : Fin 32), Taken s .stopScene [p] → p.toNat = slot.val →
    (∀ k, s.bay.carrier slot = some k →
      exec .stopScene s = .next (settle (({ s with bay := endRun k .stopped s.tables s.bay } : State).answer 0 [0]))) ∧
    (s.bay.carrier slot = none → Settled s →
      (∀ e arm trig, s.bay.claim.queue.find? (fun e => e.slot = slot) = some e →
        arm = (fun x : Trigger => if x.state = .waiting then { x with state := .armed } else x) →
        (∀ n, e.origin = .trigger n → trig = s.bay.trigger.trigger.upd n arm) →
        ((∀ n, e.origin ≠ .trigger n) → trig = s.bay.trigger.trigger) →
        exec .stopScene s = .next (({ s with bay := { s.bay with
          claim := { s.bay.claim with queue := s.bay.claim.queue.filter (fun e => e.slot ≠ slot) }
          trigger := { s.bay.trigger with trigger := trig } } } : State).answer 0 [1])) ∧
      ((∀ e ∈ s.bay.claim.queue, e.slot ≠ slot) → exec .stopScene s = .next (s.answer 0 [2])))) ∧
  (endRun = endRunFuel 8 ∧
    (∀ (n : Nat) (e : EndReason) (k : Fin 6) (t : Tables) (b : Bay), (b.run k).state = .free → endRunFuel n k e t b = b) ∧
    ∀ (n : Nat) (e : EndReason) (k : Fin 6) (t : Tables) (b : Bay) (r : RunRec) (slot : Fin 32) (x : Snapshot),
      r = b.run k → r.state ≠ .free → r.slot = some slot → r.snap = some x →
      ∃ c, c = { b with
          fixture := { b.fixture with run := c.fixture.run }, axis := { b.axis with axis := c.axis.axis }, voice := c.voice
          scene := { b.scene with status := b.scene.status.upd slot (fun y => { y with lastEnd := e }) } } ∧
        (∀ i : Fin 16, c.fixtureRec i = if b.owner (fixtureRes i) = some k then { b.fixtureRec i with
            scene := (b.fixtureRec i).scene.mapC (fun c l => retarget t b c .house x.releaseFade .linear .node l)
            intensity := 255, highlight := 0 } else b.fixtureRec i) ∧
        (∀ a : Fin 4, c.axisRec a = if b.owner (axisRes a) = some k then { b.axisRec a with
            move := holdPosition t b (some .node) (b.axisRec a).move } else b.axisRec a) ∧
        c.voice = (endVoices k x.releaseFade t b).voice ∧
        ∀ (whole : List (Fin 6)) (after ended : Bay), whole = madeWhole k t c →
          after = scan (endRunFuel n) t
            ((eachOf whole (fun j b => resume j t b) (handOver k t c)).updRun k (fun _ => RunRec.free)) →
          (∀ m, r.origin = some (.trigger m) → ended = after.updTrigger m (fun y => if y.state = .busy then
            (if (t.trigger.get m).lockout.val = 0 then { y with state := .armed, lockout := 0 }
             else { y with state := .lockout, lockout := 1000 * (t.trigger.get m).lockout.val }) else y)) →
          ((∀ m, r.origin ≠ some (.trigger m)) → ended = after) →
          endRunFuel (n + 1) k e t b = eachOf whole (fun j b =>
            if overdue b j = true then endRunFuel n j .complete t b else b) (duckExamine t ended)) ∧
  (∀ (k : Fin 6) (t : Tables) (b c : Bay) (top : Fin 22 → Option (Fin 6)),
    (∀ r j, j ∈ (b.claim.claim.get r).stack → (b.run j).state = .suspended) → c = handOver k t b →
    (∀ r, top r = if b.owner r = some k then ((b.claim.claim.get r).stack.filter (· ≠ k)).head? else none) →
    c = { b with
      fixture := { b.fixture with run := c.fixture.run }, axis := { b.axis with axis := c.axis.axis }
      scene := { b.scene with run := c.scene.run }, claim := { b.claim with claim := c.claim.claim } } ∧
    (∀ r, c.claim.claim.get r = if b.owner r = some k
      then ⟨top r, ((b.claim.claim.get r).stack.filter (· ≠ k)).tail⟩
      else ⟨b.owner r, (b.claim.claim.get r).stack.filter (· ≠ k)⟩) ∧
    (∀ i : Fin 16, c.fixtureRec i = match top (fixtureRes i) with
      | some j => { b.fixtureRec i with
          scene := (b.fixtureRec i).scene.mapC (fun comp l => holdLevel t b comp (some (.run j)) l)
          intensity := 255, highlight := 0 }
      | none => b.fixtureRec i) ∧
    (∀ a : Fin 4, c.axisRec a = match top (axisRes a) with
      | some j => { b.axisRec a with move := holdPosition t b (some (.run j)) (b.axisRec a).move }
      | none => b.axisRec a) ∧
    (∀ j, c.run j =
      if (b.run j).held = false ∧ ∃ a : Fin 4, top (axisRes a) = some j ∧ (b.axisRec a).state = .held
      then { b.run j with held := true, holdTime := 0 } else b.run j) ∧
    (madeWhole k t b).Pairwise (· < ·) ∧
    (∀ j, j ∈ madeWhole k t b ↔ (∃ r, top r = some j) ∧ (b.run j).state = .suspended ∧
      ∀ r, (b.claims j).has r = true → c.owner r = some j)) ∧
  (∀ (k : Fin 6) (t : Tables) (b : Bay) (r : RunRec) (x : Snapshot) (m : Look),
    r = b.run k → r.state = .suspended → r.snap = some x → r.look = some m →
    ∃ c, resume k t b = examineSteps false k t 256 c ∧
      c = { b with
        fixture := { b.fixture with run := c.fixture.run }, axis := { b.axis with axis := c.axis.axis }
        voice := (if r.held = true then b.voice else (resumeVoices k b).voice), scene := { b.scene with run := c.scene.run } } ∧
      (∀ j, j ≠ k → c.run j = b.run j) ∧
      c.run k = { r with
        state := .running, guard := t.config.resumeGuard.val
        gate := if ∃ g, r.gate = some g ∧ ∀ a : Fin 4, g.axes.getLsbD a.val = true → settled t c a = true then none else r.gate } ∧
      (∀ i : Fin 16, ∀ l, l = m.fixture.get i → c.fixtureRec i = if b.owner (fixtureRes i) = some k then { b.fixtureRec i with
          scene := (b.fixtureRec i).scene.mapC (fun comp y => retarget t b comp (match l.target with
            | .index n => .index n
            | .level q => .level ((q.get comp).toNat * 257)
            | .none => .house) x.resumeFade .linear (.run k) y)
          intensity := l.intensity, highlight := l.highlight } else b.fixtureRec i) ∧
      (∀ (a : Fin 4) (y : Axis) (cfg : AxisCfg), y = b.axisRec a → cfg = t.axis.get a → c.axisRec a =
        if b.owner (axisRes a) = some k ∧ (y.state = .ready ∨ y.state = .moving ∨ y.state = .held) then
          (match m.axis.get a with
            | none => { y with move := holdPosition t b (some (.run k)) y.move }
            | some target =>
              let goal := max cfg.softMin.toInt (min cfg.softMax.toInt target)
              let dist := (goal - commanded t b a).natAbs
              { y with
                state := if y.state = .ready then .moving else y.state
                move := retarget t b .red (.position goal) ((dist + cfg.resumeRate.val - 1) / cfg.resumeRate.val) .linear
                  (.run k) y.move })
        else y)) ∧
  (∀ (b : Bay) (j : Fin 6), overdue b j = true ↔ (b.run j).state = .running ∧ (b.run j).held = false ∧
    ∃ x, (b.run j).snap = some x ∧ x.duration ≤ (b.run j).clock - (b.run j).gateDelay)

/-- The claim unit's decision of a request (R121, R122, R123): its outcome, and what a request that is not carried out
leaves; the admission of one that is (R124, R102), with the holds of the fixtures and axes that it takes (R36, R94), the
voices that it pauses (R56), the stall of HELD (R102, R109) and the blank look memory (R35); the parts of a restart (R115);
START-SCENE answers with the outcome (R179), stated where its decision leaves no request in flight. That a restart examines the
duck targets (R52) once, after its examination of the steps, is the model's deduction (log 14). -/
def Obligations.RequestsAreDecided : Prop :=
  (∀ (t : Tables) (b : Bay) (q : Request) (h : Header), h = t.scene.get q.slot →
    (b.trigger.mode = .darkMode ∨ h.enabled = false ∨ h.stepCount = 0 ∨ h.duration.val = 0 →
      decideRequest q t b = (.discarded, b)) ∧
    (b.trigger.mode = .showMode → h.enabled = true → h.stepCount ≠ 0 → h.duration.val ≠ 0 →
      (∀ k, b.carrier q.slot = some k →
        decideRequest q t b = if (b.run k).state = .running ∧ h.retrigger = .restart
          then (.restarted, restart endRun k q.origin t b) else (.ignored, b)) ∧
      (b.carrier q.slot = none → ∀ blocked : Bool,
        (blocked = true ↔ ∃ r k, h.claims.has r = true ∧ b.owner r = some k ∧
          (h.priority.val ≤ runPriority b k ∨ (b.run k).guard ≠ 0)) →
        (blocked = false → ∀ k, (b.run k).state = .free → (∀ j, j < k → (b.run j).state ≠ .free) →
          decideRequest q t b = (.admitted, admitScene endRun k q.slot q.origin t b)) ∧
        (blocked = true ∨ (∀ k, (b.run k).state ≠ .free) →
          (h.wait = .discard → decideRequest q t b = (.discarded, b)) ∧
          (h.wait = .queue → (∃ e ∈ b.claim.queue, e.slot = q.slot) → decideRequest q t b = (.ignored, b)) ∧
          (h.wait = .queue → (∀ e ∈ b.claim.queue, e.slot ≠ q.slot) → 8 ≤ b.claim.queue.length →
            decideRequest q t b = (.discarded, { b with latched := b.latched ||| 0x200 })) ∧
          (∀ new : QueueEntry, new = ⟨q.slot, q.origin, h.priority.val, b.time, if h.waitLimit.val = 0 then none
              else some (b.time + BitVec.ofNat 32 (1000 * h.waitLimit.val))⟩ →
            h.wait = .queue → (∀ e ∈ b.claim.queue, e.slot ≠ q.slot) → b.claim.queue.length < 8 →
            ∃ front back, b.claim.queue = front ++ back ∧ (∀ e ∈ front, h.priority.val ≤ e.priority) ∧
              (∀ e, back.head? = some e → e.priority < h.priority.val) ∧
              decideRequest q t b =
                (.queued, { b with claim := { b.claim with queue := front ++ new :: back } })))))) ∧
  (∀ (t : Tables) (b u : Bay) (k : Fin 6) (slot : Fin 32) (origin : Origin) (h : Header),
    h = t.scene.get slot → 0 < h.duration.val → (b.run k).state = .free → (∀ r, b.owner r ≠ some k) →
    u = admitScene endRun k slot origin t b →
    (u.run k).state = .running ∧ (u.run k).slot = some slot ∧ (u.run k).origin = some origin ∧ (u.run k).clock = 0 ∧
    (u.run k).snap = some { priority := h.priority.val, claims := h.claims, firstStep := h.firstStep.val
                            stepCount := h.stepCount.toNat, duration := h.duration.val, releaseFade := h.releaseFade.val
                            resumeFade := h.resumeFade.val, rewind := h.rewind.val, holdLimit := h.holdLimit.val } ∧
    (∀ j, j ≠ k → (u.run j).slot = (b.run j).slot ∧ (u.run j).state =
      if (b.run j).state = .running ∧ ∃ r, h.claims.has r = true ∧ b.owner r = some j then .suspended
      else (b.run j).state) ∧
    (∀ r, u.claim.claim.get r = if h.claims.has r = true
      then ⟨some k, (match b.owner r with | some j => [j] | none => []) ++ (b.claim.claim.get r).stack⟩
      else b.claim.claim.get r) ∧
    u.claim.queue = b.claim.queue.filter (fun e => e.slot ≠ slot)) ∧
  (∀ (endK : EndRun) (t : Tables) (b : Bay) (k : Fin 6) (slot : Fin 32) (origin : Origin) (h : Header) (loses : Fin 6 → Prop),
    h = t.scene.get slot → (b.run k).state = .free → (∀ r, b.owner r ≠ some k) →
    (∀ j, loses j ↔ (b.run j).state = .running ∧ ∃ r, h.claims.has r = true ∧ b.owner r = some j) →
    ∃ c, admitScene endK k slot origin t b =
        duckExamine t (if (c.run k).held = true then c else examine endK false k t c) ∧
      c = { b with
        fixture := { b.fixture with run := c.fixture.run }, axis := { b.axis with axis := c.axis.axis }
        voice := { b.voice with voice := c.voice.voice }, scene := { b.scene with run := c.scene.run }
        claim := { b.claim with claim := c.claim.claim, queue := b.claim.queue.filter (fun e => e.slot ≠ slot) }
        trigger := { b.trigger with trigger := c.trigger.trigger } } ∧
      c.run k = { state := .running, held := decide (∃ a : Fin 4, h.claims.axes.getLsbD a.val = true ∧ (b.axisRec a).state = .held)
                  slot := some slot, snap := some h.snapshot, origin := some origin, clock := 0, gateDelay := 0, gate := none
                  next := 0, holdTime := 0, guard := 0, look := some Look.blank } ∧
      (∀ j y, j ≠ k → y = (b.run j).state → ∀ now, (loses j → now = .suspended) → (¬ loses j → now = y) →
        c.run j = { b.run j with
          state := now
          held := (b.run j).held && decide (now ≠ .suspended ∨ ∃ a : Fin 4,
            h.claims.axes.getLsbD a.val = false ∧ b.owner (axisRes a) = some j ∧ (b.axisRec a).state = .held) }) ∧
      (∀ i : Fin 16, c.fixtureRec i = if h.claims.fixtures.getLsbD i.val = true then { b.fixtureRec i with
          scene := (b.fixtureRec i).scene.mapC (fun comp l => holdLevel t c comp (some (.run k)) l)
          intensity := 255, highlight := 0 } else b.fixtureRec i) ∧
      (∀ a : Fin 4, c.axisRec a = if h.claims.axes.getLsbD a.val = true then { b.axisRec a with
          move := holdPosition t c (some (.run k)) (b.axisRec a).move } else b.axisRec a) ∧
      (∀ v x, x = b.voiceRec v →
        ((∃ j, x.owner = some j ∧ loses j) → x.state = .priming ∨ x.state = .playing →
          c.voiceRec v = { x with state := .paused, refill := none, underrun := false }) ∧
        ((∀ j, x.owner = some j → ¬ loses j) ∨ x.state ≠ .priming ∧ x.state ≠ .playing → c.voiceRec v = x)) ∧
      (∀ n x, x = b.triggerRec n → c.triggerRec n =
        if x.state = .waiting ∧ (b.claim.queue.find? (fun e => e.slot = slot)).map (·.origin) = some (.trigger n)
        then { x with state := .armed } else x) ∧
      (∀ i, Look.blank.fixture.get i = ⟨.none, 255, 0⟩) ∧ (∀ a, Look.blank.axis.get a = none)) ∧
  (∀ (endK : EndRun) (k : Fin 6) (origin : Origin) (t : Tables) (b : Bay) (r : RunRec) (slot : Fin 32),
    r = b.run k → r.state = .running → r.slot = some slot →
    ∃ c, restart endK k origin t b = duckExamine t (if r.held = true then c else examine endK false k t c) ∧
      c = { b with
        fixture := { b.fixture with run := c.fixture.run }, axis := { b.axis with axis := c.axis.axis }
        voice := (idleVoices k b).voice, trigger := { b.trigger with trigger := c.trigger.trigger }
        scene := { run := c.scene.run, status := b.scene.status.upd slot (fun y => { y with lastEnd := .restartTruncated }) } } ∧
      (∀ j, c.run j = if j = k
        then { r with clock := 0, gateDelay := 0, next := 0, gate := none, origin := some origin } else b.run j) ∧
      (∀ i : Fin 16, c.fixtureRec i = if b.owner (fixtureRes i) = some k then { b.fixtureRec i with
          scene := (b.fixtureRec i).scene.mapC (fun comp l => holdLevel t b comp (some (.run k)) l) } else b.fixtureRec i) ∧
      (∀ a : Fin 4, c.axisRec a = if b.owner (axisRes a) = some k then { b.axisRec a with
          move := holdPosition t b (some (.run k)) (b.axisRec a).move } else b.axisRec a) ∧
      (∀ n x, x = b.triggerRec n → c.triggerRec n =
        if r.origin = some (.trigger n) ∧ origin ≠ .trigger n ∧ x.state = .busy then
          (if (t.trigger.get n).lockout.val = 0 then { x with state := .armed, lockout := 0 }
           else { x with state := .lockout, lockout := 1000 * (t.trigger.get n).lockout.val })
        else x)) ∧
  (∀ (s : State) (p : Byte) (slot : Fin 32) (d : ReqOutcome × Bay), Taken s .startScene [p] → p.toNat = slot.val →
    Settled s → d = decideRequest ⟨slot, .control⟩ s.tables s.bay → d.2.claim.inFlight = [] →
    exec .startScene s = .next (({ s with bay := { d.2 with claim := { d.2.claim with control := none } } } : State).answer 0
      [match d.1 with | .admitted => 0 | .restarted => 1 | .ignored => 2 | .queued => 3 | .discarded => 4]))

/-- REQUEST-EXPIRY removes the entries whose deadline show time has passed (R130); SCHEDULE-FIRE makes the requests of the
entries that are due, in schedule order (R147); RESUME-GUARD-EXPIRY scans the request queue (R127), which takes each entry
in queue order (R131). That the first two check the present state alone, and the third scans for a guard that merely stands
at 0, is the model's choice (log 6). -/
def Obligations.ExpiryScheduleAndScan : Prop :=
  (∀ (s : State) (late : QueueEntry → Bool), (∀ e, late e = true ↔ ∃ d, e.deadline = some d ∧ passed s.bay.time d = true) →
    ∃ t, exec .requestExpiry s = .next t ∧
      t = { s with bay := { s.bay with
        claim := { s.bay.claim with queue := s.bay.claim.queue.filter (fun e => !late e) }
        trigger := { s.bay.trigger with trigger := t.bay.trigger.trigger } } } ∧
      ∀ n, t.bay.triggerRec n =
        if (∃ e ∈ s.bay.claim.queue, late e = true ∧ e.origin = .trigger n) ∧ (s.bay.triggerRec n).state = .waiting
        then { s.bay.triggerRec n with state := .armed } else s.bay.triggerRec n) ∧
  (∀ (s : State) (due : ScheduleEntry → Bool), (∀ e, due e = reached s.bay.time e.time) →
    exec .scheduleFire s = .next (settle { s with bay := { s.bay with
      trigger := { s.bay.trigger with schedule := s.bay.trigger.schedule.filter (fun e => !due e) }
      claim := { s.bay.claim with inFlight :=
        s.bay.claim.inFlight ++ (s.bay.trigger.schedule.filter due).map (fun e => ⟨e.slot, .cue⟩) } } })) ∧
  (∀ (s : State) (k : Fin 6), (s.bay.run k).state ≠ .free → (s.bay.run k).guard = 0 →
    exec (.resumeGuardExpiry k) s = .next (settle { s with bay := scan endRun s.tables s.bay })) ∧
  (∀ (endK : EndRun) (t : Tables) (b : Bay), scan endK t b = b.claim.queue.foldl (fun b e => scanEntry endK t e b) b) ∧
  (∀ (endK : EndRun) (t : Tables) (b : Bay) (e : QueueEntry),
    b.claim.queue.find? (fun x => x.slot = e.slot) = none → scanEntry endK t e b = b) ∧
  (∀ (endK : EndRun) (t : Tables) (b : Bay) (e : QueueEntry) (h : Header), h = t.scene.get e.slot →
    b.claim.queue.find? (fun x => x.slot = e.slot) = some e →
    (b.trigger.mode = .darkMode ∨ h.enabled = false ∨ h.stepCount = 0 ∨ h.duration.val = 0 →
      (scanEntry endK t e b).claim.queue = b.claim.queue.filter (fun x => x.slot ≠ e.slot) ∧
      ∀ n, e.origin = .trigger n → (b.triggerRec n).state = .waiting →
        ((scanEntry endK t e b).triggerRec n).state = .armed) ∧
    (b.trigger.mode = .showMode → h.enabled = true → h.stepCount ≠ 0 → h.duration.val ≠ 0 → b.carrier e.slot ≠ none →
      scanEntry endK t e b = b) ∧
    (b.trigger.mode = .showMode → h.enabled = true → h.stepCount ≠ 0 → h.duration.val ≠ 0 → b.carrier e.slot = none →
      (∀ k, admissible t b e.slot = some k →
        scanEntry endK t e b = reportSecond e.origin true (admitScene endK k e.slot e.origin t
          { b with claim := { b.claim with queue := b.claim.queue.filter (fun x => x.slot ≠ e.slot) } })) ∧
      (admissible t b e.slot = none → scanEntry endK t e b = b)))

/-! ### Triggers, cues and the mode (chapter 8) -/

/-- A press (R138) is taken by the trigger's state and the mode (R139): its request, its pending flag and its broadcast
notice; of two readings that find the same level the second is no press. With `late` the request waits for the command after
it, as R149 and R151 allow: the model's operand (log 8). The command as a reading of one pin alone, between millisecond events,
that keeps that level as the previous reading is the model's choice (log 6). Before start-up, and with the pin at the active
level already, the command leaves the node as it stands (log 7). -/
def Obligations.PressesAreTakenByStateAndMode : Prop :=
  ∀ (s : State) (n : Fin 12) (late high : Bool) (cfg : TriggerCfg) (x : Trigger),
    cfg = s.tables.trigger.get n → x = s.bay.triggerRec n → (high = true ↔ cfg.polarity = .activeHigh) →
    (s.ready = false ∨ s.bay.trigger.pins.getLsbD n.val = high → exec (.triggerPress n late) s = .next s) ∧
    (s.ready = true → s.bay.trigger.pins.getLsbD n.val ≠ high → ∃ b : Bay,
      exec (.triggerPress n late) s = .next (if late then { s with bay := b } else settle { s with bay := b }) ∧
      b = { s.bay with
        trigger := { s.bay.trigger with trigger := b.trigger.trigger, pins := b.trigger.pins }
        claim := { s.bay.claim with inFlight := b.claim.inFlight }, notices := b.notices, latched := b.latched } ∧
      (∀ m : Fin 12, b.trigger.pins.getLsbD m.val = if m = n then high else s.bay.trigger.pins.getLsbD m.val) ∧
      (∀ m, m ≠ n → b.triggerRec m = s.bay.triggerRec m) ∧
      (s.bay.trigger.mode = .darkMode ∨ x.state ≠ .armed ∨ x.pending = true →
        b.triggerRec n = x ∧ b.claim.inFlight = s.bay.claim.inFlight ∧ b.notices = s.bay.notices ∧
        b.latched = s.bay.latched) ∧
      (s.bay.trigger.mode = .showMode → x.state = .armed → x.pending = false →
        (∀ slot, cfg.slot = some slot → b.triggerRec n = { x with pending := true } ∧
          b.claim.inFlight = s.bay.claim.inFlight ++ [⟨slot, .trigger n⟩]) ∧
        (cfg.slot = none → b.triggerRec n = x ∧ b.claim.inFlight = s.bay.claim.inFlight) ∧
        (cfg.broadcast = true → s.bay.notices.length < 4 →
          b.notices = s.bay.notices ++ [⟨.trigger, BitVec.ofNat 8 n.val⟩] ∧ b.latched = s.bay.latched) ∧
        (cfg.broadcast = true → 4 ≤ s.bay.notices.length →
          b.notices = s.bay.notices ∧ b.latched = s.bay.latched ||| 0x80) ∧
        (cfg.broadcast = false → b.notices = s.bay.notices ∧ b.latched = s.bay.latched)))

/-- The states of a trigger: the outcomes of its request (R140), its lockout and slow flash at a millisecond event (R141,
R142), its indicator (R142), ARM-TRIGGER and DISARM-TRIGGER (R143), and LOCKOUT_EXPIRY and INDICATOR_FLASH, which do the
last part of such an event alone (the model's choice, log 6). -/
def Obligations.TriggersFollowOutcomesLockoutsAndAsks : Prop :=
  (∀ (b : Bay) (n m : Fin 12) (x : Trigger), x = b.triggerRec n →
    (m ≠ n → (∀ o, (reportFirst (.trigger n) o b).triggerRec m = b.triggerRec m) ∧
      ∀ a, (reportSecond (.trigger n) a b).triggerRec m = b.triggerRec m) ∧
    (x.state ≠ .armed → ∀ o, (reportFirst (.trigger n) o b).triggerRec n = { x with pending := false }) ∧
    (x.state = .armed →
      (reportFirst (.trigger n) .admitted b).triggerRec n = { x with pending := false, state := .busy } ∧
      (reportFirst (.trigger n) .restarted b).triggerRec n = { x with pending := false, state := .busy } ∧
      (reportFirst (.trigger n) .queued b).triggerRec n =
        { x with pending := false, state := .waiting, flash := 0, flashLit := true } ∧
      (reportFirst (.trigger n) .ignored b).triggerRec n = { x with pending := false } ∧
      (reportFirst (.trigger n) .discarded b).triggerRec n = { x with pending := false }) ∧
    (x.state = .waiting → (reportSecond (.trigger n) true b).triggerRec n = { x with state := .busy } ∧
      (reportSecond (.trigger n) false b).triggerRec n = { x with state := .armed }) ∧
    (x.state ≠ .waiting → ∀ a, (reportSecond (.trigger n) a b).triggerRec n = x) ∧
    (countTriggers b).triggerRec n =
      (if x.state = .lockout then
        (if x.lockout ≤ 1 then { x with state := .armed, lockout := 0 } else { x with lockout := x.lockout - 1 })
      else if x.state = .waiting then
        (if 500 ≤ x.flash + 1 then { x with flash := 0, flashLit := !x.flashLit } else { x with flash := x.flash + 1 })
      else x) ∧
    (indicator b n = true ↔ b.trigger.mode = .showMode ∧ (x.state = .armed ∨ x.state = .waiting ∧ x.flashLit = true))) ∧
  (∀ (s : State) (n : Fin 12) (x : Trigger), x = s.bay.triggerRec n →
    (x.state = .lockout → x.lockout = 0 →
      exec (.lockoutExpiry n) s = .next { s with bay := s.bay.updTrigger n (fun x => { x with state := .armed }) }) ∧
    (x.state = .waiting → 500 ≤ x.flash →
      exec (.indicatorFlash n) s =
        .next { s with bay := s.bay.updTrigger n (fun x => { x with flash := 0, flashLit := !x.flashLit }) })) ∧
  (∀ (s : State) (p : Byte) (n : Fin 12), p.toNat = n.val →
    (Taken s .disarmTrigger [p] →
      exec .disarmTrigger s =
        .next ({ s with bay := s.bay.updTrigger n (fun x => { x with state := .disarmed, lockout := 0 }) } : State).done) ∧
    (Taken s .armTrigger [p] →
      exec .armTrigger s =
        if (s.tables.trigger.get n).enabled = true ∧
          ((s.bay.triggerRec n).state = .disarmed ∨ (s.bay.triggerRec n).state = .lockout)
        then .next ({ s with bay := s.bay.updTrigger n (fun x => { x with state := .armed, lockout := 0 }) } : State).done
        else .next s.done))

/-- A GO cue (R145, R146) asks for the scene its number maps to, or is scheduled; a notice from another node (R144) asks for
the scene its key maps to. The commands forward the frame and settle the request. No command but a GO and the resets adds to
the start schedule or changes its order (R146). That a new entry stands before the first that lies further ahead in every
schedule, one out of order too, is the model's deduction (log 29), and that requests are taken at the end of the command its
choice (log 8). -/
def Obligations.GoCuesAndNoticesAskForScenes : Prop :=
  (∀ (t : Tables) (b : Bay) (cue : BitVec 16) (time : Option ShowTime),
    (b.trigger.mode = .darkMode ∨ (∀ (i : Fin 64) (e : CueMap), t.cue.get i = some e → e.cue ≠ cue) →
      takeGo cue time t b = b) ∧
    (∀ (i : Fin 64) (e : CueMap), b.trigger.mode = .showMode → t.cue.get i = some e → e.cue = cue →
      (∀ (j : Fin 64) (e' : CueMap), j < i → t.cue.get j = some e' → e'.cue ≠ cue) →
      ∀ others, others = b.trigger.schedule.filter (fun x => x.slot ≠ e.slot) →
      (∀ due, (due = true ↔ ∀ u, time = some u → reached b.time u = true) →
        (due = true → takeGo cue time t b = { b with
          trigger := { b.trigger with schedule := others }
          claim := { b.claim with inFlight := b.claim.inFlight ++ [⟨e.slot, .cue⟩] } }) ∧
        (due = false → ∀ u, time = some u →
          (8 ≤ others.length → takeGo cue time t b = { b with latched := b.latched ||| 0x100 }) ∧
          (others.length < 8 → ∃ front back, others = front ++ back ∧
            (∀ x ∈ front, timeDiff b.time x.time ≤ timeDiff b.time u) ∧
            (∀ x, back.head? = some x → timeDiff b.time u < timeDiff b.time x.time) ∧
            takeGo cue time t b =
              { b with trigger := { b.trigger with schedule := front ++ ⟨e.slot, u⟩ :: back } })))) ) ∧
  (∀ (t : Tables) (b : Bay) (origin : Nat) (kind : NoticeKind) (number : Byte),
    ((∀ (i : Fin 16) (e : Remote), t.remote.get i = some e →
        ¬ (e.origin.val = origin ∧ e.kind = kind ∧ e.number = number)) → takeNotice origin kind number t b = b) ∧
    (∀ (i : Fin 16) (e : Remote), t.remote.get i = some e → e.origin.val = origin → e.kind = kind → e.number = number →
      (∀ (j : Fin 16) (e' : Remote), j < i → t.remote.get j = some e' →
        ¬ (e'.origin.val = origin ∧ e'.kind = kind ∧ e'.number = number)) →
      takeNotice origin kind number t b =
        { b with claim := { b.claim with inFlight := b.claim.inFlight ++ [⟨e.slot, .remote⟩] } })) ∧
  (∀ (s : State) (c : RxChar) (own : Fin 251) (f : Frame),
    (Completes s c .go own f → exec (.cueGo c) s = .next (settle { (s.rxTake c).enterFrame f with
      bay := takeGo (BitVec.ofNat 16 (field f.body 1 2))
        (if f.body.length = 7 then some (BitVec.ofNat 32 (field f.body 3 4)) else none) s.tables s.bay })) ∧
    (Completes s c .notice own f → exec (.noticeFrame c) s = .next (settle { (s.rxTake c).enterFrame f with
      bay := takeNotice f.node.toNat (if field f.body 0 1 = 1 then .trigger else .signal)
        (BitVec.ofNat 8 (field f.body 1 1)) s.tables s.bay }))) ∧
  (∀ (c : Instr) (s t : State), exec c s = .next t → isReset c = false → (∀ x, c ≠ .cueGo x) →
    t.bay.trigger.schedule.Sublist s.bay.trigger.schedule)

/-- HALT-ALL and entry to DARK mode (R149, R150, R133, R114, R58): the schedule and the request queue are emptied, every run
ends and its resources go free, every trigger in WAITING or BUSY rests. -/
def Obligations.HaltAllAndDarkEntryEndEveryRun : Prop :=
  ∀ (t : Tables) (b u : Bay) (e : EndReason), b.trigger.mode = .showMode →
    (e = .halted ∧ u = haltAll t b ∨ e = .houseDark ∧ u = enterDark t b) →
    u.trigger.mode = (if e = .houseDark then .darkMode else .showMode) ∧ u.trigger.schedule = [] ∧ u.claim.queue = [] ∧
    u.claim.inFlight = b.claim.inFlight ∧
    (∀ k, u.run k = if (b.run k).state = .free then b.run k else RunRec.free) ∧
    (∀ r, u.claim.claim.get r = ⟨none, []⟩) ∧
    (∀ slot, u.scene.status.get slot =
      if b.carrier slot ≠ none then { b.scene.status.get slot with lastEnd := e } else b.scene.status.get slot) ∧
    (∀ n : Fin 12, u.triggerRec n =
      if (b.triggerRec n).state = .waiting ∨ (b.triggerRec n).state = .busy then
        (if (t.trigger.get n).lockout.val = 0 then { b.triggerRec n with state := .armed, lockout := 0 }
         else { b.triggerRec n with state := .lockout, lockout := 1000 * (t.trigger.get n).lockout.val })
      else b.triggerRec n) ∧
    (∀ (i : Fin 16) (k : Fin 6) (x : Snapshot), b.owner (fixtureRes i) = some k → (b.run k).state ≠ .free →
      (b.run k).snap = some x → u.fixtureRec i = { b.fixtureRec i with
        scene := (b.fixtureRec i).scene.mapC (fun c l => retarget t b c .house x.releaseFade .linear .node l)
        intensity := 255, highlight := 0 }) ∧
    (∀ (a : Fin 4) (k : Fin 6), b.owner (axisRes a) = some k → (b.run k).state ≠ .free →
      u.axisRec a = { b.axisRec a with move := holdPosition t b (some .node) (b.axisRec a).move }) ∧
    (∀ (v k : Fin 6) (x : Snapshot), (b.voiceRec v).owner = some k → (b.run k).state ≠ .free → (b.run k).snap = some x →
      u.voiceRec v =
        (endVoices k (if e = .houseDark then 1000 else x.releaseFade) t b).voiceRec v)

/-- HALT-ALL and DARK entry in DARK mode change nothing (R149, R150); the change to SHOW (R151) arms every enabled trigger,
and in SHOW mode changes nothing; the CUE frames and SET-MODE (R180) that bring them about. -/
def Obligations.ModeChangesByCueAndAsk : Prop :=
  (∀ (t : Tables) (b : Bay),
    (b.trigger.mode = .darkMode → haltAll t b = b ∧ enterDark t b = b ∧
      (enterShow t b = { b with trigger := { b.trigger with mode := .showMode, trigger := (enterShow t b).trigger.trigger } }) ∧
      ∀ n, (enterShow t b).triggerRec n =
        if (t.trigger.get n).enabled = true then { b.triggerRec n with state := .armed, lockout := 0 } else b.triggerRec n) ∧
    (b.trigger.mode = .showMode → enterShow t b = b)) ∧
  (∀ (s : State) (c : RxChar) (own : Fin 251) (f : Frame),
    (Completes s c .haltAll own f →
      exec (.cueHaltAll c) s = .next (settle { (s.rxTake c).enterFrame f with bay := haltAll s.tables s.bay })) ∧
    (Completes s c .houseDark own f →
      exec (.cueHouseDark c) s = .next (settle { (s.rxTake c).enterFrame f with bay := enterDark s.tables s.bay })) ∧
    (Completes s c .houseShow own f →
      exec (.cueHouseShow c) s = .next (settle { (s.rxTake c).enterFrame f with bay := enterShow s.tables s.bay }))) ∧
  (∀ s : State,
    (Taken s .setMode [0] → exec .setMode s = .next (settle ({ s with bay := enterShow s.tables s.bay } : State).done)) ∧
    (Taken s .setMode [1] → exec .setMode s = .next (settle ({ s with bay := enterDark s.tables s.bay } : State).done)))

/-! ### The show line (chapter 9) -/

/-- The receiver (R158): hunting, a header's four characters and their test, the characters of a bad header examined again,
and the body; the commands that a character is. That a framing error in a header decides only at the fourth character is the
model's deduction (log 11); that the frame keeps the node's number from its header check (log 43), and that a command that does
not fit the character leaves the node as it stands (log 7), are its choices. -/
def Obligations.ReceiverTakesCharacters : Prop :=
  (∀ (own : Fin 251) (c : RxChar),
    (receive own .hunt c = (if c.byte = 0x7E ∧ c.framing = false then .header [] else .hunt, .quiet)) ∧
    (∀ chars : List RxChar, chars.length < 3 → receive own (.header chars) c = (.header (chars ++ [c]), .quiet)) ∧
    (∀ (k n l : RxChar) (good : Bool), (good = true ↔ k.framing = false ∧ n.framing = false ∧ l.framing = false ∧
        c.framing = false ∧ 1 ≤ k.byte.toNat ∧ k.byte.toNat ≤ 7 ∧ l.byte.toNat ≤ 200 ∧
        crc8 [k.byte, n.byte, l.byte] = c.byte) →
      receive own (.header [k, n, l]) c =
        if good then (.body own k.byte n.byte l.byte.toNat [], .goodHeader) else (rescan [k, n, l, c], .headerError)) ∧
    (∀ (own' : Fin 251) (k n : Byte) (length : Nat) (chars : List RxChar),
      (chars.length + 1 < length + 2 → receive own (.body own' k n length chars) c =
        (.body own' k n length (chars ++ [c]), .quiet)) ∧
      (chars.length + 1 = length + 2 → receive own (.body own' k n length chars) c =
        (.hunt, .frame own' ⟨k, n, ((chars ++ [c]).map (·.byte)).take length,
          BitVec.ofNat 16 (numberOf (((chars ++ [c]).map (·.byte)).drop length))⟩ ((chars ++ [c]).any (·.framing)))))) ∧
  (∀ chars : List RxChar,
    ((∀ x ∈ chars, ¬ (x.byte = 0x7E ∧ x.framing = false)) → rescan chars = .hunt) ∧
    (∀ before x after, chars = before ++ x :: after → (∀ y ∈ before, ¬ (y.byte = 0x7E ∧ y.framing = false)) →
      x.byte = 0x7E → x.framing = false → rescan chars = .header after)) ∧
  (∀ (s : State) (c : RxChar) (rx : Receiver) (event : RxEvent), receive s.tables.config.number s.line.rx c = (rx, event) →
    exec (.characterReceived c) s =
      .next (if event = .quiet then { s with line := { s.line with rx := rx, heard := true } } else s) ∧
    exec (.goodHeader c) s =
      .next (if event = .goodHeader then { s with line := { s.line with rx := rx, heard := true, state := .up, count := 0 } }
        else s) ∧
    exec (.headerError c) s =
      .next (if event = .headerError then
        { s with line := { s.line with rx := rx, heard := true }, bay := { s.bay with latched := s.bay.latched ||| 0x10 } }
        else s))

/-- A frame cut off (R159) is abandoned and latched; the line is lost after 250 millisecond events without a good header
(R169); what the line unit does at a millisecond event. FRAME_CUT_OFF and LINE_LOST do one part of it alone (the model's
choice, log 6). -/
def Obligations.CutOffFramesAndLostLines : Prop :=
  ∀ s : State,
    (s.line.heard = true ∨ s.line.rx = .hunt → exec .frameCutOff s = .next s) ∧
    (∀ chars, s.line.heard = false → s.line.rx = .header chars → exec .frameCutOff s =
      .next { s with line := { s.line with rx := .hunt }, bay := { s.bay with latched := s.bay.latched ||| 0x10 } }) ∧
    (∀ own k n l chars, s.line.heard = false → s.line.rx = .body own k n l chars → exec .frameCutOff s =
      .next { s with line := { s.line with rx := .hunt }, bay := { s.bay with latched := s.bay.latched ||| 0x20 } }) ∧
    (s.line.state = .up → 250 ≤ s.line.count → exec .lineLost s =
      .next { s with line := { s.line with state := .lost }, bay := { s.bay with latched := s.bay.latched ||| 0x8 } }) ∧
    (s.line.state = .lost ∨ s.line.count < 250 → exec .lineLost s = .next s) ∧
    (∃ t u, exec .frameCutOff s = .next t ∧
      exec .lineLost { t with line := { t.line with heard := false, count := min (t.line.count + 1) 250 } } = .next u ∧
      lineMillisecond s = u)

/-- How a frame is treated (R157, R161), with a good body or a bad one; which bodies are well formed (R153) and which CUE
action is which (R153, R157); a frame that finds the transmit queue full is dropped with TX-OVERFLOW (R160); a frame that is
only forwarded. The model's: a forwarded frame is its bytes, without the framing errors of its characters (log 12), and a
command whose frame does not arrive leaves the node as it stands (log 7). -/
def Obligations.FramesAreTreatedByKindAndNode : Prop :=
  (∀ (own : Fin 251) (ready : Bool) (f : Frame) (framing isOwn mine : Bool), (isOwn = true ↔ own.val ≠ 0 ∧ f.node.toNat = own.val) →
    (mine = true ↔ own.val ≠ 0 ∧ (f.node.toNat = own.val ∨ f.node.toNat = 255)) →
    (goodBody f framing = true ↔ framing = false ∧ f.crc = crc16 f.body ∧ f.wellFormed = true) ∧
    (goodBody f framing = false → treatment own ready f framing =
      if f.kind = 6 ∧ isOwn = true then .rejected else if f.kind = 4 ∧ isOwn = true then .strip else .badBody) ∧
    (goodBody f framing = true →
      (f.kind = 1 → treatment own ready f framing = if mine then .time else .forward) ∧
      (f.kind = 2 → treatment own ready f framing = if mine = true ∧ ready = true then .level else .forward) ∧
      (f.kind = 3 → treatment own ready f framing = if mine = true ∧ ready = true then cueTreatment (field f.body 0 1)
        else .forward) ∧
      (f.kind = 4 → treatment own ready f framing = if isOwn then .strip
        else if own.val ≠ 0 ∧ ready = true ∧ 1 ≤ f.node.toNat ∧ f.node.toNat ≤ 250 then .notice else .forward) ∧
      (f.kind = 5 → treatment own ready f framing = if mine = true ∧ ready = true then .empty else .forward) ∧
      (f.kind = 6 → treatment own ready f framing = if isOwn then .ask
        else if f.node = 0 ∧ field f.body 1 1 = 0x0D then .setNumber else .forward) ∧
      (f.kind = 7 → treatment own ready f framing = .forward))) ∧
  (cueTreatment 1 = .go ∧ cueTreatment 2 = .haltAll ∧ cueTreatment 3 = .houseDark ∧ cueTreatment 4 = .houseShow) ∧
  (∀ f : Frame,
    (f.kind = 1 → (f.wellFormed = true ↔ f.body.length = 4)) ∧
    (f.kind = 2 → (f.wellFormed = true ↔ ∃ first hi lo levels, f.body = first :: hi :: lo :: levels ∧
      first.toNat ≤ 15 ∧ hi.toNat * 256 + lo.toNat ≤ 511 ∧ 5 ≤ levels.length ∧ levels.length ≤ 124)) ∧
    (f.kind = 3 → (f.wellFormed = true ↔ ∃ action rest, f.body = action :: rest ∧ 1 ≤ action.toNat ∧ action.toNat ≤ 4 ∧
      (rest.length = 2 ∨ rest.length = 6))) ∧
    (f.kind = 4 → (f.wellFormed = true ↔ ∃ kind number, f.body = [kind, number] ∧ (kind = 1 ∨ kind = 2))) ∧
    (f.kind = 5 → (f.wellFormed = true ↔ f.body = [])) ∧
    (f.kind = 6 → (f.wellFormed = true ↔ 2 ≤ f.body.length)) ∧
    (f.kind = 7 → f.wellFormed = true)) ∧
  (∀ (s : State) (c : RxChar) (x : Bool) (p : Instr × Treatment),
    p ∈ [(.timeFrame c x, .time), (.levelFrame c, .level), (.cueGo c, .go), (.cueHaltAll c, .haltAll),
      (.cueHouseDark c, .houseDark), (.cueHouseShow c, .houseShow), (.noticeFrame c, .notice), (.noticeStrip c, .strip),
      (.emptyFill c, .empty), (.askFrame c, .ask), (.setNumberBySerial c, .setNumber), (.askRejectedCheck c, .rejected),
      (.badBodyFrame c, .badBody), (.frameForward c, .forward)] →
    (s.frameFor c p.2 = none → exec p.1 s = .next s) ∧
    (∀ own f, s.frameFor c p.2 = some (own, f) → 4 ≤ s.line.tx.length →
      exec p.1 s = .next { s.rxTake c with bay := { s.bay with latched := s.bay.latched ||| 0x40 } })) ∧
  (∀ (s : State) (c : RxChar) (own : Fin 251) (f : Frame),
    (Completes s c .forward own f → exec (.frameForward c) s =
      .next { s.rxTake c with line := { (s.rxTake c).line with tx := s.line.tx ++ [.frame f false] } }) ∧
    (Completes s c .badBody own f → exec (.badBodyFrame c) s =
      .next { s.rxTake c with line := { (s.rxTake c).line with tx := s.line.tx ++ [.frame f false] }
                              bay := { s.bay with latched := s.bay.latched ||| 0x20 } }))

/-- Asks enter the transmit queue as pending answers (R163, R165), an ask with a bad body is answered REJECTED-CHECK (R164),
and the oldest notice takes the place of an EMPTY frame (R167) or of the node's own notice come back (R168). The node's own
notice with a bad body latches BODY-ERROR as well: deduced from R161 (log 38). The transmitter (R162, R190); that
TRANSMIT_START and TRANSMIT_DONE leave the node as it stands where nothing can be sent or is being sent is the model's choice
(log 7). -/
def Obligations.TransmitQueueIsFilledAndSent : Prop :=
  (∀ (s : State) (c : RxChar) (own : Fin 251) (f : Frame) (u : State) (put : TxEntry → State → State), u = s.rxTake c →
    (∀ e v, put e v = { v with line := { v.line with tx := v.line.tx ++ [e] } }) →
    (∀ tag kind params, f.body = tag :: kind :: params →
      (Completes s c .ask own f → exec (.askFrame c) s = .next (put (.answer ⟨f.node, tag, kind, params⟩) u)) ∧
      (Completes s c .setNumber own f → exec (.setNumberBySerial c) s =
        .next (if 6 ≤ params.length ∧ numberOf (params.take 6) = s.serial.toNat
          then put (.answer ⟨f.node, tag, kind, params⟩) u else put (.frame f false) u))) ∧
    (∀ v, Completes s c .rejected own f → v = { u with bay := { s.bay with latched := s.bay.latched ||| 0x20 } } →
      exec (.askRejectedCheck c) s =
        .next (put (.frame (mkFrame 7 f.node (f.body.getD 0 0 :: f.body.getD 1 0 :: 6 :: v.errorSummary)) false) v)) ∧
    (Completes s c .empty own f → exec (.emptyFill c) s = .next (match s.bay.notices with
      | [] => put (.frame f false) u
      | n :: rest => put (.frame (mkFrame 4 (BitVec.ofNat 8 own.val) [n.kind.code, n.number]) false)
          { u with bay := { s.bay with notices := rest } })) ∧
    (Completes s c .strip own f → ∀ b : Bay, b = (if badFrame s c then { s.bay with latched := s.bay.latched ||| 0x20 } else s.bay) →
      exec (.noticeStrip c) s = .next (match s.bay.notices with
      | [] => put (.frame (mkFrame 5 255 []) false) { u with bay := b }
      | n :: rest => put (.frame (mkFrame 4 (BitVec.ofNat 8 own.val) [n.kind.code, n.number]) false)
          { u with bay := { b with notices := rest } }))) ∧
  (∀ s : State,
    (∀ f r rest, s.line.tx = .frame f r :: rest → s.line.sending = false →
      exec .transmitStart s = .next { s with line := { s.line with sending := true } }) ∧
    (s.line.sending = true ∨ (∀ f r, s.line.tx.head? ≠ some (.frame f r)) → exec .transmitStart s = .next s) ∧
    (∀ f r rest, s.line.tx = .frame f r :: rest → s.line.sending = true →
      exec .transmitDone s = .next { s with
        line := { s.line with sending := false, tx := rest }
        mgmt := if r then { s.mgmt with restart := .answered } else s.mgmt }) ∧
    (s.line.sending = false → exec .transmitDone s = .next s))

/-- A TIME frame is forwarded and its show time adopted (R5); when show time changes the start schedule and the deadlines of
the request queue are checked (R6), in the order that comes with the command (the model's operand, log 24). -/
def Obligations.TimeFramesAreAdopted : Prop :=
  ∀ (s u : State) (c : RxChar) (expiryFirst : Bool) (own : Fin 251) (f : Frame) (time : ShowTime), Completes s c .time own f →
    time = BitVec.ofNat 32 (numberOf (f.body.take 4)) →
    u = { s.rxTake c with line := { (s.rxTake c).line with tx := s.line.tx ++ [.frame f false] } } →
    (s.bay.time = time → exec (.timeFrame c expiryFirst) s = .next u) ∧
    (s.bay.time ≠ time → ∃ v w,
      exec (if expiryFirst then .requestExpiry else .scheduleFire) { u with bay := { s.bay with time := time } } = .next v ∧
      exec (if expiryFirst then .scheduleFire else .requestExpiry) v = .next w ∧
      exec (.timeFrame c expiryFirst) s = .next w)

/-! ### The management unit (chapter 10) -/

/-- STATUS (R178) at any time answers its 37 bytes and clears the latched half; with parameters it is BAD-REQUEST. The
model's: the RESTART-waiting byte is the port's flag (log 18), and the key level is an operand that the pins keep (log 30). -/
def Obligations.StatusReportsAndClears : Prop :=
  ∀ (s u : State) (key : Bool), u = { s with pins := { s.pins with key := key } } →
    (∀ p, p ≠ [] → Asked s .status p → exec (.status key) s = .next (u.answer 5 [])) ∧
    (Asked s .status [] → ∀ (live : Byte) (data : List Byte),
      (∀ i : Fin 8, live.getLsbD i.val = true ↔
        (i = 0 ∧ ∃ v, (s.bay.voiceRec v).underrun = true) ∨ (i = 1 ∧ ∃ a, (s.bay.axisRec a).state = .faulted) ∨
        (i = 2 ∧ s.mgmt.imageInvalid = true) ∨ (i = 3 ∧ s.line.state = .lost)) →
      data =
        [if s.bay.trigger.mode = .showMode then 0 else 1, if s.ready then 0 else 1,
          BitVec.ofNat 8 s.tables.config.number.val] ++ bytesOf 6 s.serial.toNat ++
        ([if s.line.state = .up then 0 else 1,
          match s.port.state with | .idle => 0 | .busy => 1 | .failed => 2,
          if s.port.restartWaiting then 1 else 0, if s.mgmt.protectState = .normal then 0 else 1,
          if key then 1 else 0] : List Byte) ++
        (List.finRange 6).flatMap (fun k : Fin 6 =>
          match (s.bay.run k).state with
          | .free => ([0, 0, 0] : List Byte)
          | x => [if x = .running then 1 else 2, BitVec.ofNat 8 (((s.bay.run k).slot.map (·.val)).getD 0),
              (if (s.bay.run k).gate.isSome then 1 else 0) ||| (if (s.bay.run k).held then 2 else 0)]) ++
        [BitVec.ofNat 8 s.bay.claim.queue.length, BitVec.ofNat 8 s.bay.trigger.schedule.length, live] ++
        bytesOf 2 s.bay.latched.toNat →
      data.length = 37 ∧
      exec (.status key) s =
        .next { u.answer 0 data with bay := { s.bay with latched := 0 } })

/-- READ-TABLE (R174) answers with the entries from the first on, whole, as many as the ask, the table and the room allow;
it changes nothing but the clip flags of the zones that a read of VOICE carries (R54). What an entry of each table with run
state carries, in the bytes of R173: RUN (R117), VOICE (R60), AXIS-STATE (R97), QUEUE (R135), SCHEDULE (R146), SCENE-STATUS
(R116), TRIGGER (R137) and PROTECT (R184); the lead byte of a run record's origin and its resources as one set are deduced
(log 17). -/
def Obligations.ReadTableCarriesWholeEntries : Prop :=
  (∀ (s : State) (code hi lo n : Byte) (id : TableId) (i want : Nat), Taken s .readTable [code, hi, lo, n] →
    tableOf code.toNat = some id → hi.toNat * 256 + lo.toNat = id.base + i → i < id.entries → n ≠ 0 →
    want = min n.toNat (id.entries - i) →
    ∃ k, k ≤ want ∧ ∀ l : Nat → List (List Byte), (∀ m, l m = (List.range m).map (fun j => entryOf s id (i + j))) →
      (l k).flatten.length ≤ 196 ∧ (k < want → 196 < (l (k + 1)).flatten.length) ∧
      (id ≠ .voice → exec .readTable s = .next (s.answer 0 (BitVec.ofNat 8 k :: (l k).flatten))) ∧
      (id = .voice → ∃ t, exec .readTableVoice s = .next t ∧
        t = { s.answer 0 (BitVec.ofNat 8 k :: (l k).flatten) with
              bay := { s.bay with voice := { s.bay.voice with zone := t.bay.voice.zone } } } ∧
        ∀ z : Fin 2, t.bay.voice.zone.get z =
          if i ≤ 6 + z.val ∧ 6 + z.val < i + k then { s.bay.voice.zone.get z with clipFlag := false }
          else s.bay.voice.zone.get z)) ∧
  (∀ (s : State) (owner : Option (Fin 6) → List Byte) (flag : Bool → List Byte) (origin : Origin → List Byte)
      (target : Target → List Byte),
    (owner none = [0, 0] ∧ ∀ k, owner (some k) = [1, BitVec.ofNat 8 k.val]) → (∀ x, flag x = [if x then 1 else 0]) →
    (∀ x, origin x = match x with
      | .trigger n => [0, BitVec.ofNat 8 n.val]
      | .remote => [1, 0]
      | .cue => [2, 0]
      | .control => [3, 0]
      | .scene => [4, 0]) →
    (∀ x, target x = match x with
      | .index i => [0, 0, 0, i]
      | .level v => 1 :: bytesOf 3 v
      | .house => [2, 0, 0, 0]
      | .position p => 3 :: bytesOf 3 (BitVec.ofInt 24 p).toNat) →
    (∀ (k : Fin 6) (r : RunRec) (held : Nat), r = s.bay.run k → held < 2 ^ 22 →
      (∀ x : Fin 22, held.testBit x.val = true ↔ s.bay.owner x = some k) →
      entryOf s .run k.val =
        ([match r.state with | .free => 0 | .running => 1 | .suspended => 2,
          (if r.gate.isSome then 1 else 0) ||| (if r.held then 2 else 0)] : List Byte) ++
        (match r.slot with
          | none => [0, 0]
          | some x => [1, BitVec.ofNat 8 x.val]) ++
        (match r.snap with
          | none => List.replicate 21 0
          | some x => 1 :: BitVec.ofNat 8 x.priority :: (bytesOf 2 x.claims.fixtures.toNat ++
              [x.claims.lanes.setWidth 8, x.claims.axes.setWidth 8] ++ bytesOf 2 x.firstStep ++ [BitVec.ofNat 8 x.stepCount] ++
              bytesOf 3 x.duration ++ bytesOf 2 x.releaseFade ++ bytesOf 2 x.resumeFade ++ bytesOf 2 x.rewind ++
              bytesOf 3 x.holdLimit)) ++
        (match r.origin with
          | none => [0, 0, 0]
          | some x => 1 :: origin x) ++
        bytesOf 4 r.clock ++ bytesOf 4 r.gateDelay ++ bytesOf 4 (r.clock - r.gateDelay) ++
        (match r.gate with
          | none => List.replicate 9 0
          | some g => [1, g.axes.setWidth 8] ++ bytesOf 4 g.gated ++ bytesOf 3 g.limit) ++
        [BitVec.ofNat 8 r.next] ++ bytesOf 4 r.holdTime ++ bytesOf 2 r.guard ++ bytesOf 3 held ++
        (List.finRange 16).flatMap (fun i : Fin 16 =>
          match r.look, r.snap with
          | some l, some x =>
            if x.claims.fixtures.getLsbD i.val = true then
              (match (l.fixture.get i).target with
                | .index j => [0, 0, 0, 0, j]
                | .level q => [1, q.red, q.green, q.blue, q.white]
                | .none => [2, 0, 0, 0, 0]) ++ [(l.fixture.get i).intensity, BitVec.ofNat 8 (l.fixture.get i).highlight.val]
            else List.replicate 7 0
          | _, _ => List.replicate 7 0) ++
        (List.finRange 4).flatMap (fun a : Fin 4 =>
          match r.look, r.snap with
          | some l, some x =>
            (match l.axis.get a with
              | none => [0, 0, 0, 0]
              | some p =>
                if x.claims.axes.getLsbD a.val = true then 1 :: bytesOf 3 (BitVec.ofInt 24 p).toNat else [0, 0, 0, 0])
          | _, _ => [0, 0, 0, 0])) ∧
    (∀ (v : Fin 6) (x : Voice), x = s.bay.voiceRec v → entryOf s .voice v.val =
      [match x.state with | .idle => 0 | .priming => 1 | .playing => 2 | .paused => 3 | .stopping => 4,
        BitVec.ofNat 8 x.clip.val, if x.zone = .a then 0 else 1, if x.kind = .narration then 0 else 1] ++ owner x.owner ++
      bytesOf 3 x.readPos ++ bytesOf 3 x.fetchPos ++ bytesOf 2 x.fifo.length ++
      (match x.refill with
        | none => [0, 0]
        | some n => [1, BitVec.ofNat 8 n]) ++
      flag x.loop ++ flag x.underrun ++ bytesOf 2 (laneValue s.tables s.bay .red x.gain).toNat) ∧
    (∀ (z : Fin 2) (y : ZoneRun), y = s.bay.voice.zone.get z → entryOf s .voice (6 + z.val) =
      owner (s.bay.owner ⟨16 + z.val, by omega⟩) ++ bytesOf 2 (laneValue s.tables s.bay .red y.duck).toNat ++
        flag y.clipFlag) ∧
    (∀ (a : Fin 4) (x : Axis), x = s.bay.axisRec a → entryOf s .axisState a.val =
      ([match x.state with | .unhomed => 0 | .homing => 1 | .ready => 2 | .moving => 3 | .held => 4 | .faulted => 5,
        match x.fault with | .none => 0 | .stall => 1 | .homeNotFound => 2] : List Byte) ++
      bytesOf 3 (BitVec.ofInt 24 x.stepped).toNat ++ bytesOf 3 (BitVec.ofInt 24 x.measured).toNat ++
      bytesOf 3 (BitVec.ofInt 24 (laneValue s.tables s.bay .red x.move)).toNat ++ target x.move.target ++
      flag (laneDone s.bay x.move) ++
      [x.held.setWidth 8, match x.phase with | .none => 0 | .offSwitch => 1 | .seek => 2] ++ bytesOf 3 x.travel) ∧
    (∀ (p : Fin 4) (x : Prox), x = s.bay.axis.prox.get p → entryOf s .axisState (4 + p.val) =
      (match x.state with | .clear => 0 | .active => 1 | .clearing => 2) :: bytesOf 2 x.delay) ∧
    (∀ (r : Fin 22) (x : Claim), x = s.bay.claim.claim.get r → entryOf s .queue r.val =
      owner x.owner ++ [BitVec.ofNat 8 x.stack.length] ++ x.stack.reverse.map (fun k => BitVec.ofNat 8 k.val) ++
        List.replicate (5 - x.stack.length) 0) ∧
    (∀ i : Fin 8,
      entryOf s .queue (22 + i.val) = (match s.bay.claim.queue[i.val]? with
        | none => List.replicate 14 0
        | some e => [1, BitVec.ofNat 8 e.slot.val] ++ origin e.origin ++ [BitVec.ofNat 8 e.priority] ++
            bytesOf 4 e.arrival.toNat ++
            (match e.deadline with
              | none => [0, 0, 0, 0, 0]
              | some d => 1 :: bytesOf 4 d.toNat)) ∧
      entryOf s .schedule i.val = (match s.bay.trigger.schedule[i.val]? with
        | none => List.replicate 6 0
        | some e => [1, BitVec.ofNat 8 e.slot.val] ++ bytesOf 4 e.time.toNat)) ∧
    (∀ (slot : Fin 32) (x : SceneStatus), x = s.bay.scene.status.get slot → entryOf s .sceneStatus slot.val =
      ([match x.lastEnd with
        | .none => 0 | .complete => 1 | .stopped => 2 | .halted => 3 | .houseDark => 4 | .holdTimeout => 5
        | .axisFault => 6 | .restartTruncated => 7] : List Byte) ++ flag x.skipped ++ flag x.gateTimeout) ∧
    (∀ (n : Fin 12) (g : TriggerCfg) (x : Trigger), g = s.tables.trigger.get n → x = s.bay.triggerRec n →
      entryOf s .trigger n.val =
        flag g.enabled ++
        (match g.slot with
          | none => [0, 0]
          | some m => [1, BitVec.ofNat 8 m.val]) ++
        ([if g.polarity = .activeLow then 0 else 1] : List Byte) ++ bytesOf 2 g.lockout.val ++ flag g.broadcast ++
        ([match x.state with | .armed => 0 | .waiting => 1 | .busy => 2 | .lockout => 3 | .disarmed => 4] : List Byte) ++
        flag x.pending ++ bytesOf 3 x.lockout) ∧
    entryOf s .protect 0 = protectC.enc s.tables.protect ++ flag (s.mgmt.protectState = .frozen))

/-- An accepted write of a table whose block takes it as it stands replaces each entry it names, and no other; CONFIG keeps
the node number (R176); SET-BANK and SET-NUMBER (R181). That the claim unit then takes the requests in flight is the
model's choice (log 8). -/
def Obligations.WritesReplaceTheNamedEntries : Prop :=
  (∀ (α : Type) (n i : Nat) (l : List α) (t : Tab α n) (j : Fin n), i + l.length ≤ n →
    (putEntries i l t).get j =
      if h : i ≤ j.val ∧ j.val < i + l.length then l[j.val - i]'(by omega) else t.get j) ∧
  (∀ (s : State) (i : Nat) (next : (Tables → Tables) → Result),
    (∀ f, next f = .next (settle ({ s with tables := f s.tables } : State).done)) →
    (∀ x, Writes s .config configC i [x] → exec .writeTableConfig s =
      next (fun t => { t with config := { x with number := t.config.number } })) ∧
    (∀ l, Writes s .palette colourC i l → exec .writeTablePalette s =
      next (fun t => { t with palette := putEntries i l t.palette })) ∧
    (∀ l, Writes s .highlight colourC i l → exec .writeTableHighlight s =
      next (fun t => { t with highlight := putEntries i l t.highlight })) ∧
    (∀ x, Writes s .house colourC i [x] → exec .writeTableHouse s = next (fun t => { t with house := x })) ∧
    (∀ x, Writes s .bank bankC i [x] → exec .writeTableBank s = next (fun t => { t with bank := x })) ∧
    (∀ l, Writes s .fixture fixtureC i l → exec .writeTableFixture s =
      next (fun t => { t with fixture := putEntries i l t.fixture })) ∧
    (∀ l, Writes s .clip clipC i l → exec .writeTableClip s = next (fun t => { t with clip := putEntries i l t.clip })) ∧
    (∀ l, Writes s .step stepC i l → (∀ j, j < l.length → protectedStep s.tables (i + j) = false) →
      exec .writeTableStep s = next (fun t => { t with step := putEntries i l t.step })) ∧
    (∀ l, Writes s .remote remoteC i l → exec .writeTableRemote s =
      next (fun t => { t with remote := putEntries i l t.remote })) ∧
    (∀ l, Writes s .cue cueC i l → exec .writeTableCue s = next (fun t => { t with cue := putEntries i l t.cue }))) ∧
  (∀ s : State, s.storing = false →
    (∀ mask base, Taken s .setBank [mask, base] → exec .setBank s =
      .next ({ s with tables := { s.tables with bank := ⟨mask, base⟩ } } : State).done) ∧
    (∀ (serial : List Byte) (b : Byte) (n : Fin 251), Taken s .setNumber (serial ++ [b]) → serial.length = 6 →
      numberOf serial = s.serial.toNat → b.toNat = n.val → exec .setNumber s =
        .next ({ s with tables := { s.tables with config := { s.tables.config with number := n } } } : State).done))

/-- The effect of an accepted write on its block: PATCH (R25), ZONE (R52), AXIS (R79), PROXIMITY (R93), SCENE (R131) and
TRIGGER (R136). The model's: the claim unit then takes the requests in flight (log 8), a write of PROXIMITY goes record by record
and axis by axis, ascending (log 41), and the retarget of a PATCH write has the curve LINEAR (log 40). -/
def Obligations.WritesActOnTheirBlocks : Prop :=
  ∀ (s : State) (i : Nat) (next : Tables → Bay → Result),
    (∀ t b, next t b = .next (settle ({ s with tables := t, bay := b } : State).done)) →
    (∀ l t, Writes s .patch patchC i l → t = { s.tables with patch := putEntries i l s.tables.patch } →
      ∃ run, exec .writeTablePatch s = next t { s.bay with fixture := { s.bay.fixture with run := run } } ∧
        ∀ (f : Fin 16) (x : FixtureRun), x = s.bay.fixtureRec f → (run.get f).scene = x.scene ∧
          (run.get f).intensity = x.intensity ∧ (run.get f).highlight = x.highlight ∧
          ∀ c : Comp, (run.get f).line.get c =
            if i ≤ f.val * 4 + c.idx.val ∧ f.val * 4 + c.idx.val < i + l.length
            then retarget t s.bay c (.level 0) 0 .linear .node (x.line.get c) else x.line.get c) ∧
    (∀ l t, Writes s .zone zoneC i l → t = { s.tables with zone := putEntries i l s.tables.zone } →
      exec .writeTableZone s = next t (duckExamine t s.bay)) ∧
    (∀ l t, Writes s .axis axisC i l → t = { s.tables with axis := putEntries i l s.tables.axis } →
      ((∀ a : Fin 4, i ≤ a.val → a.val < i + l.length → axisFits (t.axis.get a) (s.bay.axisRec a) = true) →
        ∃ axis, exec .writeTableAxis s = next t { s.bay with axis := { s.bay.axis with axis := axis } } ∧
          ∀ a : Fin 4, axis.get a =
            if i ≤ a.val ∧ a.val < i + l.length ∧ (t.axis.get a).feedback = .none ∧
              (s.tables.axis.get a).feedback ≠ .none
            then { s.bay.axisRec a with measured := (s.bay.axisRec a).stepped } else s.bay.axisRec a) ∧
      ((∃ a : Fin 4, i ≤ a.val ∧ a.val < i + l.length ∧ axisFits (t.axis.get a) (s.bay.axisRec a) = false) →
        exec .writeTableAxis s = .next (s.answer 5 []))) ∧
    (∀ l t records, Writes s .proximity proxC i l → t = { s.tables with prox := putEntries i l s.tables.prox } →
      records = (List.finRange 4).filter (fun p => i ≤ p.val ∧ p.val < i + l.length) →
      exec .writeTableProximity s = next t (records.foldl (fun b p =>
        if (b.axis.prox.get p).state = .clear then b
        else [0, 1, 2, 3].foldl (fun b (a : Fin 4) =>
          if (t.prox.get p).axes.getLsbD a.val = true ∧ (s.tables.prox.get p).axes.getLsbD a.val = false then holdBy p a t b
          else if (s.tables.prox.get p).axes.getLsbD a.val = true ∧ (t.prox.get p).axes.getLsbD a.val = false
          then unholdBy p a t b
          else b) b) s.bay)) ∧
    (∀ l t, Writes s .scene sceneC i l → t = { s.tables with scene := putEntries i l s.tables.scene } →
      (∀ slot : Fin 32, i ≤ slot.val → slot.val < i + l.length → s.tables.protect.slot slot = false) →
      exec .writeTableScene s = next t (scan endRun t s.bay)) ∧
    (∀ l t, Writes s .trigger triggerC i l → t = { s.tables with trigger := putEntries i l s.tables.trigger } →
      ∃ trigger, exec .writeTableTrigger s = next t { s.bay with trigger := { s.bay.trigger with trigger := trigger } } ∧
        ∀ n : Fin 12, trigger.get n =
          if i ≤ n.val ∧ n.val < i + l.length ∧ (t.trigger.get n).enabled = false
          then { s.bay.triggerRec n with state := .disarmed, lockout := 0 } else s.bay.triggerRec n)

/-- The tests of R170 in their order: NOT-READY before readiness to every ask but STATUS (R171), BAD-REQUEST to an unknown
kind, to parameters of bad form, to a write of no working table (R175) and to an AXIS write that does not fit (R79), PROTECTED
to a write of a protected slot or step (R183), BUSY to a change of a working table while a STORE is in flight (R187). A command
whose ask is not the next leaves the node as it stands (the model's choice, log 7). -/
def Obligations.AsksAreTestedInOrder : Prop :=
  (∀ (s : State) (p : List Byte) (key home : Bool) (q : Instr × AskKind × Bool),
    q ∈ [(.startScene, .startScene, (slotParam p).isNone), (.stopScene, .stopScene, (slotParam p).isNone),
      (.armTrigger, .armTrigger, (triggerParam p).isNone), (.disarmTrigger, .disarmTrigger, (triggerParam p).isNone),
      (.homeAxis home, .homeAxis, (axisParam p).isNone), (.clearFault, .clearFault, (axisParam p).isNone),
      (.setMode, .setMode, (modeParam p).isNone), (.setBank, .setBank, (bankParam p).isNone),
      (.setNumber, .setNumber, (numberParam s.serial p).isNone), (.setProtect key, .setProtect, (protectParam p).isNone),
      (.freeze key, .freeze, p ≠ []), (.store, .store, p ≠ []), (.restart, .restart, p ≠ []),
      (.eraseSectors, .eraseSectors, (eraseParams p).isNone), (.pageFill, .pageFill, (fillParams p).isNone),
      (.pageProgram, .pageProgram, (pageParam p).isNone), (.readClip, .readClip, (clipParams p).isNone),
      (.paletteStream, .paletteStream, (streamParams p).isNone)] →
    (s.ready = false → Asked s q.2.1 p → exec q.1 s = .next (s.answer 4 [])) ∧
    (Taken s q.2.1 p → q.2.2 = true → exec q.1 s = .next (s.answer 5 [])) ∧
    ((∀ a, s.nextAsk = some a → a.askKind ≠ some q.2.1) → exec q.1 s = .next s)) ∧
  (∀ (s : State) (p : List Byte) (q : Instr × TableId × Bool),
    q ∈ [(.writeTableConfig, .config, (writeParams configC .config p).isNone),
      (.writeTablePalette, .palette, (writeParams colourC .palette p).isNone),
      (.writeTableHighlight, .highlight, (writeParams colourC .highlight p).isNone),
      (.writeTableHouse, .house, (writeParams colourC .house p).isNone),
      (.writeTableBank, .bank, (writeParams bankC .bank p).isNone),
      (.writeTableFixture, .fixture, (writeParams fixtureC .fixture p).isNone),
      (.writeTablePatch, .patch, (writeParams patchC .patch p).isNone),
      (.writeTableClip, .clip, (writeParams clipC .clip p).isNone),
      (.writeTableZone, .zone, (writeParams zoneC .zone p).isNone),
      (.writeTableAxis, .axis, (writeParams axisC .axis p).isNone),
      (.writeTableProximity, .proximity, (writeParams proxC .proximity p).isNone),
      (.writeTableScene, .scene, (writeParams sceneC .scene p).isNone),
      (.writeTableStep, .step, (writeParams stepC .step p).isNone),
      (.writeTableTrigger, .trigger, (writeParams triggerC .trigger p).isNone),
      (.writeTableRemote, .remote, (writeParams remoteC .remote p).isNone),
      (.writeTableCue, .cue, (writeParams cueC .cue p).isNone)] →
    namedTable p = some q.2.1 →
    (s.ready = false → Asked s .writeTable p → exec q.1 s = .next (s.answer 4 [])) ∧
    (Taken s .writeTable p → q.2.2 = true → exec q.1 s = .next (s.answer 5 [])) ∧
    (Taken s .writeTable p → q.2.2 = false → s.storing = true → (∀ slot, s.tables.protect.slot slot = false) →
      (∀ i, protectedStep s.tables i = false) → q.1 ≠ .writeTableAxis → exec q.1 s = .next (s.answer 1 [])) ∧
    ((∀ a, s.nextAsk = some a → a.askKind ≠ some .writeTable ∨ namedTable a.params ≠ some q.2.1) → exec q.1 s = .next s)) ∧
  (∀ (s : State) (p : List Byte) (answers : Instr → Byte → Prop), (∀ c code, answers c code ↔ exec c s = .next (s.answer code [])) →
    ((∃ a, s.nextAsk = some a ∧ a.askKind = none) → answers .unknownAsk (if s.ready then 5 else 4)) ∧
    ((∀ id, namedTable p = some id → id.working = false) →
      (s.ready = false → Asked s .writeTable p → answers .writeTable 4) ∧ (Taken s .writeTable p → answers .writeTable 5)) ∧
    (∀ c, (namedTable p ≠ some .voice ∧ c = .readTable ∨ namedTable p = some .voice ∧ c = .readTableVoice) →
      (s.ready = false → Asked s .readTable p → answers c 4) ∧ (Taken s .readTable p → readParams p = none → answers c 5)) ∧
    (∀ i l, Taken s .writeTable p → namedTable p = some .axis → writeParams axisC .axis p = some (i, l) →
      ((∃ a : Fin 4, i ≤ a.val ∧ a.val < i + l.length ∧
        axisFits ((putEntries i l s.tables.axis).get a) (s.bay.axisRec a) = false) → answers .writeTableAxis 5) ∧
      ((∀ a : Fin 4, i ≤ a.val → a.val < i + l.length →
        axisFits ((putEntries i l s.tables.axis).get a) (s.bay.axisRec a) = true) → s.storing = true →
        answers .writeTableAxis 1)) ∧
    (∀ i l, Taken s .writeTable p → namedTable p = some .scene → writeParams sceneC .scene p = some (i, l) →
      ((∃ slot : Fin 32, i ≤ slot.val ∧ slot.val < i + l.length ∧ s.tables.protect.slot slot = true) →
        answers .writeTableScene 2) ∧
      ((∀ slot : Fin 32, i ≤ slot.val → slot.val < i + l.length → s.tables.protect.slot slot = false) → s.storing = true →
        answers .writeTableScene 1)) ∧
    (∀ i l, Taken s .writeTable p → namedTable p = some .step → writeParams stepC .step p = some (i, l) →
      ((∃ j, j < l.length ∧ protectedStep s.tables (i + j) = true) → answers .writeTableStep 2) ∧
      ((∀ j, j < l.length → protectedStep s.tables (i + j) = false) → s.storing = true → answers .writeTableStep 1)) ∧
    (s.storing = true →
      (Taken s .setBank p → bankParam p ≠ none → exec .setBank s = .next (s.answer 1 [])) ∧
      (Taken s .setNumber p → numberParam s.serial p ≠ none → exec .setNumber s = .next (s.answer 1 [])) ∧
      (Taken s .paletteStream p → streamParams p ≠ none → exec .paletteStream s = .next (s.answer 1 []))))

/-- The protected sets (R182), what a write that they forbid is answered (R183), and SET-PROTECT and FREEZE (R184), the key
level an operand that the pins keep (the model's choice, log 30). Once
FROZEN, no command but a power-on reset changes the protect state, and none but start-up and resets the protect record. -/
def Obligations.ProtectionAndFreeze : Prop :=
  (∀ (r : Protect) (slot : Fin 32) (b : Nat), b ≤ 254 →
    (r.slot slot = true ↔ ((r.sceneEdge = .low ∧ slot.val < r.sceneCount.val ∨
      r.sceneEdge = .high ∧ 32 - r.sceneCount.val ≤ slot.val) ↔ r.complement = false)) ∧
    (r.block b = true ↔ ((r.clipEdge = .low ∧ b < r.clipCount.toNat ∨
      r.clipEdge = .high ∧ 255 - r.clipCount.toNat ≤ b) ↔ r.complement = false)) ∧ r.block 255 = false) ∧
  (∀ (t : Tables) (i : Nat), protectedStep t i = true ↔ ∃ slot, t.protect.slot slot = true ∧
    (t.scene.get slot).firstStep.val ≤ i ∧ i < (t.scene.get slot).firstStep.val + (t.scene.get slot).stepCount.toNat) ∧
  (∀ (s : State) (i : Nat),
    (∀ l, Writes s .scene sceneC i l → (∃ slot : Fin 32, i ≤ slot.val ∧ slot.val < i + l.length ∧
      s.tables.protect.slot slot = true) → exec .writeTableScene s = .next (s.answer 2 [])) ∧
    (∀ l, Writes s .step stepC i l → (∃ j, j < l.length ∧ protectedStep s.tables (i + j) = true) →
      exec .writeTableStep s = .next (s.answer 2 []))) ∧
  (∀ (s u : State) (key locked : Bool) (p : List Byte) (r : Protect), u = { s with pins := { s.pins with key := key } } →
    (locked = true ↔ s.mgmt.protectState = .frozen ∨ (s.tables.protect.mode = .keyed ∧ key = false)) →
    (Taken s .setProtect p → protectParam p = some r → exec (.setProtect key) s =
      .next (if locked then u.answer 2 [] else if s.storing then u.answer 1 []
        else ({ u with tables := { s.tables with protect := r } } : State).done)) ∧
    (Taken s .freeze [] → exec (.freeze key) s =
      .next (if locked then u.answer 2 [] else ({ u with mgmt := { s.mgmt with protectState := .frozen } } : State).done))) ∧
  (∀ (c : Instr) (s t : State), exec c s = .next t → c ≠ .powerOnReset →
    (s.mgmt.protectState = .frozen → t.mgmt.protectState = .frozen) ∧
    ((∀ key, c ≠ .freeze key) → t.mgmt.protectState = s.mgmt.protectState) ∧
    (s.mgmt.protectState = .frozen → isReset c = false → (∀ h p, c ≠ .startUp h p) → t.tables.protect = s.tables.protect))

/-- The resets and start-up: power-on reset (R62, R177) keeps the flash but for the page or sector of a step in work, the
serial and the pins; the ready wait and the image reads (R62, R188); the image test (R186, R188), after a STORE that failed or
was interrupted the finding that the image is invalid (R72, R187, R190), and the tables that start-up takes; what start-up does to the axes, the proximity inputs, the triggers and the mode (R84, R89, R137, R138, R150, R189);
RESTART (R190). The model's: the free values of a step cut off and their count (logs 3, 23), FLASH_READY_TIMEOUT as a command
(log 6), the tables before start-up (log 9), the levels of the pins at a reset (log 10), an image that spells no tables (log
16), the port's flag of a RESTART that waits (log 18), the inputs as operands that the pins keep (log 30), the field that
holds whether the last STORE was cut off, from its acceptance on (log 45), a RESTART_TAKES_EFFECT that cannot take effect and
leaves the node as it stands (log 7). -/
def Obligations.ResetsAndStartUp : Prop :=
  (∀ s : State, exec .powerOnReset s = .next { State.reset with
    flash := cutStep s, storeCut := s.storing || s.storeCut
    serial := s.serial, pins := s.pins, draws := s.draws + 1, pending := s.pending }) ∧
  (∀ s : State, (s.port.op = none ∨ s.port.phase = some .gap → cutStep s = s.flash) ∧
    ∀ o st rest, s.port.op = some o → o.phase ≠ .gap → o.steps = st :: rest → s.flash.wf = true →
      ∀ (first size a : Nat), (first, size) = (match st with | .erase n => (n * 4096, 4096) | .program p _ => (p * 256, 256)) →
        (cutStep s).read a = if first ≤ a ∧ a < first + size then Config.flashByte s.draws a else s.flash.read a) ∧
  (State.reset.bay.time = 0 ∧ (∀ k, State.reset.bay.run k = RunRec.free) ∧
    (∀ r, State.reset.bay.claim.claim.get r = ⟨none, []⟩) ∧ State.reset.bay.claim.queue = [] ∧
    State.reset.bay.trigger.schedule = [] ∧ State.reset.bay.trigger.mode = .showMode ∧
    (∀ n, (State.reset.bay.triggerRec n).state = .disarmed) ∧ (∀ v, (State.reset.bay.voiceRec v).state = .idle) ∧
    (∀ a, (State.reset.bay.axisRec a).state = .unhomed) ∧ (∀ i, State.reset.bay.fixture.duty.get i = ⟨0, 0, 0, 0⟩) ∧
    State.reset.bay.notices = [] ∧ State.reset.bay.latched = 0x2008 ∧ State.reset.line = ⟨.hunt, false, [], false, .lost, 250⟩ ∧
    State.reset.port.link = .free ∧ State.reset.port.op = none ∧ State.reset.port.state = .idle ∧
    (∀ i, State.reset.port.buffer.get i = 0xFF) ∧ State.reset.mgmt.protectState = .normal ∧ State.reset.ready = false) ∧
  (∀ (s u : State) (n : Nat), s.mgmt.startUp = .flashWait n →
    u = { s with mgmt := { s.mgmt with startUp := .reading [] }, port := { s.port with waiting := some ⟨65360 * 256, 256⟩ } } →
    exec .flashReady s = .next u ∧
    exec .flashReadyTimeout s = .next
      (if 500 ≤ n then { u with bay := { s.bay with latched := s.bay.latched ||| 0x1000 } } else s)) ∧
  (∀ (s : State) (home : BitVec 4) (pins : BitVec 12) (trailer body : List Byte) (image : Option Tables) (t : Tables),
    s.mgmt.startUp = .imageRead (trailer ++ body) → trailer.length = 256 →
    image = (if s.storeCut then none else imageTables trailer body) →
    t = image.getD Tables.factory →
    (image ≠ none → ∃ high low, trailer.take 7 = [0x5A, 0x4E, 0x31, 0x36, 80, high, low] ∧
      crc16 body = BitVec.ofNat 16 (high.toNat * 256 + low.toNat)) ∧
    exec (.startUp home pins) s = .next { s with
      tables := t, pins := { s.pins with home := home }
      mgmt := { s.mgmt with startUp := .ready, imageInvalid := image.isNone }
      bay := startBay home s.pins.prox pins t
        { s.bay with latched := if image = none then s.bay.latched ||| 0x4 else s.bay.latched } }) ∧
  (∀ (home active : BitVec 4) (pins : BitVec 12) (t : Tables) (b : Bay),
    (∀ a, (b.axisRec a).state = .unhomed ∧ b.owner (axisRes a) = none) → (∀ p, (b.axis.prox.get p).state = .clear) →
    (∀ k, (b.run k).gate = none) →
    ∃ v, startBay home active pins t b = (if t.config.startMode = .darkMode then enterDark t v else v) ∧
      v = { b with axis := v.axis, trigger := { b.trigger with trigger := v.trigger.trigger, pins := pins } } ∧
      (∀ p, v.axis.prox.get p = if active.getLsbD p.val = true then ⟨.active, 0⟩ else b.axis.prox.get p) ∧
      (∀ (a : Fin 4) (g : AxisCfg) (x : Axis), g = t.axis.get a →
        x = { b.axisRec a with
          capDir := g.homeDir, capRate := g.homeRate.val, capTravel := g.homeTravel.toNat, held := (v.axisRec a).held } →
        (∀ p : Fin 4, (v.axisRec a).held.getLsbD p.val =
          ((b.axisRec a).held.getLsbD p.val || (active.getLsbD p.val && (t.prox.get p).axes.getLsbD a.val))) ∧
        v.axisRec a =
          if g.homeAtStart = true then { x with
            state := .homing, travel := 0, phase := if home.getLsbD a.val then .offSwitch else .seek
            move := holdPosition t b (some .node) (b.axisRec a).move }
          else x) ∧
      (∀ n, v.triggerRec n =
        if (t.trigger.get n).enabled = true then { b.triggerRec n with state := .armed, lockout := 0 } else b.triggerRec n)) ∧
  (∀ s : State, Taken s .restart [] →
    (s.mgmt.restart = .none → exec .restart s = .next { s with
      port := { s.port with restartWaiting := s.port.op.isSome }, mgmt := { s.mgmt with restart := .answering }
      line := { s.line with tx := completeFirst (fun a => answerFrame a 0 []) true s.line.tx } }) ∧
    (s.mgmt.restart ≠ .none → exec .restart s = .next s.done)) ∧
  (∀ s : State,
    (s.mgmt.restart = .answered → s.port.op = none → exec .restartTakesEffect s = .next { State.reset with
      flash := s.flash, storeCut := s.storeCut
      serial := s.serial, pins := s.pins, draws := s.draws, pending := s.pending
      tables := { Tables.factory with config := { Tables.factory.config with number := s.tables.config.number } }
      line := { LineUnit.reset with tx := (if s.line.sending then s.line.tx.take 1 else []), sending := s.line.sending }
      mgmt := ⟨s.mgmt.protectState, .reading [], false, .none, .none⟩
      port := { StorePort.reset with waiting := some ⟨65360 * 256, 256⟩ } }) ∧
    (s.mgmt.restart ≠ .answered ∨ s.port.op ≠ none → exec .restartTakesEffect s = .next s))

end
end

