-- ==== Sys2Proof/Laws/State.lean ====
section
/-! SUPPORT. What each update of the state leaves in each field, so that no proof unfolds a record update. -/

namespace Sys2Proof.Machine

/-! ### State.onBay -/

@[simp] theorem State.onBay_tables (s : State) (f : Tables → Bay → Bay) : (s.onBay f).tables = s.tables := rfl
@[simp] theorem State.onBay_bay (s : State) (f : Tables → Bay → Bay) : (s.onBay f).bay = f s.tables s.bay := rfl
@[simp] theorem State.onBay_staging (s : State) (f : Tables → Bay → Bay) : (s.onBay f).staging = s.staging := rfl
@[simp] theorem State.onBay_flash (s : State) (f : Tables → Bay → Bay) : (s.onBay f).flash = s.flash := rfl
@[simp] theorem State.onBay_port (s : State) (f : Tables → Bay → Bay) : (s.onBay f).port = s.port := rfl
@[simp] theorem State.onBay_line (s : State) (f : Tables → Bay → Bay) : (s.onBay f).line = s.line := rfl
@[simp] theorem State.onBay_mgmt (s : State) (f : Tables → Bay → Bay) : (s.onBay f).mgmt = s.mgmt := rfl
@[simp] theorem State.onBay_pins (s : State) (f : Tables → Bay → Bay) : (s.onBay f).pins = s.pins := rfl
@[simp] theorem State.onBay_serial (s : State) (f : Tables → Bay → Bay) : (s.onBay f).serial = s.serial := rfl
@[simp] theorem State.onBay_storeCut (s : State) (f : Tables → Bay → Bay) : (s.onBay f).storeCut = s.storeCut := rfl
@[simp] theorem State.onBay_draws (s : State) (f : Tables → Bay → Bay) : (s.onBay f).draws = s.draws := rfl
@[simp] theorem State.onBay_pending (s : State) (f : Tables → Bay → Bay) : (s.onBay f).pending = s.pending := rfl

/-! ### State.setTables -/

@[simp] theorem State.setTables_tables (s : State) (f : Tables → Tables) : (s.setTables f).tables = f s.tables := rfl
@[simp] theorem State.setTables_bay (s : State) (f : Tables → Tables) : (s.setTables f).bay = s.bay := rfl
@[simp] theorem State.setTables_staging (s : State) (f : Tables → Tables) : (s.setTables f).staging = s.staging := rfl
@[simp] theorem State.setTables_flash (s : State) (f : Tables → Tables) : (s.setTables f).flash = s.flash := rfl
@[simp] theorem State.setTables_port (s : State) (f : Tables → Tables) : (s.setTables f).port = s.port := rfl
@[simp] theorem State.setTables_line (s : State) (f : Tables → Tables) : (s.setTables f).line = s.line := rfl
@[simp] theorem State.setTables_mgmt (s : State) (f : Tables → Tables) : (s.setTables f).mgmt = s.mgmt := rfl
@[simp] theorem State.setTables_pins (s : State) (f : Tables → Tables) : (s.setTables f).pins = s.pins := rfl
@[simp] theorem State.setTables_serial (s : State) (f : Tables → Tables) : (s.setTables f).serial = s.serial := rfl
@[simp] theorem State.setTables_storeCut (s : State) (f : Tables → Tables) : (s.setTables f).storeCut = s.storeCut := rfl
@[simp] theorem State.setTables_draws (s : State) (f : Tables → Tables) : (s.setTables f).draws = s.draws := rfl
@[simp] theorem State.setTables_pending (s : State) (f : Tables → Tables) : (s.setTables f).pending = s.pending := rfl

/-! ### State.setPort -/

@[simp] theorem State.setPort_tables (s : State) (f : StorePort → StorePort) : (s.setPort f).tables = s.tables := rfl
@[simp] theorem State.setPort_bay (s : State) (f : StorePort → StorePort) : (s.setPort f).bay = s.bay := rfl
@[simp] theorem State.setPort_staging (s : State) (f : StorePort → StorePort) : (s.setPort f).staging = s.staging := rfl
@[simp] theorem State.setPort_flash (s : State) (f : StorePort → StorePort) : (s.setPort f).flash = s.flash := rfl
@[simp] theorem State.setPort_port (s : State) (f : StorePort → StorePort) : (s.setPort f).port = f s.port := rfl
@[simp] theorem State.setPort_line (s : State) (f : StorePort → StorePort) : (s.setPort f).line = s.line := rfl
@[simp] theorem State.setPort_mgmt (s : State) (f : StorePort → StorePort) : (s.setPort f).mgmt = s.mgmt := rfl
@[simp] theorem State.setPort_pins (s : State) (f : StorePort → StorePort) : (s.setPort f).pins = s.pins := rfl
@[simp] theorem State.setPort_serial (s : State) (f : StorePort → StorePort) : (s.setPort f).serial = s.serial := rfl
@[simp] theorem State.setPort_storeCut (s : State) (f : StorePort → StorePort) : (s.setPort f).storeCut = s.storeCut := rfl
@[simp] theorem State.setPort_draws (s : State) (f : StorePort → StorePort) : (s.setPort f).draws = s.draws := rfl
@[simp] theorem State.setPort_pending (s : State) (f : StorePort → StorePort) : (s.setPort f).pending = s.pending := rfl

/-! ### State.updOp -/

@[simp] theorem State.updOp_tables (s : State) (f : Operation → Operation) : (s.updOp f).tables = s.tables := rfl
@[simp] theorem State.updOp_bay (s : State) (f : Operation → Operation) : (s.updOp f).bay = s.bay := rfl
@[simp] theorem State.updOp_staging (s : State) (f : Operation → Operation) : (s.updOp f).staging = s.staging := rfl
@[simp] theorem State.updOp_flash (s : State) (f : Operation → Operation) : (s.updOp f).flash = s.flash := rfl
@[simp] theorem State.updOp_port (s : State) (f : Operation → Operation) : (s.updOp f).port = { s.port with op := s.port.op.map f } := rfl
@[simp] theorem State.updOp_line (s : State) (f : Operation → Operation) : (s.updOp f).line = s.line := rfl
@[simp] theorem State.updOp_mgmt (s : State) (f : Operation → Operation) : (s.updOp f).mgmt = s.mgmt := rfl
@[simp] theorem State.updOp_pins (s : State) (f : Operation → Operation) : (s.updOp f).pins = s.pins := rfl
@[simp] theorem State.updOp_serial (s : State) (f : Operation → Operation) : (s.updOp f).serial = s.serial := rfl
@[simp] theorem State.updOp_storeCut (s : State) (f : Operation → Operation) : (s.updOp f).storeCut = s.storeCut := rfl
@[simp] theorem State.updOp_draws (s : State) (f : Operation → Operation) : (s.updOp f).draws = s.draws := rfl
@[simp] theorem State.updOp_pending (s : State) (f : Operation → Operation) : (s.updOp f).pending = s.pending := rfl

/-! ### State.setTx -/

@[simp] theorem State.setTx_tables (s : State) (l : List TxEntry) : (s.setTx l).tables = s.tables := rfl
@[simp] theorem State.setTx_bay (s : State) (l : List TxEntry) : (s.setTx l).bay = s.bay := rfl
@[simp] theorem State.setTx_staging (s : State) (l : List TxEntry) : (s.setTx l).staging = s.staging := rfl
@[simp] theorem State.setTx_flash (s : State) (l : List TxEntry) : (s.setTx l).flash = s.flash := rfl
@[simp] theorem State.setTx_port (s : State) (l : List TxEntry) : (s.setTx l).port = s.port := rfl
@[simp] theorem State.setTx_line (s : State) (l : List TxEntry) : (s.setTx l).line = { s.line with tx := l } := rfl
@[simp] theorem State.setTx_mgmt (s : State) (l : List TxEntry) : (s.setTx l).mgmt = s.mgmt := rfl
@[simp] theorem State.setTx_pins (s : State) (l : List TxEntry) : (s.setTx l).pins = s.pins := rfl
@[simp] theorem State.setTx_serial (s : State) (l : List TxEntry) : (s.setTx l).serial = s.serial := rfl
@[simp] theorem State.setTx_storeCut (s : State) (l : List TxEntry) : (s.setTx l).storeCut = s.storeCut := rfl
@[simp] theorem State.setTx_draws (s : State) (l : List TxEntry) : (s.setTx l).draws = s.draws := rfl
@[simp] theorem State.setTx_pending (s : State) (l : List TxEntry) : (s.setTx l).pending = s.pending := rfl

/-! ### State.enter -/

@[simp] theorem State.enter_tables (s : State) (e : TxEntry) : (s.enter e).tables = s.tables := rfl
@[simp] theorem State.enter_bay (s : State) (e : TxEntry) : (s.enter e).bay = s.bay := rfl
@[simp] theorem State.enter_staging (s : State) (e : TxEntry) : (s.enter e).staging = s.staging := rfl
@[simp] theorem State.enter_flash (s : State) (e : TxEntry) : (s.enter e).flash = s.flash := rfl
@[simp] theorem State.enter_port (s : State) (e : TxEntry) : (s.enter e).port = s.port := rfl
@[simp] theorem State.enter_line (s : State) (e : TxEntry) : (s.enter e).line = { s.line with tx := s.line.tx ++ [e] } := rfl
@[simp] theorem State.enter_mgmt (s : State) (e : TxEntry) : (s.enter e).mgmt = s.mgmt := rfl
@[simp] theorem State.enter_pins (s : State) (e : TxEntry) : (s.enter e).pins = s.pins := rfl
@[simp] theorem State.enter_serial (s : State) (e : TxEntry) : (s.enter e).serial = s.serial := rfl
@[simp] theorem State.enter_storeCut (s : State) (e : TxEntry) : (s.enter e).storeCut = s.storeCut := rfl
@[simp] theorem State.enter_draws (s : State) (e : TxEntry) : (s.enter e).draws = s.draws := rfl
@[simp] theorem State.enter_pending (s : State) (e : TxEntry) : (s.enter e).pending = s.pending := rfl

/-! ### State.latch -/

@[simp] theorem State.latch_tables (s : State) (e : ErrItem) : (s.latch e).tables = s.tables := rfl
@[simp] theorem State.latch_bay (s : State) (e : ErrItem) : (s.latch e).bay = s.bay.latch e := rfl
@[simp] theorem State.latch_staging (s : State) (e : ErrItem) : (s.latch e).staging = s.staging := rfl
@[simp] theorem State.latch_flash (s : State) (e : ErrItem) : (s.latch e).flash = s.flash := rfl
@[simp] theorem State.latch_port (s : State) (e : ErrItem) : (s.latch e).port = s.port := rfl
@[simp] theorem State.latch_line (s : State) (e : ErrItem) : (s.latch e).line = s.line := rfl
@[simp] theorem State.latch_mgmt (s : State) (e : ErrItem) : (s.latch e).mgmt = s.mgmt := rfl
@[simp] theorem State.latch_pins (s : State) (e : ErrItem) : (s.latch e).pins = s.pins := rfl
@[simp] theorem State.latch_serial (s : State) (e : ErrItem) : (s.latch e).serial = s.serial := rfl
@[simp] theorem State.latch_storeCut (s : State) (e : ErrItem) : (s.latch e).storeCut = s.storeCut := rfl
@[simp] theorem State.latch_draws (s : State) (e : ErrItem) : (s.latch e).draws = s.draws := rfl
@[simp] theorem State.latch_pending (s : State) (e : ErrItem) : (s.latch e).pending = s.pending := rfl

/-! ### State.clearLatched -/

@[simp] theorem State.clearLatched_tables (s : State) : (s.clearLatched).tables = s.tables := rfl
@[simp] theorem State.clearLatched_bay (s : State) : (s.clearLatched).bay = { s.bay with latched := 0 } := rfl
@[simp] theorem State.clearLatched_staging (s : State) : (s.clearLatched).staging = s.staging := rfl
@[simp] theorem State.clearLatched_flash (s : State) : (s.clearLatched).flash = s.flash := rfl
@[simp] theorem State.clearLatched_port (s : State) : (s.clearLatched).port = s.port := rfl
@[simp] theorem State.clearLatched_line (s : State) : (s.clearLatched).line = s.line := rfl
@[simp] theorem State.clearLatched_mgmt (s : State) : (s.clearLatched).mgmt = s.mgmt := rfl
@[simp] theorem State.clearLatched_pins (s : State) : (s.clearLatched).pins = s.pins := rfl
@[simp] theorem State.clearLatched_serial (s : State) : (s.clearLatched).serial = s.serial := rfl
@[simp] theorem State.clearLatched_storeCut (s : State) : (s.clearLatched).storeCut = s.storeCut := rfl
@[simp] theorem State.clearLatched_draws (s : State) : (s.clearLatched).draws = s.draws := rfl
@[simp] theorem State.clearLatched_pending (s : State) : (s.clearLatched).pending = s.pending := rfl

/-! ### State.answer -/

@[simp] theorem State.answer_tables (s : State) (c : Byte) (d : List Byte) : (s.answer c d).tables = s.tables := rfl
@[simp] theorem State.answer_bay (s : State) (c : Byte) (d : List Byte) : (s.answer c d).bay = s.bay := rfl
@[simp] theorem State.answer_staging (s : State) (c : Byte) (d : List Byte) : (s.answer c d).staging = s.staging := rfl
@[simp] theorem State.answer_flash (s : State) (c : Byte) (d : List Byte) : (s.answer c d).flash = s.flash := rfl
@[simp] theorem State.answer_port (s : State) (c : Byte) (d : List Byte) : (s.answer c d).port = s.port := rfl
@[simp] theorem State.answer_line (s : State) (c : Byte) (d : List Byte) : (s.answer c d).line = { s.line with tx := completeFirst (fun a => answerFrame a c d) false s.line.tx } := rfl
@[simp] theorem State.answer_mgmt (s : State) (c : Byte) (d : List Byte) : (s.answer c d).mgmt = s.mgmt := rfl
@[simp] theorem State.answer_pins (s : State) (c : Byte) (d : List Byte) : (s.answer c d).pins = s.pins := rfl
@[simp] theorem State.answer_serial (s : State) (c : Byte) (d : List Byte) : (s.answer c d).serial = s.serial := rfl
@[simp] theorem State.answer_storeCut (s : State) (c : Byte) (d : List Byte) : (s.answer c d).storeCut = s.storeCut := rfl
@[simp] theorem State.answer_draws (s : State) (c : Byte) (d : List Byte) : (s.answer c d).draws = s.draws := rfl
@[simp] theorem State.answer_pending (s : State) (c : Byte) (d : List Byte) : (s.answer c d).pending = s.pending := rfl

/-! ### State.done -/

@[simp] theorem State.done_tables (s : State) : (s.done).tables = s.tables := rfl
@[simp] theorem State.done_bay (s : State) : (s.done).bay = s.bay := rfl
@[simp] theorem State.done_staging (s : State) : (s.done).staging = s.staging := rfl
@[simp] theorem State.done_flash (s : State) : (s.done).flash = s.flash := rfl
@[simp] theorem State.done_port (s : State) : (s.done).port = s.port := rfl
@[simp] theorem State.done_line (s : State) : (s.done).line = { s.line with tx := completeFirst (fun a => answerFrame a codeDone []) false s.line.tx } := rfl
@[simp] theorem State.done_mgmt (s : State) : (s.done).mgmt = s.mgmt := rfl
@[simp] theorem State.done_pins (s : State) : (s.done).pins = s.pins := rfl
@[simp] theorem State.done_serial (s : State) : (s.done).serial = s.serial := rfl
@[simp] theorem State.done_storeCut (s : State) : (s.done).storeCut = s.storeCut := rfl
@[simp] theorem State.done_draws (s : State) : (s.done).draws = s.draws := rfl
@[simp] theorem State.done_pending (s : State) : (s.done).pending = s.pending := rfl

/-! ### State.withKey -/

@[simp] theorem State.withKey_tables (s : State) (k : Bool) : (s.withKey k).tables = s.tables := rfl
@[simp] theorem State.withKey_bay (s : State) (k : Bool) : (s.withKey k).bay = s.bay := rfl
@[simp] theorem State.withKey_staging (s : State) (k : Bool) : (s.withKey k).staging = s.staging := rfl
@[simp] theorem State.withKey_flash (s : State) (k : Bool) : (s.withKey k).flash = s.flash := rfl
@[simp] theorem State.withKey_port (s : State) (k : Bool) : (s.withKey k).port = s.port := rfl
@[simp] theorem State.withKey_line (s : State) (k : Bool) : (s.withKey k).line = s.line := rfl
@[simp] theorem State.withKey_mgmt (s : State) (k : Bool) : (s.withKey k).mgmt = s.mgmt := rfl
@[simp] theorem State.withKey_pins (s : State) (k : Bool) : (s.withKey k).pins = { s.pins with key := k } := rfl
@[simp] theorem State.withKey_serial (s : State) (k : Bool) : (s.withKey k).serial = s.serial := rfl
@[simp] theorem State.withKey_storeCut (s : State) (k : Bool) : (s.withKey k).storeCut = s.storeCut := rfl
@[simp] theorem State.withKey_draws (s : State) (k : Bool) : (s.withKey k).draws = s.draws := rfl
@[simp] theorem State.withKey_pending (s : State) (k : Bool) : (s.withKey k).pending = s.pending := rfl

/-! ### State.rxTake -/

@[simp] theorem State.rxTake_tables (s : State) (c : RxChar) : (s.rxTake c).tables = s.tables := rfl
@[simp] theorem State.rxTake_bay (s : State) (c : RxChar) : (s.rxTake c).bay = s.bay := rfl
@[simp] theorem State.rxTake_staging (s : State) (c : RxChar) : (s.rxTake c).staging = s.staging := rfl
@[simp] theorem State.rxTake_flash (s : State) (c : RxChar) : (s.rxTake c).flash = s.flash := rfl
@[simp] theorem State.rxTake_port (s : State) (c : RxChar) : (s.rxTake c).port = s.port := rfl
@[simp] theorem State.rxTake_line (s : State) (c : RxChar) : (s.rxTake c).line = { s.line with rx := (receive s.tables.config.number s.line.rx c).1, heard := true } := rfl
@[simp] theorem State.rxTake_mgmt (s : State) (c : RxChar) : (s.rxTake c).mgmt = s.mgmt := rfl
@[simp] theorem State.rxTake_pins (s : State) (c : RxChar) : (s.rxTake c).pins = s.pins := rfl
@[simp] theorem State.rxTake_serial (s : State) (c : RxChar) : (s.rxTake c).serial = s.serial := rfl
@[simp] theorem State.rxTake_storeCut (s : State) (c : RxChar) : (s.rxTake c).storeCut = s.storeCut := rfl
@[simp] theorem State.rxTake_draws (s : State) (c : RxChar) : (s.rxTake c).draws = s.draws := rfl
@[simp] theorem State.rxTake_pending (s : State) (c : RxChar) : (s.rxTake c).pending = s.pending := rfl

/-! ### Bay.updRun -/

@[simp] theorem Bay.updRun_time (b : Bay) (k : Fin 6) (f : RunRec → RunRec) : (b.updRun k f).time = b.time := rfl
@[simp] theorem Bay.updRun_fixture (b : Bay) (k : Fin 6) (f : RunRec → RunRec) : (b.updRun k f).fixture = b.fixture := rfl
@[simp] theorem Bay.updRun_voice (b : Bay) (k : Fin 6) (f : RunRec → RunRec) : (b.updRun k f).voice = b.voice := rfl
@[simp] theorem Bay.updRun_axis (b : Bay) (k : Fin 6) (f : RunRec → RunRec) : (b.updRun k f).axis = b.axis := rfl
@[simp] theorem Bay.updRun_scene (b : Bay) (k : Fin 6) (f : RunRec → RunRec) : (b.updRun k f).scene = { b.scene with run := b.scene.run.upd k f } := rfl
@[simp] theorem Bay.updRun_claim (b : Bay) (k : Fin 6) (f : RunRec → RunRec) : (b.updRun k f).claim = b.claim := rfl
@[simp] theorem Bay.updRun_trigger (b : Bay) (k : Fin 6) (f : RunRec → RunRec) : (b.updRun k f).trigger = b.trigger := rfl
@[simp] theorem Bay.updRun_notices (b : Bay) (k : Fin 6) (f : RunRec → RunRec) : (b.updRun k f).notices = b.notices := rfl
@[simp] theorem Bay.updRun_latched (b : Bay) (k : Fin 6) (f : RunRec → RunRec) : (b.updRun k f).latched = b.latched := rfl

/-! ### Bay.updStatus -/

@[simp] theorem Bay.updStatus_time (b : Bay) (k : Fin 32) (f : SceneStatus → SceneStatus) : (b.updStatus k f).time = b.time := rfl
@[simp] theorem Bay.updStatus_fixture (b : Bay) (k : Fin 32) (f : SceneStatus → SceneStatus) : (b.updStatus k f).fixture = b.fixture := rfl
@[simp] theorem Bay.updStatus_voice (b : Bay) (k : Fin 32) (f : SceneStatus → SceneStatus) : (b.updStatus k f).voice = b.voice := rfl
@[simp] theorem Bay.updStatus_axis (b : Bay) (k : Fin 32) (f : SceneStatus → SceneStatus) : (b.updStatus k f).axis = b.axis := rfl
@[simp] theorem Bay.updStatus_scene (b : Bay) (k : Fin 32) (f : SceneStatus → SceneStatus) : (b.updStatus k f).scene = { b.scene with status := b.scene.status.upd k f } := rfl
@[simp] theorem Bay.updStatus_claim (b : Bay) (k : Fin 32) (f : SceneStatus → SceneStatus) : (b.updStatus k f).claim = b.claim := rfl
@[simp] theorem Bay.updStatus_trigger (b : Bay) (k : Fin 32) (f : SceneStatus → SceneStatus) : (b.updStatus k f).trigger = b.trigger := rfl
@[simp] theorem Bay.updStatus_notices (b : Bay) (k : Fin 32) (f : SceneStatus → SceneStatus) : (b.updStatus k f).notices = b.notices := rfl
@[simp] theorem Bay.updStatus_latched (b : Bay) (k : Fin 32) (f : SceneStatus → SceneStatus) : (b.updStatus k f).latched = b.latched := rfl

/-! ### Bay.updVoice -/

@[simp] theorem Bay.updVoice_time (b : Bay) (v : Fin 6) (f : Voice → Voice) : (b.updVoice v f).time = b.time := rfl
@[simp] theorem Bay.updVoice_fixture (b : Bay) (v : Fin 6) (f : Voice → Voice) : (b.updVoice v f).fixture = b.fixture := rfl
@[simp] theorem Bay.updVoice_voice (b : Bay) (v : Fin 6) (f : Voice → Voice) : (b.updVoice v f).voice = { b.voice with voice := b.voice.voice.upd v f } := rfl
@[simp] theorem Bay.updVoice_axis (b : Bay) (v : Fin 6) (f : Voice → Voice) : (b.updVoice v f).axis = b.axis := rfl
@[simp] theorem Bay.updVoice_scene (b : Bay) (v : Fin 6) (f : Voice → Voice) : (b.updVoice v f).scene = b.scene := rfl
@[simp] theorem Bay.updVoice_claim (b : Bay) (v : Fin 6) (f : Voice → Voice) : (b.updVoice v f).claim = b.claim := rfl
@[simp] theorem Bay.updVoice_trigger (b : Bay) (v : Fin 6) (f : Voice → Voice) : (b.updVoice v f).trigger = b.trigger := rfl
@[simp] theorem Bay.updVoice_notices (b : Bay) (v : Fin 6) (f : Voice → Voice) : (b.updVoice v f).notices = b.notices := rfl
@[simp] theorem Bay.updVoice_latched (b : Bay) (v : Fin 6) (f : Voice → Voice) : (b.updVoice v f).latched = b.latched := rfl

/-! ### Bay.updZone -/

@[simp] theorem Bay.updZone_time (b : Bay) (z : Fin 2) (f : ZoneRun → ZoneRun) : (b.updZone z f).time = b.time := rfl
@[simp] theorem Bay.updZone_fixture (b : Bay) (z : Fin 2) (f : ZoneRun → ZoneRun) : (b.updZone z f).fixture = b.fixture := rfl
@[simp] theorem Bay.updZone_voice (b : Bay) (z : Fin 2) (f : ZoneRun → ZoneRun) : (b.updZone z f).voice = { b.voice with zone := b.voice.zone.upd z f } := rfl
@[simp] theorem Bay.updZone_axis (b : Bay) (z : Fin 2) (f : ZoneRun → ZoneRun) : (b.updZone z f).axis = b.axis := rfl
@[simp] theorem Bay.updZone_scene (b : Bay) (z : Fin 2) (f : ZoneRun → ZoneRun) : (b.updZone z f).scene = b.scene := rfl
@[simp] theorem Bay.updZone_claim (b : Bay) (z : Fin 2) (f : ZoneRun → ZoneRun) : (b.updZone z f).claim = b.claim := rfl
@[simp] theorem Bay.updZone_trigger (b : Bay) (z : Fin 2) (f : ZoneRun → ZoneRun) : (b.updZone z f).trigger = b.trigger := rfl
@[simp] theorem Bay.updZone_notices (b : Bay) (z : Fin 2) (f : ZoneRun → ZoneRun) : (b.updZone z f).notices = b.notices := rfl
@[simp] theorem Bay.updZone_latched (b : Bay) (z : Fin 2) (f : ZoneRun → ZoneRun) : (b.updZone z f).latched = b.latched := rfl

/-! ### Bay.updAxis -/

@[simp] theorem Bay.updAxis_time (b : Bay) (a : Fin 4) (f : Axis → Axis) : (b.updAxis a f).time = b.time := rfl
@[simp] theorem Bay.updAxis_fixture (b : Bay) (a : Fin 4) (f : Axis → Axis) : (b.updAxis a f).fixture = b.fixture := rfl
@[simp] theorem Bay.updAxis_voice (b : Bay) (a : Fin 4) (f : Axis → Axis) : (b.updAxis a f).voice = b.voice := rfl
@[simp] theorem Bay.updAxis_axis (b : Bay) (a : Fin 4) (f : Axis → Axis) : (b.updAxis a f).axis = { b.axis with axis := b.axis.axis.upd a f } := rfl
@[simp] theorem Bay.updAxis_scene (b : Bay) (a : Fin 4) (f : Axis → Axis) : (b.updAxis a f).scene = b.scene := rfl
@[simp] theorem Bay.updAxis_claim (b : Bay) (a : Fin 4) (f : Axis → Axis) : (b.updAxis a f).claim = b.claim := rfl
@[simp] theorem Bay.updAxis_trigger (b : Bay) (a : Fin 4) (f : Axis → Axis) : (b.updAxis a f).trigger = b.trigger := rfl
@[simp] theorem Bay.updAxis_notices (b : Bay) (a : Fin 4) (f : Axis → Axis) : (b.updAxis a f).notices = b.notices := rfl
@[simp] theorem Bay.updAxis_latched (b : Bay) (a : Fin 4) (f : Axis → Axis) : (b.updAxis a f).latched = b.latched := rfl

/-! ### Bay.updProx -/

@[simp] theorem Bay.updProx_time (b : Bay) (p : Fin 4) (f : Prox → Prox) : (b.updProx p f).time = b.time := rfl
@[simp] theorem Bay.updProx_fixture (b : Bay) (p : Fin 4) (f : Prox → Prox) : (b.updProx p f).fixture = b.fixture := rfl
@[simp] theorem Bay.updProx_voice (b : Bay) (p : Fin 4) (f : Prox → Prox) : (b.updProx p f).voice = b.voice := rfl
@[simp] theorem Bay.updProx_axis (b : Bay) (p : Fin 4) (f : Prox → Prox) : (b.updProx p f).axis = { b.axis with prox := b.axis.prox.upd p f } := rfl
@[simp] theorem Bay.updProx_scene (b : Bay) (p : Fin 4) (f : Prox → Prox) : (b.updProx p f).scene = b.scene := rfl
@[simp] theorem Bay.updProx_claim (b : Bay) (p : Fin 4) (f : Prox → Prox) : (b.updProx p f).claim = b.claim := rfl
@[simp] theorem Bay.updProx_trigger (b : Bay) (p : Fin 4) (f : Prox → Prox) : (b.updProx p f).trigger = b.trigger := rfl
@[simp] theorem Bay.updProx_notices (b : Bay) (p : Fin 4) (f : Prox → Prox) : (b.updProx p f).notices = b.notices := rfl
@[simp] theorem Bay.updProx_latched (b : Bay) (p : Fin 4) (f : Prox → Prox) : (b.updProx p f).latched = b.latched := rfl

/-! ### Bay.updFixture -/

@[simp] theorem Bay.updFixture_time (b : Bay) (i : Fin 16) (f : FixtureRun → FixtureRun) : (b.updFixture i f).time = b.time := rfl
@[simp] theorem Bay.updFixture_fixture (b : Bay) (i : Fin 16) (f : FixtureRun → FixtureRun) : (b.updFixture i f).fixture = { b.fixture with run := b.fixture.run.upd i f } := rfl
@[simp] theorem Bay.updFixture_voice (b : Bay) (i : Fin 16) (f : FixtureRun → FixtureRun) : (b.updFixture i f).voice = b.voice := rfl
@[simp] theorem Bay.updFixture_axis (b : Bay) (i : Fin 16) (f : FixtureRun → FixtureRun) : (b.updFixture i f).axis = b.axis := rfl
@[simp] theorem Bay.updFixture_scene (b : Bay) (i : Fin 16) (f : FixtureRun → FixtureRun) : (b.updFixture i f).scene = b.scene := rfl
@[simp] theorem Bay.updFixture_claim (b : Bay) (i : Fin 16) (f : FixtureRun → FixtureRun) : (b.updFixture i f).claim = b.claim := rfl
@[simp] theorem Bay.updFixture_trigger (b : Bay) (i : Fin 16) (f : FixtureRun → FixtureRun) : (b.updFixture i f).trigger = b.trigger := rfl
@[simp] theorem Bay.updFixture_notices (b : Bay) (i : Fin 16) (f : FixtureRun → FixtureRun) : (b.updFixture i f).notices = b.notices := rfl
@[simp] theorem Bay.updFixture_latched (b : Bay) (i : Fin 16) (f : FixtureRun → FixtureRun) : (b.updFixture i f).latched = b.latched := rfl

/-! ### Bay.updClaim -/

@[simp] theorem Bay.updClaim_time (b : Bay) (r : Fin 22) (f : Claim → Claim) : (b.updClaim r f).time = b.time := rfl
@[simp] theorem Bay.updClaim_fixture (b : Bay) (r : Fin 22) (f : Claim → Claim) : (b.updClaim r f).fixture = b.fixture := rfl
@[simp] theorem Bay.updClaim_voice (b : Bay) (r : Fin 22) (f : Claim → Claim) : (b.updClaim r f).voice = b.voice := rfl
@[simp] theorem Bay.updClaim_axis (b : Bay) (r : Fin 22) (f : Claim → Claim) : (b.updClaim r f).axis = b.axis := rfl
@[simp] theorem Bay.updClaim_scene (b : Bay) (r : Fin 22) (f : Claim → Claim) : (b.updClaim r f).scene = b.scene := rfl
@[simp] theorem Bay.updClaim_claim (b : Bay) (r : Fin 22) (f : Claim → Claim) : (b.updClaim r f).claim = { b.claim with claim := b.claim.claim.upd r f } := rfl
@[simp] theorem Bay.updClaim_trigger (b : Bay) (r : Fin 22) (f : Claim → Claim) : (b.updClaim r f).trigger = b.trigger := rfl
@[simp] theorem Bay.updClaim_notices (b : Bay) (r : Fin 22) (f : Claim → Claim) : (b.updClaim r f).notices = b.notices := rfl
@[simp] theorem Bay.updClaim_latched (b : Bay) (r : Fin 22) (f : Claim → Claim) : (b.updClaim r f).latched = b.latched := rfl

/-! ### Bay.updTrigger -/

@[simp] theorem Bay.updTrigger_time (b : Bay) (n : Fin 12) (f : Trigger → Trigger) : (b.updTrigger n f).time = b.time := rfl
@[simp] theorem Bay.updTrigger_fixture (b : Bay) (n : Fin 12) (f : Trigger → Trigger) : (b.updTrigger n f).fixture = b.fixture := rfl
@[simp] theorem Bay.updTrigger_voice (b : Bay) (n : Fin 12) (f : Trigger → Trigger) : (b.updTrigger n f).voice = b.voice := rfl
@[simp] theorem Bay.updTrigger_axis (b : Bay) (n : Fin 12) (f : Trigger → Trigger) : (b.updTrigger n f).axis = b.axis := rfl
@[simp] theorem Bay.updTrigger_scene (b : Bay) (n : Fin 12) (f : Trigger → Trigger) : (b.updTrigger n f).scene = b.scene := rfl
@[simp] theorem Bay.updTrigger_claim (b : Bay) (n : Fin 12) (f : Trigger → Trigger) : (b.updTrigger n f).claim = b.claim := rfl
@[simp] theorem Bay.updTrigger_trigger (b : Bay) (n : Fin 12) (f : Trigger → Trigger) : (b.updTrigger n f).trigger = { b.trigger with trigger := b.trigger.trigger.upd n f } := rfl
@[simp] theorem Bay.updTrigger_notices (b : Bay) (n : Fin 12) (f : Trigger → Trigger) : (b.updTrigger n f).notices = b.notices := rfl
@[simp] theorem Bay.updTrigger_latched (b : Bay) (n : Fin 12) (f : Trigger → Trigger) : (b.updTrigger n f).latched = b.latched := rfl

/-! ### Bay.latch -/

@[simp] theorem Bay.latch_time (b : Bay) (e : ErrItem) : (b.latch e).time = b.time := rfl
@[simp] theorem Bay.latch_fixture (b : Bay) (e : ErrItem) : (b.latch e).fixture = b.fixture := rfl
@[simp] theorem Bay.latch_voice (b : Bay) (e : ErrItem) : (b.latch e).voice = b.voice := rfl
@[simp] theorem Bay.latch_axis (b : Bay) (e : ErrItem) : (b.latch e).axis = b.axis := rfl
@[simp] theorem Bay.latch_scene (b : Bay) (e : ErrItem) : (b.latch e).scene = b.scene := rfl
@[simp] theorem Bay.latch_claim (b : Bay) (e : ErrItem) : (b.latch e).claim = b.claim := rfl
@[simp] theorem Bay.latch_trigger (b : Bay) (e : ErrItem) : (b.latch e).trigger = b.trigger := rfl
@[simp] theorem Bay.latch_notices (b : Bay) (e : ErrItem) : (b.latch e).notices = b.notices := rfl
@[simp] theorem Bay.latch_latched (b : Bay) (e : ErrItem) : (b.latch e).latched = b.latched ||| BitVec.ofNat 14 (2 ^ e.bit) := rfl

/-! ### Bay.request -/

@[simp] theorem Bay.request_time (b : Bay) (q : Request) : (b.request q).time = b.time := rfl
@[simp] theorem Bay.request_fixture (b : Bay) (q : Request) : (b.request q).fixture = b.fixture := rfl
@[simp] theorem Bay.request_voice (b : Bay) (q : Request) : (b.request q).voice = b.voice := rfl
@[simp] theorem Bay.request_axis (b : Bay) (q : Request) : (b.request q).axis = b.axis := rfl
@[simp] theorem Bay.request_scene (b : Bay) (q : Request) : (b.request q).scene = b.scene := rfl
@[simp] theorem Bay.request_claim (b : Bay) (q : Request) : (b.request q).claim = { b.claim with inFlight := b.claim.inFlight ++ [q] } := rfl
@[simp] theorem Bay.request_trigger (b : Bay) (q : Request) : (b.request q).trigger = b.trigger := rfl
@[simp] theorem Bay.request_notices (b : Bay) (q : Request) : (b.request q).notices = b.notices := rfl
@[simp] theorem Bay.request_latched (b : Bay) (q : Request) : (b.request q).latched = b.latched := rfl

/-! ### Bay.setQueue -/

@[simp] theorem Bay.setQueue_time (b : Bay) (l : List QueueEntry) : (b.setQueue l).time = b.time := rfl
@[simp] theorem Bay.setQueue_fixture (b : Bay) (l : List QueueEntry) : (b.setQueue l).fixture = b.fixture := rfl
@[simp] theorem Bay.setQueue_voice (b : Bay) (l : List QueueEntry) : (b.setQueue l).voice = b.voice := rfl
@[simp] theorem Bay.setQueue_axis (b : Bay) (l : List QueueEntry) : (b.setQueue l).axis = b.axis := rfl
@[simp] theorem Bay.setQueue_scene (b : Bay) (l : List QueueEntry) : (b.setQueue l).scene = b.scene := rfl
@[simp] theorem Bay.setQueue_claim (b : Bay) (l : List QueueEntry) : (b.setQueue l).claim = { b.claim with queue := l } := rfl
@[simp] theorem Bay.setQueue_trigger (b : Bay) (l : List QueueEntry) : (b.setQueue l).trigger = b.trigger := rfl
@[simp] theorem Bay.setQueue_notices (b : Bay) (l : List QueueEntry) : (b.setQueue l).notices = b.notices := rfl
@[simp] theorem Bay.setQueue_latched (b : Bay) (l : List QueueEntry) : (b.setQueue l).latched = b.latched := rfl

/-! ### Bay.setSchedule -/

@[simp] theorem Bay.setSchedule_time (b : Bay) (l : List ScheduleEntry) : (b.setSchedule l).time = b.time := rfl
@[simp] theorem Bay.setSchedule_fixture (b : Bay) (l : List ScheduleEntry) : (b.setSchedule l).fixture = b.fixture := rfl
@[simp] theorem Bay.setSchedule_voice (b : Bay) (l : List ScheduleEntry) : (b.setSchedule l).voice = b.voice := rfl
@[simp] theorem Bay.setSchedule_axis (b : Bay) (l : List ScheduleEntry) : (b.setSchedule l).axis = b.axis := rfl
@[simp] theorem Bay.setSchedule_scene (b : Bay) (l : List ScheduleEntry) : (b.setSchedule l).scene = b.scene := rfl
@[simp] theorem Bay.setSchedule_claim (b : Bay) (l : List ScheduleEntry) : (b.setSchedule l).claim = b.claim := rfl
@[simp] theorem Bay.setSchedule_trigger (b : Bay) (l : List ScheduleEntry) : (b.setSchedule l).trigger = { b.trigger with schedule := l } := rfl
@[simp] theorem Bay.setSchedule_notices (b : Bay) (l : List ScheduleEntry) : (b.setSchedule l).notices = b.notices := rfl
@[simp] theorem Bay.setSchedule_latched (b : Bay) (l : List ScheduleEntry) : (b.setSchedule l).latched = b.latched := rfl

/-! ### Bay.setMode -/

@[simp] theorem Bay.setMode_time (b : Bay) (m : Mode) : (b.setMode m).time = b.time := rfl
@[simp] theorem Bay.setMode_fixture (b : Bay) (m : Mode) : (b.setMode m).fixture = b.fixture := rfl
@[simp] theorem Bay.setMode_voice (b : Bay) (m : Mode) : (b.setMode m).voice = b.voice := rfl
@[simp] theorem Bay.setMode_axis (b : Bay) (m : Mode) : (b.setMode m).axis = b.axis := rfl
@[simp] theorem Bay.setMode_scene (b : Bay) (m : Mode) : (b.setMode m).scene = b.scene := rfl
@[simp] theorem Bay.setMode_claim (b : Bay) (m : Mode) : (b.setMode m).claim = b.claim := rfl
@[simp] theorem Bay.setMode_trigger (b : Bay) (m : Mode) : (b.setMode m).trigger = { b.trigger with mode := m } := rfl
@[simp] theorem Bay.setMode_notices (b : Bay) (m : Mode) : (b.setMode m).notices = b.notices := rfl
@[simp] theorem Bay.setMode_latched (b : Bay) (m : Mode) : (b.setMode m).latched = b.latched := rfl

end Sys2Proof.Machine
end

