-- ==== Sys2Proof/Laws/Asks.lean ====
section
/-! SUPPORT. What taking an ask, a write or a frame comes to once its conditions hold, and what `settle` changes. -/

namespace Sys2Proof.Machine

/-! ### Requests in flight -/

@[simp] theorem drainFuel_empty (t : Tables) (n : Nat) (b : Bay) (h : b.claim.inFlight = []) : drainFuel t n b = b := by
  cases n <;> simp [drainFuel, h]

@[simp] theorem drain_empty (t : Tables) (b : Bay) (h : b.claim.inFlight = []) : drain t b = b := drainFuel_empty t _ b h

/-- With no request in flight and no START-SCENE waiting, there is nothing to settle. -/
theorem settle_of_settled (s : State) (h : Settled s) : settle s = s := by
  have hb : s.onBay drain = s := by simp [State.onBay, h.1]
  unfold settle
  rw [hb]
  unfold answerOutcome
  split
  · next hw _ => exact absurd hw h.2
  · rfl

@[simp] theorem answerOutcome_tables (s : State) : (answerOutcome s).tables = s.tables := by
  unfold answerOutcome; split <;> rfl

@[simp] theorem settle_tables (s : State) : (settle s).tables = s.tables := by
  simp [settle]

@[simp] theorem answerOutcome_staging (s : State) : (answerOutcome s).staging = s.staging := by
  unfold answerOutcome; split <;> rfl

@[simp] theorem settle_staging (s : State) : (settle s).staging = s.staging := by
  simp [settle]

@[simp] theorem answerOutcome_flash (s : State) : (answerOutcome s).flash = s.flash := by
  unfold answerOutcome; split <;> rfl

@[simp] theorem settle_flash (s : State) : (settle s).flash = s.flash := by
  simp [settle]

@[simp] theorem answerOutcome_port (s : State) : (answerOutcome s).port = s.port := by
  unfold answerOutcome; split <;> rfl

@[simp] theorem settle_port (s : State) : (settle s).port = s.port := by
  simp [settle]

@[simp] theorem answerOutcome_pins (s : State) : (answerOutcome s).pins = s.pins := by
  unfold answerOutcome; split <;> rfl

@[simp] theorem settle_pins (s : State) : (settle s).pins = s.pins := by
  simp [settle]

@[simp] theorem answerOutcome_serial (s : State) : (answerOutcome s).serial = s.serial := by
  unfold answerOutcome; split <;> rfl

@[simp] theorem settle_serial (s : State) : (settle s).serial = s.serial := by
  simp [settle]

@[simp] theorem answerOutcome_storeCut (s : State) : (answerOutcome s).storeCut = s.storeCut := by
  unfold answerOutcome; split <;> rfl

@[simp] theorem settle_storeCut (s : State) : (settle s).storeCut = s.storeCut := by
  simp [settle]

@[simp] theorem answerOutcome_draws (s : State) : (answerOutcome s).draws = s.draws := by
  unfold answerOutcome; split <;> rfl

@[simp] theorem settle_draws (s : State) : (settle s).draws = s.draws := by
  simp [settle]

@[simp] theorem answerOutcome_pending (s : State) : (answerOutcome s).pending = s.pending := by
  unfold answerOutcome; split <;> rfl

@[simp] theorem settle_pending (s : State) : (settle s).pending = s.pending := by
  simp [settle]

/-! ### The transmit queue under an answer -/

@[simp] theorem length_completeFirst (f : Ask → Frame) (r : Bool) : ∀ l : List TxEntry, (completeFirst f r l).length = l.length
  | [] => rfl
  | .answer _ :: _ => rfl
  | .frame _ _ :: l => by simp [completeFirst, length_completeFirst f r l]

/-- What an answer changes of the line unit: its queue, whose length and whose head, if a frame, stay. -/
theorem answerOutcome_line (s : State) : (answerOutcome s).line = s.line ∨
    ∃ c d, (answerOutcome s).line = { s.line with tx := completeFirst (fun a => answerFrame a c d) false s.line.tx } := by
  unfold answerOutcome
  split
  · exact Or.inr ⟨_, _, rfl⟩
  · exact Or.inl rfl

/-- Settling changes of the line unit at most the queue, by one answer. -/
theorem settle_line (s : State) : (settle s).line = s.line ∨
    ∃ c d, (settle s).line = { s.line with tx := completeFirst (fun a => answerFrame a c d) false s.line.tx } :=
  answerOutcome_line (s.onBay drain)

/-! ### Asks (R170) -/

theorem onAsk_of_next (s : State) (a : Ask) (p : Ask → Bool) (act : List Byte → State → State) (h : s.nextAsk = some a)
    (hp : p a = true) : s.onAsk p act = act a.params s := by simp [State.onAsk, h, hp]

/-- An ask of good form is carried out. -/
theorem ask_of_taken {α : Type} (s : State) (k : AskKind) (params : List Byte) (form : List Byte → Option α)
    (act : α → State → State) (x : α) (h : Taken s k params) (hf : form params = some x) : s.ask k form act = act x s := by
  obtain ⟨hr, a, ha, hk, rfl⟩ := h
  simp [State.ask, State.onAsk, ha, isKind, hk, whenReady, hr, withParams, hf]

/-- Test 1 of R170. -/
theorem ask_of_notReady {α : Type} (s : State) (k : AskKind) (params : List Byte) (form : List Byte → Option α)
    (act : α → State → State) (h : Asked s k params) (hr : s.ready = false) :
    s.ask k form act = s.answer codeNotReady [] := by
  obtain ⟨a, ha, hk, rfl⟩ := h
  simp [State.ask, State.onAsk, ha, isKind, hk, whenReady, hr]

/-- Test 2 of R170. -/
theorem ask_of_badForm {α : Type} (s : State) (k : AskKind) (params : List Byte) (form : List Byte → Option α)
    (act : α → State → State) (h : Taken s k params) (hf : form params = none) :
    s.ask k form act = s.answer codeBadRequest [] := by
  obtain ⟨hr, a, ha, hk, rfl⟩ := h
  simp [State.ask, State.onAsk, ha, isKind, hk, whenReady, hr, withParams, hf]

/-- An accepted write has its effect (R175). -/
theorem write_of_writes {α : Type} (s : State) (id : TableId) (w : Writer α) (i : Nat) (l : List α)
    (h : Writes s id w.codec i l) (hc : w.check s i l = true) (hl : w.locked s i l = false) :
    s.write id w = settle (w.put i l s).done := by
  obtain ⟨hs, params, ⟨hr, a, ha, hk, rfl⟩, hn, hw⟩ := h
  simp [State.write, State.onAsk, ha, isOf, isKind, hk, hn, whenReady, hr, withParams, hw, hc, hl, unlessStoring, hs]

/-! ### Frames (R160) -/

/-- A frame that finds room is taken. -/
theorem onFrame_of_completes (s : State) (c : RxChar) (t : Treatment) (act : Fin 251 → Frame → State → State)
    (own : Fin 251) (f : Frame) (h : Completes s c t own f) : s.onFrame c t act = act own f (s.rxTake c) := by
  have hlen : ¬ 4 ≤ s.line.tx.length := by have := h.2; omega
  simp [State.onFrame, h.1, State.takeFrame, hlen]

end Sys2Proof.Machine
end

