-- ==== Sys2Proof/Laws/Tab.lean ====
section
/-! SUPPORT. Lemmas on tables, loops and runs of entries. -/

namespace Sys2Proof.Machine

@[simp] theorem Tab.get_set_same {α : Type} {n : Nat} (t : Tab α n) (i : Fin n) (x : α) : (t.set i x).get i = x :=
  List.getElem_set_self (by simp [t.len])

theorem Tab.get_set_of_ne {α : Type} {n : Nat} (t : Tab α n) {i j : Fin n} (x : α) (h : i ≠ j) :
    (t.set i x).get j = t.get j := by
  have h' : i.val ≠ j.val := fun e => h (Fin.ext e)
  exact List.getElem_set_ne h' (by simp [t.len])

theorem Tab.get_set {α : Type} {n : Nat} (t : Tab α n) (i j : Fin n) (x : α) :
    (t.set i x).get j = if i = j then x else t.get j := by
  by_cases h : i = j
  · subst h; simp
  · simp [h, Tab.get_set_of_ne t x h]

@[simp] theorem Tab.get_upd_same {α : Type} {n : Nat} (t : Tab α n) (i : Fin n) (f : α → α) :
    (t.upd i f).get i = f (t.get i) := by simp [Tab.upd]

theorem Tab.get_upd_of_ne {α : Type} {n : Nat} (t : Tab α n) {i j : Fin n} (f : α → α) (h : i ≠ j) :
    (t.upd i f).get j = t.get j := Tab.get_set_of_ne t _ h

theorem Tab.get_upd {α : Type} {n : Nat} (t : Tab α n) (i j : Fin n) (f : α → α) :
    (t.upd i f).get j = if i = j then f (t.get i) else t.get j := Tab.get_set t i j _

@[simp] theorem Tab.get_const {α : Type} {n : Nat} (x : α) (i : Fin n) : (Tab.const n x).get i = x := by
  simp [Tab.get, Tab.const]

@[simp] theorem Tab.get_map {α β : Type} {n : Nat} (t : Tab α n) (f : α → β) (i : Fin n) :
    (t.map f).get i = f (t.get i) := List.getElem_map f

theorem Tab.get_mem {α : Type} {n : Nat} (t : Tab α n) (i : Fin n) : t.get i ∈ t.list := List.get_mem _ _

/-- Two tables with the same entries are the same. -/
theorem Tab.ext_get {α : Type} {n : Nat} {s t : Tab α n} (h : ∀ i, s.get i = t.get i) : s = t := by
  cases s with
  | mk l hl =>
    cases t with
    | mk m hm =>
      have : l = m := by
        apply List.ext_get (by omega)
        intro k h1 h2
        have := h ⟨k, by omega⟩
        simpa [Tab.get] using this
      subst this; rfl

@[simp] theorem eachOf_nil {ι β : Type} (f : ι → β → β) (b : β) : eachOf [] f b = b := rfl

@[simp] theorem eachOf_cons {ι β : Type} (i : ι) (l : List ι) (f : ι → β → β) (b : β) :
    eachOf (i :: l) f b = eachOf l f (f i b) := rfl

/-- What every turn of a loop keeps, the loop keeps. -/
theorem eachOf_keeps {ι β : Type} {P : β → Prop} {f : ι → β → β} (h : ∀ i b, P b → P (f i b)) :
    ∀ (l : List ι) (b : β), P b → P (eachOf l f b)
  | [], _, hb => hb
  | i :: l, _, hb => eachOf_keeps h l _ (h i _ hb)

/-- What every turn of a loop keeps, the loop keeps. -/
theorem each_keeps {β : Type} {n : Nat} {P : β → Prop} {f : Fin n → β → β} (h : ∀ i b, P b → P (f i b)) (b : β)
    (hb : P b) : P (each n f b) := eachOf_keeps h _ _ hb

/-- A quantity that no turn of a loop changes, the loop does not change. -/
theorem eachOf_same {ι β γ : Type} {g : β → γ} {f : ι → β → β} (h : ∀ i b, g (f i b) = g b) :
    ∀ (l : List ι) (b : β), g (eachOf l f b) = g b
  | [], _ => rfl
  | i :: l, b => (eachOf_same h l (f i b)).trans (h i b)

/-- A quantity that no turn of a loop changes, the loop does not change. -/
theorem each_same {β γ : Type} {n : Nat} {g : β → γ} {f : Fin n → β → β} (h : ∀ i b, g (f i b) = g b) (b : β) :
    g (each n f b) = g b := eachOf_same h _ b

/-- A loop whose turns other than `i`'s leave a quantity, and whose turn of `i` makes `x` of it: the loop makes `x` of it.
`P` is what every turn keeps. -/
theorem eachOf_at {ι β γ : Type} [DecidableEq ι] {f : ι → β → β} {g : β → γ} (P : β → Prop) (i : ι) (x : γ → γ)
    (keep : ∀ j b, P b → P (f j b)) (other : ∀ j b, j ≠ i → P b → g (f j b) = g b) (at_ : ∀ b, P b → g (f i b) = x (g b)) :
    ∀ (l : List ι) (b : β), l.Nodup → P b → g (eachOf l f b) = if i ∈ l then x (g b) else g b
  | [], b, _, _ => by simp
  | j :: l, b, hl, hb => by
    obtain ⟨hj, hl⟩ := List.nodup_cons.mp hl
    rw [eachOf_cons, eachOf_at P i x keep other at_ l _ hl (keep j b hb)]
    by_cases h : j = i
    · subst h; simp [hj, at_ b hb]
    · have : i ≠ j := fun e => h e.symm
      simp [this, other j b h hb]

/-- The loop over all numbers below `n`. -/
theorem each_at {β γ : Type} {n : Nat} {f : Fin n → β → β} {g : β → γ} (P : β → Prop) (i : Fin n) (x : γ → γ)
    (keep : ∀ j b, P b → P (f j b)) (other : ∀ j b, j ≠ i → P b → g (f j b) = g b) (at_ : ∀ b, P b → g (f i b) = x (g b))
    (b : β) (hb : P b) : g (each n f b) = x (g b) := by
  rw [each, eachOf_at P i x keep other at_ _ b (List.nodup_finRange n) hb, if_pos (List.mem_finRange i)]

/-- A predicate that holds of the old entries and of the entries put holds of the table. -/
theorem putEntries_all {α : Type} {n : Nat} {p : α → Bool} :
    ∀ (l : List α) (i : Nat) (t : Tab α n), l.all p = true → t.list.all p = true → (putEntries i l t).list.all p = true
  | [], _, _, _, ht => ht
  | x :: l, i, t, hl, ht => by
    simp only [List.all_cons, Bool.and_eq_true] at hl
    refine putEntries_all l (i + 1) _ hl.2 ?_
    by_cases h : i < n
    · simp only [h, dif_pos]
      rw [List.all_eq_true]
      intro y hy
      rcases List.mem_or_eq_of_mem_set hy with hy | rfl
      · exact List.all_eq_true.mp ht y hy
      · exact hl.1
    · simpa only [h, dif_neg, not_false_eq_true] using ht

end Sys2Proof.Machine
end

