-- ==== Sys2Proof/Laws/Axes.lean ====
section
/-! SUPPORT. What the operations of the axis unit do to each axis, and when a report reaches nobody. -/

namespace Sys2Proof.Machine

/-! ### Updates of one axis -/

theorem Bay.updAxis_congr (b : Bay) (a : Fin 4) (f g : Axis → Axis)
    (h : f (b.axisRec a) = g (b.axisRec a)) : b.updAxis a f = b.updAxis a g := by
  simp only [Bay.updAxis, Tab.upd]; rw [show b.axis.axis.get a = b.axisRec a from rfl, h]

theorem Bay.updAxis_axisRec (b : Bay) (v w : Fin 4) (f : Axis → Axis) :
    (b.updAxis v f).axisRec w = if v = w then f (b.axisRec v) else b.axisRec w := Tab.get_upd _ _ _ _

@[simp] theorem Bay.updAxis_same (b : Bay) (v : Fin 4) (f : Axis →
    Axis) : (b.updAxis v f).axisRec v = f (b.axisRec v) := Tab.get_upd_same _ _ _

theorem Tab.set_set {α n} (t : Tab α n) (i : Fin n) (x y : α) : (t.set i x).set i y = t.set i y := by
  apply Tab.ext_get; intro j; simp only [Tab.get_set]; split <;> rfl

theorem Bay.updAxis_updAxis (b : Bay) (a : Fin 4) (f g : Axis →
    Axis) : (b.updAxis a f).updAxis a g = b.updAxis a (fun x => g (f x)) := by
  simp only [Bay.updAxis, Tab.upd, Tab.get_set_same, Tab.set_set]

theorem Bay.updAxis_self (b : Bay) (a : Fin 4) (f : Axis → Axis)
    (h : f (b.axisRec a) = b.axisRec a) : b.updAxis a f = b := by
  have : b.axis.axis.upd a f = b.axis.axis := Tab.ext_get (fun j => by
    rw [Tab.get_upd]; split
    · next e => subst e; exact h
    · rfl)
  simp only [Bay.updAxis, this]

/-! ### Reports -/

/-- A report that an axis is settled changes nothing when no gate waits on it (R104). -/
theorem reportSettled_of_noGate (a : Fin 4) (t : Tables) (b : Bay) (h : ∀ k g, (b.run k).gate = some g →
    g.axes.getLsbD a.val = false) : reportSettled a t b = b := by
  unfold reportSettled
  have : ∀ c, c = b → each 6 (fun k b => match (b.run k).gate with
    | some g => if g.axes.getLsbD a.val then testGate endRun k t b else b
    | none => b) c = b := by
    intro c hc
    refine each_keeps (P := fun x => x = b) ?_ c hc
    rintro k c rfl
    split
    · next g hg => rw [h k g hg]; rfl
    · rfl
  exact this b rfl

/-- A report of an axis that no run owns and no gate waits on changes nothing. -/
theorem report_of_unowned (a : Fin 4) (before : Bay) (t : Tables) (b : Bay) (ho : b.owner (axisRes a) = none)
    (h : ∀ k g, (b.run k).gate = some g → g.axes.getLsbD a.val = false) : report a before t b = b := by
  have : reportHeld a (before.axisRec a).state t b = b := by unfold reportHeld; rw [ho]
  unfold report
  dsimp only
  rw [this]
  split
  · exact reportSettled_of_noGate a t b h
  · rfl

/-- A report of an axis that neither enters nor leaves HELD, and that no gate waits on, changes nothing. -/
theorem report_of_notHeld (a : Fin 4) (before : Bay) (t : Tables) (b : Bay)
    (h0 : (before.axisRec a).state ≠ .held) (h1 : (b.axisRec a).state ≠ .held)
    (h : ∀ k g, (b.run k).gate = some g → g.axes.getLsbD a.val = false) : report a before t b = b := by
  have : reportHeld a (before.axisRec a).state t b = b := by
    unfold reportHeld
    dsimp only
    split
    · rfl
    · simp [h0, h1]
  unfold report
  dsimp only
  rw [this]
  split
  · exact reportSettled_of_noGate a t b h
  · rfl

/-! ### Steps -/

/-- Steps issued while the stepped position stays in its range (R83). -/
theorem issue_of_inRange (n : Int) (t : Tables) (a : Fin 4) (b : Bay) (stepped : Int)
    (h : stepped = (b.axisRec a).stepped + n) (h1 : -8388608 ≤ stepped) (h2 : stepped ≤ 8388607) :
   issue n t a b = b.updAxis a (fun x => { x with
        stepped := stepped
        measured := if (t.axis.get a).feedback = .none ∧ stepped ≠ x.stepped then stepped else x.measured
        pulses := n.natAbs
        direction := if 0 < n then true else if n < 0 then false else x.direction }) := by
  unfold issue
  apply Bay.updAxis_congr
  have : position ((b.axisRec a).stepped + n) = stepped := by unfold position; rw [← h, if_pos ⟨h1, h2⟩]
  simp only [this]
  congr 1
  simp

end Sys2Proof.Machine
end

