-- ==== Sys2Proof/Laws/Bay.lean ====
section
/-! SUPPORT. What no action of the scene runner, the claim unit and the blocks they direct changes, said once: show time,
the duties, the mode, the trigger pins, the start schedule, the line lanes (R27), the output samples, the outcome on its way
to the management unit; that such an action makes requests of origin SCENE alone (R105), and that it clears no latched
item (R177). -/

namespace Sys2Proof.Machine

/-- What an action of the bay's runner leaves of the bay `b` in `b'`. -/
structure Acts (b b' : Bay) : Prop where
  time : b'.time = b.time
  duty : b'.fixture.duty = b.fixture.duty
  mode : b'.trigger.mode = b.trigger.mode
  pins : b'.trigger.pins = b.trigger.pins
  schedule : b'.trigger.schedule = b.trigger.schedule
  control : b'.claim.control = b.claim.control
  line : ∀ i, (b'.fixtureRec i).line = (b.fixtureRec i).line
  formed : ∀ z, (b'.voice.zone.get z).formed = (b.voice.zone.get z).formed
  sent : ∀ z, (b'.voice.zone.get z).sent = (b.voice.zone.get z).sent
  asked : ∀ q ∈ b'.claim.inFlight, q ∈ b.claim.inFlight ∨ q.origin = .scene
  latched : ∀ i, b.latched.getLsbD i = true → b'.latched.getLsbD i = true

theorem Acts.refl (b : Bay) : Acts b b :=
  ⟨rfl, rfl, rfl, rfl, rfl, rfl, fun _ => rfl, fun _ => rfl, fun _ => rfl, fun _ h => Or.inl h, fun _ h => h⟩

theorem Acts.trans {a b c : Bay} (h : Acts a b) (k : Acts b c) : Acts a c :=
  ⟨k.time.trans h.time, k.duty.trans h.duty, k.mode.trans h.mode, k.pins.trans h.pins, k.schedule.trans h.schedule,
    k.control.trans h.control, fun i => (k.line i).trans (h.line i), fun z => (k.formed z).trans (h.formed z),
    fun z => (k.sent z).trans (h.sent z),
    fun q hq => (k.asked q hq).elim (fun hb => h.asked q hb) Or.inr, fun i hi => k.latched i (h.latched i hi)⟩

/-- One action after another. -/
theorem Acts.then {a b : Bay} {f : Bay → Bay} (h : Acts a b) (k : ∀ b, Acts b (f b)) : Acts a (f b) := h.trans (k b)

theorem acts_eachOf {ι : Type} {f : ι → Bay → Bay} (h : ∀ i b, Acts b (f i b)) (l : List ι) (b : Bay) :
    Acts b (eachOf l f b) := eachOf_keeps (P := Acts b) (fun i c hc => hc.trans (h i c)) l b (Acts.refl b)

theorem acts_each {n : Nat} {f : Fin n → Bay → Bay} (h : ∀ i b, Acts b (f i b)) (b : Bay) : Acts b (each n f b) :=
  acts_eachOf h _ b

theorem acts_ite {c : Prop} [Decidable c] {b x y : Bay} (hx : Acts b x) (hy : Acts b y) : Acts b (if c then x else y) := by
  split <;> assumption

/-- An update that touches none of the parts that `Acts` speaks of. -/
theorem Acts.of_parts {b b' : Bay} (time : b'.time = b.time) (fixture : b'.fixture = b.fixture)
    (zone : b'.voice.zone = b.voice.zone) (mode : b'.trigger.mode = b.trigger.mode)
    (pins : b'.trigger.pins = b.trigger.pins) (schedule : b'.trigger.schedule = b.trigger.schedule)
    (control : b'.claim.control = b.claim.control) (asked : b'.claim.inFlight = b.claim.inFlight)
    (latched : b'.latched = b.latched) : Acts b b' where
  time := time
  duty := by rw [fixture]
  mode := mode
  pins := pins
  schedule := schedule
  control := control
  line i := by simp only [Bay.fixtureRec, fixture]
  formed z := by rw [zone]
  sent z := by rw [zone]
  asked q h := Or.inl (asked ▸ h)
  latched i h := latched ▸ h

/-! ### The accessors -/

theorem acts_updRun (b : Bay) (k : Fin 6) (f : RunRec → RunRec) : Acts b (b.updRun k f) :=
  .of_parts rfl rfl rfl rfl rfl rfl rfl rfl rfl
theorem acts_updStatus (b : Bay) (s : Fin 32) (f : SceneStatus → SceneStatus) : Acts b (b.updStatus s f) :=
  .of_parts rfl rfl rfl rfl rfl rfl rfl rfl rfl
theorem acts_updVoice (b : Bay) (v : Fin 6) (f : Voice → Voice) : Acts b (b.updVoice v f) :=
  .of_parts rfl rfl rfl rfl rfl rfl rfl rfl rfl
theorem acts_updAxis (b : Bay) (a : Fin 4) (f : Axis → Axis) : Acts b (b.updAxis a f) :=
  .of_parts rfl rfl rfl rfl rfl rfl rfl rfl rfl
theorem acts_updProx (b : Bay) (p : Fin 4) (f : Prox → Prox) : Acts b (b.updProx p f) :=
  .of_parts rfl rfl rfl rfl rfl rfl rfl rfl rfl
theorem acts_updClaim (b : Bay) (r : Fin 22) (f : Claim → Claim) : Acts b (b.updClaim r f) :=
  .of_parts rfl rfl rfl rfl rfl rfl rfl rfl rfl
theorem acts_updTrigger (b : Bay) (n : Fin 12) (f : Trigger → Trigger) : Acts b (b.updTrigger n f) :=
  .of_parts rfl rfl rfl rfl rfl rfl rfl rfl rfl
theorem acts_setQueue (b : Bay) (l : List QueueEntry) : Acts b (b.setQueue l) :=
  .of_parts rfl rfl rfl rfl rfl rfl rfl rfl rfl
theorem acts_updLook (b : Bay) (k : Fin 6) (f : Look → Look) : Acts b (b.updLook k f) := acts_updRun b k _
theorem acts_openGate (k : Fin 6) (b : Bay) : Acts b (openGate k b) := acts_updRun b k _

theorem acts_startList (b : Bay) (l : List (Fin 6)) : Acts b { b with voice := { b.voice with startList := l } } :=
  .of_parts rfl rfl rfl rfl rfl rfl rfl rfl rfl

/-- A change of a fixture that leaves its line lanes. -/
theorem acts_updFixture (b : Bay) (i : Fin 16) (f : FixtureRun → FixtureRun) (h : ∀ x, (f x).line = x.line) :
    Acts b (b.updFixture i f) where
  time := rfl
  duty := rfl
  mode := rfl
  pins := rfl
  schedule := rfl
  control := rfl
  line j := by
    simp only [Bay.updFixture, Bay.fixtureRec, Tab.get_upd]
    split
    · next e => subst e; exact h _
    · rfl
  formed _ := rfl
  sent _ := rfl
  asked _ hq := Or.inl hq
  latched _ hi := hi

/-- A change of a zone that leaves its output samples. -/
theorem acts_updZone (b : Bay) (z : Fin 2) (f : ZoneRun → ZoneRun) (h : ∀ x, (f x).formed = x.formed)
    (h' : ∀ x, (f x).sent = x.sent) : Acts b (b.updZone z f) where
  time := rfl
  duty := rfl
  mode := rfl
  pins := rfl
  schedule := rfl
  control := rfl
  line _ := rfl
  formed j := by
    simp only [Bay.updZone, Tab.get_upd]
    split
    · next e => subst e; exact h _
    · rfl
  sent j := by
    simp only [Bay.updZone, Tab.get_upd]
    split
    · next e => subst e; exact h' _
    · rfl
  asked _ hq := Or.inl hq
  latched _ hi := hi

theorem acts_latch (b : Bay) (e : ErrItem) : Acts b (b.latch e) where
  time := rfl
  duty := rfl
  mode := rfl
  pins := rfl
  schedule := rfl
  control := rfl
  line _ := rfl
  formed _ := rfl
  sent _ := rfl
  asked _ hq := Or.inl hq
  latched i hi := by simp [Bay.latch, BitVec.getLsbD_or, hi]

theorem acts_notify (b : Bay) (n : Notice) : Acts b (b.notify n) := by
  unfold Bay.notify
  split
  · exact .of_parts rfl rfl rfl rfl rfl rfl rfl rfl rfl
  · exact acts_latch b _

theorem acts_skip (b : Bay) (k : Fin 6) : Acts b (b.skip k) := by
  unfold Bay.skip
  split
  · exact acts_updStatus b _ _
  · exact Acts.refl b

/-- A request of origin SCENE. -/
theorem acts_request (b : Bay) (slot : Fin 32) : Acts b (b.request ⟨slot, .scene⟩) where
  time := rfl
  duty := rfl
  mode := rfl
  pins := rfl
  schedule := rfl
  control := rfl
  line _ := rfl
  formed _ := rfl
  sent _ := rfl
  asked q hq := by
    simp only [Bay.request, List.mem_append, List.mem_singleton] at hq
    rcases hq with hq | rfl
    · exact Or.inl hq
    · exact Or.inr rfl
  latched _ hi := hi

/-! ### Fixtures -/

theorem acts_retargetScene (t : Tables) (b : Bay) (i : Fin 16) (g : Comp → Target) (fade : Nat) (curve : Curve)
    (src : TimeSource) : Acts b (retargetScene t b i g fade curve src) := acts_updFixture b i _ (fun _ => rfl)
theorem acts_holdScene (t : Tables) (b : Bay) (i : Fin 16) (src : TimeSource) : Acts b (holdScene t b i src) :=
  acts_updFixture b i _ (fun _ => rfl)
theorem acts_updFixtureLook (b : Bay) (k : Fin 6) (i : Fin 16) (f : FixtureLook → FixtureLook) :
    Acts b (b.updFixtureLook k i f) := acts_updLook b k _
theorem acts_plainLook (i : Fin 16) (b : Bay) : Acts b (plainLook i b) := acts_updFixture b i _ (fun _ => rfl)
theorem acts_colourStep (k : Fin 6) (x : Byte) (fade : Nat) (curve : Curve) (t : Tables) (i : Fin 16) (b : Bay) :
    Acts b (colourStep k x fade curve t i b) := (acts_retargetScene t b i _ _ _ _).trans (acts_updFixtureLook _ k i _)
theorem acts_colourDirectStep (k : Fin 6) (x : Colour) (fade : Nat) (curve : Curve) (t : Tables) (i : Fin 16) (b : Bay) :
    Acts b (colourDirectStep k x fade curve t i b) :=
  (acts_retargetScene t b i _ _ _ _).trans (acts_updFixtureLook _ k i _)
theorem acts_intensityStep (k : Fin 6) (v : Byte) (i : Fin 16) (b : Bay) : Acts b (intensityStep k v i b) :=
  (acts_updFixture b i (fun f => { f with intensity := v }) (fun _ => rfl)).trans (acts_updFixtureLook _ k i _)
theorem acts_highlightStep (k : Fin 6) (c : Fin 4) (i : Fin 16) (b : Bay) : Acts b (highlightStep k c i b) :=
  (acts_updFixture b i (fun f => { f with highlight := c }) (fun _ => rfl)).trans (acts_updFixtureLook _ k i _)
theorem acts_giveFixture (k : Fin 6) (t : Tables) (i : Fin 16) (b : Bay) : Acts b (giveFixture k t i b) :=
  (acts_holdScene t b i _).trans (acts_plainLook i _)
theorem acts_resumeFixture (k : Fin 6) (fade : Nat) (t : Tables) (i : Fin 16) (b : Bay) :
    Acts b (resumeFixture k fade t i b) := by
  unfold resumeFixture
  split
  · exact Acts.refl b
  · exact (acts_retargetScene t b i _ _ _ _).trans (acts_updFixture _ i _ (fun _ => rfl))
theorem acts_releaseFixture (fade : Nat) (t : Tables) (i : Fin 16) (b : Bay) : Acts b (releaseFixture fade t i b) :=
  (acts_retargetScene t b i _ _ _ _).trans (acts_plainLook i _)
theorem acts_restartFixture (k : Fin 6) (t : Tables) (i : Fin 16) (b : Bay) : Acts b (restartFixture k t i b) :=
  acts_holdScene t b i _

/-! ### Voices -/

theorem acts_voiceIdle (v : Fin 6) (b : Bay) : Acts b (voiceIdle v b) := (acts_updVoice b v _).trans (acts_startList _ _)
theorem acts_voiceStop (gain fade : Nat) (t : Tables) (v : Fin 6) (b : Bay) : Acts b (voiceStop gain fade t v b) :=
  acts_updVoice b v _
theorem acts_voicePause (v : Fin 6) (b : Bay) : Acts b (voicePause v b) := acts_updVoice b v _
theorem acts_voiceResume (n : Nat) (v : Fin 6) (b : Bay) : Acts b (voiceResume n v b) := acts_updVoice b v _
theorem acts_eachOwnedVoice (k : Fin 6) (p : VoiceState → Bool) {f : Fin 6 → Bay → Bay} (h : ∀ v b, Acts b (f v b)) (b : Bay) :
    Acts b (eachOwnedVoice k p f b) := acts_each (fun v b => acts_ite (h v b) (Acts.refl b)) b
theorem acts_pauseVoices (k : Fin 6) (b : Bay) : Acts b (pauseVoices k b) := acts_eachOwnedVoice k _ acts_voicePause b
theorem acts_resumeVoices (k : Fin 6) (b : Bay) : Acts b (resumeVoices k b) := by
  unfold resumeVoices
  exact acts_eachOwnedVoice k _ (acts_voiceResume _) b
theorem acts_endVoices (k : Fin 6) (fade : Nat) (t : Tables) (b : Bay) : Acts b (endVoices k fade t b) :=
  (acts_eachOwnedVoice k _ (acts_voiceStop _ _ t) b).then (acts_eachOwnedVoice k _ acts_voiceIdle)
theorem acts_idleVoices (k : Fin 6) (b : Bay) : Acts b (idleVoices k b) := acts_eachOwnedVoice k _ acts_voiceIdle b
theorem acts_duckZone (t : Tables) (z : Zone) (b : Bay) : Acts b (duckZone t z b) := by
  unfold duckZone
  exact acts_ite (Acts.refl b) (acts_updZone b _ _ (fun _ => rfl) (fun _ => rfl))
theorem acts_duckExamine (t : Tables) (b : Bay) : Acts b (duckExamine t b) :=
  (acts_duckZone t .a b).then (acts_duckZone t .b)
theorem acts_replaceNarration (k : Fin 6) (z : Zone) (t : Tables) (b : Bay) : Acts b (replaceNarration k z t b) := by
  unfold replaceNarration
  split
  · exact acts_voiceStop _ _ t _ b
  · exact Acts.refl b
theorem acts_setUpVoice (v k : Fin 6) (clip : Fin 128) (z : Zone) (kind : LaneKind) (gain : Option (BitVec 16))
    (fadeIn : Nat) (loop : Bool) (t : Tables) (b : Bay) : Acts b (setUpVoice v k clip z kind gain fadeIn loop t b) := by
  unfold setUpVoice
  refine (((Acts.trans ?_ (acts_updVoice _ v _)).trans (acts_startList _ _)).trans (acts_updVoice _ v _)).trans
    (acts_updVoice _ v _)
  cases kind
  · exact acts_replaceNarration k z t b
  · exact Acts.refl b
theorem acts_allocate {b b' : Bay} {v : Fin 6} (h : allocate b = some (v, b')) : Acts b b' := by
  unfold allocate at h
  split at h
  · cases h; exact Acts.refl b
  · simp only [Option.map_eq_some_iff, Prod.mk.injEq] at h
    obtain ⟨w, -, -, rfl⟩ := h
    exact acts_voiceIdle w b
theorem acts_playStep (k : Fin 6) (clip : Fin 128) (z : Zone) (kind : LaneKind) (gain : Option (BitVec 16))
    (fadeIn : Nat) (loop : Bool) (t : Tables) (b : Bay) : Acts b (playStep k clip z kind gain fadeIn loop t b) := by
  unfold playStep
  split
  · split
    · next h => exact (acts_allocate h).trans (acts_setUpVoice _ _ _ _ _ _ _ _ t _)
    · exact (acts_skip b k).then (fun b => acts_latch b _)
  · exact acts_skip b k
theorem acts_voiceFadeStep (k : Fin 6) (z : Zone) (kind : LaneKind) (gain fade : Nat) (stop : Bool) (t : Tables) (b : Bay) :
    Acts b (voiceFadeStep k z kind gain fade stop t b) :=
  acts_each (fun v b => acts_ite (acts_ite (acts_voiceStop _ _ t v b) (acts_updVoice b v _)) (Acts.refl b)) b

/-! ### Axes -/

theorem acts_holdAxis (src : Option TimeSource) (t : Tables) (a : Fin 4) (b : Bay) : Acts b (holdAxis src t a b) :=
  acts_updAxis b a _
theorem acts_moveStep (k : Fin 6) (a : Fin 4) (target : Int) (travel : Nat) (curve : Curve) (t : Tables) (b : Bay) :
    Acts b (moveStep k a target travel curve t b) := by
  unfold moveStep
  exact acts_ite ((acts_updAxis b a _).then (fun b => acts_updLook b k _)) (acts_skip b k)
theorem acts_resumeAxis (k : Fin 6) (t : Tables) (a : Fin 4) (b : Bay) : Acts b (resumeAxis k t a b) := by
  unfold resumeAxis
  refine acts_ite ?_ (Acts.refl b)
  split
  · exact acts_holdAxis _ t a b
  · exact acts_updAxis b a _
theorem acts_issue (n : Int) (t : Tables) (a : Fin 4) (b : Bay) : Acts b (issue n t a b) := acts_updAxis b a _
theorem acts_stepToward (c : Int) (t : Tables) (a : Fin 4) (b : Bay) : Acts b (stepToward c t a b) :=
  acts_ite (acts_issue _ t a b) (Acts.refl b)
theorem acts_arrive (c : Int) (a : Fin 4) (b : Bay) : Acts b (arrive c a b) :=
  acts_ite (acts_updAxis b a _) (Acts.refl b)

/-! ### The scene runner -/

theorem acts_onFixtures (k : Fin 6) (set : BitVec 16) {f : Fin 16 → Bay → Bay} (h : ∀ i b, Acts b (f i b)) (b : Bay) :
    Acts b (onFixtures k set f b) := (acts_ite (Acts.refl b) (acts_skip b k)).then (acts_eachOf h _)
theorem acts_waitAxisStep (k : Fin 6) (axes : BitVec 4) (limit : Nat) (t : Tables) (b : Bay) :
    Acts b (waitAxisStep k axes limit t b) :=
  (acts_ite (Acts.refl b) (acts_skip b k)).then (fun b => acts_ite (Acts.refl b) (acts_updRun b k _))
theorem acts_duckIf (own : Bool) (t : Tables) (b : Bay) : Acts b (duckIf own t b) :=
  acts_ite (acts_duckExamine t b) (Acts.refl b)
theorem acts_fireStep (own : Bool) (k : Fin 6) (act : StepAct) (t : Tables) (b : Bay) : Acts b (fireStep own k act t b) := by
  cases act with
  | colour set i fade curve => exact acts_onFixtures k set (acts_colourStep k i fade.val curve t) b
  | colourDirect set l fade curve => exact acts_onFixtures k set (acts_colourDirectStep k l fade.val curve t) b
  | intensity set v => exact acts_onFixtures k set (acts_intensityStep k v) b
  | highlight set c => exact acts_onFixtures k set (acts_highlightStep k c) b
  | play clip z kind gain fade loop =>
    exact acts_ite (acts_skip b k) ((acts_playStep k clip z kind gain fade.val loop t b).then (acts_duckIf own t))
  | voiceFade z kind gain fade stop =>
    exact acts_ite (acts_skip b k) ((acts_voiceFadeStep k z kind _ _ stop t b).then (acts_duckIf own t))
  | move a target travel curve => exact acts_ite (acts_moveStep k a _ _ curve t b) (acts_skip b k)
  | waitAxis axes limit => exact acts_waitAxisStep k axes limit.val t b
  | signal code => exact acts_notify b _
  | start slot => exact acts_ite (acts_skip b k) (acts_request b slot)
theorem acts_examineSteps (own : Bool) (k : Fin 6) (t : Tables) : ∀ (n : Nat) (b : Bay), Acts b (examineSteps own k t n b)
  | 0, b => Acts.refl b
  | n + 1, b => by
    unfold examineSteps
    dsimp only
    split
    · exact Acts.refl b
    · exact acts_ite (acts_ite (((acts_updRun b k _).then (acts_fireStep own k _ t)).then (acts_examineSteps own k t n))
        (Acts.refl b)) (Acts.refl b)

/-- What an end of a run has to keep for everything that may end one to keep it. -/
def ActsEnd (endK : EndRun) : Prop := ∀ k e t b, Acts b (endK k e t b)

theorem acts_examine {endK : EndRun} (h : ActsEnd endK) (own : Bool) (k : Fin 6) (t : Tables) (b : Bay) :
    Acts b (examine endK own k t b) := by
  refine (acts_examineSteps own k t 256 b).trans ?_
  unfold examine
  dsimp only
  split
  · exact Acts.refl _
  · exact acts_ite (h _ _ t _) (Acts.refl _)
theorem acts_examineIfFires {endK : EndRun} (h : ActsEnd endK) (own : Bool) (k : Fin 6) (t : Tables) (b : Bay) :
    Acts b (examineIfFires endK own k t b) := acts_ite (acts_examine h own k t b) (Acts.refl b)
theorem acts_testGate {endK : EndRun} (h : ActsEnd endK) (k : Fin 6) (t : Tables) (b : Bay) :
    Acts b (testGate endK k t b) :=
  acts_ite ((acts_openGate k b).then (acts_examineIfFires h true k t)) (Acts.refl b)
theorem acts_gateLimit {endK : EndRun} (h : ActsEnd endK) (k : Fin 6) (t : Tables) (b : Bay) :
    Acts b (gateLimit endK k t b) := by
  unfold gateLimit
  split
  · exact Acts.refl b
  · refine acts_ite ?_ (Acts.refl b)
    refine Acts.then (Acts.then ?_ (acts_openGate k)) (acts_examineIfFires h true k t)
    split
    · exact acts_updStatus b _ _
    · exact Acts.refl b
theorem acts_addHeld (k : Fin 6) (b : Bay) : Acts b (addHeld k b) := by
  unfold addHeld
  dsimp only
  refine acts_ite (Acts.refl b) ?_
  exact (acts_updRun b k _).trans (acts_ite (acts_pauseVoices k _) (Acts.refl _))
theorem acts_removeHeld {endK : EndRun} (h : ActsEnd endK) (k : Fin 6) (t : Tables) (b : Bay) :
    Acts b (removeHeld endK k t b) := by
  unfold removeHeld
  dsimp only
  refine acts_ite ?_ (Acts.refl b)
  refine (acts_updRun b k _).trans (acts_ite ?_ (Acts.refl _))
  exact ((acts_resumeVoices k _).trans (acts_duckExamine t _)).trans (acts_examineIfFires h true k t _)
theorem acts_holdLimit {endK : EndRun} (h : ActsEnd endK) (k : Fin 6) (t : Tables) (b : Bay) :
    Acts b (holdLimit endK k t b) := by
  unfold holdLimit
  dsimp only
  split
  · exact Acts.refl b
  · exact acts_ite (h _ _ t b) (Acts.refl b)
theorem acts_sceneMillisecond {endK : EndRun} (h : ActsEnd endK) (t : Tables) (b : Bay) :
    Acts b (sceneMillisecond endK t b) := by
  refine (acts_each (fun k b => ?_) b).then (acts_each (fun k b => acts_ite (acts_examine h true k t b) (Acts.refl b)))
  exact (acts_updRun b k _).then (fun b' => acts_ite (acts_holdLimit h k t b') (acts_gateLimit h k t b'))
theorem acts_suspend (k : Fin 6) (b : Bay) : Acts b (suspend k b) := (acts_updRun b k _).then (acts_pauseVoices k)
theorem acts_resume (k : Fin 6) (t : Tables) (b : Bay) : Acts b (resume k t b) := by
  unfold resume
  dsimp only
  refine Acts.trans ?_ (acts_examineSteps false k t 256 _)
  refine Acts.trans ?_ (acts_ite (acts_openGate k _) (Acts.refl _))
  refine Acts.trans ?_ (acts_ite (Acts.refl _) (acts_resumeVoices k _))
  refine Acts.trans ?_ (acts_eachOf (acts_resumeAxis k t) _ _)
  exact (acts_updRun b k _).trans (acts_eachOf (acts_resumeFixture k _ t) _ _)
theorem acts_recordEnd (b : Bay) (k : Fin 6) (e : EndReason) : Acts b (b.recordEnd k e) := by
  unfold Bay.recordEnd
  split
  · exact acts_updStatus b _ _
  · exact Acts.refl b
theorem acts_tellTrigger (o : Option Origin) (t : Tables) (b : Bay) : Acts b (tellTrigger o t b) := by
  unfold tellTrigger
  split
  · exact acts_updTrigger b _ _
  · exact Acts.refl b
theorem acts_restart {endK : EndRun} (h : ActsEnd endK) (k : Fin 6) (o : Origin) (t : Tables) (b : Bay) :
    Acts b (restart endK k o t b) := by
  unfold restart
  dsimp only
  refine Acts.then (Acts.then (Acts.then (f := fun b => b.updRun k _) ?_ (fun b => acts_updRun b k _))
    (acts_examineIfFires h false k t)) (acts_duckExamine t)
  refine Acts.trans ?_ (acts_ite (Acts.refl _) (acts_tellTrigger _ t _))
  refine Acts.then (f := fun b => b.updRun k _) ?_ (fun b => acts_updRun b k _)
  refine Acts.then ?_ (acts_idleVoices k)
  refine Acts.trans ?_ (acts_eachOf (acts_holdAxis _ t) _ _)
  exact (acts_recordEnd b k _).trans (acts_eachOf (acts_restartFixture k t) _ _)

/-! ### The claim unit -/

theorem acts_firstOutcome (n : Fin 12) (o : ReqOutcome) (b : Bay) : Acts b (firstOutcome n o b) := acts_updTrigger b n _
theorem acts_reportSecond (o : Origin) (x : Bool) (b : Bay) : Acts b (reportSecond o x b) := by
  unfold reportSecond
  split
  · exact acts_updTrigger b _ _
  all_goals exact Acts.refl b
theorem acts_preempt (r : Fin 22) (b : Bay) : Acts b (preempt r b) := by
  unfold preempt
  split
  · exact Acts.refl b
  · exact (acts_updClaim b r _).then (fun b => acts_ite (acts_suspend _ b) (Acts.refl b))
theorem acts_take (k : Fin 6) (t : Tables) (r : Fin 22) (b : Bay) : Acts b (take k t r b) := by
  refine (acts_updClaim b r (fun c => { c with owner := some k })).trans ?_
  unfold take
  dsimp only
  split
  · exact acts_giveFixture k t _ _
  · exact Acts.refl _
  · exact acts_holdAxis _ t _ _
theorem acts_dropHeld (b : Bay) : Acts b (dropHeld b) := acts_each (fun j b => acts_ite (acts_updRun b j _) (Acts.refl b)) b
theorem acts_withdraw (s : Fin 32) (b : Bay) : Acts b (withdraw s b) := by
  unfold withdraw
  split
  · exact (acts_setQueue b _).then (acts_reportSecond _ _)
  · exact Acts.refl b
theorem acts_admitScene {endK : EndRun} (h : ActsEnd endK) (k : Fin 6) (s : Fin 32) (o : Origin) (t : Tables) (b : Bay) :
    Acts b (admitScene endK k s o t b) := by
  unfold admitScene
  dsimp only
  refine Acts.trans ?_ (acts_duckExamine t _)
  refine Acts.trans ?_ (acts_examineIfFires h false k t _)
  refine Acts.trans ?_ (acts_withdraw s _)
  refine Acts.trans ?_ (acts_dropHeld _)
  refine Acts.trans ?_ (acts_eachOf (acts_take k t) _ _)
  exact (acts_eachOf acts_preempt _ b).trans (acts_updRun _ k _)
theorem acts_scanEntry {endK : EndRun} (h : ActsEnd endK) (t : Tables) (e : QueueEntry) (b : Bay) :
    Acts b (scanEntry endK t e b) := by
  unfold scanEntry
  refine acts_ite (Acts.refl b) (acts_ite (acts_withdraw _ b) (acts_ite (Acts.refl b) ?_))
  split
  · exact ((acts_setQueue b _).then (acts_admitScene h _ _ _ t)).then (acts_reportSecond _ _)
  · exact Acts.refl b
theorem acts_scan {endK : EndRun} (h : ActsEnd endK) (t : Tables) (b : Bay) : Acts b (scan endK t b) :=
  acts_eachOf (acts_scanEntry h t) _ b
theorem acts_handBack (t : Tables) (r : Fin 22) (b : Bay) : Acts b (handBack t r b) := by
  unfold handBack
  split
  · exact acts_updClaim b r _
  · next j rest _ =>
    refine (acts_updClaim b r (fun _ => ⟨some j, rest⟩)).trans ?_
    dsimp only
    split
    · exact acts_giveFixture _ t _ _
    · exact Acts.refl _
    · exact (acts_holdAxis _ t _ _).trans (acts_ite (acts_addHeld _ _) (Acts.refl _))
theorem acts_handOver (k : Fin 6) (t : Tables) (b : Bay) : Acts b (handOver k t b) :=
  (acts_each (fun r b => acts_updClaim b r _) b).trans (acts_eachOf (acts_handBack t) _ _)
theorem acts_release {endK : EndRun} (h : ActsEnd endK) (k : Fin 6) (t : Tables) (b : Bay) : Acts b (release endK k t b) :=
  (((acts_handOver k t b).then (acts_eachOf (fun j b => acts_resume j t b) _)).then (fun b => acts_updRun b k _)).then
    (acts_scan h t)
theorem acts_endOverdue {endK : EndRun} (h : ActsEnd endK) (t : Tables) (j : Fin 6) (b : Bay) :
    Acts b (endOverdue endK t j b) := acts_ite (h j _ t b) (Acts.refl b)
theorem acts_endEffects (k : Fin 6) (fade voiceFade : Nat) (t : Tables) (b : Bay) :
    Acts b (endEffects k fade voiceFade t b) :=
  ((acts_eachOf (acts_releaseFixture fade t) _ b).then (acts_endVoices k voiceFade t)).trans
    (acts_eachOf (acts_holdAxis _ t) _ _)
theorem acts_endRunFuel : ∀ n, ActsEnd (endRunFuel n)
  | 0, _, _, _, b => Acts.refl b
  | n + 1, k, e, t, b => by
    unfold endRunFuel
    refine acts_ite (Acts.refl b) ?_
    refine Acts.then ?_ (acts_eachOf (acts_endOverdue (acts_endRunFuel n) t) _)
    exact ((((acts_endEffects k _ _ t b).then (fun b => acts_recordEnd b k e)).then
      (acts_release (acts_endRunFuel n) k t)).then (acts_tellTrigger _ t)).then (acts_duckExamine t)
theorem acts_endRun : ActsEnd endRun := acts_endRunFuel 8
theorem acts_freeClaims (b : Bay) : Acts b { b with claim := { b.claim with claim := Tab.const 22 ⟨none, []⟩ } } :=
  .of_parts rfl rfl rfl rfl rfl rfl rfl rfl rfl
theorem acts_endAll (e : EndReason) (t : Tables) (b : Bay) : Acts b (endAll e t b) := by
  unfold endAll
  dsimp only
  refine Acts.trans ?_ (acts_duckExamine t _)
  refine Acts.trans ?_ (acts_eachOf (fun o b => acts_tellTrigger o t b) _ _)
  refine Acts.trans ?_ (acts_eachOf (fun k b => acts_updRun b k _) _ _)
  refine Acts.trans ?_ (acts_freeClaims _)
  exact acts_eachOf (fun k b => (acts_endEffects k _ _ t b).trans (acts_recordEnd _ k e)) _ b
theorem acts_expiryCheck (b : Bay) : Acts b (expiryCheck b) := by
  unfold expiryCheck
  exact (acts_setQueue b _).trans (acts_eachOf (fun (e : QueueEntry) b => acts_reportSecond e.origin false b) _ _)
theorem acts_claimMillisecond (t : Tables) (b : Bay) : Acts b (claimMillisecond t b) :=
  ((acts_each (fun k b => acts_updRun b k _) b).then acts_expiryCheck).then (acts_scan acts_endRun t)
theorem acts_stopScene (s : Fin 32) (t : Tables) (b : Bay) : Acts b (stopScene s t b) := by
  unfold stopScene
  split
  · exact acts_endRun _ _ t b
  · exact acts_withdraw s b

/-! ### The axis unit -/

theorem acts_reportHeld (a : Fin 4) (was : AxisState) (t : Tables) (b : Bay) : Acts b (reportHeld a was t b) := by
  unfold reportHeld
  dsimp only
  split
  · exact Acts.refl b
  · exact acts_ite ((acts_addHeld _ b).then (acts_duckExamine t)) (acts_ite (acts_removeHeld acts_endRun _ t b) (Acts.refl b))
theorem acts_reportSettled (a : Fin 4) (t : Tables) (b : Bay) : Acts b (reportSettled a t b) := by
  refine acts_each (fun k b => ?_) b
  split
  · exact acts_ite (acts_testGate acts_endRun k t b) (Acts.refl b)
  · exact Acts.refl b
theorem acts_report (a : Fin 4) (before : Bay) (t : Tables) (b : Bay) : Acts b (report a before t b) :=
  (acts_reportHeld a _ t b).then (fun b => acts_ite (acts_reportSettled a t b) (Acts.refl b))
theorem acts_faultAxis (r : AxisFault) (a : Fin 4) (t : Tables) (b : Bay) : Acts b (faultAxis r a t b) := by
  have h : ∀ b : Bay, Acts b (match b.owner (axisRes a) with
      | some k => endRun k .axisFault t b
      | none => b) := by
    intro b
    split
    · exact acts_endRun _ _ t _
    · exact Acts.refl _
  refine Acts.trans ?_ (h _)
  refine Acts.trans ?_ (acts_ite (Acts.refl _) (acts_latch _ _))
  exact (acts_updAxis b a _).trans (acts_holdAxis none t a _)
theorem acts_motionUpdate (a : Fin 4) (t : Tables) (b : Bay) : Acts b (motionUpdate a t b) := by
  unfold motionUpdate
  exact (acts_stepToward _ t a b).trans (acts_ite (acts_faultAxis _ a t _) ((acts_arrive _ a _).then (acts_report a b t)))
theorem acts_homingSteps (sign : Int) (a : Fin 4) (t : Tables) (b : Bay) : Acts b (homingSteps sign a t b) :=
  (acts_issue _ t a b).then (fun b => acts_updAxis b a _)
theorem acts_homingUpdate (home : Bool) (a : Fin 4) (t : Tables) (b : Bay) : Acts b (homingUpdate home a t b) := by
  unfold homingUpdate
  dsimp only
  split
  · exact Acts.refl b
  · exact acts_ite (acts_updAxis b a _) (acts_ite (acts_faultAxis _ a t b) (acts_homingSteps _ a t b))
  · exact acts_ite (acts_updAxis b a _) (acts_ite (acts_faultAxis _ a t b) (acts_homingSteps _ a t b))
theorem acts_axisUpdate (home : BitVec 4) (a : Fin 4) (t : Tables) (b : Bay) : Acts b (axisUpdate home a t b) := by
  unfold axisUpdate
  dsimp only
  split
  · exact acts_motionUpdate a t b
  · exact acts_motionUpdate a t b
  · exact acts_motionUpdate a t b
  · exact acts_ite (acts_homingUpdate _ a t b) (Acts.refl b)
  · exact Acts.refl b
  · exact Acts.refl b
theorem acts_enterHoming (home : Bool) (a : Fin 4) (t : Tables) (b : Bay) : Acts b (enterHoming home a t b) :=
  ((acts_holdAxis _ t a b).then (fun b => acts_updAxis b a _)).then (acts_report a b t)
theorem acts_holdBy (p a : Fin 4) (t : Tables) (b : Bay) : Acts b (holdBy p a t b) :=
  (acts_updAxis b a _).then (acts_report a b t)
theorem acts_unholdBy (p a : Fin 4) (t : Tables) (b : Bay) : Acts b (unholdBy p a t b) :=
  (acts_updAxis b a _).then (acts_report a b t)
theorem acts_proxClear (p : Fin 4) (t : Tables) (b : Bay) : Acts b (proxClear p t b) :=
  (acts_updProx b p _).then (acts_eachOf (fun a b => acts_unholdBy p a t b) _)
theorem acts_proxActive (p : Fin 4) (t : Tables) (b : Bay) : Acts b (proxActive p t b) := by
  unfold proxActive
  split
  · exact (acts_updProx b p _).then (acts_eachOf (fun a b => acts_holdBy p a t b) _)
  · exact acts_updProx b p _
  · exact Acts.refl b
theorem acts_proxInactive (p : Fin 4) (t : Tables) (b : Bay) : Acts b (proxInactive p t b) := by
  unfold proxInactive
  split
  · exact acts_ite (acts_proxClear p t b) (acts_updProx b p _)
  · exact Acts.refl b
  · exact Acts.refl b
theorem acts_clearDelayEnd (p : Fin 4) (t : Tables) (b : Bay) : Acts b (clearDelayEnd p t b) :=
  acts_ite (acts_proxClear p t b) (Acts.refl b)
theorem acts_proxWritten (p : Fin 4) (old new : BitVec 4) (t : Tables) (b : Bay) : Acts b (proxWritten p old new t b) :=
  acts_ite (Acts.refl b) (acts_each (fun a b => acts_ite (acts_holdBy p a t b) (acts_ite (acts_unholdBy p a t b)
    (Acts.refl b))) b)
theorem acts_axisMillisecond (home : BitVec 4) (t : Tables) (b : Bay) : Acts b (axisMillisecond home t b) :=
  ((acts_each (fun a b => acts_updAxis b a _) b).then (acts_each (fun a b => acts_axisUpdate home a t b))).then
    (acts_each (fun p b => (acts_updProx b p _).then (acts_clearDelayEnd p t)))

end Sys2Proof.Machine
end

