-- ==== Sys2Proof/Laws/Voices.lean ====
section
/-! SUPPORT. What the operations of the voice unit do to each voice. -/

namespace Sys2Proof.Machine

theorem Bay.updVoice_voiceRec (b : Bay) (v w : Fin 6) (f : Voice → Voice) :
    (b.updVoice v f).voiceRec w = if v = w then f (b.voiceRec v) else b.voiceRec w := Tab.get_upd _ _ _ _

@[simp] theorem Bay.updVoice_same (b : Bay) (v : Fin 6) (f : Voice → Voice) : (b.updVoice v f).voiceRec v = f (b.voiceRec v) :=
  Tab.get_upd_same _ _ _

/-- A voice that becomes IDLE (R43). -/
def Voice.idle (x : Voice) : Voice := { x with state := .idle, fifo := [], refill := none, owner := none, underrun := false }

theorem voiceIdle_voiceRec (v w : Fin 6) (b : Bay) :
    (voiceIdle v b).voiceRec w = if v = w then (b.voiceRec v).idle else b.voiceRec w := Bay.updVoice_voiceRec b v w _

@[simp] theorem voiceIdle_startList (v : Fin 6) (b : Bay) :
    (voiceIdle v b).voice.startList = b.voice.startList.filter (· != v) := rfl

/-! ### Ducking -/

/-- What an examination of the duck targets leaves: everything but the duck lanes. -/
theorem duckZone_eq (t : Tables) (z : Zone) (b : Bay) : ∃ f : ZoneRun → ZoneRun,
    duckZone t z b = b.updZone z.idx (fun y => { y with duck := (f y).duck }) := by
  unfold duckZone
  dsimp only
  split
  · refine ⟨id, ?_⟩
    have : (b.voice.zone.upd z.idx fun y => { y with duck := (id y).duck }) = b.voice.zone :=
      Tab.ext_get (fun i => by rw [Tab.get_upd]; split <;> simp_all)
    show b = { b with voice := { b.voice with zone := _ } }
    rw [this]
  · exact ⟨fun y => { y with
      duck :=
        retarget t b .red (.level (duckTarget t b z)) (t.zone.get z.idx).duckFade.val .linear .node y.duck },
      rfl⟩

/-- An examination of the duck targets changes the duck lanes alone. -/
theorem duckExamine_eq (t : Tables) (b : Bay) : ∃ zone : Tab ZoneRun 2,
    duckExamine t b = { b with voice := { b.voice with zone := zone } } ∧
    ∀ z, zone.get z = { b.voice.zone.get z with duck := (zone.get z).duck } := by
  obtain ⟨f, hf⟩ := duckZone_eq t .a b
  obtain ⟨g, hg⟩ := duckZone_eq t .b (duckZone t .a b)
  refine ⟨(duckExamine t b).voice.zone, ?_, fun z => ?_⟩
  · rw [duckExamine, hg, hf]; rfl
  · rw [duckExamine, hg, hf]
    simp only [Bay.updZone, Tab.get_upd]
    split <;> split <;> simp_all

@[simp] theorem duckExamine_voiceRec (t : Tables) (b : Bay) (v : Fin 6) : (duckExamine t b).voiceRec v = b.voiceRec v := by
  obtain ⟨z, h, _⟩ := duckExamine_eq t b
  rw [h]; rfl

@[simp] theorem duckExamine_startList (t : Tables) (b : Bay) : (duckExamine t b).voice.startList = b.voice.startList := by
  obtain ⟨z, h, _⟩ := duckExamine_eq t b
  rw [h]

theorem duckTarget_congr (t : Tables) {b b' : Bay} (h : b'.voice.voice = b.voice.voice) (z : Zone) :
    duckTarget t b' z = duckTarget t b z := by unfold duckTarget Bay.voiceRec; rw [h]

/-! ### Voices of a record -/

theorem eachOwnedVoice_voiceRec (k : Fin 6) (p : VoiceState → Bool) (f : Fin 6 → Bay → Bay) (g : Voice → Voice) (v : Fin 6)
    (P : Bay → Prop) (keep : ∀ w b, P b → P (f w b))
    (other : ∀ w b, w ≠ v → P b → (f w b).voiceRec v = b.voiceRec v)
    (at_ : ∀ b, P b → (f v b).voiceRec v = g (b.voiceRec v)) (b : Bay) (hb : P b) :
    (eachOwnedVoice k p f b).voiceRec v =
      if (b.voiceRec v).owner = some k && p (b.voiceRec v).state then g (b.voiceRec v) else b.voiceRec v := by
  unfold eachOwnedVoice
  refine each_at (g := fun b : Bay => b.voiceRec v) P v
    (fun x => if x.owner = some k && p x.state then g x else x) ?_ ?_ ?_ b hb
  · intro j b h; split
    · exact keep j b h
    · exact h
  · intro j b hj h; split
    · exact other j b hj h
    · rfl
  · intro b h; split
    · exact at_ b h
    · rfl

theorem laneValue_congr (t : Tables) {b b' : Bay} (time : b'.time = b.time) (scene : b'.scene = b.scene) (c : Comp) (l : Lane) :
    laneValue t b' c l = laneValue t b c l := by
  cases b; cases b'; cases time; cases scene; rfl

theorem laneDone_congr {b b' : Bay} (time : b'.time = b.time) (scene : b'.scene = b.scene) (l : Lane) :
    laneDone b' l = laneDone b l := by
  cases b; cases b'; cases time; cases scene; rfl

theorem retarget_congr (t : Tables) {b b' : Bay} (time : b'.time = b.time) (scene : b'.scene = b.scene) (c : Comp)
    (target : Target) (d : Nat) (curve : Curve) (src : TimeSource) (l : Lane) :
    retarget t b' c target d curve src l = retarget t b c target d curve src l := by
  cases b; cases b'; cases time; cases scene; rfl

theorem pauseVoices_voiceRec (k v : Fin 6) (b : Bay) : (pauseVoices k b).voiceRec v =
    if (b.voiceRec v).owner = some k && (b.voiceRec v).state.active
    then { b.voiceRec v with state := .paused, refill := none, underrun := false } else b.voiceRec v :=
  eachOwnedVoice_voiceRec k _ voicePause (fun x => { x with state := .paused, refill := none, underrun := false }) v
    (fun _ => True) (fun _ _ _ => trivial) (fun w b h _ => by simp [voicePause, Bay.updVoice_voiceRec, h])
    (fun b _ => by simp [voicePause]) b trivial

theorem idleVoices_voiceRec (k v : Fin 6) (b : Bay) : (idleVoices k b).voiceRec v =
    if (b.voiceRec v).owner = some k then (b.voiceRec v).idle else b.voiceRec v := by
  have := eachOwnedVoice_voiceRec k (fun _ => true) voiceIdle Voice.idle v
    (fun _ => True) (fun _ _ _ => trivial) (fun w b h _ => by simp [voiceIdle_voiceRec, h])
    (fun b _ => by simp [voiceIdle_voiceRec]) b trivial
  unfold idleVoices; simpa using this

theorem endVoices_voiceRec (k : Fin 6) (fade : Nat) (t : Tables) (b : Bay) (v : Fin 6) : (endVoices k fade t b).voiceRec v =
    if (b.voiceRec v).owner = some k && (b.voiceRec v).state.active then
      { b.voiceRec v with
        state := .stopping, owner := none
        gain := retarget t b .red (.level 0) fade .linear .node (b.voiceRec v).gain }
    else if (b.voiceRec v).owner = some k && (b.voiceRec v).state = .paused then (b.voiceRec v).idle
    else b.voiceRec v := by
  have h1 := eachOwnedVoice_voiceRec k VoiceState.active (voiceStop 0 fade t) (fun x => { x with
      state := .stopping, owner := none, gain := retarget t b .red (.level 0) fade .linear .node x.gain }) v
    (fun x => x.time = b.time ∧ x.scene = b.scene) (fun _ _ h => h)
    (fun w b h _ => by simp [voiceStop, Bay.updVoice_voiceRec, h])
    (fun c h => by simp [voiceStop, retarget_congr t h.1 h.2]) b ⟨rfl, rfl⟩
  have h2 := eachOwnedVoice_voiceRec k (fun x => x = .paused) voiceIdle Voice.idle v (fun _ => True) (fun _ _ _ => trivial)
    (fun w b h _ => by simp [voiceIdle_voiceRec, h]) (fun b _ => by simp [voiceIdle_voiceRec])
    (eachOwnedVoice k VoiceState.active (voiceStop 0 fade t) b) trivial
  show (eachOwnedVoice k _ voiceIdle _).voiceRec v = _
  rw [h2, h1]
  by_cases ho : (b.voiceRec v).owner = some k <;> simp [ho]
  by_cases ha : (b.voiceRec v).state.active <;> simp [ha, ho]

theorem resumeVoices_voiceRec (k : Fin 6) (b : Bay) (v : Fin 6) : (resumeVoices k b).voiceRec v =
    if (b.voiceRec v).owner = some k && (b.voiceRec v).state = .paused then
      let x := b.voiceRec v
      let pos := if x.kind = .narration then x.readPos - (((b.run k).snap.map (·.rewind)).getD 0) * 16 else x.readPos
      { x with state := .priming, readPos := pos, fetchPos := pos, fifo := [], refill := none }
    else b.voiceRec v :=
  eachOwnedVoice_voiceRec k (fun x => x = .paused) (voiceResume (((b.run k).snap.map (·.rewind)).getD 0)) (fun x =>
      let pos := if x.kind = .narration then x.readPos - (((b.run k).snap.map (·.rewind)).getD 0) * 16 else x.readPos
      { x with state := .priming, readPos := pos, fetchPos := pos, fifo := [], refill := none }) v
    (fun _ => True) (fun _ _ _ => trivial) (fun w b h _ => by simp [voiceResume, Bay.updVoice_voiceRec, h])
    (fun b _ => by simp [voiceResume]) b trivial

/-! ### The duck lane after an examination (R52) -/

theorem duckZone_duck (t : Tables) (z w : Zone) (c : Bay) : ((duckZone t z c).voice.zone.get w.idx).duck =
    if z = w then
      (if (c.voice.zone.get z.idx).duck.target = .level (duckTarget t c z) then (c.voice.zone.get z.idx).duck
       else retarget t c .red (.level (duckTarget t c z)) (t.zone.get z.idx).duckFade.val .linear .node
        (c.voice.zone.get z.idx).duck)
    else (c.voice.zone.get w.idx).duck := by
  unfold duckZone
  dsimp only
  split
  · split
    · next h => subst h; rfl
    · rfl
  · simp only [Bay.updZone, Tab.get_upd]
    cases z <;> cases w <;> simp [Zone.idx]

theorem duckExamine_duck (t : Tables) (b : Bay) (z : Zone) : ((duckExamine t b).voice.zone.get z.idx).duck =
    if (b.voice.zone.get z.idx).duck.target = .level (duckTarget t b z) then (b.voice.zone.get z.idx).duck
    else retarget t b .red (.level (duckTarget t b z)) (t.zone.get z.idx).duckFade.val .linear .node
      (b.voice.zone.get z.idx).duck := by
  have hc : ∀ z : Zone, (duckZone t z b).voice.voice = b.voice.voice ∧ (duckZone t z b).time = b.time ∧
      (duckZone t z b).scene = b.scene := by
    intro z; obtain ⟨f, h⟩ := duckZone_eq t z b; rw [h]; exact ⟨rfl, rfl, rfl⟩
  have e : (duckExamine t b) = duckZone t .b (duckZone t .a b) := rfl
  have nab : ¬ Zone.a = Zone.b := by decide
  have nba : ¬ Zone.b = Zone.a := by decide
  rw [e, duckZone_duck t .b z]
  cases z
  · rw [if_neg nba, duckZone_duck t .a .a, if_pos rfl]
  · rw [if_pos rfl, duckTarget_congr t (hc .a).1, retarget_congr t (hc .a).2.1 (hc .a).2.2, duckZone_duck t .a .b]
    simp only [if_neg nab]

end Sys2Proof.Machine
end

