-- ==== Sys2Proof/Laws/Scenes.lean ====
section
/-! SUPPORT. What a step that fires, and what an examination, leave of the run records and of the claim unit. -/

namespace Sys2Proof.Machine

theorem Bay.run_updRun (b : Bay) (k j : Fin 6) (f : RunRec → RunRec) :
    (b.updRun k f).run j = if k = j then f (b.run k) else b.run j := Tab.get_upd _ _ _ _

@[simp] theorem Bay.run_updRun_same (b : Bay) (k : Fin 6) (f : RunRec → RunRec) : (b.updRun k f).run k = f (b.run k) :=
  Tab.get_upd_same _ _ _

theorem Bay.run_updRun_of_ne (b : Bay) {k j : Fin 6} (f : RunRec → RunRec) (h : k ≠ j) : (b.updRun k f).run j = b.run j :=
  Tab.get_upd_of_ne _ _ h

/-- What a step of record `k` keeps of a run record: all but its gate and its look memory. -/
structure RunRec.Like (r r' : RunRec) : Prop where
  state : r'.state = r.state
  held : r'.held = r.held
  slot : r'.slot = r.slot
  snap : r'.snap = r.snap
  origin : r'.origin = r.origin
  clock : r'.clock = r.clock
  gateDelay : r'.gateDelay = r.gateDelay
  next : r'.next = r.next
  holdTime : r'.holdTime = r.holdTime
  guard : r'.guard = r.guard

theorem RunRec.Like.refl (r : RunRec) : r.Like r := ⟨rfl, rfl, rfl, rfl, rfl, rfl, rfl, rfl, rfl, rfl⟩

theorem RunRec.Like.trans {a b c : RunRec} (h : a.Like b) (k : b.Like c) : a.Like c :=
  ⟨k.state.trans h.state, k.held.trans h.held, k.slot.trans h.slot, k.snap.trans h.snap, k.origin.trans h.origin,
    k.clock.trans h.clock, k.gateDelay.trans h.gateDelay, k.next.trans h.next, k.holdTime.trans h.holdTime,
    k.guard.trans h.guard⟩

/-- What a step of record `k` leaves of the bay: the claims, the request queue and every run record, but for the gate and the
look memory of record `k`. -/
structure Fires (k : Fin 6) (b b' : Bay) : Prop where
  claim : b'.claim.claim = b.claim.claim
  queue : b'.claim.queue = b.claim.queue
  other : ∀ j, j ≠ k → b'.run j = b.run j
  own : (b.run k).Like (b'.run k)

theorem Fires.refl (k : Fin 6) (b : Bay) : Fires k b b := ⟨rfl, rfl, fun _ _ => rfl, .refl _⟩

theorem Fires.trans {k : Fin 6} {a b c : Bay} (h : Fires k a b) (g : Fires k b c) : Fires k a c :=
  ⟨g.claim.trans h.claim, g.queue.trans h.queue, fun j hj => (g.other j hj).trans (h.other j hj), h.own.trans g.own⟩

/-- A change of the other units, of the trigger unit and of the scene status. -/
theorem Fires.of_rest {k : Fin 6} {b b' : Bay} (claim : b'.claim.claim = b.claim.claim)
    (queue : b'.claim.queue = b.claim.queue) (run : b'.scene.run = b.scene.run) : Fires k b b' := by
  have : ∀ j, b'.run j = b.run j := fun j => by simp only [Bay.run, run]
  exact ⟨claim, queue, fun j _ => this j, by rw [this]; exact .refl _⟩

theorem fires_updRun (k : Fin 6) (b : Bay) (f : RunRec → RunRec) (h : ∀ r : RunRec, r.Like (f r)) : Fires k b (b.updRun k f) :=
  ⟨rfl, rfl, fun _ hj => b.run_updRun_of_ne f hj.symm, by rw [Bay.run_updRun_same]; exact h _⟩

theorem fires_eachOf {ι : Type} {k : Fin 6} {f : ι → Bay → Bay} (h : ∀ i b, Fires k b (f i b)) (l : List ι) (b : Bay) :
    Fires k b (eachOf l f b) := eachOf_keeps (P := Fires k b) (fun i c hc => hc.trans (h i c)) l b (.refl k b)

theorem fires_ite {k : Fin 6} {c : Prop} [Decidable c] {b x y : Bay} (hx : Fires k b x) (hy : Fires k b y) :
    Fires k b (if c then x else y) := by split <;> assumption

theorem fires_skip (k : Fin 6) (b : Bay) (j : Fin 6) : Fires k b (b.skip j) := by
  unfold Bay.skip; split <;> exact .of_rest rfl rfl rfl

theorem fires_updLook (k : Fin 6) (b : Bay) (f : Look → Look) : Fires k b (b.updLook k f) :=
  fires_updRun k b _ (fun _ => ⟨rfl, rfl, rfl, rfl, rfl, rfl, rfl, rfl, rfl, rfl⟩)

theorem fires_onFixtures (k : Fin 6) (set : BitVec 16) {f : Fin 16 → Bay → Bay} (h : ∀ i b, Fires k b (f i b)) (b : Bay) :
    Fires k b (onFixtures k set f b) :=
  (fires_ite (.refl k b) (fires_skip k b k)).trans (fires_eachOf h _ _)

theorem fires_fixtureStep (k : Fin 6) (b b' : Bay) (i : Fin 16) (f : FixtureLook → FixtureLook)
    (h : Fires k b b') : Fires k b (b'.updFixtureLook k i f) := h.trans (fires_updLook k b' _)

theorem duckExamine_parts (t : Tables) (b : Bay) : (duckExamine t b).claim = b.claim ∧ (duckExamine t b).scene = b.scene ∧
    (duckExamine t b).time = b.time ∧ (duckExamine t b).fixture = b.fixture ∧ (duckExamine t b).axis = b.axis ∧
    (duckExamine t b).trigger = b.trigger ∧ (duckExamine t b).notices = b.notices ∧ (duckExamine t b).latched = b.latched := by
  obtain ⟨z, h, _⟩ := duckExamine_eq t b
  rw [h]; exact ⟨rfl, rfl, rfl, rfl, rfl, rfl, rfl, rfl⟩

theorem fires_duckExamine (k : Fin 6) (t : Tables) (b : Bay) : Fires k b (duckExamine t b) := by
  obtain ⟨h1, h2, _⟩ := duckExamine_parts t b
  exact .of_rest (by rw [h1]) (by rw [h1]) (by rw [h2])

theorem fires_duckIf (k : Fin 6) (own : Bool) (t : Tables) (b : Bay) : Fires k b (duckIf own t b) :=
  fires_ite (fires_duckExamine k t b) (.refl k b)

theorem fires_allocate {k : Fin 6} {b b' : Bay} {v : Fin 6} (h : allocate b = some (v, b')) : Fires k b b' := by
  unfold allocate at h
  split at h
  · cases h; exact .refl k b
  · obtain ⟨w, _, hw⟩ := Option.map_eq_some_iff.mp h
    cases hw; exact .of_rest rfl rfl rfl

theorem fires_setUpVoice (v k : Fin 6) (clip : Fin 128) (z : Zone) (kind : LaneKind) (gain : Option (BitVec 16))
    (fadeIn : Nat) (loop : Bool) (t : Tables) (b : Bay) : Fires k b (setUpVoice v k clip z kind gain fadeIn loop t b) := by
  have h : Fires k b (replaceNarration k z t b) := by
    unfold replaceNarration; split <;> exact .of_rest rfl rfl rfl
  cases kind with
  | narration => exact h.trans (.of_rest rfl rfl rfl)
  | ambient => exact .of_rest rfl rfl rfl

theorem fires_playStep (k : Fin 6) (clip : Fin 128) (z : Zone) (kind : LaneKind) (gain : Option (BitVec 16)) (fadeIn : Nat)
    (loop : Bool) (t : Tables) (b : Bay) : Fires k b (playStep k clip z kind gain fadeIn loop t b) := by
  unfold playStep
  split
  · split
    · next h => exact (fires_allocate h).trans (fires_setUpVoice ..)
    · exact (fires_skip k b k).trans (.of_rest rfl rfl rfl)
  · exact fires_skip k b k

theorem fires_voiceFadeStep (k : Fin 6) (z : Zone) (kind : LaneKind) (gain fade : Nat) (stop : Bool) (t : Tables) (b : Bay) :
    Fires k b (voiceFadeStep k z kind gain fade stop t b) := by
  refine fires_eachOf (fun v b => ?_) _ b
  split
  · split <;> exact .of_rest rfl rfl rfl
  · exact .refl k b

theorem fires_moveStep (k : Fin 6) (a : Fin 4) (target : Int) (travel : Nat) (curve : Curve) (t : Tables) (b : Bay) :
    Fires k b (moveStep k a target travel curve t b) := by
  unfold moveStep
  dsimp only
  split
  · refine Fires.trans ?_ (fires_updLook k _ _)
    exact .of_rest rfl rfl rfl
  · exact fires_skip k b k

theorem fires_waitAxisStep (k : Fin 6) (axes : BitVec 4) (limit : Nat) (t : Tables) (b : Bay) :
    Fires k b (waitAxisStep k axes limit t b) :=
  (fires_ite (.refl k b) (fires_skip k b k)).trans
    (fires_ite (.refl k _) (fires_updRun k _ _ (fun _ => ⟨rfl, rfl, rfl, rfl, rfl, rfl, rfl, rfl, rfl, rfl⟩)))

theorem fires_notify (k : Fin 6) (b : Bay) (n : Notice) : Fires k b (b.notify n) :=
  fires_ite (.of_rest rfl rfl rfl) (.of_rest rfl rfl rfl)

theorem fires_colourStep (k : Fin 6) (x : Byte) (fade : Nat) (curve : Curve) (t : Tables) (i : Fin 16) (b : Bay) :
    Fires k b (colourStep k x fade curve t i b) := by
  refine fires_fixtureStep k b _ i _ ?_
  exact .of_rest rfl rfl rfl

theorem fires_colourDirectStep (k : Fin 6) (x : Colour) (fade : Nat) (curve : Curve) (t : Tables) (i : Fin 16) (b : Bay) :
    Fires k b (colourDirectStep k x fade curve t i b) := by
  refine fires_fixtureStep k b _ i _ ?_
  exact .of_rest rfl rfl rfl

theorem fires_intensityStep (k : Fin 6) (v : Byte) (i : Fin 16) (b : Bay) : Fires k b (intensityStep k v i b) := by
  refine fires_fixtureStep k b _ i _ ?_
  exact .of_rest rfl rfl rfl

theorem fires_highlightStep (k : Fin 6) (c : Fin 4) (i : Fin 16) (b : Bay) : Fires k b (highlightStep k c i b) := by
  refine fires_fixtureStep k b _ i _ ?_
  exact .of_rest rfl rfl rfl

/-- What firing a step leaves (R105). -/
theorem fires_fireStep (own : Bool) (k : Fin 6) (act : StepAct) (t : Tables) (b : Bay) : Fires k b (fireStep own k act t b) := by
  cases act with
  | colour set index fade curve => exact fires_onFixtures k set (fires_colourStep k index fade.val curve t) b
  | colourDirect set levels fade curve =>
    exact fires_onFixtures k set (fires_colourDirectStep k levels fade.val curve t) b
  | intensity set value => exact fires_onFixtures k set (fires_intensityStep k value) b
  | highlight set code => exact fires_onFixtures k set (fires_highlightStep k code) b
  | play clip zone kind gain fadeIn loop =>
    exact fires_ite (fires_skip k b k) ((fires_playStep ..).trans (fires_duckIf k own t _))
  | voiceFade zone kind gain fade stop =>
    exact fires_ite (fires_skip k b k) ((fires_voiceFadeStep ..).trans (fires_duckIf k own t _))
  | move axis target travel curve => exact fires_ite (fires_moveStep ..) (fires_skip k b k)
  | waitAxis axes limit => exact fires_waitAxisStep ..
  | signal code => exact fires_notify k b _
  | start slot => exact fires_ite (fires_skip k b k) (.of_rest rfl rfl rfl)

/-- A record with its next step counted one on. -/
theorem run_next (b : Bay) (k : Fin 6) : (b.updRun k (fun r => { r with next := r.next + 1 })).run k =
    { b.run k with next := (b.run k).next + 1 } := Bay.run_updRun_same _ _ _

/-- More fuel than the steps that are left changes nothing. -/
theorem examineSteps_fuel (own : Bool) (k : Fin 6) (t : Tables) (x : Snapshot) : ∀ (n : Nat) (b : Bay),
    (b.run k).snap = some x → x.stepCount ≤ (b.run k).next + n →
    examineSteps own k t (n + 1) b = examineSteps own k t n b
  | 0, b, hx, hn => by
    have : ¬ (b.run k).next < x.stepCount := by omega
    simp [examineSteps, hx, this]
  | n + 1, b, hx, hn => by
    rw [examineSteps, examineSteps]
    simp only [hx]
    split
    · split
      · have h := (fires_fireStep own k (t.step.get (Fin.ofNat 1024 (x.firstStep + (b.run k).next))).act t
          (b.updRun k (fun r => { r with next := r.next + 1 }))).own
        rw [run_next] at h
        refine examineSteps_fuel own k t x n _ (h.snap.trans hx) ?_
        rw [h.next]
        show x.stepCount ≤ (b.run k).next + 1 + n
        omega
      · rfl
    · rfl

/-- An examination with nothing to fire. -/
theorem examineSteps_none (own : Bool) (k : Fin 6) (t : Tables) (x : Snapshot) (n : Nat) (b : Bay)
    (hx : (b.run k).snap = some x)
    (h : (b.run k).canFire = true → (b.run k).next < x.stepCount →
      (b.run k).stepTime < (t.step.get (Fin.ofNat 1024 (x.firstStep + (b.run k).next))).offset.val) :
    examineSteps own k t n b = b := by
  cases n with
  | zero => rfl
  | succ n =>
    rw [examineSteps]
    simp only [hx]
    split
    · next hc =>
      rw [Bool.and_eq_true, decide_eq_true_eq] at hc
      have := h hc.1 hc.2
      rw [if_neg (by omega)]
    · rfl

/-- What the steps of an examination of record `k` leave, but for how far the record has come. -/
theorem examineSteps_run (own : Bool) (k : Fin 6) (t : Tables) : ∀ (n : Nat) (b : Bay),
    let u := examineSteps own k t n b
    u.claim.claim = b.claim.claim ∧ u.claim.queue = b.claim.queue ∧ (∀ j, j ≠ k → u.run j = b.run j) ∧
    (u.run k).state = (b.run k).state ∧ (u.run k).slot = (b.run k).slot ∧ (u.run k).origin = (b.run k).origin ∧
    (u.run k).clock = (b.run k).clock ∧ (u.run k).gateDelay = (b.run k).gateDelay ∧ (u.run k).snap = (b.run k).snap ∧
    (u.run k).held = (b.run k).held
  | 0, b => ⟨rfl, rfl, fun _ _ => rfl, rfl, rfl, rfl, rfl, rfl, rfl, rfl⟩
  | n + 1, b => by
    have hrefl : b.claim.claim = b.claim.claim ∧ b.claim.queue = b.claim.queue ∧ (∀ j, j ≠ k → b.run j = b.run j) ∧
      (b.run k).state = (b.run k).state ∧ (b.run k).slot = (b.run k).slot ∧ (b.run k).origin = (b.run k).origin ∧
      (b.run k).clock = (b.run k).clock ∧ (b.run k).gateDelay = (b.run k).gateDelay ∧ (b.run k).snap = (b.run k).snap ∧
      (b.run k).held = (b.run k).held := ⟨rfl, rfl, fun _ _ => rfl, rfl, rfl, rfl, rfl, rfl, rfl, rfl⟩
    intro u
    show _
    simp only [u, examineSteps]
    split
    · exact hrefl
    · next x hx =>
      split
      · split
        · have f := fires_fireStep own k (t.step.get (Fin.ofNat 1024 (x.firstStep + (b.run k).next))).act t
            (b.updRun k (fun r => { r with next := r.next + 1 }))
          have h := f.own
          rw [run_next] at h
          obtain ⟨c1, c2, c3, c4, c5, c6, c7, c8, c9, c10⟩ := examineSteps_run own k t n (fireStep own k
            (t.step.get (Fin.ofNat 1024 (x.firstStep + (b.run k).next))).act t (b.updRun k (fun r => { r with next := r.next + 1 })))
          exact ⟨c1.trans f.claim, c2.trans f.queue,
            fun j hj => (c3 j hj).trans ((f.other j hj).trans (b.run_updRun_of_ne _ hj.symm)),
            c4.trans h.state, c5.trans h.slot, c6.trans h.origin, c7.trans h.clock, c8.trans h.gateDelay, c9.trans h.snap,
            c10.trans h.held⟩
        · exact hrefl
      · exact hrefl

end Sys2Proof.Machine
end

