-- ==== Sys2Proof/Laws/Claims.lean ====
section
/-! SUPPORT. What the operations of the claim unit do to the claims, the queue, the runs and the fixtures and axes they hand over. -/

namespace Sys2Proof.Machine

/-! ### Deciding a request -/

theorem find_first {p : Fin 6 → Bool} (k : Fin 6) (h : p k = true) (h' : ∀ j, j < k →
    p j = false) : (List.finRange 6).find? p = some k := by
  have e : List.finRange 6 = [0,1,2,3,4,5] := by decide
  rw [e]
  fin_cases k <;> simp_all

theorem discards_iff (t : Tables) (b : Bay) (s : Fin 32) : discards t b s = true ↔
   (b.trigger.mode = .darkMode ∨ (t.scene.get s).enabled = false ∨ (t.scene.get s).stepCount = 0 ∨ (t.scene.get s).duration.val = 0) := by
  simp [discards, or_assoc]

theorem blocks_iff (b : Bay) (p : Nat) (r : Fin 22) : blocks b p r = true ↔ ∃ k, b.owner r = some k ∧
    (p ≤ runPriority b k ∨ (b.run k).guard ≠ 0) := by
  unfold blocks
  split
  · next h => simp [h]
  · next k h =>
    simp [h]

theorem queued_isSome_iff (b : Bay) (s : Fin 32) : (queued b s).isSome = true ↔ ∃ e ∈ b.claim.queue, e.slot = s := by
  simp [queued]

/-- An entry stands behind the entries of its priority or above, and before the others (R121). -/
theorem insertEntry_place (e : QueueEntry) : ∀ l : List QueueEntry, ∃ front back, l = front ++ back ∧
    (∀ x ∈ front, e.priority ≤ x.priority) ∧
    (∀ x, back.head? = some x → x.priority < e.priority) ∧ insertEntry e l = front ++ e :: back
  | [] => ⟨[], [], rfl, by simp, by simp, rfl⟩
  | x :: l => by
    unfold insertEntry
    split
    · next h => exact ⟨[], x :: l, rfl, by simp, by simp; exact h, rfl⟩
    · next h =>
      obtain ⟨f, k, h1, h2, h3, h4⟩ := insertEntry_place e l
      refine ⟨x :: f, k, by rw [h1]; rfl, ?_, h3, by rw [h4]; rfl⟩
      intro y hy
      rcases List.mem_cons.mp hy with rfl | hy
      · omega
      · exact h2 y hy

theorem withdraw_parts (s : Fin 32) (b : Bay) : (withdraw s b).claim.claim = b.claim.claim ∧
    (withdraw s b).scene = b.scene ∧ (withdraw s b).claim.queue = b.claim.queue.filter (fun e => e.slot ≠ s) := by
  have hf : (b.claim.queue.filter (fun e => e.slot != s)) = b.claim.queue.filter (fun e => e.slot ≠ s) := by
    congr 1; funext e; rw [Bool.eq_iff_iff]; simp
  unfold withdraw
  split
  · next e h =>
    have : ∃ tr, reportSecond e.origin false (unqueue s b) = { unqueue s b with trigger := tr } := by
      unfold reportSecond; split
      · exact ⟨_, rfl⟩
      all_goals exact ⟨_, rfl⟩
    obtain ⟨tr, ht⟩ := this
    rw [ht]
    exact ⟨rfl, rfl, hf⟩
  · next h =>
    refine ⟨rfl, rfl, ?_⟩
    rw [eq_comm, List.filter_eq_self]
    intro e he
    have : ∀ x ∈ b.claim.queue, ¬ x.slot = s := by
      simpa [queued] using h
    simpa using this e he

/-! ### Suspending and taking -/

theorem pauseVoices_parts (k : Fin 6) (b : Bay) : (pauseVoices k b).claim = b.claim ∧
    (pauseVoices k b).scene = b.scene := by
  refine ⟨?_, ?_⟩
  · exact each_same (g := fun b : Bay => b.claim) (fun v b => by split <;> rfl) b
  · exact each_same (g := fun b : Bay => b.scene) (fun v b => by split <;> rfl) b

theorem suspend_parts (k : Fin 6) (b : Bay) : (suspend k b).claim = b.claim ∧
    (∀ j, (suspend k b).run j = if k = j then { b.run k with state := .suspended } else b.run j) := by
  obtain ⟨h1, h2⟩ := pauseVoices_parts k (b.updRun k (fun r => { r with state := .suspended }))
  refine ⟨h1, ?_⟩
  intro j
  show (suspend k b).scene.run.get j = _
  unfold suspend
  rw [h2]
  exact Bay.run_updRun ..

theorem preempt_parts (r : Fin 22) (b : Bay) :
   (∀ r', (preempt r b).claim.claim.get r' = if r = r' then ⟨b.owner r, (match b.owner r with | some j => [j] | none => []) ++ (b.claim.claim.get r).stack⟩ else b.claim.claim.get r') ∧
   (preempt r b).claim.queue = b.claim.queue ∧
   (∀ j, ((preempt r b).run j).slot = (b.run j).slot ∧
       ((preempt r b).run j).state = if (b.run j).state = .running ∧ b.owner r = some j then .suspended
       else (b.run j).state) := by
  unfold preempt
  split
  · next h =>
    refine ⟨?_, rfl, fun j => ⟨rfl, by simp [h]⟩⟩
    intro r'; split
    · next e => subst e; rw [h]; have : (b.claim.claim.get r).owner = none := h; cases hc : b.claim.claim.get r; rw [hc] at this; cases this; rfl
    · rfl
  · next j h =>
    rw [h]
    have hc : ∀ r', (b.updClaim r (fun c => { c with stack := j :: c.stack })).claim.claim.get r' = if r = r' then ⟨some j, ([j] ++ (b.claim.claim.get r).stack)⟩ else b.claim.claim.get r' := by
      intro r'
      rw [show (b.updClaim r (fun c => { c with stack := j :: c.stack })).claim.claim.get r' = _ from Tab.get_upd _ _ _ _]
      split
      · have : (b.claim.claim.get r).owner = some j := h
        rw [← this]; rfl
      · rfl
    dsimp only
    split
    · next hs =>
      obtain ⟨s1, s2⟩ := suspend_parts j (b.updClaim r (fun c => { c with stack := j :: c.stack }))
      refine ⟨?_, by rw [s1]; rfl, ?_⟩
      · rw [s1]; exact hc
      · intro i; rw [s2 i]
        have hj : (b.run j).state = .running := hs
        by_cases e : j = i
        · subst e; rw [if_pos rfl, if_pos ⟨hj, rfl⟩]; exact ⟨rfl, rfl⟩
        · rw [if_neg e, if_neg (by simp [e])]; exact ⟨rfl, rfl⟩
    · next hs =>
      refine ⟨hc, rfl, ?_⟩
      intro i; refine ⟨rfl, ?_⟩
      by_cases e : j = i
      · subst e; have : ¬ (b.run j).state = .running := hs
        simp [this]; rfl
      · simp [e]; rfl

theorem eachOf_preempt_parts : ∀ (l : List (Fin 22)) (b : Bay), l.Nodup →
   (∀ r', (eachOf l preempt b).claim.claim.get r' = if r' ∈ l then ⟨b.owner r', (match b.owner r' with | some j => [j] | none => []) ++ (b.claim.claim.get r').stack⟩ else b.claim.claim.get r') ∧
   (eachOf l preempt b).claim.queue = b.claim.queue ∧
   (∀ j, ((eachOf l preempt b).run j).slot = (b.run j).slot ∧
       ((eachOf l preempt b).run j).state = if (b.run j).state = .running ∧
       ∃ r ∈ l, b.owner r = some j then .suspended else (b.run j).state)
  | [], b, _ => by refine ⟨fun _ => by simp, rfl, fun j => ⟨rfl, by simp⟩⟩
  | r :: l, b, hl => by
    obtain ⟨hr, hl⟩ := List.nodup_cons.mp hl
    obtain ⟨p1, p2, p3⟩ := preempt_parts r b
    obtain ⟨q1, q2, q3⟩ := eachOf_preempt_parts l (preempt r b) hl
    have ho : ∀ x, (preempt r b).owner x = b.owner x := by
      intro x; show ((preempt r b).claim.claim.get x).owner = _
      rw [p1]; split
      · next e => subst e; rfl
      · rfl
    refine ⟨?_, q2.trans p2, ?_⟩
    · intro r'
      rw [eachOf_cons, q1, ho, p1]
      by_cases e : r = r'
      · subst e; simp [hr]
      · simp only [if_neg e, List.mem_cons, show ¬ r' = r from fun h => e h.symm, false_or]
    · intro j
      refine ⟨(q3 j).1.trans (p3 j).1, ?_⟩
      rw [eachOf_cons, (q3 j).2, (p3 j).2]
      simp only [ho]
      by_cases h1 : (b.run j).state = .running
      · by_cases h2 : b.owner r = some j
        · simp [h1, h2]
        · simp [h1, h2]
      · simp [h1]

theorem take_parts (k : Fin 6) (t : Tables) (r : Fin 22) (b : Bay) :
   (∀ r', (take k t r b).claim.claim.get r' = if r = r' then { b.claim.claim.get r with owner := some k }
       else b.claim.claim.get r') ∧
   (take k t r b).claim.queue = b.claim.queue ∧ (take k t r b).scene = b.scene := by
  have h : ∃ f a, take k t r b = { b.updClaim r (fun c => { c with owner := some k }) with fixture := f, axis := a } := by
    unfold take
    dsimp only
    split
    · exact ⟨_, _, rfl⟩
    · exact ⟨_, _, rfl⟩
    · exact ⟨_, _, rfl⟩
  obtain ⟨f, a, h⟩ := h
  rw [h]
  exact ⟨fun r' => Tab.get_upd _ _ _ _, rfl, rfl⟩

theorem eachOf_take_parts (k : Fin 6) (t : Tables) : ∀ (l : List (Fin 22)) (b : Bay),
   (∀ r', (eachOf l (take k t) b).claim.claim.get r' = if r' ∈ l then { b.claim.claim.get r' with owner := some k } else b.claim.claim.get r') ∧
   (eachOf l (take k t) b).claim.queue = b.claim.queue ∧ (eachOf l (take k t) b).scene = b.scene
  | [], b => ⟨fun _ => by simp, rfl, rfl⟩
  | r :: l, b => by
    obtain ⟨p1, p2, p3⟩ := take_parts k t r b
    obtain ⟨q1, q2, q3⟩ := eachOf_take_parts k t l (take k t r b)
    refine ⟨?_, q2.trans p2, q3.trans p3⟩
    intro r'
    rw [eachOf_cons, q1, p1]
    by_cases e : r = r'
    · subst e; simp
    · simp only [if_neg e, List.mem_cons, show ¬ r' = r from fun h => e h.symm, false_or]

/-! ### Releasing -/

theorem holdPosition_congr (t : Tables) {b b' : Bay} (time : b'.time = b.time) (scene : b'.scene = b.scene)
    (src : Option TimeSource) (l : Lane) : holdPosition t b' src l = holdPosition t b src l := by
  cases b; cases b'; cases time; cases scene; rfl

theorem releaseFixture_fixtureRec (t : Tables) (fade : Nat) (i j : Fin 16)
    (b : Bay) : (releaseFixture fade t i b).fixtureRec j = if i = j then { b.fixtureRec i with
        scene := (b.fixtureRec i).scene.mapC (fun c l => retarget t b c .house fade .linear .node l)
        intensity := 255, highlight := 0 } else b.fixtureRec j := by
  unfold releaseFixture plainLook retargetScene Bay.updFixture Bay.fixtureRec
  simp only [Tab.get_upd]
  split
  · next e => subst e; simp
  · rfl

/-- Fixtures released with a fade: each gets house light and a plain look, and nothing else changes. -/
theorem eachOf_releaseFixture_parts (t : Tables) (fade : Nat) (l : List (Fin 16)) (b : Bay) (hl : l.Nodup) :
   let u := eachOf l (releaseFixture fade t) b
   u.time = b.time ∧ u.scene = b.scene ∧ u.claim = b.claim ∧ u.trigger = b.trigger ∧ u.voice = b.voice ∧
       u.axis = b.axis ∧ ∀ i, u.fixtureRec i = if i ∈ l then { b.fixtureRec i with
        scene := (b.fixtureRec i).scene.mapC (fun c l => retarget t b c .house fade .linear .node l)
        intensity := 255, highlight := 0 } else b.fixtureRec i := by
  intro u
  refine ⟨?_, ?_, ?_, ?_, ?_, ?_, ?_⟩
  · exact eachOf_same (f := releaseFixture fade t) (g := fun b : Bay => b.time) (fun v b => rfl) l b
  · exact eachOf_same (f := releaseFixture fade t) (g := fun b : Bay => b.scene) (fun v b => rfl) l b
  · exact eachOf_same (f := releaseFixture fade t) (g := fun b : Bay => b.claim) (fun v b => rfl) l b
  · exact eachOf_same (f := releaseFixture fade t) (g := fun b : Bay => b.trigger) (fun v b => rfl) l b
  · exact eachOf_same (f := releaseFixture fade t) (g := fun b : Bay => b.voice) (fun v b => rfl) l b
  · exact eachOf_same (f := releaseFixture fade t) (g := fun b : Bay => b.axis) (fun v b => rfl) l b
  · intro i
    refine eachOf_at (f := releaseFixture fade t) (g := fun b : Bay => b.fixtureRec i)
        (fun x : Bay => x.time = b.time ∧ x.scene = b.scene) i (fun x => { x with
        scene := x.scene.mapC (fun c l => retarget t b c .house fade .linear .node l)
        intensity := 255, highlight := 0 }) (fun _ _ h => h) ?_ ?_ l b hl ⟨rfl, rfl⟩
    · intro j c hj h; rw [releaseFixture_fixtureRec, if_neg hj]
    · intro c h; simp only [releaseFixture_fixtureRec, if_true, retarget_congr t h.1 h.2]

theorem endAxis_axisRec (t : Tables) (i j : Fin 4)
    (b : Bay) : (endAxis t i b).axisRec j = if i = j then { b.axisRec i with
        move := holdPosition t b (some .node) (b.axisRec i).move } else b.axisRec j := Tab.get_upd _ _ _ _

theorem eachOf_endAxis_parts (t : Tables) (l : List (Fin 4)) (b : Bay) (hl : l.Nodup) :
   let u := eachOf l (endAxis t) b
   u.time = b.time ∧ u.scene = b.scene ∧ u.claim = b.claim ∧ u.trigger = b.trigger ∧ u.voice = b.voice ∧
       u.fixture = b.fixture ∧ ∀ i, u.axisRec i = if i ∈ l then { b.axisRec i with
        move := holdPosition t b (some .node) (b.axisRec i).move } else b.axisRec i := by
  intro u
  refine ⟨?_, ?_, ?_, ?_, ?_, ?_, ?_⟩
  · exact eachOf_same (f := endAxis t) (g := fun b : Bay => b.time) (fun v b => rfl) l b
  · exact eachOf_same (f := endAxis t) (g := fun b : Bay => b.scene) (fun v b => rfl) l b
  · exact eachOf_same (f := endAxis t) (g := fun b : Bay => b.claim) (fun v b => rfl) l b
  · exact eachOf_same (f := endAxis t) (g := fun b : Bay => b.trigger) (fun v b => rfl) l b
  · exact eachOf_same (f := endAxis t) (g := fun b : Bay => b.voice) (fun v b => rfl) l b
  · exact eachOf_same (f := endAxis t) (g := fun b : Bay => b.fixture) (fun v b => rfl) l b
  · intro i
    refine eachOf_at (f := endAxis t) (g := fun b : Bay => b.axisRec i) (fun x : Bay => x.time = b.time ∧
        x.scene = b.scene) i (fun x => { x with
        move := holdPosition t b (some .node) x.move }) (fun _ _ h => h) ?_ ?_ l b hl ⟨rfl, rfl⟩
    · intro j c hj h; rw [endAxis_axisRec, if_neg hj]
    · intro c h; simp only [endAxis_axisRec, if_true, holdPosition_congr t h.1 h.2]

theorem endVoices_parts (k : Fin 6) (fade : Nat) (t : Tables)
    (b : Bay) : ∃ v, endVoices k fade t b = { b with voice := v } := by
  have : ∀ (p : VoiceState → Bool) (f : Fin 6 → Bay → Bay) (_ : ∀ w c, ∃ v, f w c = { c with voice := v })
      (b : Bay), ∃ v, eachOwnedVoice k p f b = { b with voice := v } := by
    intro p f hf b
    refine each_keeps (P := fun c => ∃ v, c = { b with voice := v }) ?_ b ⟨_, rfl⟩
    rintro i c ⟨v, rfl⟩
    split
    · obtain ⟨w, hw⟩ := hf i { b with voice := v }
      exact ⟨w, hw⟩
    · exact ⟨v, rfl⟩
  obtain ⟨v, hv⟩ := this VoiceState.active (voiceStop 0 fade t) (fun _ _ => ⟨_, rfl⟩) b
  obtain ⟨w, hw⟩ := this (· = .paused) voiceIdle (fun _ _ => ⟨_, rfl⟩) { b with voice := v }
  refine ⟨w, ?_⟩
  unfold endVoices
  rw [hv]; exact hw

/-- Resources that nobody waits to get back become free (R125). -/
theorem eachOf_handBack_parts (t : Tables) : ∀ (l : List (Fin 22))
    (b : Bay), (∀ r ∈ l, (b.claim.claim.get r).stack = []) →
   ∃ c, eachOf l (handBack t) b = { b with claim := { b.claim with claim := c } } ∧
       ∀ r, c.get r = if r ∈ l then ⟨none, []⟩ else b.claim.claim.get r
  | [], b, _ => ⟨_, rfl, fun _ => by simp⟩
  | r :: l, b, h => by
    have h0 := h r (by simp)
    have hb : handBack t r b = b.updClaim r (fun c => { c with owner := none }) := by
      unfold handBack; rw [h0]
    have hg : ∀ x, (b.updClaim r (fun c => { c with owner := none })).claim.claim.get x = if r = x then ⟨none, []⟩ else b.claim.claim.get x := by
      intro x
      rw [show (b.updClaim r (fun c => { c with owner := none })).claim.claim.get x = _ from Tab.get_upd _ _ _ _, h0]
    obtain ⟨c, h1, h2⟩ := eachOf_handBack_parts t l (b.updClaim r (fun c => { c with owner := none })) (by
      intro x hx; rw [hg]; split
      · rfl
      · exact h x (by simp [hx]))
    refine ⟨c, ?_, ?_⟩
    · rw [eachOf_cons, hb, h1]; rfl
    · intro x
      rw [h2, hg]
      by_cases e : r = x
      · subst e; simp
      · have e' : ¬ x = r := fun h => e h.symm
        simp only [if_neg e, List.mem_cons, e', false_or]

theorem leaveStacks_parts (k : Fin 6) (b : Bay) : ∃ c, leaveStacks k b = { b with claim := { b.claim with claim := c } } ∧ ∀ r, c.get r = ⟨b.owner r, (b.claim.claim.get r).stack.filter (· ≠ k)⟩ := by
  unfold leaveStacks
  generalize hn : (fun (r : Fin 22) (b : Bay) => b.updClaim r (fun c => { c with stack := c.stack.filter (· != k) })) = f
  have h1 : ∃ c, each 22 f b = { b with claim := { b.claim with claim := c } } := by
    refine each_keeps (P := fun x => ∃ c, x = { b with claim := { b.claim with claim := c } }) ?_ b ⟨_, rfl⟩
    subst hn
    rintro i x ⟨c, rfl⟩; exact ⟨_, rfl⟩
  have h2 : ∀ r, (each 22 f b).claim.claim.get r = ⟨b.owner r, (b.claim.claim.get r).stack.filter (· ≠ k)⟩ := by
    intro r
    have := each_at (g := fun b : Bay => b.claim.claim.get r) (n := 22) (f := f)
        (fun _ => True) r (fun c => { c with stack := c.stack.filter (· != k) }) (fun _ _ _ => trivial)
      (fun j c hj _ => by subst hn; exact Tab.get_upd_of_ne _ _ hj)
          (fun c _ => by subst hn; exact Tab.get_upd_same _ _ _) b trivial
    rw [this]
    show (⟨_, _⟩ : Claim) = ⟨_, _⟩
    congr 1
    congr 1; funext x; rw [Bool.eq_iff_iff]; simp
  generalize each 22 f b = y at *
  obtain ⟨c, rfl⟩ := h1
  exact ⟨c, rfl, h2⟩

end Sys2Proof.Machine
end

