-- ==== Sys2Proof/Laws/Codec.lean ====
section
/-! SUPPORT. The codecs read back what they carry, and what they read is in range. -/

namespace Sys2Proof.Machine

/-- A codec carries values in its width, and reads back those that satisfy `P`, whatever follows them. -/
structure Codec.Lawful {α : Type} (c : Codec α) (P : α → Prop) : Prop where
  len : ∀ x, (c.enc x).length = c.size
  rt : ∀ x rest, P x → c.dec (c.enc x ++ rest) = some (x, rest)

/-- Everything a codec reads satisfies `P`. -/
def Codec.Reads {α : Type} (c : Codec α) (P : α → Prop) : Prop := ∀ l x rest, c.dec l = some (x, rest) → P x

/-! ### Numbers -/

theorem length_bytesOf : ∀ (n x : Nat), (bytesOf n x).length = n
  | 0, _ => rfl
  | n + 1, x => by simp [bytesOf, length_bytesOf n (x / 256)]

theorem numberOf_append (l : List Byte) (b : Byte) : numberOf (l ++ [b]) = numberOf l * 256 + b.toNat := by
  simp [numberOf]

theorem numberOf_bytesOf : ∀ (n x : Nat), x < 256 ^ n → numberOf (bytesOf n x) = x
  | 0, x, h => by simp at h; simp [bytesOf, numberOf, h]
  | n + 1, x, h => by
    have h' : x / 256 < 256 ^ n := by
      rw [Nat.div_lt_iff_lt_mul (by norm_num)]
      simpa [pow_succ] using h
    rw [bytesOf, numberOf_append, numberOf_bytesOf n _ h']
    simp only [BitVec.toNat_ofNat]
    omega

theorem splitBytes_append (n : Nat) (l rest : List Byte) (h : l.length = n) :
    splitBytes n (l ++ rest) = some (l, rest) := by
  subst h
  simp [splitBytes]

theorem Codec.number_lawful (n : Nat) : (Codec.number n).Lawful (fun x => x < 256 ^ n) where
  len x := length_bytesOf n x
  rt x rest h := by
    simp [Codec.number, splitBytes_append n _ rest (length_bytesOf n x), numberOf_bytesOf n x h]

/-! ### Composition -/

theorem Codec.via_lawful {α β : Type} {c : Codec α} {P : α → Prop} (hc : c.Lawful P) {of : β → α} {mk : α → Option β}
    {Q : β → Prop} (h : ∀ x, Q x → P (of x) ∧ mk (of x) = some x) : (c.via of mk).Lawful Q where
  len x := hc.len (of x)
  rt x rest hx := by simp [Codec.via, hc.rt _ rest (h x hx).1, (h x hx).2]

theorem Codec.pair_lawful {α β : Type} {c : Codec α} {d : Codec β} {P : α → Prop} {Q : β → Prop} (hc : c.Lawful P)
    (hd : d.Lawful Q) : (c.pair d).Lawful (fun x => P x.1 ∧ Q x.2) where
  len x := by simp [Codec.pair, hc.len, hd.len]
  rt x rest h := by simp [Codec.pair, hc.rt _ _ h.1, hd.rt _ _ h.2]

theorem Codec.opt_lawful {α : Type} {c : Codec α} {P : α → Prop} (hc : c.Lawful P) :
    c.opt.Lawful (fun x => ∀ v, x = some v → P v) where
  len x := by cases x <;> simp [Codec.opt, zeros, hc.len, Nat.add_comm]
  rt x rest h := by
    cases x with
    | none => simp [Codec.opt, splitBytes_append c.size (zeros c.size) rest (by simp [zeros])]
    | some v => simp [Codec.opt, hc.rt _ rest (h v rfl)]

theorem decEntries_append {α : Type} {c : Codec α} {P : α → Prop} (hc : c.Lawful P) : ∀ (n : Nat) (t : Tab α n)
    (rest : List Byte), (∀ x ∈ t.list, P x) → decEntries c n (t.list.flatMap c.enc ++ rest) = some (t, rest)
  | 0, ⟨[], _⟩, rest, _ => rfl
  | 0, ⟨x :: l, h⟩, _, _ => by simp at h
  | n + 1, ⟨[], h⟩, _, _ => by simp at h
  | n + 1, ⟨x :: l, h⟩, rest, hp => by
    have hl : l.length = n := by simpa using h
    have ih := decEntries_append hc n ⟨l, hl⟩ rest (fun y hy => hp y (List.mem_cons_of_mem _ hy))
    have hx := hc.rt x (l.flatMap c.enc ++ rest) (hp x List.mem_cons_self)
    simp only [List.flatMap_cons, List.append_assoc, decEntries, hx, Option.bind_some]
    simp [ih]

theorem length_flatMap_enc {α : Type} {c : Codec α} {P : α → Prop} (hc : c.Lawful P) : ∀ (l : List α),
    (l.flatMap c.enc).length = l.length * c.size
  | [] => by simp
  | x :: l => by
    rw [List.flatMap_cons, List.length_append, hc.len, length_flatMap_enc hc l, List.length_cons, Nat.succ_mul, Nat.add_comm]

theorem Codec.tab_lawful {α : Type} {c : Codec α} {P : α → Prop} (hc : c.Lawful P) (n : Nat) :
    (Codec.tab n c).Lawful (fun t => ∀ x ∈ t.list, P x) where
  len t := by simp [Codec.tab, length_flatMap_enc hc, t.len]
  rt t rest h := decEntries_append hc n t rest h

/-! ### Fields -/

theorem Codec.fin_lawful {w n : Nat} (h : n ≤ 256 ^ w) : (Codec.fin w n).Lawful (fun _ => True) :=
  Codec.via_lawful (Codec.number_lawful w) (fun x _ => ⟨by have := x.isLt; omega, by simp [toFin]⟩)

theorem Codec.bits_lawful {w n : Nat} (h : 2 ^ n ≤ 256 ^ w) : (Codec.bits w n).Lawful (fun _ => True) :=
  Codec.via_lawful (Codec.number_lawful w) (fun x _ => ⟨by have := x.isLt; omega, by simp [toBits, x.isLt]⟩)

theorem Codec.bool_lawful : Codec.bool.Lawful (fun _ => True) :=
  Codec.via_lawful (Codec.number_lawful 1) (fun x _ => by cases x <;> simp)

theorem Codec.word_lawful {α : Type} [DecidableEq α] (values : List α) (h : values.length ≤ 256) :
    (Codec.word values).Lawful (fun x => x ∈ values) :=
  Codec.via_lawful (Codec.number_lawful 1) (fun x hx => by
    have h1 := List.idxOf_lt_length_of_mem hx
    exact ⟨by omega, by simp [List.getElem?_eq_getElem h1]⟩)

/-- A codec whose values are all in range. -/
abbrev Codec.Total {α : Type} (c : Codec α) : Prop := c.Lawful (fun _ => True)

/-- A law under a weaker condition. -/
theorem Codec.Lawful.mono {α : Type} {c : Codec α} {P Q : α → Prop} (h : c.Lawful P) (hpq : ∀ x, Q x → P x) :
    c.Lawful Q := ⟨h.len, fun x rest hx => h.rt x rest (hpq x hx)⟩

theorem Codec.pair_total {α β : Type} {c : Codec α} {d : Codec β} (hc : c.Total) (hd : d.Total) : (c.pair d).Total :=
  (Codec.pair_lawful hc hd).mono (fun _ _ => ⟨trivial, trivial⟩)

theorem Codec.opt_total {α : Type} {c : Codec α} (hc : c.Total) : c.opt.Total :=
  (Codec.opt_lawful hc).mono (fun _ _ _ _ => trivial)

theorem Codec.via_total {α β : Type} {c : Codec α} (hc : c.Total) {of : β → α} {mk : α → Option β}
    (h : ∀ x, mk (of x) = some x) : (c.via of mk).Total := Codec.via_lawful hc (fun x _ => ⟨trivial, h x⟩)

theorem curveC_total : curveC.Total := (Codec.word_lawful _ (by decide)).mono (fun x _ => by cases x <;> decide)
theorem zoneIdC_total : zoneIdC.Total := (Codec.word_lawful _ (by decide)).mono (fun x _ => by cases x <;> decide)
theorem laneKindC_total : laneKindC.Total := (Codec.word_lawful _ (by decide)).mono (fun x _ => by cases x <;> decide)
theorem modeC_total : modeC.Total := (Codec.word_lawful _ (by decide)).mono (fun x _ => by cases x <;> decide)
theorem edgeC_total : edgeC.Total := (Codec.word_lawful _ (by decide)).mono (fun x _ => by cases x <;> decide)
theorem noticeKindC_total : noticeKindC.Total := (Codec.word_lawful _ (by decide)).mono (fun x _ => by cases x <;> decide)

theorem byteC_total : (Codec.bits 1 8).Total := Codec.bits_lawful (by norm_num)
theorem word16C_total : (Codec.bits 2 16).Total := Codec.bits_lawful (by norm_num)
theorem word24C_total : (Codec.bits 3 24).Total := Codec.bits_lawful (by norm_num)
theorem set4C_total : (Codec.bits 1 4).Total := Codec.bits_lawful (by norm_num)
theorem fadeC_total : fadeC.Total := Codec.fin_lawful (by norm_num)

theorem colourC_total : colourC.Total :=
  Codec.via_total (Codec.pair_total (Codec.pair_total byteC_total byteC_total) (Codec.pair_total byteC_total byteC_total))
    (fun _ => rfl)

theorem claimSetC_total : claimSetC.Total :=
  Codec.via_total (Codec.pair_total word16C_total (Codec.pair_total (Codec.bits_lawful (by norm_num)) set4C_total))
    (fun _ => rfl)

/-! ### Entries -/

theorem configC_total : configC.Total :=
  Codec.via_total (Codec.pair_total (Codec.fin_lawful (by norm_num)) (Codec.pair_total (Codec.fin_lawful (by norm_num))
    modeC_total)) (fun _ => rfl)

theorem protectC_total : protectC.Total :=
  Codec.via_total (Codec.pair_total (Codec.pair_total edgeC_total (Codec.fin_lawful (by norm_num)))
    (Codec.pair_total (Codec.pair_total edgeC_total byteC_total) (Codec.pair_total Codec.bool_lawful
      ((Codec.word_lawful _ (by decide)).mono (fun x _ => by cases x <;> decide))))) (fun _ => rfl)

theorem bankC_total : bankC.Total := Codec.via_total (Codec.pair_total byteC_total byteC_total) (fun _ => rfl)

theorem fixtureC_total : fixtureC.Total :=
  Codec.via_total (Codec.pair_total ((Codec.word_lawful _ (by decide)).mono (fun x _ => by cases x <;> decide))
    ((Codec.word_lawful _ (by decide)).mono (fun x _ => by cases x <;> decide))) (fun _ => rfl)

theorem patchC_total : patchC.Total :=
  Codec.opt_total (Codec.via_total (Codec.pair_total (Codec.fin_lawful (by norm_num)) (Codec.fin_lawful (by norm_num)))
    (fun _ => rfl))

theorem clipC_lawful : clipC.Lawful (fun c => c.fits = true) :=
  Codec.via_lawful (Codec.pair_total (Codec.pair_total Codec.bool_lawful word16C_total)
    (Codec.pair_total word24C_total word16C_total)) (fun x hx => ⟨trivial, by simp [hx]⟩)

theorem zoneC_total : zoneC.Total :=
  Codec.via_total (Codec.pair_total (Codec.fin_lawful (by norm_num)) (Codec.pair_total word16C_total
    (Codec.fin_lawful (by norm_num)))) (fun _ => rfl)

theorem axisC_lawful : axisC.Lawful (fun c => c.fits = true) :=
  Codec.via_lawful (Codec.pair_total
    (Codec.pair_total (Codec.pair_total word24C_total word24C_total)
      (Codec.pair_total (Codec.fin_lawful (by norm_num)) (Codec.fin_lawful (by norm_num))))
    (Codec.pair_total (Codec.pair_total ((Codec.word_lawful _ (by decide)).mono (fun x _ => by cases x <;> decide))
        word16C_total)
      (Codec.pair_total (Codec.pair_total ((Codec.word_lawful _ (by decide)).mono (fun x _ => by cases x <;> decide))
        (Codec.fin_lawful (by norm_num))) (Codec.pair_total word24C_total Codec.bool_lawful))))
    (fun x hx => ⟨trivial, by simp [hx]⟩)

theorem proxC_total : proxC.Total :=
  Codec.via_total (Codec.pair_total set4C_total (Codec.fin_lawful (by norm_num))) (fun _ => rfl)

theorem sceneC_lawful : sceneC.Lawful (fun h => h.fits = true) :=
  Codec.via_lawful (Codec.pair_total
    (Codec.pair_total
      (Codec.pair_total (Codec.pair_total Codec.bool_lawful (Codec.fin_lawful (by norm_num)))
        (Codec.pair_total (Codec.fin_lawful (by norm_num)) byteC_total))
      (Codec.pair_total (Codec.fin_lawful (by norm_num)) claimSetC_total))
    (Codec.pair_total
      (Codec.pair_total
        (Codec.pair_total ((Codec.word_lawful _ (by decide)).mono (fun x _ => by cases x <;> decide))
          ((Codec.word_lawful _ (by decide)).mono (fun x _ => by cases x <;> decide)))
        (Codec.pair_total (Codec.fin_lawful (by norm_num)) (Codec.fin_lawful (by norm_num))))
      (Codec.pair_total (Codec.fin_lawful (by norm_num)) (Codec.pair_total (Codec.fin_lawful (by norm_num))
        (Codec.fin_lawful (by norm_num))))))
    (fun x hx => ⟨trivial, by simp [hx]⟩)

theorem triggerC_total : triggerC.Total :=
  Codec.via_total (Codec.pair_total (Codec.pair_total Codec.bool_lawful (Codec.opt_total (Codec.fin_lawful (by norm_num))))
    (Codec.pair_total ((Codec.word_lawful _ (by decide)).mono (fun x _ => by cases x <;> decide))
      (Codec.pair_total (Codec.fin_lawful (by norm_num)) Codec.bool_lawful))) (fun _ => rfl)

theorem remoteC_lawful : remoteC.Lawful (fun e => e.all Remote.fits = true) :=
  (Codec.opt_lawful (Codec.via_lawful (Q := fun r : Remote => r.fits = true)
    (Codec.pair_total (Codec.pair_total (Codec.fin_lawful (by norm_num)) noticeKindC_total)
      (Codec.pair_total byteC_total (Codec.fin_lawful (by norm_num))))
    (fun x hx => ⟨trivial, by simp [hx]⟩))).mono (fun e he v hv => by subst hv; simpa using he)

theorem cueC_lawful : cueC.Lawful (fun e => e.all CueMap.fits = true) :=
  (Codec.opt_lawful (Codec.via_lawful (Q := fun c : CueMap => c.fits = true)
    (Codec.pair_total word16C_total (Codec.fin_lawful (by norm_num)))
    (fun x hx => ⟨trivial, by
      have : ¬ x.cue = 0 := by simpa [CueMap.fits] using hx
      rw [if_neg this]⟩))).mono (fun e he v hv => by subst hv; simpa using he)

/-! ### Steps -/

theorem stepColourC_total : stepColourC.Total :=
  Codec.pair_total word16C_total (Codec.pair_total byteC_total (Codec.pair_total fadeC_total curveC_total))

theorem stepDirectC_total : stepDirectC.Total :=
  Codec.pair_total word16C_total (Codec.pair_total colourC_total (Codec.pair_total fadeC_total curveC_total))

theorem stepIntensityC_total : stepIntensityC.Total := Codec.pair_total word16C_total byteC_total

theorem stepHighlightC_total : stepHighlightC.Total := Codec.pair_total word16C_total (Codec.fin_lawful (by norm_num))

theorem stepPlayC_total : stepPlayC.Total :=
  Codec.pair_total (Codec.pair_total (Codec.fin_lawful (by norm_num)) (Codec.pair_total zoneIdC_total laneKindC_total))
    (Codec.pair_total (Codec.opt_total word16C_total) (Codec.pair_total fadeC_total Codec.bool_lawful))

theorem stepVoiceFadeC_total : stepVoiceFadeC.Total :=
  Codec.pair_total (Codec.pair_total zoneIdC_total laneKindC_total)
    (Codec.pair_total word16C_total (Codec.pair_total fadeC_total Codec.bool_lawful))

theorem stepMoveC_total : stepMoveC.Total :=
  Codec.pair_total (Codec.pair_total (Codec.fin_lawful (by norm_num)) word24C_total)
    (Codec.pair_total fadeC_total curveC_total)

theorem stepWaitC_total : stepWaitC.Total := Codec.pair_total set4C_total fadeC_total

theorem slotC_total : (Codec.fin 1 32).Total := Codec.fin_lawful (by norm_num)

theorem length_fields (x : StepAct) : x.fields.length ≤ stepActSize := by
  cases x <;>
    simp only [StepAct.fields, List.length_cons, stepColourC_total.len, stepDirectC_total.len, stepIntensityC_total.len,
      stepHighlightC_total.len, stepPlayC_total.len, stepVoiceFadeC_total.len, stepMoveC_total.len, stepWaitC_total.len,
      byteC_total.len, slotC_total.len] <;> decide

theorem stepActC_total : stepActC.Total where
  len x := by
    have := length_fields x
    simp [stepActC, zeros]; omega
  rt x rest _ := by
    have hlen : (x.fields ++ zeros (stepActSize - x.fields.length)).length = stepActSize := by
      have := length_fields x
      simp [zeros]; omega
    simp only [stepActC, splitBytes_append stepActSize _ rest hlen, Option.bind_some]
    cases x <;>
      simp [StepAct.fields, stepActOf, stepColourC_total.rt, stepDirectC_total.rt, stepIntensityC_total.rt,
        stepHighlightC_total.rt, stepPlayC_total.rt, stepVoiceFadeC_total.rt, stepMoveC_total.rt, stepWaitC_total.rt,
        byteC_total.rt, slotC_total.rt]

theorem stepC_total : stepC.Total :=
  Codec.via_total (Codec.pair_total (Codec.fin_lawful (by norm_num)) stepActC_total) (fun _ => rfl)

/-! ### What is read is in range -/

theorem Codec.via_reads {α β : Type} (c : Codec α) {of : β → α} {mk : α → Option β} {Q : β → Prop}
    (h : ∀ a x, mk a = some x → Q x) : (c.via of mk).Reads Q := by
  intro l x rest hd
  simp only [Codec.via, Option.bind_eq_some_iff, Option.map_eq_some_iff] at hd
  obtain ⟨p, _, y, hy, he⟩ := hd
  cases he
  exact h _ _ hy

theorem Codec.opt_reads {α : Type} {c : Codec α} {p : α → Bool} (h : c.Reads (fun x => p x = true)) :
    c.opt.Reads (fun e => e.all p = true) := by
  intro l x rest hd
  cases l with
  | nil => simp [Codec.opt] at hd
  | cons b l =>
    by_cases h0 : b = 0
    · subst h0
      simp only [Codec.opt, if_true, Option.map_eq_some_iff] at hd
      obtain ⟨q, _, he⟩ := hd
      cases he; rfl
    · by_cases h1 : b = 1
      · subst h1
        simp only [Codec.opt, h0, if_false, if_true, Option.map_eq_some_iff] at hd
        obtain ⟨q, hq, he⟩ := hd
        cases he
        simpa using h _ _ _ hq
      · simp only [Codec.opt, h0, h1, if_false] at hd
        cases hd

theorem decEntries_reads {α : Type} {c : Codec α} {p : α → Bool} (h : c.Reads (fun x => p x = true)) : ∀ (n : Nat)
    (l : List Byte) (t : Tab α n) (rest : List Byte), decEntries c n l = some (t, rest) → t.list.all p = true
  | 0, l, t, rest, hd => by cases hd; rfl
  | n + 1, l, t, rest, hd => by
    simp only [decEntries, Option.bind_eq_some_iff, Option.map_eq_some_iff] at hd
    obtain ⟨q, hq, r, hr, he⟩ := hd
    cases he
    have h1 := h _ _ _ hq
    have h2 := decEntries_reads h n _ _ _ hr
    simp only [List.all_cons, Bool.and_eq_true]
    exact ⟨h1, h2⟩

theorem wholeEntries_reads {α : Type} {c : Codec α} {p : α → Bool} (h : c.Reads (fun x => p x = true)) : ∀ (n : Nat)
    (l : List Byte) (e : List α), wholeEntries c n l = some e → e.all p = true
  | 0, l, e, hd => by
    by_cases hl : l = []
    · simp only [wholeEntries, hl, if_true, Option.some.injEq] at hd
      subst hd; rfl
    · simp [wholeEntries, hl] at hd
  | n + 1, l, e, hd => by
    by_cases hl : l = []
    · simp only [wholeEntries, hl, if_true, Option.some.injEq] at hd
      subst hd; rfl
    · simp only [wholeEntries, hl, if_false, Option.bind_eq_some_iff, Option.map_eq_some_iff] at hd
      obtain ⟨q, hq, r, hr, he⟩ := hd
      cases he
      simp only [List.all_cons, Bool.and_eq_true]
      exact ⟨h _ _ _ hq, wholeEntries_reads h n _ _ hr⟩

/-- The entries of an accepted write are in range. -/
theorem writeParams_reads {α : Type} {c : Codec α} {p : α → Bool} (h : c.Reads (fun x => p x = true)) (id : TableId)
    (l : List Byte) (i : Nat) (e : List α) (hw : writeParams c id l = some (i, e)) : e.all p = true := by
  unfold writeParams at hw
  by_cases h3 : l.length < 3
  · simp [h3] at hw
  · simp only [h3, if_false] at hw
    cases hq : wholeEntries c (l.drop 3).length (l.drop 3) with
    | none => simp only [hq] at hw; cases hw
    | some es =>
      simp only [hq] at hw
      split at hw
      · cases hw; exact wholeEntries_reads h _ _ _ hq
      · cases hw

theorem clipC_reads : clipC.Reads (fun x => x.fits = true) :=
  Codec.via_reads _ (fun a x h => by
    dsimp only at h
    split at h
    · cases h; assumption
    · cases h)

theorem axisC_reads : axisC.Reads (fun x => x.fits = true) :=
  Codec.via_reads _ (fun a x h => by
    dsimp only at h
    split at h
    · cases h; assumption
    · cases h)

theorem sceneC_reads : sceneC.Reads (fun x => x.fits = true) :=
  Codec.via_reads _ (fun a x h => by
    dsimp only at h
    split at h
    · cases h; assumption
    · cases h)

theorem remoteC_reads : remoteC.Reads (fun e => e.all Remote.fits = true) :=
  Codec.opt_reads (Codec.via_reads _ (fun a x h => by
    dsimp only at h
    split at h
    · cases h; assumption
    · cases h))

theorem cueC_reads : cueC.Reads (fun e => e.all CueMap.fits = true) :=
  Codec.opt_reads (Codec.via_reads _ (fun a x h => by
    split at h
    · cases h
    · cases h; simp [CueMap.fits]; assumption))

/-! ### The image (R186) -/

theorem all_mem {α : Type} {p : α → Bool} {l : List α} (h : l.all p = true) : ∀ x ∈ l, p x = true :=
  fun x hx => List.all_eq_true.mp h x hx

/-- The tables that a body of the image holds are those it was made of (R186). -/
theorem tablesOf_body (t : Tables) (h : t.fits = true) (rest : List Byte) : tablesOf (t.body ++ rest) = some (t, rest) := by
  simp only [Tables.fits, Bool.and_eq_true] at h
  obtain ⟨⟨⟨⟨h1, h2⟩, h3⟩, h4⟩, h5⟩ := h
  unfold tablesOf Tables.body
  simp only [List.append_assoc]
  simp only [configC_total.rt _ _ trivial, protectC_total.rt _ _ trivial, bankC_total.rt _ _ trivial, colourC_total.rt _ _ trivial,
    (Codec.tab_lawful colourC_total _).rt _ _ (fun _ _ => trivial), (Codec.tab_lawful zoneC_total _).rt _ _ (fun _ _ => trivial),
    (Codec.tab_lawful fixtureC_total _).rt _ _ (fun _ _ => trivial), (Codec.tab_lawful proxC_total _).rt _ _ (fun _ _ => trivial),
    (Codec.tab_lawful axisC_lawful _).rt _ _ (all_mem h1), (Codec.tab_lawful triggerC_total _).rt _ _ (fun _ _ => trivial),
    (Codec.tab_lawful remoteC_lawful _).rt _ _ (all_mem h4), (Codec.tab_lawful cueC_lawful _).rt _ _ (all_mem h5),
    (Codec.tab_lawful patchC_total _).rt _ _ (fun _ _ => trivial), (Codec.tab_lawful clipC_lawful _).rt _ _ (all_mem h2),
    (Codec.tab_lawful sceneC_lawful _).rt _ _ (all_mem h3), (Codec.tab_lawful stepC_total _).rt _ _ (fun _ _ => trivial),
    bind, Option.bind, pure]

/-- The entries fit the 80 body pages. -/
theorem length_body (t : Tables) : t.body.length ≤ 20480 := by
  unfold Tables.body
  simp only [List.length_append]
  rw [configC_total.len, protectC_total.len, bankC_total.len, colourC_total.len, (Codec.tab_lawful colourC_total _).len,
   (Codec.tab_lawful zoneC_total _).len, (Codec.tab_lawful fixtureC_total _).len, (Codec.tab_lawful proxC_total _).len, (Codec.tab_lawful axisC_lawful _).len,
   (Codec.tab_lawful triggerC_total _).len, (Codec.tab_lawful remoteC_lawful _).len, (Codec.tab_lawful cueC_lawful _).len, (Codec.tab_lawful patchC_total _).len,
   (Codec.tab_lawful colourC_total _).len, (Codec.tab_lawful clipC_lawful _).len, (Codec.tab_lawful sceneC_lawful _).len, (Codec.tab_lawful stepC_total _).len]
  decide

theorem length_image (t : Tables) : t.image.length = 20480 := by
  have := length_body t
  simp only [Tables.image, List.length_append, List.length_replicate, bodyBytes]
  omega

/-- The pages of a list of bytes make it up. -/
theorem flatMap_chunks {α : Type} : ∀ (n : Nat) (l : List α), l.length = n * 256 →
   (List.range n).flatMap (fun i => (l.drop (i * 256)).take 256) = l
  | 0, l, h => by simp at h; simp [h]
  | n + 1, l, h => by
    rw [List.range_succ_eq_map, List.flatMap_cons, List.flatMap_map]
    have ih := flatMap_chunks n (l.drop 256) (by simp; omega)
    have : (fun i : Nat => (l.drop ((i + 1) * 256)).take 256) = fun i => ((l.drop 256).drop (i * 256)).take 256 := by
      funext i; rw [List.drop_drop]; congr 2; ring
    simp only [Nat.zero_mul, List.drop_zero]
    show l.take 256 ++ (List.range n).flatMap (fun i => (l.drop ((i + 1) * 256)).take 256) = l
    rw [this, ih, List.take_append_drop]


end Sys2Proof.Machine
end

