-- ==== Sys2Proof/Laws/Ledger.lean ====
section
/-! SUPPORT. The claim table, the run records, the request queue and the start schedule keep their invariant (R101, R118, R119,
R129, R146): once for what leaves them alone, then for admission, release and the ends of runs, then for every action of a
block. -/

namespace Sys2Proof.Machine

/-! ### The invariant in parts -/

/-- The claims and the runs agree (R118, R119). -/
structure Agree (b : Bay) : Prop where
  owns : ∀ r k, b.owner r = some k → (b.claims k).has r = true
  waits : ∀ r k, k ∈ (b.claim.claim.get r).stack ↔ (b.claims k).has r = true ∧ b.owner r ≠ some k
  falls : ∀ r, (((b.owner r).toList ++ (b.claim.claim.get r).stack).map (runPriority b)).Pairwise (· > ·)
  empty : ∀ r, b.owner r = none → (b.claim.claim.get r).stack = []
  lacks : ∀ k, (b.run k).state = .suspended ↔ whole b k = false
  free : ∀ k, (b.run k).state = .free → b.run k = RunRec.free
  carries : ∀ k, (b.run k).state ≠ .free → (b.run k).slot.isSome = true ∧ (b.run k).snap.isSome = true
  single : ∀ k j, (b.run j).slot = (b.run k).slot → (b.run k).slot ≠ none → j = k

/-- The queue and the schedule are in order (R129, R146). -/
structure Queued (b : Bay) : Prop where
  length : b.claim.queue.length ≤ 8
  sorted : (b.claim.queue.map (·.priority)).Pairwise (· ≥ ·)
  slots : (b.claim.queue.map (·.slot)).Nodup
  idle : ∀ e ∈ b.claim.queue, b.carrier e.slot = none
  planned : b.trigger.schedule.length ≤ 8
  plans : (b.trigger.schedule.map (·.slot)).Nodup

theorem Bay.inv_iff (b : Bay) : b.inv = true ↔ Agree b ∧ Queued b := by
  simp only [Bay.inv, Bay.stacksInv, Bay.runsInv, Bay.queueInv, Bay.scheduleInv, Bool.and_eq_true, decide_eq_true_eq]
  constructor
  · rintro ⟨⟨⟨h1, h2⟩, h3⟩, h4⟩
    exact ⟨⟨fun r => (h1 r).1, fun r => (h1 r).2.1, fun r => (h1 r).2.2.1, fun r => (h1 r).2.2.2, fun k => (h2 k).1,
      fun k => (h2 k).2.1, fun k => (h2 k).2.2.1, fun k => (h2 k).2.2.2⟩,
      ⟨h3.1, h3.2.1, h3.2.2.1, h3.2.2.2, h4.1, h4.2⟩⟩
  · rintro ⟨a, q⟩
    exact ⟨⟨⟨fun r => ⟨a.owns r, a.waits r, a.falls r, a.empty r⟩, fun k => ⟨a.lacks k, a.free k, a.carries k, a.single k⟩⟩,
      ⟨q.length, q.sorted, q.slots, q.idle⟩⟩, ⟨q.planned, q.plans⟩⟩

theorem whole_iff (b : Bay) (k : Fin 6) : whole b k = true ↔ ∀ r, (b.claims k).has r = true → b.owner r = some k := by
  simp only [whole, ClaimSet.resources, List.all_eq_true, List.mem_filter, List.mem_finRange, true_and, decide_eq_true_eq]

theorem whole_false_iff (b : Bay) (k : Fin 6) : whole b k = false ↔ ∃ r, (b.claims k).has r = true ∧ b.owner r ≠ some k := by
  rw [← Bool.not_eq_true, whole_iff]
  simp only [not_forall, exists_prop, ne_eq]

theorem carrier_none_iff (b : Bay) (s : Fin 32) : b.carrier s = none ↔ ∀ k, (b.run k).state ≠ .free → (b.run k).slot ≠ some s := by
  simp [Bay.carrier]

/-- It holds right after reset. -/
theorem reset_inv : State.reset.bay.inv = true := by decide +kernel

/-! ### What leaves them alone -/

/-- What leaves the queue and the schedule, and of every run record state, slot and snapshot; a FREE record stays as R101 has
it. -/
structure Mild (b b' : Bay) : Prop where
  queue : b'.claim.queue = b.claim.queue
  schedule : b'.trigger.schedule = b.trigger.schedule
  state : ∀ k, (b'.run k).state = (b.run k).state
  slot : ∀ k, (b'.run k).slot = (b.run k).slot
  snap : ∀ k, (b'.run k).snap = (b.run k).snap
  free : ∀ k, b.run k = RunRec.free → b'.run k = RunRec.free

/-- What leaves the claim table too. -/
structure Tame (b b' : Bay) : Prop extends Mild b b' where
  claim : b'.claim.claim = b.claim.claim

theorem Mild.refl (b : Bay) : Mild b b := ⟨rfl, rfl, fun _ => rfl, fun _ => rfl, fun _ => rfl, fun _ h => h⟩

theorem Mild.trans {a b c : Bay} (h : Mild a b) (g : Mild b c) : Mild a c :=
  ⟨g.queue.trans h.queue, g.schedule.trans h.schedule, fun k => (g.state k).trans (h.state k),
    fun k => (g.slot k).trans (h.slot k), fun k => (g.snap k).trans (h.snap k), fun k hk => g.free k (h.free k hk)⟩

theorem Tame.refl (b : Bay) : Tame b b := ⟨.refl b, rfl⟩

theorem Tame.trans {a b c : Bay} (h : Tame a b) (g : Tame b c) : Tame a c :=
  ⟨h.toMild.trans g.toMild, g.claim.trans h.claim⟩

/-- A change of the other units, or of other fields of these. -/
theorem Mild.of_rest {b b' : Bay} (queue : b'.claim.queue = b.claim.queue)
    (schedule : b'.trigger.schedule = b.trigger.schedule) (run : b'.scene.run = b.scene.run) : Mild b b' := by
  have h : ∀ k, b'.run k = b.run k := fun k => by simp only [Bay.run, run]
  exact ⟨queue, schedule, fun k => by rw [h], fun k => by rw [h], fun k => by rw [h], fun k hk => by rw [h, hk]⟩

/-- A change of the other units, or of other fields of these. -/
theorem Tame.of_rest {b b' : Bay} (claim : b'.claim.claim = b.claim.claim) (queue : b'.claim.queue = b.claim.queue)
    (schedule : b'.trigger.schedule = b.trigger.schedule) (run : b'.scene.run = b.scene.run) : Tame b b' :=
  ⟨.of_rest queue schedule run, claim⟩

theorem tame_updRun (b : Bay) (k : Fin 6) (f : RunRec → RunRec) (state : (f (b.run k)).state = (b.run k).state)
    (slot : (f (b.run k)).slot = (b.run k).slot) (snap : (f (b.run k)).snap = (b.run k).snap)
    (free : b.run k = RunRec.free → f (b.run k) = RunRec.free) : Tame b (b.updRun k f) := by
  refine ⟨⟨rfl, rfl, ?_, ?_, ?_, ?_⟩, rfl⟩ <;> intro j <;> rw [Bay.run_updRun] <;> split
  all_goals first | (next e => subst e; assumption) | rfl | exact id

theorem tame_ite {c : Prop} [Decidable c] {b x y : Bay} (hx : Tame b x) (hy : Tame b y) : Tame b (if c then x else y) := by
  split <;> assumption

theorem tame_eachOf {ι : Type} {f : ι → Bay → Bay} (h : ∀ i b, Tame b (f i b)) (l : List ι) (b : Bay) :
    Tame b (eachOf l f b) := eachOf_keeps (P := Tame b) (fun i c hc => hc.trans (h i c)) l b (.refl b)

theorem tame_each {n : Nat} {f : Fin n → Bay → Bay} (h : ∀ i b, Tame b (f i b)) (b : Bay) : Tame b (each n f b) :=
  tame_eachOf h _ b

theorem Mild.claims {b b' : Bay} (h : Mild b b') (k : Fin 6) : b'.claims k = b.claims k := by
  unfold Bay.claims; rw [h.snap]

theorem Tame.owner {b b' : Bay} (h : Tame b b') (r : Fin 22) : b'.owner r = b.owner r := by
  unfold Bay.owner; rw [h.claim]

theorem Mild.priority {b b' : Bay} (h : Mild b b') : runPriority b' = runPriority b := by
  funext k; unfold runPriority; rw [h.snap]

theorem Tame.whole {b b' : Bay} (h : Tame b b') (k : Fin 6) : whole b' k = whole b k := by
  unfold Machine.whole; rw [h.claims]; simp only [h.owner]

theorem Mild.carrier {b b' : Bay} (h : Mild b b') (s : Fin 32) : b'.carrier s = b.carrier s := by
  unfold Bay.carrier; simp only [h.state, h.slot]

theorem Tame.agree {b b' : Bay} (h : Tame b b') (a : Agree b) : Agree b' where
  owns r k := by rw [h.owner, h.claims]; exact a.owns r k
  waits r k := by rw [h.owner, h.claims, h.claim]; exact a.waits r k
  falls r := by rw [h.owner, h.claim, h.priority]; exact a.falls r
  empty r := by rw [h.owner, h.claim]; exact a.empty r
  lacks k := by rw [h.state, h.whole]; exact a.lacks k
  free k hk := h.free k (a.free k (h.state k ▸ hk))
  carries k := by rw [h.state, h.slot, h.snap]; exact a.carries k
  single k j := by rw [h.slot, h.slot]; exact a.single k j

theorem Mild.queued {b b' : Bay} (h : Mild b b') (q : Queued b) : Queued b' where
  length := by rw [h.queue]; exact q.length
  sorted := by rw [h.queue]; exact q.sorted
  slots := by rw [h.queue]; exact q.slots
  idle e he := by rw [h.carrier]; rw [h.queue] at he; exact q.idle e he
  planned := by rw [h.schedule]; exact q.planned
  plans := by rw [h.schedule]; exact q.plans

/-- The invariant stays. -/
def Stays (b b' : Bay) : Prop := b.inv = true → b'.inv = true

theorem Stays.refl (b : Bay) : Stays b b := id

@[simp] theorem stays_self (b : Bay) : Stays b b := id

theorem Stays.trans {a b c : Bay} (h : Stays a b) (g : Stays b c) : Stays a c := g ∘ h

theorem Tame.stays {b b' : Bay} (h : Tame b b') : Stays b b' := fun hb => by
  rw [Bay.inv_iff] at hb ⊢; exact ⟨h.agree hb.1, h.queued hb.2⟩

theorem stays_ite {c : Prop} [Decidable c] {b x y : Bay} (hx : Stays b x) (hy : Stays b y) : Stays b (if c then x else y) := by
  split <;> assumption

theorem stays_eachOf {ι : Type} {f : ι → Bay → Bay} (h : ∀ i b, Stays b (f i b)) (l : List ι) (b : Bay) :
    Stays b (eachOf l f b) := eachOf_keeps (P := Stays b) (fun i c hc => hc.trans (h i c)) l b (.refl b)

theorem stays_each {n : Nat} {f : Fin n → Bay → Bay} (h : ∀ i b, Stays b (f i b)) (b : Bay) : Stays b (each n f b) :=
  stays_eachOf h _ b

/-! ### Admission (R122, R124) -/

theorem mem_resources (c : ClaimSet) (r : Fin 22) : r ∈ c.resources ↔ c.has r = true := by simp [ClaimSet.resources]

theorem nodup_resources (c : ClaimSet) : c.resources.Nodup := (List.nodup_finRange 22).filter _

theorem Agree.free_claims {b : Bay} (a : Agree b) {k : Fin 6} (h : (b.run k).state = .free) (r : Fin 22) :
    (b.claims k).has r = false := by
  unfold Bay.claims; rw [a.free k h]
  have : ∀ r, ClaimSet.has ⟨0, 0, 0⟩ r = false := by decide
  exact this r

theorem Agree.free_owner {b : Bay} (a : Agree b) {k : Fin 6} (h : (b.run k).state = .free) (r : Fin 22) :
    b.owner r ≠ some k := fun e => by have := a.owns r k e; rw [a.free_claims h] at this; cases this

theorem tame_dropHeld (b : Bay) : Tame b (dropHeld b) := by
  refine tame_each (fun j b => ?_) b
  split
  · next h =>
    simp only [Bool.and_eq_true, decide_eq_true_eq] at h
    refine tame_updRun b j _ rfl rfl rfl (fun e => ?_)
    rw [e] at h; exact absurd h.1.1 (by decide)
  · exact .refl b

theorem preempt_run (r : Fin 22) (b : Bay) (j : Fin 6) : (preempt r b).run j =
    if (b.run j).state = .running ∧ b.owner r = some j then { b.run j with state := .suspended } else b.run j := by
  unfold preempt
  split
  · next h => rw [if_neg (by simp [h])]
  · next i h =>
    dsimp only
    split
    · next hs =>
      rw [(suspend_parts i _).2]
      by_cases e : i = j
      · subst e; rw [if_pos rfl, if_pos ⟨hs, h⟩]; rfl
      · rw [if_neg e, if_neg (by simp [h, e])]; rfl
    · next hs =>
      rw [if_neg]; · rfl
      rintro ⟨h1, h2⟩; rw [h] at h2; cases h2; exact hs h1

theorem preempt_owner (r x : Fin 22) (b : Bay) : (preempt r b).owner x = b.owner x := by
  show ((preempt r b).claim.claim.get x).owner = _
  rw [(preempt_parts r b).1]; split
  · next e => subst e; rfl
  · rfl

theorem eachOf_preempt_run (j : Fin 6) : ∀ (l : List (Fin 22)) (b : Bay), (eachOf l preempt b).run j =
    if (b.run j).state = .running ∧ ∃ r ∈ l, b.owner r = some j then { b.run j with state := .suspended } else b.run j
  | [], b => by simp
  | r :: l, b => by
    rw [eachOf_cons, eachOf_preempt_run j l, preempt_run]
    simp only [preempt_owner]
    by_cases h1 : (b.run j).state = .running
    · by_cases h2 : b.owner r = some j
      · simp [h1, h2]
      · simp [h1, h2]
    · simp [h1]

/-- What an admission makes of the claims and the runs, before its queue entry goes and its examination. -/
theorem admitted_parts (k : Fin 6) (s : Fin 32) (origin : Origin) (t : Tables) (b c : Bay)
    (hc : c = eachOf (t.scene.get s).claims.resources (take k t) (fillRun k s origin t
      (eachOf (t.scene.get s).claims.resources preempt b))) :
    (∀ r, c.claim.claim.get r = if (t.scene.get s).claims.has r then
      ⟨some k, (b.owner r).toList ++ (b.claim.claim.get r).stack⟩ else b.claim.claim.get r) ∧
    c.claim.queue = b.claim.queue ∧
    (∀ j, j ≠ k → c.run j = if (b.run j).state = .running ∧ ∃ r, (t.scene.get s).claims.has r = true ∧ b.owner r = some j
      then { b.run j with state := .suspended } else b.run j) ∧
    (c.run k).state = .running ∧ (c.run k).slot = some s ∧ (c.run k).snap = some (t.scene.get s).snapshot := by
  generalize hl : (t.scene.get s).claims.resources = l at hc
  have hn : l.Nodup := hl ▸ nodup_resources _
  have hm : ∀ r, r ∈ l ↔ (t.scene.get s).claims.has r = true := fun r => hl ▸ mem_resources _ r
  obtain ⟨p1, p2, -⟩ := eachOf_preempt_parts l b hn
  have p3 := fun j => eachOf_preempt_run j l b
  generalize eachOf l preempt b = b1 at *
  obtain ⟨q1, q2, q3⟩ := eachOf_take_parts k t l (fillRun k s origin t b1)
  rw [← hc] at q1 q2 q3
  have hr : ∀ j, c.run j = (fillRun k s origin t b1).run j := fun j => by unfold Bay.run; rw [q3]
  have hf : ∀ j, j ≠ k → (fillRun k s origin t b1).run j = b1.run j := fun j hj => Bay.run_updRun_of_ne _ _ hj.symm
  refine ⟨fun r => ?_, q2.trans p2, fun j hj => ?_, ?_⟩
  · rw [q1]
    show (if r ∈ l then { b1.claim.claim.get r with owner := some k } else b1.claim.claim.get r) = _
    rw [p1]
    by_cases h : r ∈ l
    · rw [if_pos h, if_pos ((hm r).mp h), if_pos h]; cases b.owner r <;> rfl
    · rw [if_neg h, if_neg (fun e => h ((hm r).mpr e)), if_neg h]
  · rw [hr, hf j hj, p3]; simp only [hm]
  · rw [hr]
    unfold fillRun
    rw [Bay.run_updRun_same]
    exact ⟨rfl, rfl, rfl⟩

theorem runPriority_of_snap {b c : Bay} {j : Fin 6} (h : (c.run j).snap = (b.run j).snap) : runPriority c j = runPriority b j := by
  unfold runPriority; rw [h]

/-- An admission that its test allows keeps claims and runs in agreement. -/
theorem agree_admitted (k : Fin 6) (s : Fin 32) (t : Tables) (b c : Bay) (a : Agree b)
    (hk : (b.run k).state = .free) (hs : b.carrier s = none)
    (hb : ∀ r, (t.scene.get s).claims.has r = true → ∀ j, b.owner r = some j → runPriority b j < (t.scene.get s).priority.val)
    (h1 : ∀ r, c.claim.claim.get r = if (t.scene.get s).claims.has r then
      ⟨some k, (b.owner r).toList ++ (b.claim.claim.get r).stack⟩ else b.claim.claim.get r)
    (h2 : ∀ j, j ≠ k → c.run j = if (b.run j).state = .running ∧ ∃ r, (t.scene.get s).claims.has r = true ∧ b.owner r = some j
      then { b.run j with state := .suspended } else b.run j)
    (h3 : (c.run k).state = .running ∧ (c.run k).slot = some s ∧ (c.run k).snap = some (t.scene.get s).snapshot) :
    Agree c := by
  generalize hh : t.scene.get s = h at *
  have hsnap : ∀ j, j ≠ k → (c.run j).snap = (b.run j).snap := fun j hj => by rw [h2 j hj]; split <;> rfl
  have hslot : ∀ j, j ≠ k → (c.run j).slot = (b.run j).slot := fun j hj => by rw [h2 j hj]; split <;> rfl
  have hfree : ∀ j, j ≠ k → ((c.run j).state = .free ↔ (b.run j).state = .free) := fun j hj => by
    rw [h2 j hj]; split
    · next e => simp [e.1]
    · exact Iff.rfl
  have hcl : ∀ j, j ≠ k → c.claims j = b.claims j := fun j hj => by unfold Bay.claims; rw [hsnap j hj]
  have hck : c.claims k = h.claims := by unfold Bay.claims; rw [h3.2.2]; rfl
  have hpk : runPriority c k = h.priority.val := by unfold runPriority; rw [h3.2.2]; rfl
  have hp : ∀ j, j ≠ k → runPriority c j = runPriority b j := fun j hj => runPriority_of_snap (hsnap j hj)
  have how : ∀ r, c.owner r = if h.claims.has r then some k else b.owner r := fun r => by
    unfold Bay.owner; rw [h1]; split <;> rfl
  have hst : ∀ r, (c.claim.claim.get r).stack = if h.claims.has r then (b.owner r).toList ++ (b.claim.claim.get r).stack
      else (b.claim.claim.get r).stack := fun r => by rw [h1]; split <;> rfl
  have hnk : ∀ r, b.owner r ≠ some k := a.free_owner hk
  have hns : ∀ r, k ∉ (b.claim.claim.get r).stack := fun r e => by
    have := ((a.waits r k).mp e).1; rw [a.free_claims hk] at this; cases this
  have hmap : ∀ l : List (Fin 6), k ∉ l → l.map (runPriority c) = l.map (runPriority b) := fun l hl =>
    List.map_congr_left (fun j hj => hp j (fun e => hl (e ▸ hj)))
  have hall : ∀ r, k ∉ (b.owner r).toList ++ (b.claim.claim.get r).stack := fun r => by
    simp only [List.mem_append, Option.mem_toList, not_or]; exact ⟨hnk r, hns r⟩
  refine ⟨fun r j => ?_, fun r j => ?_, fun r => ?_, fun r => ?_, fun j => ?_, fun j => ?_, fun j => ?_, fun j i => ?_⟩
  · rw [how]
    split
    · next e => intro hj; cases hj; rw [hck]; exact e
    · intro hj
      have : j ≠ k := fun e => hnk r (e ▸ hj)
      rw [hcl j this]; exact a.owns r j hj
  · rw [how, hst]
    by_cases e : h.claims.has r = true
    · rw [if_pos e, if_pos e]
      by_cases hj : j = k
      · subst hj; exact iff_of_false (hall r) (by simp)
      · rw [hcl j hj]
        simp only [List.mem_append, Option.mem_toList, a.waits, ne_eq, Option.some.injEq]
        constructor
        · rintro (h | h)
          · exact ⟨a.owns r j h, fun e => hj e.symm⟩
          · exact ⟨h.1, fun e => hj e.symm⟩
        · intro h
          by_cases ho : b.owner r = some j
          · exact Or.inl ho
          · exact Or.inr ⟨h.1, ho⟩
    · rw [if_neg e, if_neg e]
      by_cases hj : j = k
      · subst hj; exact iff_of_false (hns r) (by rw [hck]; exact fun x => e x.1)
      · rw [hcl j hj]; exact a.waits r j
  · rw [how, hst]
    by_cases e : h.claims.has r = true
    · rw [if_pos e, if_pos e]
      show ((k :: ((b.owner r).toList ++ (b.claim.claim.get r).stack)).map (runPriority c)).Pairwise _
      rw [List.map_cons, hmap _ (hall r), List.pairwise_cons, hpk]
      refine ⟨?_, a.falls r⟩
      intro p hp
      have ha := a.falls r
      cases ho : b.owner r with
      | none => rw [ho, a.empty r ho] at hp; simp at hp
      | some j =>
        rw [ho] at hp ha
        have hj := hb r e j ho
        simp only [Option.toList_some, List.singleton_append, List.map_cons, List.mem_cons, List.pairwise_cons] at hp ha
        rcases hp with rfl | hp
        · exact hj
        · exact Nat.lt_trans (ha.1 p hp) hj
    · rw [if_neg e, if_neg e, hmap _ (hall r)]; exact a.falls r
  · rw [how, hst]
    split
    · intro hx; cases hx
    · exact a.empty r
  · by_cases hj : j = k
    · subst hj
      rw [h3.1]
      refine iff_of_false (by simp) ?_
      rw [Bool.not_eq_false, whole_iff, hck]
      intro r hr; rw [how, if_pos hr]
    · rw [whole_false_iff, hcl j hj, h2 j hj]
      split
      · next e =>
        obtain ⟨r, hr, ho⟩ := e.2
        refine iff_of_true rfl ⟨r, a.owns r j ho, ?_⟩
        rw [how, if_pos hr]; simp; exact fun e => hj e.symm
      · next e =>
        rw [a.lacks j, whole_false_iff]
        constructor
        · rintro ⟨r, hr, ho⟩
          refine ⟨r, hr, ?_⟩
          rw [how]; split
          · simp; exact fun e => hj e.symm
          · exact ho
        · rintro ⟨r, hr, ho⟩
          by_cases hst : (b.run j).state = .suspended
          · exact (whole_false_iff b j).mp ((a.lacks j).mp hst)
          · refine ⟨r, hr, fun hjo => ?_⟩
            have hw := mt (a.lacks j).mpr hst
            rw [Bool.not_eq_false, whole_iff] at hw
            rw [how] at ho
            split at ho
            · next hx =>
              refine e ⟨?_, r, hx, hjo⟩
              cases hs : (b.run j).state with
              | free => exact absurd hjo (a.free_owner hs r)
              | running => rfl
              | suspended => exact absurd hs hst
            · exact ho hjo
  · by_cases hj : j = k
    · subst hj; rw [h3.1]; intro e; cases e
    · intro hf
      have := (hfree j hj).mp hf
      rw [h2 j hj, if_neg (by simp [this])]
      exact a.free j this
  · by_cases hj : j = k
    · subst hj; rw [h3.2.1, h3.2.2]; exact fun _ => ⟨rfl, rfl⟩
    · rw [hslot j hj, hsnap j hj]
      exact fun hf => a.carries j (fun e => hf ((hfree j hj).mpr e))
  · have hno : ∀ x, x ≠ k → (c.run x).slot ≠ some s := fun x hx e => by
      rw [hslot x hx] at e
      have hx' : (b.run x).state ≠ .free := fun ef => by rw [a.free x ef] at e; cases e
      exact (carrier_none_iff b s).mp hs x hx' e
    by_cases hj : j = k
    · subst hj
      rw [h3.2.1]
      intro e _
      by_contra hi
      exact hno i hi e
    · by_cases hi : i = k
      · subst hi
        rw [h3.2.1]; intro e _
        exact absurd e.symm (hno j hj)
      · rw [hslot j hj, hslot i hi]; exact a.single j i

/-! ### Release (R126, R127) -/

theorem tame_pauseVoices (k : Fin 6) (b : Bay) : Tame b (pauseVoices k b) := by
  obtain ⟨h1, h2⟩ := pauseVoices_parts k b
  exact .of_rest (by rw [h1]) (by rw [h1]) (acts_pauseVoices k b).schedule (by rw [h2])

theorem tame_addHeld (k : Fin 6) (b : Bay) : Tame b (addHeld k b) := by
  unfold addHeld
  dsimp only
  split
  · exact .refl b
  · next h =>
    simp only [Bool.or_eq_true, decide_eq_true_eq, not_or] at h
    have hf : b.run k ≠ RunRec.free := fun e => h.1 (by rw [e]; rfl)
    have := tame_updRun b k (fun r => { r with held := true, holdTime := 0 }) rfl rfl rfl (fun e => absurd e hf)
    exact this.trans (tame_ite (tame_pauseVoices k _) (.refl _))

theorem tame_giveFixture (k : Fin 6) (t : Tables) (i : Fin 16) (b : Bay) : Tame b (giveFixture k t i b) :=
  .of_rest rfl rfl rfl rfl
theorem tame_giveAxis (k : Fin 6) (t : Tables) (a : Fin 4) (b : Bay) : Tame b (giveAxis k t a b) := .of_rest rfl rfl rfl rfl

theorem handBack_parts (t : Tables) (r : Fin 22) (b : Bay) : Mild b (handBack t r b) ∧
    ∀ x, (handBack t r b).claim.claim.get x = if r = x then
      ⟨(b.claim.claim.get r).stack.head?, (b.claim.claim.get r).stack.tail⟩ else b.claim.claim.get x := by
  unfold handBack
  split
  · next h =>
    refine ⟨.of_rest rfl rfl rfl, fun x => ?_⟩
    rw [show (b.updClaim r (fun c => { c with owner := none })).claim.claim.get x = _ from Tab.get_upd _ _ _ _, h]
    rfl
  · next j rest h =>
    dsimp only
    have hm : Mild b (b.updClaim r (fun _ => ⟨some j, rest⟩)) := .of_rest rfl rfl rfl
    have hg : ∀ x, (b.updClaim r (fun _ => ⟨some j, rest⟩)).claim.claim.get x = if r = x then
      ⟨(b.claim.claim.get r).stack.head?, (b.claim.claim.get r).stack.tail⟩ else b.claim.claim.get x := fun x => by
      rw [show (b.updClaim r (fun _ => ⟨some j, rest⟩)).claim.claim.get x = _ from Tab.get_upd _ _ _ _, h]; rfl
    generalize b.updClaim r (fun _ => ⟨some j, rest⟩) = c at *
    have fin : ∀ d, Tame c d → Mild b d ∧ ∀ x, d.claim.claim.get x = if r = x then
      ⟨(b.claim.claim.get r).stack.head?, (b.claim.claim.get r).stack.tail⟩ else b.claim.claim.get x := fun d hd =>
      ⟨hm.trans hd.toMild, fun x => by rw [hd.claim]; exact hg x⟩
    split
    · exact fin _ (tame_giveFixture j t _ c)
    · exact fin _ (.refl c)
    · next a _ =>
      have hg := tame_giveAxis j t a c
      generalize giveAxis j t a c = d at hg
      exact fin _ (hg.trans (tame_ite (tame_addHeld j d) (.refl d)))

theorem eachOf_handBack_claims (t : Tables) : ∀ (l : List (Fin 22)) (b : Bay), l.Nodup → Mild b (eachOf l (handBack t) b) ∧
    ∀ x, (eachOf l (handBack t) b).claim.claim.get x = if x ∈ l then
      ⟨(b.claim.claim.get x).stack.head?, (b.claim.claim.get x).stack.tail⟩ else b.claim.claim.get x
  | [], b, _ => ⟨.refl b, fun x => by simp⟩
  | r :: l, b, hl => by
    obtain ⟨hr, hl⟩ := List.nodup_cons.mp hl
    obtain ⟨p1, p2⟩ := handBack_parts t r b
    obtain ⟨q1, q2⟩ := eachOf_handBack_claims t l (handBack t r b) hl
    refine ⟨p1.trans q1, fun x => ?_⟩
    rw [eachOf_cons, q2, p2]
    by_cases e : r = x
    · subst e; simp [hr]
    · simp only [if_neg e, List.mem_cons, show ¬ x = r from fun h => e h.symm, false_or]

/-- What record `k` owned goes to the tops of the stacks, and it leaves every stack (R126 parts 1 and 2). -/
theorem handOver_parts (k : Fin 6) (t : Tables) (b : Bay) : Mild b (handOver k t b) ∧
    ∀ r, (handOver k t b).claim.claim.get r =
      if b.owner r = some k then ⟨((b.claim.claim.get r).stack.filter (· ≠ k)).head?, ((b.claim.claim.get r).stack.filter (· ≠ k)).tail⟩
      else ⟨b.owner r, (b.claim.claim.get r).stack.filter (· ≠ k)⟩ := by
  obtain ⟨c, h1, h2⟩ := leaveStacks_parts k b
  unfold handOver
  generalize hd : leaveStacks k b = d at h1
  have hm : Mild b d := by subst h1; exact .of_rest rfl rfl rfl
  have hc : ∀ r, d.claim.claim.get r = ⟨b.owner r, (b.claim.claim.get r).stack.filter (· ≠ k)⟩ := by subst h1; exact h2
  have ho : ∀ r, d.owner r = b.owner r := fun r => by unfold Bay.owner; rw [hc]; rfl
  obtain ⟨p1, p2⟩ := eachOf_handBack_claims t (d.owned k) d ((List.nodup_finRange 22).filter _)
  refine ⟨hm.trans p1, fun r => ?_⟩
  dsimp only
  rw [p2, hc]
  simp only [Bay.owned, ho, List.mem_filter, List.mem_finRange, true_and, decide_eq_true_eq]

theorem tame_resumeVoices (k : Fin 6) (b : Bay) : Tame b (resumeVoices k b) := by
  have h1 : (resumeVoices k b).claim = b.claim := each_same (g := fun b : Bay => b.claim) (fun v b => by split <;> rfl) b
  have h2 : (resumeVoices k b).scene = b.scene := each_same (g := fun b : Bay => b.scene) (fun v b => by split <;> rfl) b
  exact .of_rest (by rw [h1]) (by rw [h1]) (acts_resumeVoices k b).schedule (by rw [h2])

theorem tame_resumeFixture (k : Fin 6) (fade : Nat) (t : Tables) (i : Fin 16) (b : Bay) : Tame b (resumeFixture k fade t i b) := by
  unfold resumeFixture
  split
  · exact .refl b
  · exact .of_rest rfl rfl rfl rfl

theorem tame_resumeAxis (k : Fin 6) (t : Tables) (a : Fin 4) (b : Bay) : Tame b (resumeAxis k t a b) := by
  unfold resumeAxis
  refine tame_ite ?_ (.refl b)
  split <;> exact .of_rest rfl rfl rfl rfl

theorem tame_openGate (k : Fin 6) (b : Bay) : Tame b (openGate k b) :=
  tame_updRun b k _ rfl rfl rfl (fun e => by rw [e]; rfl)

theorem tame_examineSteps (own : Bool) (k : Fin 6) (t : Tables) (n : Nat) (b : Bay) : Tame b (examineSteps own k t n b) := by
  have hs := (acts_examineSteps own k t n b).schedule
  have hf : b.run k = RunRec.free → examineSteps own k t n b = b := fun e => by
    cases n with
    | zero => rfl
    | succ n => rw [examineSteps]; simp only [e]; rfl
  obtain ⟨h1, h2, h3, h4, h5, -, -, -, h9, -⟩ := examineSteps_run own k t n b
  have two : ∀ {P : Fin 6 → Prop}, P k → (∀ j, j ≠ k → P j) → ∀ j, P j := fun hk ho j => by
    by_cases e : j = k
    · exact e ▸ hk
    · exact ho j e
  exact ⟨⟨h2, hs, two h4 (fun j hj => by rw [h3 j hj]), two h5 (fun j hj => by rw [h3 j hj]),
    two h9 (fun j hj => by rw [h3 j hj]), two (fun e => by rw [hf e, e]) (fun j hj e => by rw [h3 j hj, e])⟩, h1⟩

/-- A resumption but for the state and the guard it gives the record (R111). -/
theorem tame_resume (j : Fin 6) (t : Tables) (b : Bay) :
    Tame (b.updRun j (fun r => { r with state := .running, guard := t.config.resumeGuard.val })) (resume j t b) := by
  unfold resume
  dsimp only
  generalize b.updRun j (fun r => { r with state := .running, guard := t.config.resumeGuard.val }) = c
  generalize ((b.run j).snap.map (·.resumeFade)).getD 0 = fade
  refine Tame.trans ?_ (tame_examineSteps false j t 256 _)
  refine Tame.trans ?_ (tame_ite (tame_openGate j _) (.refl _))
  refine Tame.trans ?_ (tame_ite (.refl _) (tame_resumeVoices j _))
  exact (tame_eachOf (tame_resumeFixture j fade t) _ c).trans (tame_eachOf (tame_resumeAxis j t) _ _)

/-- The records of a list resumed: each is RUNNING, and nothing else that the invariant speaks of changes. -/
theorem eachOf_resume_parts (t : Tables) : ∀ (l : List (Fin 6)) (b : Bay), (∀ j ∈ l, (b.run j).state ≠ .free) →
    (eachOf l (fun j c => resume j t c) b).claim.claim = b.claim.claim ∧
    (eachOf l (fun j c => resume j t c) b).claim.queue = b.claim.queue ∧
    (eachOf l (fun j c => resume j t c) b).trigger.schedule = b.trigger.schedule ∧
    ∀ k, ((eachOf l (fun j c => resume j t c) b).run k).state = (if k ∈ l then .running else (b.run k).state) ∧
      ((eachOf l (fun j c => resume j t c) b).run k).slot = (b.run k).slot ∧
      ((eachOf l (fun j c => resume j t c) b).run k).snap = (b.run k).snap ∧
      (b.run k = RunRec.free → (eachOf l (fun j c => resume j t c) b).run k = RunRec.free)
  | [], b, _ => ⟨rfl, rfl, rfl, fun k => ⟨by simp, rfl, rfl, id⟩⟩
  | j :: l, b, hl => by
    have h := tame_resume j t b
    rw [eachOf_cons]
    generalize resume j t b = c at h
    have hrun : ∀ k, (b.updRun j (fun r => { r with state := .running, guard := t.config.resumeGuard.val })).run k =
        if j = k then { b.run j with state := .running, guard := t.config.resumeGuard.val } else b.run k :=
      fun k => Bay.run_updRun ..
    have hst : ∀ k, (c.run k).state = if j = k then .running else (b.run k).state := fun k => by
      rw [h.state, hrun]; split <;> rfl
    have hsl : ∀ k, (c.run k).slot = (b.run k).slot := fun k => by
      rw [h.slot, hrun]; split
      · next e => rw [e]
      · rfl
    have hsn : ∀ k, (c.run k).snap = (b.run k).snap := fun k => by
      rw [h.snap, hrun]; split
      · next e => rw [e]
      · rfl
    have hfr : ∀ k, b.run k = RunRec.free → c.run k = RunRec.free := fun k hk => by
      refine h.free k ?_
      rw [hrun, if_neg, hk]
      intro e
      exact hl j (by simp) (by rw [e, hk]; rfl)
    obtain ⟨p1, p2, p3, p4⟩ := eachOf_resume_parts t l c (fun i hi => by
      rw [hst]; split
      · intro e; cases e
      · exact hl i (by simp [hi]))
    refine ⟨p1.trans h.claim, p2.trans h.queue, p3.trans h.schedule, fun k => ?_⟩
    obtain ⟨q1, q2, q3, q4⟩ := p4 k
    refine ⟨?_, q2.trans (hsl k), q3.trans (hsn k), fun e => q4 (hfr k e)⟩
    rw [q1, hst]
    by_cases e : j = k
    · subst e; simp
    · simp only [if_neg e, List.mem_cons, show ¬ k = j from fun h => e h.symm, false_or]

/-- What a release leaves before its scan (R126). -/
theorem released_parts (k : Fin 6) (t : Tables) (b c : Bay) (a : Agree b)
    (hc : c = (eachOf (madeWhole k t b) (fun j c => resume j t c) (handOver k t b)).updRun k (fun _ => RunRec.free)) :
    (∀ r, c.claim.claim.get r =
      if b.owner r = some k then ⟨((b.claim.claim.get r).stack.filter (· ≠ k)).head?, ((b.claim.claim.get r).stack.filter (· ≠ k)).tail⟩
      else ⟨b.owner r, (b.claim.claim.get r).stack.filter (· ≠ k)⟩) ∧
    c.claim.queue = b.claim.queue ∧ c.trigger.schedule = b.trigger.schedule ∧ c.run k = RunRec.free ∧
    ∀ j, j ≠ k → (c.run j).slot = (b.run j).slot ∧ (c.run j).snap = (b.run j).snap ∧
      (b.run j = RunRec.free → c.run j = RunRec.free) ∧
      (c.run j).state = if (b.run j).state = .suspended ∧ whole (handOver k t b) j = true then .running else (b.run j).state := by
  obtain ⟨m, hg⟩ := handOver_parts k t b
  have hmem : ∀ j, j ≠ k → (j ∈ madeWhole k t b ↔ (b.run j).state = .suspended ∧ whole (handOver k t b) j = true) := by
    intro j hj
    simp only [madeWhole, List.mem_filter, List.mem_finRange, true_and, Bool.and_eq_true, decide_eq_true_eq, m.state]
    constructor
    · rintro ⟨⟨_, h1⟩, h2⟩; exact ⟨h1, h2⟩
    · rintro ⟨h1, h2⟩
      refine ⟨⟨?_, h1⟩, h2⟩
      obtain ⟨r, hr, ho⟩ := (whole_false_iff b j).mp ((a.lacks j).mp h1)
      have hw := (whole_iff _ j).mp h2 r (by rw [m.claims]; exact hr)
      unfold Bay.owner at hw
      rw [hg] at hw
      split at hw
      · next e =>
        simp only [popsTo, Bay.owned, List.any_eq_true, List.mem_filter, List.mem_finRange, true_and, decide_eq_true_eq]
        refine ⟨r, e, ?_⟩
        have : (fun x : Fin 6 => x != k) = (fun x => decide (x ≠ k)) := by funext x; rw [Bool.eq_iff_iff]; simp
        rw [this]; exact hw
      · exact absurd hw ho
  obtain ⟨p1, p2, p3, p4⟩ := eachOf_resume_parts t (madeWhole k t b) (handOver k t b) (fun j hj => by
    simp only [madeWhole, List.mem_filter, Bool.and_eq_true, decide_eq_true_eq] at hj
    rw [hj.2.1.2]; intro e; cases e)
  generalize eachOf (madeWhole k t b) (fun j c => resume j t c) (handOver k t b) = d at *
  subst hc
  refine ⟨fun r => ?_, p2.trans m.queue, p3.trans m.schedule, Bay.run_updRun_same .., fun j hj => ?_⟩
  · show d.claim.claim.get r = _
    rw [p1, hg]
  · rw [Bay.run_updRun_of_ne _ _ hj.symm]
    obtain ⟨q1, q2, q3, q4⟩ := p4 j
    refine ⟨q2.trans (m.slot j), q3.trans (m.snap j), fun e => q4 (m.free j e), ?_⟩
    rw [q1, m.state]
    simp only [hmem j hj]

/-- A release keeps claims and runs in agreement. -/
theorem agree_released (k : Fin 6) (t : Tables) (b c : Bay) (a : Agree b)
    (hc : c = (eachOf (madeWhole k t b) (fun j c => resume j t c) (handOver k t b)).updRun k (fun _ => RunRec.free)) :
    Agree c := by
  obtain ⟨h1, -, -, h4, h5⟩ := released_parts k t b c a hc
  have m := handOver_parts k t b
  have hck : ∀ r, (c.claims k).has r = false := fun r => by
    have : ∀ r, ClaimSet.has ⟨0, 0, 0⟩ r = false := by decide
    unfold Bay.claims; rw [h4]; exact this r
  have hcl : ∀ j, j ≠ k → c.claims j = b.claims j := fun j hj => by unfold Bay.claims; rw [(h5 j hj).2.1]
  have hp : ∀ j, j ≠ k → runPriority c j = runPriority b j := fun j hj => runPriority_of_snap (h5 j hj).2.1
  have how : ∀ r, c.owner r = if b.owner r = some k then ((b.claim.claim.get r).stack.filter (· ≠ k)).head? else b.owner r :=
    fun r => by show (c.claim.claim.get r).owner = _; rw [h1]; split <;> rfl
  have hho : ∀ r, (handOver k t b).owner r = c.owner r := fun r => by unfold Bay.owner; rw [m.2, h1]
  have hst : ∀ r, (c.claim.claim.get r).stack = if b.owner r = some k then ((b.claim.claim.get r).stack.filter (· ≠ k)).tail
      else (b.claim.claim.get r).stack.filter (· ≠ k) := fun r => by rw [h1]; split <;> rfl
  have hwh : ∀ j, j ≠ k → whole c j = whole (handOver k t b) j := fun j hj => by
    rw [Bool.eq_iff_iff, whole_iff, whole_iff, hcl j hj, m.1.claims]; simp only [hho]
  have hall : ∀ r, (c.owner r).toList ++ (c.claim.claim.get r).stack =
      ((b.owner r).toList ++ (b.claim.claim.get r).stack).filter (· ≠ k) := by
    intro r
    rw [how, hst]
    split
    · next e =>
      rw [e]
      have : ∀ l : List (Fin 6), l.head?.toList ++ l.tail = l := fun l => by cases l <;> rfl
      rw [this]; simp
    · next e =>
      cases ho : b.owner r with
      | none => rfl
      | some j =>
        have : j ≠ k := fun x => e (by rw [ho, x])
        simp [this]
  have hin : ∀ r j, j ∈ (b.owner r).toList ++ (b.claim.claim.get r).stack ↔ (b.claims j).has r = true := by
    intro r j
    simp only [List.mem_append, Option.mem_toList, a.waits]
    constructor
    · rintro (h | h)
      · exact a.owns r j h
      · exact h.1
    · intro h
      by_cases e : b.owner r = some j
      · exact Or.inl e
      · exact Or.inr ⟨h, e⟩
  have hfalls : ∀ r, (((c.owner r).toList ++ (c.claim.claim.get r).stack).map (runPriority c)).Pairwise (· > ·) := by
    intro r
    rw [hall, List.map_congr_left (g := runPriority b) (fun j hj => hp j (by simpa using (List.mem_filter.mp hj).2))]
    exact (a.falls r).sublist ((List.filter_sublist).map _)
  have hin' : ∀ r j, j ∈ (c.owner r).toList ++ (c.claim.claim.get r).stack ↔ (c.claims j).has r = true := by
    intro r j
    rw [hall, List.mem_filter, hin]
    by_cases e : j = k
    · subst e; simp [hck]
    · simp [hcl j e, e]
  refine ⟨fun r j hj => ?_, fun r j => ?_, hfalls, fun r => ?_, fun j => ?_, fun j => ?_, fun j => ?_, fun j i => ?_⟩
  · exact (hin' r j).mp (by simp [hj])
  · rw [← hin' r j, List.mem_append, Option.mem_toList]
    constructor
    · intro h
      refine ⟨Or.inr h, fun e => ?_⟩
      have hf := hfalls r
      rw [e] at hf
      simp only [Option.toList_some, List.singleton_append, List.map_cons, List.pairwise_cons] at hf
      exact absurd (hf.1 _ (List.mem_map_of_mem h)) (Nat.lt_irrefl _)
    · rintro ⟨h | h, h'⟩
      · exact absurd h h'
      · exact h
  · rw [how, hst]
    split
    · intro e; rw [List.head?_eq_none_iff.mp e]; rfl
    · intro e; rw [a.empty r e]; rfl
  · by_cases hj : j = k
    · subst hj
      rw [h4]
      refine iff_of_false (by decide) ?_
      rw [Bool.not_eq_false, whole_iff]
      intro r hr; rw [hck] at hr; cases hr
    · rw [(h5 j hj).2.2.2, hwh j hj]
      split
      · next e => rw [e.2]; simp
      · next e =>
        constructor
        · intro hs
          rw [Bool.eq_false_iff]; exact fun hw => e ⟨hs, hw⟩
        · intro hw
          obtain ⟨r, hr, ho⟩ := (whole_false_iff _ j).mp hw
          rw [m.1.claims] at hr
          by_contra hs
          have hw := mt (a.lacks j).mpr hs
          rw [Bool.not_eq_false, whole_iff] at hw
          have hj' := hw r hr
          rw [hho, how, if_neg] at ho
          · exact ho hj'
          · intro e; rw [hj'] at e; exact hj (Option.some.inj e)
  · by_cases hj : j = k
    · subst hj; exact fun _ => h4
    · rw [(h5 j hj).2.2.2]
      split
      · intro e; cases e
      · exact fun e => (h5 j hj).2.2.1 (a.free j e)
  · by_cases hj : j = k
    · subst hj; rw [h4]; intro e; exact absurd rfl e
    · rw [(h5 j hj).2.2.2, (h5 j hj).1, (h5 j hj).2.1]
      split
      · next e => exact fun _ => a.carries j (by rw [e.1]; intro x; cases x)
      · exact a.carries j
  · by_cases hj : j = k
    · subst hj; rw [h4]; intro _ e; exact absurd rfl e
    · by_cases hi : i = k
      · subst hi; rw [h4]; intro e e'; exact absurd e.symm e'
      · rw [(h5 j hj).1, (h5 i hi).1]; exact a.single j i

/-- A release leaves the queues in order. -/
theorem queued_released (k : Fin 6) (t : Tables) (b c : Bay) (a : Agree b) (q : Queued b)
    (hc : c = (eachOf (madeWhole k t b) (fun j c => resume j t c) (handOver k t b)).updRun k (fun _ => RunRec.free)) :
    Queued c := by
  obtain ⟨-, h2, h3, h4, h5⟩ := released_parts k t b c a hc
  refine ⟨h2 ▸ q.length, h2 ▸ q.sorted, h2 ▸ q.slots, fun e he => ?_, h3 ▸ q.planned, h3 ▸ q.plans⟩
  rw [carrier_none_iff]
  intro j hs
  have hj : j ≠ k := fun x => by subst x; rw [h4] at hs; exact hs rfl
  rw [(h5 j hj).1]
  refine (carrier_none_iff b e.slot).mp (q.idle e (h2 ▸ he)) j (fun x => hs ?_)
  rw [(h5 j hj).2.2.1 (a.free j x)]; rfl

/-! ### What may end a run -/

/-- What an end of a run has to keep for everything that may end one to keep it. -/
def StaysEnd (endK : EndRun) : Prop := ∀ k e t b, Stays b (endK k e t b)

theorem stays_examine {endK : EndRun} (h : StaysEnd endK) (own : Bool) (k : Fin 6) (t : Tables) (b : Bay) :
    Stays b (examine endK own k t b) := by
  refine (tame_examineSteps own k t 256 b).stays.trans ?_
  unfold examine
  dsimp only
  split
  · exact .refl _
  · exact stays_ite (h _ _ t _) (.refl _)
theorem stays_examineIfFires {endK : EndRun} (h : StaysEnd endK) (own : Bool) (k : Fin 6) (t : Tables) (b : Bay) :
    Stays b (examineIfFires endK own k t b) := stays_ite (stays_examine h own k t b) (.refl b)
theorem stays_testGate {endK : EndRun} (h : StaysEnd endK) (k : Fin 6) (t : Tables) (b : Bay) :
    Stays b (testGate endK k t b) :=
  stays_ite ((tame_openGate k b).stays.trans (stays_examineIfFires h true k t _)) (.refl b)
theorem stays_gateLimit {endK : EndRun} (h : StaysEnd endK) (k : Fin 6) (t : Tables) (b : Bay) :
    Stays b (gateLimit endK k t b) := by
  unfold gateLimit
  split
  · exact .refl b
  · refine stays_ite ?_ (.refl b)
    refine Stays.trans ?_ (stays_examineIfFires h true k t _)
    refine Stays.trans ?_ (tame_openGate k _).stays
    split
    · exact (Tame.of_rest rfl rfl rfl rfl).stays
    · exact .refl b
theorem tame_duckExamine (t : Tables) (b : Bay) : Tame b (duckExamine t b) := by
  obtain ⟨h1, h2, -, -, -, h6, -⟩ := duckExamine_parts t b
  exact .of_rest (by rw [h1]) (by rw [h1]) (by rw [h6]) (by rw [h2])
theorem stays_removeHeld {endK : EndRun} (h : StaysEnd endK) (k : Fin 6) (t : Tables) (b : Bay) :
    Stays b (removeHeld endK k t b) := by
  unfold removeHeld
  dsimp only
  split
  · next hc =>
    have hf : b.run k ≠ RunRec.free := fun e => by rw [e] at hc; simp [RunRec.free] at hc
    refine (tame_updRun b k (fun r => { r with held := false }) rfl rfl rfl (fun e => absurd e hf)).stays.trans ?_
    refine stays_ite ?_ (.refl _)
    exact ((tame_resumeVoices k _).trans (tame_duckExamine t _)).stays.trans (stays_examineIfFires h true k t _)
  · exact .refl b
theorem stays_holdLimit {endK : EndRun} (h : StaysEnd endK) (k : Fin 6) (t : Tables) (b : Bay) :
    Stays b (holdLimit endK k t b) := by
  unfold holdLimit
  dsimp only
  split
  · exact .refl b
  · exact stays_ite (h _ _ t b) (.refl b)

theorem tame_count (k : Fin 6) (b : Bay) : Tame b (b.updRun k RunRec.count) := by
  refine tame_updRun b k _ ?_ ?_ ?_ (fun e => by rw [e]; rfl)
  all_goals
    unfold RunRec.count
    split
    · rfl
    · split <;> rfl
theorem stays_sceneMillisecond {endK : EndRun} (h : StaysEnd endK) (t : Tables) (b : Bay) :
    Stays b (sceneMillisecond endK t b) := by
  refine Stays.trans (stays_each (fun k b => ?_) b)
    (stays_each (fun k b => stays_ite (stays_examine h true k t b) (.refl b)) _)
  exact (tame_count k b).stays.trans (stays_ite (stays_holdLimit h k t _) (stays_gateLimit h k t _))

theorem tame_recordEnd (b : Bay) (k : Fin 6) (e : EndReason) : Tame b (b.recordEnd k e) := by
  unfold Bay.recordEnd
  split
  · exact .of_rest rfl rfl rfl rfl
  · exact .refl b
theorem tame_updTrigger (b : Bay) (n : Fin 12) (f : Trigger → Trigger) : Tame b (b.updTrigger n f) := .of_rest rfl rfl rfl rfl
theorem tame_tellTrigger (o : Option Origin) (t : Tables) (b : Bay) : Tame b (tellTrigger o t b) := by
  unfold tellTrigger
  split
  · exact tame_updTrigger b _ _
  · exact .refl b
theorem tame_reportSecond (o : Origin) (x : Bool) (b : Bay) : Tame b (reportSecond o x b) := by
  unfold reportSecond
  split
  · exact tame_updTrigger b _ _
  all_goals exact .refl b
theorem tame_reportFirst (o : Origin) (x : ReqOutcome) (b : Bay) : Tame b (reportFirst o x b) := by
  unfold reportFirst
  split
  · exact tame_updTrigger b _ _
  · exact .of_rest rfl rfl rfl rfl
  all_goals exact .refl b
theorem tame_voiceUnit (b : Bay) (v : VoiceUnit) : Tame b { b with voice := v } := .of_rest rfl rfl rfl rfl
theorem tame_voiceIdle (v : Fin 6) (b : Bay) : Tame b (voiceIdle v b) := .of_rest rfl rfl rfl rfl
theorem tame_eachOwnedVoice (k : Fin 6) (p : VoiceState → Bool) {f : Fin 6 → Bay → Bay} (h : ∀ v b, Tame b (f v b)) (b : Bay) :
    Tame b (eachOwnedVoice k p f b) := tame_each (fun v b => tame_ite (h v b) (.refl b)) b
theorem tame_idleVoices (k : Fin 6) (b : Bay) : Tame b (idleVoices k b) := tame_eachOwnedVoice k _ tame_voiceIdle b
theorem tame_holdAxis (src : Option TimeSource) (t : Tables) (a : Fin 4) (b : Bay) : Tame b (holdAxis src t a b) :=
  .of_rest rfl rfl rfl rfl
theorem tame_endVoices (k : Fin 6) (fade : Nat) (t : Tables) (b : Bay) : Tame b (endVoices k fade t b) := by
  obtain ⟨v, h⟩ := endVoices_parts k fade t b
  rw [h]; exact tame_voiceUnit b v
theorem tame_releaseFixture (fade : Nat) (t : Tables) (i : Fin 16) (b : Bay) : Tame b (releaseFixture fade t i b) :=
  .of_rest rfl rfl rfl rfl
theorem tame_restartFixture (k : Fin 6) (t : Tables) (i : Fin 16) (b : Bay) : Tame b (restartFixture k t i b) :=
  .of_rest rfl rfl rfl rfl
theorem tame_endEffects (k : Fin 6) (fade voiceFade : Nat) (t : Tables) (b : Bay) : Tame b (endEffects k fade voiceFade t b) :=
  ((tame_eachOf (tame_releaseFixture fade t) _ b).trans (tame_endVoices k voiceFade t _)).trans
    (tame_eachOf (tame_holdAxis _ t) _ _)

theorem stays_restart {endK : EndRun} (h : StaysEnd endK) (k : Fin 6) (o : Origin) (t : Tables) (b : Bay)
    (hk : (b.run k).state ≠ .free) : Stays b (restart endK k o t b) := by
  unfold restart
  dsimp only
  refine Stays.trans ?_ (tame_duckExamine t _).stays
  refine Stays.trans ?_ (stays_examineIfFires h false k t _)
  have hu : ∀ c : Bay, (c.run k).state = (b.run k).state → ∀ f : RunRec → RunRec, (∀ r, (f r).state = r.state) →
      (∀ r, (f r).slot = r.slot) → (∀ r, (f r).snap = r.snap) → Tame c (c.updRun k f) := fun c hc f h1 h2 h3 =>
    tame_updRun c k f (h1 _) (h2 _) (h3 _) (fun e => absurd (hc.symm.trans (by rw [e]; rfl)) hk)
  have t1 : Tame b (idleVoices k (eachOf ((eachOf (((b.recordEnd k .restartTruncated)).ownedFixtures k) (restartFixture k t)
      (b.recordEnd k .restartTruncated)).ownedAxes k) (restartAxis k t) (eachOf (((b.recordEnd k .restartTruncated)).ownedFixtures k)
      (restartFixture k t) (b.recordEnd k .restartTruncated)))) :=
    ((tame_recordEnd b k _).trans (tame_eachOf (tame_restartFixture k t) _ _)).trans
      ((tame_eachOf (fun a b => tame_holdAxis _ t a b) _ _).trans (tame_idleVoices k _))
  generalize idleVoices k _ = c at t1 ⊢
  have t2 := t1.trans (hu c (t1.state k) (fun r => { r with clock := 0, gateDelay := 0, next := 0, gate := none })
    (fun _ => rfl) (fun _ => rfl) (fun _ => rfl))
  generalize c.updRun k _ = d at t2 ⊢
  have t3 : Tame b (if (b.run k).origin = some o then d else tellTrigger (b.run k).origin t d) :=
    t2.trans (tame_ite (.refl d) (tame_tellTrigger _ t d))
  generalize (if (b.run k).origin = some o then d else tellTrigger (b.run k).origin t d) = e at t3 ⊢
  exact (t3.trans (hu e (t3.state k) (fun r => { r with origin := some o }) (fun _ => rfl) (fun _ => rfl) (fun _ => rfl))).stays

/-! ### The request queue (R129 to R132) -/

theorem agree_of_rest {b : Bay} (b' : Bay) (claim : b'.claim.claim = b.claim.claim)
    (run : b'.scene.run = b.scene.run) (a : Agree b) : Agree b' := by
  have h : ∀ k, b'.run k = b.run k := fun k => by simp only [Bay.run, run]
  have : Tame b { b' with claim := { b'.claim with queue := b.claim.queue }, trigger := b.trigger } := .of_rest claim rfl rfl run
  have := this.agree a
  exact ⟨this.owns, this.waits, this.falls, this.empty, this.lacks, this.free, this.carries, this.single⟩

/-- A queue with entries taken out of it. -/
theorem stays_setQueue_sublist (b : Bay) {l : List QueueEntry} (h : l.Sublist b.claim.queue) : Stays b (b.setQueue l) := by
  intro hb
  rw [Bay.inv_iff] at hb ⊢
  obtain ⟨a, q⟩ := hb
  refine ⟨agree_of_rest (b := b) (b.setQueue l) rfl rfl a, ⟨h.length_le.trans q.length, q.sorted.sublist (h.map _), q.slots.sublist (h.map _),
    fun e he => q.idle e (h.subset he), q.planned, q.plans⟩⟩

/-- A schedule with entries taken out of it. -/
theorem stays_setSchedule_sublist (b : Bay) {l : List ScheduleEntry} (h : l.Sublist b.trigger.schedule) :
    Stays b (b.setSchedule l) := by
  intro hb
  rw [Bay.inv_iff] at hb ⊢
  obtain ⟨a, q⟩ := hb
  exact ⟨agree_of_rest (b := b) (b.setSchedule l) rfl rfl a, ⟨q.length, q.sorted, q.slots, q.idle, h.length_le.trans q.planned,
    q.plans.sublist (h.map _)⟩⟩

theorem stays_unqueue (s : Fin 32) (b : Bay) : Stays b (unqueue s b) := stays_setQueue_sublist b List.filter_sublist

theorem stays_withdraw (s : Fin 32) (b : Bay) : Stays b (withdraw s b) := by
  unfold withdraw
  split
  · exact (stays_unqueue s b).trans (tame_reportSecond _ _ _).stays
  · exact .refl b

theorem withdraw_schedule (s : Fin 32) (b : Bay) : (withdraw s b).trigger.schedule = b.trigger.schedule :=
  (acts_withdraw s b).schedule

/-- An admission that its test allows (R122, R124). -/
theorem stays_admitScene {endK : EndRun} (h : StaysEnd endK) (k : Fin 6) (s : Fin 32) (o : Origin) (t : Tables) (b : Bay)
    (ha : admissible t b s = some k) (hs : b.carrier s = none) : Stays b (admitScene endK k s o t b) := by
  unfold admitScene
  dsimp only
  refine Stays.trans ?_ (tame_duckExamine t _).stays
  refine Stays.trans ?_ (stays_examineIfFires h false k t _)
  intro hb
  rw [Bay.inv_iff] at hb
  obtain ⟨a, q⟩ := hb
  have hc := admitted_parts k s o t b _ rfl
  have hsch : (eachOf (t.scene.get s).claims.resources (take k t) (fillRun k s o t
      (eachOf (t.scene.get s).claims.resources preempt b))).trigger.schedule = b.trigger.schedule :=
    (((acts_eachOf acts_preempt _ b).trans (acts_updRun _ k _)).trans (acts_eachOf (acts_take k t) _ _)).schedule
  generalize eachOf (t.scene.get s).claims.resources (take k t) (fillRun k s o t
      (eachOf (t.scene.get s).claims.resources preempt b)) = c at hc hsch
  obtain ⟨h1, h2, h3, h4⟩ := hc
  unfold admissible at ha
  dsimp only at ha
  split at ha
  · cases ha
  · next hbl =>
    have hk : (b.run k).state = .free := by
      unfold freeRecord at ha
      have := List.find?_some ha
      simpa using this
    have ag : Agree c := by
      refine agree_admitted k s t b c a hk hs (fun r hr j hj => ?_) h1 h3 h4
      by_contra hn
      refine hbl (List.any_eq_true.mpr ⟨r, (mem_resources _ r).mpr hr, ?_⟩)
      unfold blocks
      rw [hj]
      simp [hn]
    have td := tame_dropHeld c
    have agd := td.agree ag
    have hq : (withdraw s (dropHeld c)).claim.queue = b.claim.queue.filter (fun e => e.slot ≠ s) := by
      rw [(withdraw_parts s _).2.2, td.queue, h2]
    have hrun : ∀ j, (withdraw s (dropHeld c)).run j = (dropHeld c).run j := fun j => by
      unfold Bay.run; rw [(withdraw_parts s _).2.1]
    have agw : Agree (withdraw s (dropHeld c)) := agree_of_rest _ (withdraw_parts s _).1 (by rw [(withdraw_parts s _).2.1]) agd
    have hf := List.filter_sublist (l := b.claim.queue) (p := fun e => decide (e.slot ≠ s))
    have hp : (withdraw s (dropHeld c)).trigger.schedule = b.trigger.schedule :=
      (withdraw_schedule s _).trans (td.schedule.trans hsch)
    generalize withdraw s (dropHeld c) = w at hq hrun agw hp ⊢
    rw [Bay.inv_iff]
    refine ⟨agw, ⟨by rw [hq]; exact hf.length_le.trans q.length, by rw [hq]; exact q.sorted.sublist (hf.map _),
      by rw [hq]; exact q.slots.sublist (hf.map _), fun e he => ?_, by rw [hp]; exact q.planned, by rw [hp]; exact q.plans⟩⟩
    rw [hq] at he
    obtain ⟨he, hes⟩ := List.mem_filter.mp he
    rw [carrier_none_iff]
    intro j hj
    rw [hrun] at hj ⊢
    rw [td.state] at hj
    rw [td.slot]
    by_cases e' : j = k
    · subst e'
      rw [h4.2.1]; intro x; cases x; simp at hes
    · rw [h3 j e'] at hj ⊢
      have hi := (carrier_none_iff b e.slot).mp (q.idle e he) j
      split
      · next x => exact hi (by rw [x.1]; intro y; cases y)
      · next x => rw [if_neg x] at hj; exact hi hj

theorem stays_scanEntry {endK : EndRun} (h : StaysEnd endK) (t : Tables) (e : QueueEntry) (b : Bay) :
    Stays b (scanEntry endK t e b) := by
  unfold scanEntry
  refine stays_ite (.refl b) (stays_ite (stays_withdraw _ b) ?_)
  split
  · exact .refl b
  · next hs =>
    split
    · next k hk =>
      refine Stays.trans ?_ (tame_reportSecond _ _ _).stays
      have hs' : b.carrier e.slot = none := by simpa using hs
      exact (stays_unqueue e.slot b).trans (stays_admitScene h k e.slot e.origin t (unqueue e.slot b) hk hs')
    · exact .refl b

theorem stays_scan {endK : EndRun} (h : StaysEnd endK) (t : Tables) (b : Bay) : Stays b (scan endK t b) :=
  stays_eachOf (stays_scanEntry h t) _ b

/-! ### The end of a run (R113, R114) -/

theorem stays_release {endK : EndRun} (h : StaysEnd endK) (k : Fin 6) (t : Tables) (b : Bay) : Stays b (release endK k t b) := by
  unfold release
  dsimp only
  refine Stays.trans ?_ (stays_scan h t _)
  intro hb
  rw [Bay.inv_iff] at hb ⊢
  exact ⟨agree_released k t b _ hb.1 rfl, queued_released k t b _ hb.1 hb.2 rfl⟩

theorem stays_endOverdue {endK : EndRun} (h : StaysEnd endK) (t : Tables) (j : Fin 6) (b : Bay) :
    Stays b (endOverdue endK t j b) := stays_ite (h j _ t b) (.refl b)

theorem stays_endRunFuel : ∀ n, StaysEnd (endRunFuel n)
  | 0, _, _, _, b => .refl b
  | n + 1, k, e, t, b => by
    unfold endRunFuel
    refine stays_ite (.refl b) ?_
    refine Stays.trans ?_ (stays_eachOf (stays_endOverdue (stays_endRunFuel n) t) _ _)
    refine Stays.trans ?_ (tame_duckExamine t _).stays
    refine Stays.trans ?_ (tame_tellTrigger _ t _).stays
    refine Stays.trans ?_ (stays_release (stays_endRunFuel n) k t _)
    exact ((tame_endEffects k _ _ t b).trans (tame_recordEnd _ k e)).stays

theorem stays_endRun : StaysEnd endRun := stays_endRunFuel 8

theorem eachOf_free_run (j : Fin 6) : ∀ (l : List (Fin 6)) (b : Bay),
    (eachOf l (fun k b => b.updRun k (fun _ => RunRec.free)) b).run j = if j ∈ l then RunRec.free else b.run j
  | [], b => by simp
  | k :: l, b => by
    rw [eachOf_cons, eachOf_free_run j l, Bay.run_updRun]
    by_cases e : k = j
    · subst e; simp
    · simp only [if_neg e, List.mem_cons, show ¬ j = k from fun h => e h.symm, false_or]

theorem stays_endAll (e : EndReason) (t : Tables) (b : Bay) : Stays b (endAll e t b) := by
  unfold endAll
  dsimp only
  generalize hl : (List.finRange 6).filter (fun k => (b.run k).state != .free) = l
  refine Stays.trans ?_ (tame_duckExamine t _).stays
  refine Stays.trans ?_ (tame_eachOf (fun o b => tame_tellTrigger o t b) _ _).stays
  have t1 : Tame b (eachOf l (fun k b => (endEffects k (releaseFade b k) (voiceFadeOf e (releaseFade b k)) t b).recordEnd k e) b) :=
    tame_eachOf (fun k b => (tame_endEffects k _ _ t b).trans (tame_recordEnd _ k e)) l b
  generalize eachOf l (fun k b => (endEffects k (releaseFade b k) (voiceFadeOf e (releaseFade b k)) t b).recordEnd k e) b = c at t1
  intro hb
  have hc := t1.stays hb
  rw [Bay.inv_iff] at hb hc
  obtain ⟨a, q⟩ := hc
  generalize hd : eachOf l (fun k b => b.updRun k (fun _ => RunRec.free))
    { c with claim := { c.claim with claim := Tab.const 22 ⟨none, []⟩ } } = d
  have hr : ∀ j, d.run j = RunRec.free := fun j => by
    rw [← hd, eachOf_free_run]
    split
    · rfl
    · next hj =>
      show c.run j = _
      rw [← hl] at hj
      refine t1.free j (hb.1.free j ?_)
      simpa using hj
  have hcl : ∀ r, d.claim.claim.get r = ⟨none, []⟩ := fun r => by
    rw [← hd, eachOf_same (f := fun (k : Fin 6) (b : Bay) => b.updRun k (fun _ => RunRec.free)) (g := fun b : Bay => b.claim) (fun _ _ => rfl)]
    exact Tab.get_const _ _
  have hno : ∀ r, d.owner r = none := fun r => by unfold Bay.owner; rw [hcl]
  have hcs : ∀ j r, (d.claims j).has r = false := fun j r => by
    have : ∀ r, ClaimSet.has ⟨0, 0, 0⟩ r = false := by decide
    unfold Bay.claims; rw [hr]; exact this r
  have hq : d.claim.queue = c.claim.queue := by
    rw [← hd]
    rw [eachOf_same (f := fun (k : Fin 6) (b : Bay) => b.updRun k (fun _ => RunRec.free)) (g := fun b : Bay => b.claim) (fun _ _ => rfl)]
  have hs : d.trigger.schedule = c.trigger.schedule := by
    rw [← hd]
    rw [eachOf_same (f := fun (k : Fin 6) (b : Bay) => b.updRun k (fun _ => RunRec.free)) (g := fun b : Bay => b.trigger) (fun _ _ => rfl)]
  rw [Bay.inv_iff]
  refine ⟨⟨fun r k h => ?_, fun r k => ?_, fun r => ?_, fun r _ => ?_, fun k => ?_, fun k _ => hr k, fun k h => ?_, fun k j _ h => ?_⟩,
    ⟨hq ▸ q.length, hq ▸ q.sorted, hq ▸ q.slots, fun e _ => ?_, hs ▸ q.planned, hs ▸ q.plans⟩⟩
  · rw [hno] at h; cases h
  · rw [hcl, hcs]; simp
  · rw [hno, hcl]; exact List.Pairwise.nil
  · rw [hcl]
  · rw [hr]
    refine iff_of_false (by decide) ?_
    rw [Bool.not_eq_false, whole_iff]
    intro r h; rw [hcs] at h; cases h
  · rw [hr] at h; exact absurd rfl h
  · rw [hr] at h; exact absurd rfl h
  · rw [carrier_none_iff]; intro k h; rw [hr] at h; exact absurd rfl h

/-! ### Requests (R121 to R123) -/

theorem insertEntry_perm (e : QueueEntry) : ∀ l : List QueueEntry, (insertEntry e l).Perm (e :: l)
  | [] => .refl _
  | x :: l => by
    unfold insertEntry
    split
    · exact .refl _
    · exact ((insertEntry_perm e l).cons x).trans (.swap e x l)

theorem insertEntry_sorted (e : QueueEntry) : ∀ l : List QueueEntry, (l.map (·.priority)).Pairwise (· ≥ ·) →
    ((insertEntry e l).map (·.priority)).Pairwise (· ≥ ·)
  | [], _ => List.pairwise_singleton _ _
  | x :: l, h => by
    rw [List.map_cons, List.pairwise_cons] at h
    unfold insertEntry
    split
    · next hx =>
      rw [List.map_cons, List.map_cons, List.pairwise_cons, List.pairwise_cons]
      refine ⟨fun p hp => ?_, h⟩
      rcases List.mem_cons.mp hp with rfl | hp
      · exact Nat.le_of_lt hx
      · exact Nat.le_trans (h.1 p hp) (Nat.le_of_lt hx)
    · next hx =>
      rw [List.map_cons, List.pairwise_cons]
      refine ⟨fun p hp => ?_, insertEntry_sorted e l h.2⟩
      obtain ⟨y, hy, rfl⟩ := List.mem_map.mp hp
      rcases List.mem_cons.mp ((insertEntry_perm e l).subset hy) with rfl | hy
      · exact Nat.le_of_not_lt hx
      · exact h.1 _ (List.mem_map_of_mem hy)

theorem tame_latch (b : Bay) (e : ErrItem) : Tame b (b.latch e) := .of_rest rfl rfl rfl rfl

theorem stays_waitOrNot (q : Request) (t : Tables) (b : Bay) (hc : b.carrier q.slot = none) :
    Stays b (waitOrNot q t b).2 := by
  unfold waitOrNot
  dsimp only
  split
  · exact .refl b
  · split
    · exact .refl b
    · next hq =>
      split
      · exact (tame_latch b _).stays
      · next hl =>
        generalize he : (⟨q.slot, q.origin, (t.scene.get q.slot).priority.val, b.time,
          deadline b.time (t.scene.get q.slot).waitLimit.val⟩ : QueueEntry) = e
        have hes : e.slot = q.slot := by rw [← he]
        intro hb
        rw [Bay.inv_iff] at hb ⊢
        obtain ⟨a, o⟩ := hb
        have hp := insertEntry_perm e b.claim.queue
        refine ⟨agree_of_rest (b := b) (b.setQueue _) rfl rfl a, ⟨?_, insertEntry_sorted e _ o.sorted, ?_, fun x hx => ?_,
          o.planned, o.plans⟩⟩
        · exact hp.length_eq.trans_le (by simp only [List.length_cons]; omega)
        · refine (hp.map _).nodup_iff.mpr ?_
          rw [List.map_cons, List.nodup_cons]
          refine ⟨fun hm => hq ?_, o.slots⟩
          obtain ⟨y, hy, hys⟩ := List.mem_map.mp hm
          exact (queued_isSome_iff b q.slot).mpr ⟨y, hy, hys.trans hes⟩
        · rcases List.mem_cons.mp (hp.subset hx) with rfl | hx
          · rw [hes]; exact hc
          · exact o.idle x hx

theorem stays_decideRequest (q : Request) (t : Tables) (b : Bay) : Stays b (decideRequest q t b).2 := by
  unfold decideRequest
  split
  · exact .refl b
  · split
    · next k hk =>
      split
      · dsimp only
        refine stays_restart stays_endRun k q.origin t b ?_
        have := List.find?_some hk
        simp only [Bool.and_eq_true, bne_iff_ne] at this
        exact this.1
      · exact .refl b
    · next hc =>
      split
      · next k ha =>
        dsimp only
        exact stays_admitScene stays_endRun k q.slot q.origin t b ha hc
      · exact stays_waitOrNot q t b hc

theorem stays_takeRequest (q : Request) (t : Tables) (b : Bay) : Stays b (takeRequest q t b) := by
  unfold takeRequest
  exact (stays_decideRequest q t b).trans (tame_reportFirst _ _ _).stays

theorem tame_inFlight (b : Bay) (l : List Request) : Tame b { b with claim := { b.claim with inFlight := l } } :=
  .of_rest rfl rfl rfl rfl

theorem stays_drainFuel (t : Tables) : ∀ (n : Nat) (b : Bay), Stays b (drainFuel t n b)
  | 0, b => .refl b
  | n + 1, b => by
    unfold drainFuel
    split
    · exact .refl b
    · next q rest _ => exact ((tame_inFlight b rest).stays.trans (stays_takeRequest q t _)).trans (stays_drainFuel t n _)

theorem stays_drain (t : Tables) (b : Bay) : Stays b (drain t b) := stays_drainFuel t _ b

theorem stays_expiryCheck (b : Bay) : Stays b (expiryCheck b) := by
  unfold expiryCheck
  exact (stays_setQueue_sublist b List.filter_sublist).trans
    (tame_eachOf (fun (e : QueueEntry) b => tame_reportSecond e.origin false b) _ _).stays

theorem stays_claimMillisecond (t : Tables) (b : Bay) : Stays b (claimMillisecond t b) := by
  have h : Tame b (countGuards b) := tame_each (fun k b => tame_updRun b k _ rfl rfl rfl (fun e => by rw [e]; rfl)) b
  exact (h.stays.trans (stays_expiryCheck _)).trans (stays_scan stays_endRun t _)

theorem stays_guardExpiry (k : Fin 6) (t : Tables) (b : Bay) : Stays b (guardExpiry k t b) :=
  stays_ite (stays_scan stays_endRun t b) (.refl b)

theorem stays_stopScene (s : Fin 32) (t : Tables) (b : Bay) : Stays b (stopScene s t b) := by
  unfold stopScene
  split
  · exact stays_endRun _ _ t b
  · exact stays_withdraw s b

/-! ### Cues and the mode (R145 to R151) -/

theorem tame_request (b : Bay) (q : Request) : Tame b (b.request q) := .of_rest rfl rfl rfl rfl
theorem tame_setMode (b : Bay) (m : Mode) : Tame b (b.setMode m) := .of_rest rfl rfl rfl rfl
theorem tame_restAll (t : Tables) (b : Bay) : Tame b (restAll t b) := tame_each (fun n b => tame_updTrigger b n _) b
theorem stays_emptyQueues (b : Bay) : Stays b (emptyQueues b) :=
  (stays_setSchedule_sublist b (List.nil_sublist _)).trans (stays_setQueue_sublist _ (List.nil_sublist _))

theorem stays_haltAll (t : Tables) (b : Bay) : Stays b (haltAll t b) := by
  unfold haltAll
  split
  · exact .refl b
  · exact ((stays_emptyQueues b).trans (tame_restAll t _).stays).trans (stays_endAll _ t _)

theorem stays_enterDark (t : Tables) (b : Bay) : Stays b (enterDark t b) := by
  unfold enterDark
  split
  · exact .refl b
  · exact (((tame_setMode b _).stays.trans (stays_emptyQueues _)).trans (tame_restAll t _).stays).trans (stays_endAll _ t _)

theorem tame_armEnabled (t : Tables) (b : Bay) : Tame b (armEnabled t b) :=
  tame_each (fun n b => tame_ite (tame_updTrigger b n _) (.refl b)) b

theorem tame_enterShow (t : Tables) (b : Bay) : Tame b (enterShow t b) := by
  unfold enterShow
  split
  · exact .refl b
  · exact (tame_setMode b _).trans (tame_armEnabled t _)

theorem placeEntry_perm (now : ShowTime) (e : ScheduleEntry) : ∀ l : List ScheduleEntry, (placeEntry now e l).Perm (e :: l)
  | [] => .refl _
  | x :: l => by
    unfold placeEntry
    split
    · exact .refl _
    · exact ((placeEntry_perm now e l).cons x).trans (.swap e x l)

theorem stays_scheduleGo (slot : Fin 32) (time : ShowTime) (b : Bay) : Stays b (scheduleGo slot time b) := by
  unfold scheduleGo
  dsimp only
  split
  · next hl =>
    intro hb
    rw [Bay.inv_iff] at hb ⊢
    obtain ⟨a, o⟩ := hb
    have hp := placeEntry_perm b.time ⟨slot, time⟩ (b.trigger.schedule.filter (fun e => e.slot != slot))
    refine ⟨agree_of_rest (b := b) (b.setSchedule _) rfl rfl a, ⟨o.length, o.sorted, o.slots, o.idle, ?_, ?_⟩⟩
    · exact hp.length_eq.trans_le (by simp only [List.length_cons]; omega)
    · refine (hp.map _).nodup_iff.mpr ?_
      rw [List.map_cons, List.nodup_cons]
      refine ⟨?_, o.plans.sublist (List.filter_sublist.map _)⟩
      simp
  · exact (tame_latch b _).stays

theorem stays_takeGo (cue : BitVec 16) (time : Option ShowTime) (t : Tables) (b : Bay) : Stays b (takeGo cue time t b) := by
  unfold takeGo
  split
  · split
    · exact stays_scheduleGo _ _ b
    · exact (stays_setSchedule_sublist b List.filter_sublist).trans (tame_request _ _).stays
  · exact .refl b

theorem stays_checkSchedule (b : Bay) : Stays b (checkSchedule b) := by
  unfold checkSchedule
  exact (stays_setSchedule_sublist b List.filter_sublist).trans (tame_eachOf (fun e b => tame_request b _) _ _).stays

/-! ### The axis unit's reports (R81, R82, R109) -/

theorem stays_reportHeld (a : Fin 4) (was : AxisState) (t : Tables) (b : Bay) : Stays b (reportHeld a was t b) := by
  unfold reportHeld
  dsimp only
  split
  · exact .refl b
  · exact stays_ite ((tame_addHeld _ b).trans (tame_duckExamine t _)).stays
      (stays_ite (stays_removeHeld stays_endRun _ t b) (.refl b))
theorem stays_reportSettled (a : Fin 4) (t : Tables) (b : Bay) : Stays b (reportSettled a t b) := by
  refine stays_each (fun k b => ?_) b
  split
  · exact stays_ite (stays_testGate stays_endRun k t b) (.refl b)
  · exact .refl b
theorem stays_report (a : Fin 4) (before : Bay) (t : Tables) (b : Bay) : Stays b (report a before t b) :=
  (stays_reportHeld a _ t b).trans (stays_ite (stays_reportSettled a t _) (.refl _))
theorem tame_updAxis (b : Bay) (a : Fin 4) (f : Axis → Axis) : Tame b (b.updAxis a f) := .of_rest rfl rfl rfl rfl
theorem tame_updProx (b : Bay) (p : Fin 4) (f : Prox → Prox) : Tame b (b.updProx p f) := .of_rest rfl rfl rfl rfl
theorem stays_faultAxis (r : AxisFault) (a : Fin 4) (t : Tables) (b : Bay) : Stays b (faultAxis r a t b) := by
  have h : ∀ b : Bay, Stays b (match b.owner (axisRes a) with
      | some k => endRun k .axisFault t b
      | none => b) := by
    intro b
    split
    · exact stays_endRun _ _ t _
    · exact .refl _
  refine Stays.trans ?_ (h _)
  refine Stays.trans ?_ (stays_ite (.refl _) (tame_latch _ _).stays)
  exact ((tame_updAxis b a _).trans (tame_holdAxis none t a _)).stays
theorem tame_issue (n : Int) (t : Tables) (a : Fin 4) (b : Bay) : Tame b (issue n t a b) := tame_updAxis b a _
theorem tame_stepToward (c : Int) (t : Tables) (a : Fin 4) (b : Bay) : Tame b (stepToward c t a b) :=
  tame_ite (tame_issue _ t a b) (.refl b)
theorem tame_arrive (c : Int) (a : Fin 4) (b : Bay) : Tame b (arrive c a b) := tame_ite (tame_updAxis b a _) (.refl b)
theorem stays_motionUpdate (a : Fin 4) (t : Tables) (b : Bay) : Stays b (motionUpdate a t b) := by
  unfold motionUpdate
  exact (tame_stepToward _ t a b).stays.trans
    (stays_ite (stays_faultAxis _ a t _) ((tame_arrive _ a _).stays.trans (stays_report a b t _)))
theorem tame_homingSteps (sign : Int) (a : Fin 4) (t : Tables) (b : Bay) : Tame b (homingSteps sign a t b) :=
  (tame_issue _ t a b).trans (tame_updAxis _ a _)
theorem stays_homingUpdate (home : Bool) (a : Fin 4) (t : Tables) (b : Bay) : Stays b (homingUpdate home a t b) := by
  unfold homingUpdate
  dsimp only
  split
  · exact .refl b
  · exact stays_ite (tame_updAxis b a _).stays (stays_ite (stays_faultAxis _ a t b) (tame_homingSteps _ a t b).stays)
  · exact stays_ite (tame_updAxis b a _).stays (stays_ite (stays_faultAxis _ a t b) (tame_homingSteps _ a t b).stays)
theorem stays_axisUpdate (home : BitVec 4) (a : Fin 4) (t : Tables) (b : Bay) : Stays b (axisUpdate home a t b) := by
  unfold axisUpdate
  dsimp only
  split
  · exact stays_motionUpdate a t b
  · exact stays_motionUpdate a t b
  · exact stays_motionUpdate a t b
  · exact stays_ite (stays_homingUpdate _ a t b) (.refl b)
  · exact .refl b
  · exact .refl b
theorem stays_enterHoming (home : Bool) (a : Fin 4) (t : Tables) (b : Bay) : Stays b (enterHoming home a t b) :=
  ((tame_holdAxis _ t a b).trans (tame_updAxis _ a _)).stays.trans (stays_report a b t _)
theorem stays_holdBy (p a : Fin 4) (t : Tables) (b : Bay) : Stays b (holdBy p a t b) :=
  (tame_updAxis b a _).stays.trans (stays_report a b t _)
theorem stays_unholdBy (p a : Fin 4) (t : Tables) (b : Bay) : Stays b (unholdBy p a t b) :=
  (tame_updAxis b a _).stays.trans (stays_report a b t _)
theorem stays_proxClear (p : Fin 4) (t : Tables) (b : Bay) : Stays b (proxClear p t b) :=
  (tame_updProx b p _).stays.trans (stays_eachOf (fun a b => stays_unholdBy p a t b) _ _)
theorem stays_proxActive (p : Fin 4) (t : Tables) (b : Bay) : Stays b (proxActive p t b) := by
  unfold proxActive
  split
  · exact (tame_updProx b p _).stays.trans (stays_eachOf (fun a b => stays_holdBy p a t b) _ _)
  · exact (tame_updProx b p _).stays
  · exact .refl b
theorem stays_proxInactive (p : Fin 4) (t : Tables) (b : Bay) : Stays b (proxInactive p t b) := by
  unfold proxInactive
  split
  · exact stays_ite (stays_proxClear p t b) (tame_updProx b p _).stays
  · exact .refl b
  · exact .refl b
theorem stays_clearDelayEnd (p : Fin 4) (t : Tables) (b : Bay) : Stays b (clearDelayEnd p t b) :=
  stays_ite (stays_proxClear p t b) (.refl b)
theorem stays_proxWritten (p : Fin 4) (old new : BitVec 4) (t : Tables) (b : Bay) : Stays b (proxWritten p old new t b) :=
  stays_ite (.refl b) (stays_each (fun a b => stays_ite (stays_holdBy p a t b) (stays_ite (stays_unholdBy p a t b)
    (.refl b))) b)
theorem stays_axisMillisecond (home : BitVec 4) (t : Tables) (b : Bay) : Stays b (axisMillisecond home t b) :=
  ((tame_each (fun a b => tame_updAxis b a _) b).stays.trans (stays_each (fun a b => stays_axisUpdate home a t b) _)).trans
    (stays_each (fun p b => (tame_updProx b p _).stays.trans (stays_clearDelayEnd p t _)) _)

/-! ### The other units -/

theorem tame_keepPins (levels : BitVec 12) (b : Bay) : Tame b (keepPins levels b) := .of_rest rfl rfl rfl rfl
theorem tame_notify (b : Bay) (n : Notice) : Tame b (b.notify n) := by
  unfold Bay.notify
  split
  · exact .of_rest rfl rfl rfl rfl
  · exact tame_latch b _
theorem tame_press (n : Fin 12) (t : Tables) (b : Bay) : Tame b (press n t b) := by
  unfold press
  dsimp only
  split
  · have h : Tame b (match (t.trigger.get n).slot with
        | some slot => (b.updTrigger n (fun x => { x with pending := true })).request ⟨slot, .trigger n⟩
        | none => b) := by
      split
      · exact (tame_updTrigger b n _).trans (tame_request _ _)
      · exact .refl b
    exact h.trans (tame_ite (tame_notify _ _) (.refl _))
  · exact .refl b
theorem tame_countTriggers (b : Bay) : Tame b (countTriggers b) := tame_each (fun n b => tame_updTrigger b n _) b
theorem tame_arm (n : Fin 12) (t : Tables) (b : Bay) : Tame b (arm n t b) := tame_ite (tame_updTrigger b n _) (.refl b)
theorem tame_disarm (n : Fin 12) (b : Bay) : Tame b (disarm n b) := tame_updTrigger b n _
theorem tame_disarmDisabled (t : Tables) (n : Fin 12) (b : Bay) : Tame b (disarmDisabled t n b) := by
  unfold disarmDisabled
  split
  · exact .refl b
  · exact tame_disarm n b
theorem tame_takeNotice (origin : Nat) (kind : NoticeKind) (number : Byte) (t : Tables) (b : Bay) :
    Tame b (takeNotice origin kind number t b) := by
  unfold takeNotice
  split
  · exact tame_request b _
  · exact .refl b
theorem tame_updFixture (b : Bay) (i : Fin 16) (f : FixtureRun → FixtureRun) : Tame b (b.updFixture i f) := .of_rest rfl rfl rfl rfl
theorem tame_takeLevels (u c fade : Nat) (l : List Byte) (t : Tables) (b : Bay) : Tame b (takeLevels u c fade l t b) :=
  tame_each (fun i b => tame_updFixture b i _) b
theorem tame_updVoice (b : Bay) (v : Fin 6) (f : Voice → Voice) : Tame b (b.updVoice v f) := .of_rest rfl rfl rfl rfl
theorem tame_updZone (b : Bay) (z : Fin 2) (f : ZoneRun → ZoneRun) : Tame b (b.updZone z f) := .of_rest rfl rfl rfl rfl
theorem tame_refillDone (v : Fin 6) (l : List Sample) (t : Tables) (b : Bay) : Tame b (refillDone v l t b) := by
  unfold refillDone
  split
  · exact .refl b
  · exact (tame_updVoice b v _).trans (tame_duckExamine t _)
theorem tame_clearReadClips (i n : Nat) (b : Bay) : Tame b (clearReadClips i n b) :=
  tame_each (fun z b => tame_ite (tame_updZone b z _) (.refl b)) b
theorem tame_axisWritten (old new : AxisCfg) (a : Fin 4) (b : Bay) : Tame b (axisWritten old new a b) :=
  tame_ite (tame_updAxis b a _) (.refl b)
theorem tame_countQuad (n : Int) (a : Fin 4) (t : Tables) (b : Bay) : Tame b (countQuad n a t b) := by
  unfold countQuad
  split
  · exact tame_updAxis b a _
  · exact .refl b
theorem tame_clearAxisFault (a : Fin 4) (b : Bay) : Tame b (clearAxisFault a b) := tame_ite (tame_updAxis b a _) (.refl b)
theorem tame_drawVoices (b : Bay) : Tame b (drawVoices b) := by
  unfold drawVoices
  have h : Tame b (each 6 (fun v b => if (b.voiceRec v).sounds then b.updVoice v Voice.draw else b) b) :=
    tame_each (fun v b => tame_ite (tame_updVoice b v _) (.refl b)) b
  exact h.trans (tame_ite (tame_latch _ _) (.refl _))
theorem tame_mixZone (r : Int) (z : Zone) (b : Bay) : Tame b (mixZone r z b) := by
  unfold mixZone
  exact (tame_updZone b z.idx _).trans (tame_ite (.refl _) (tame_latch _ _))
theorem tame_audioEvent (started : Bool) (t : Tables) (b : Bay) : Tame b (audioEvent started t b) := by
  unfold audioEvent
  dsimp only
  refine Tame.trans ?_ (tame_duckExamine t _)
  refine Tame.trans ?_ (tame_eachOf tame_voiceIdle _ _)
  exact (tame_drawVoices b).trans ((tame_mixZone _ .a _).trans (tame_mixZone _ .b _))

/-- Start-up in the bay (R84, R89, R137, R150). -/
theorem stays_startBay (home active : BitVec 4) (trigPins : BitVec 12) (t : Tables) (b : Bay) :
    Stays b (startBay home active trigPins t b) := by
  unfold startBay
  have h : ∀ b, Stays b (startMode t b) := fun b => by
    unfold startMode
    split
    · exact .refl b
    · exact stays_enterDark t b
  refine Stays.trans ?_ (h _)
  refine Stays.trans ?_ ((tame_keepPins trigPins _).trans (tame_armEnabled t _)).stays
  refine Stays.trans ?_ (stays_each (fun a b => stays_ite (stays_enterHoming _ a t b) (.refl b)) _)
  exact (tame_each (fun a b => tame_updAxis b a _) b).stays.trans (stays_eachOf (fun p b => stays_proxActive p t b) _ _)

end Sys2Proof.Machine
end

