-- ==== Sys2Proof/Laws/Frame.lean ====
section
/-! SUPPORT. The frame of every command: the parts of the state in a list, and for each command the parts it may change. -/

namespace Sys2Proof.Machine

/-! ### Parts -/

/-- The parts of the state that a frame speaks of. -/
inductive Part
  | queue | serial | flash | image | tables | record | staging | buffer | protect | time | duty | mode | audio | latched | schedule
  | ledger
deriving DecidableEq, Repr

/-- A part is as it was; of the latched half, no item is lost; the schedule keeps its order and gains nothing (R146); the claim
table, the run records and the two queues keep their invariant. -/
def Part.same : Part → State → State → Prop
  | .queue, s, t => t.pending = s.pending
  | .serial, s, t => t.serial = s.serial
  | .flash, s, t => t.flash = s.flash
  | .image, s, t => t.storeCut = s.storeCut
  | .tables, s, t => t.tables = s.tables
  | .record, s, t => t.tables.protect = s.tables.protect
  | .staging, s, t => t.staging = s.staging
  | .buffer, s, t => t.port.buffer = s.port.buffer
  | .protect, s, t => t.mgmt.protectState = s.mgmt.protectState
  | .time, s, t => t.bay.time = s.bay.time
  | .duty, s, t => t.bay.fixture.duty = s.bay.fixture.duty
  | .mode, s, t => t.bay.trigger.mode = s.bay.trigger.mode
  | .audio, s, t => ∀ z, (t.bay.voice.zone.get z).sent = (s.bay.voice.zone.get z).sent ∧
      (t.bay.voice.zone.get z).formed = (s.bay.voice.zone.get z).formed
  | .latched, s, t => ∀ i, s.bay.latched.getLsbD i = true → t.bay.latched.getLsbD i = true
  | .schedule, s, t => t.bay.trigger.schedule.Sublist s.bay.trigger.schedule
  | .ledger, s, t => Stays s.bay t.bay

/-- Every part outside `e` is as it was. -/
def Keeps (e : List Part) (s t : State) : Prop := ∀ p, p ∉ e → p.same s t

theorem Part.same_refl (p : Part) (s : State) : p.same s s := by cases p <;> simp [Part.same, Stays]

theorem Part.same_trans (p : Part) {s t u : State} (h : p.same s t) (k : p.same t u) : p.same s u := by
  cases p <;> simp only [Part.same] at *
  case audio => exact fun z => ⟨(k z).1.trans (h z).1, (k z).2.trans (h z).2⟩
  case latched => exact fun i hi => k i (h i hi)
  case ledger => exact Stays.trans h k
  all_goals exact k.trans h

theorem Keeps.refl {e : List Part} (s : State) : Keeps e s s := fun p _ => p.same_refl s

theorem Keeps.trans {e : List Part} {s t u : State} (h : Keeps e s t) (k : Keeps e t u) : Keeps e s u :=
  fun p hp => p.same_trans (h p hp) (k p hp)

theorem Keeps.mono {e e' : List Part} {s t : State} (h : Keeps e s t) (hs : e ⊆ e') : Keeps e' s t :=
  fun p hp => h p (fun hq => hp (hs hq))

/-- What changes no part. -/
theorem Keeps.all {e : List Part} {s t : State} (h : Keeps [] s t) : Keeps e s t := h.mono (List.nil_subset e)

theorem keeps_ite {e : List Part} {c : Prop} [Decidable c] {s x y : State} (hx : Keeps e s x) (hy : Keeps e s y) :
    Keeps e s (if c then x else y) := by split <;> assumption

theorem keeps_eachOf {ι : Type} {e : List Part} {f : ι → State → State} (h : ∀ i s, Keeps e s (f i s)) (l : List ι)
    (s : State) : Keeps e s (eachOf l f s) := eachOf_keeps (P := Keeps e s) (fun i c hc => hc.trans (h i c)) l s (Keeps.refl s)

/-- An update whose parts outside `e` are the old ones by definition. -/
theorem Keeps.of_eq {e : List Part} {s t : State} (h : ∀ p, p ∉ e → p.same s t) : Keeps e s t := h

/-! ### The bay -/

/-- What an action of any block of the bay leaves, but for the mode. -/
structure Runs (b b' : Bay) : Prop where
  time : b'.time = b.time
  duty : b'.fixture.duty = b.fixture.duty
  formed : ∀ z, (b'.voice.zone.get z).formed = (b.voice.zone.get z).formed
  sent : ∀ z, (b'.voice.zone.get z).sent = (b.voice.zone.get z).sent
  latched : ∀ i, b.latched.getLsbD i = true → b'.latched.getLsbD i = true

/-- What an action of any block of the bay leaves, with the mode. -/
structure Plays (b b' : Bay) : Prop extends Runs b b' where
  mode : b'.trigger.mode = b.trigger.mode

theorem Acts.plays {b b' : Bay} (h : Acts b b') : Plays b b' := ⟨⟨h.time, h.duty, h.formed, h.sent, h.latched⟩, h.mode⟩

theorem Runs.trans {a b c : Bay} (h : Runs a b) (k : Runs b c) : Runs a c :=
  ⟨k.time.trans h.time, k.duty.trans h.duty, fun z => (k.formed z).trans (h.formed z), fun z => (k.sent z).trans (h.sent z),
    fun i hi => k.latched i (h.latched i hi)⟩

theorem Plays.refl (b : Bay) : Plays b b := (Acts.refl b).plays

theorem Plays.trans {a b c : Bay} (h : Plays a b) (k : Plays b c) : Plays a c :=
  ⟨h.toRuns.trans k.toRuns, k.mode.trans h.mode⟩

/-- An update of parts that `Plays` does not speak of. -/
theorem Plays.of_parts {b b' : Bay} (time : b'.time = b.time) (duty : b'.fixture.duty = b.fixture.duty)
    (zone : b'.voice.zone = b.voice.zone) (mode : b'.trigger.mode = b.trigger.mode) (latched : b'.latched = b.latched) :
    Plays b b' :=
  ⟨⟨time, duty, fun z => by rw [zone], fun z => by rw [zone], fun i h => latched ▸ h⟩, mode⟩

/-- What an action of any block of the bay leaves, with the mode and the schedule's order, and the invariant of the claim table,
the run records and the two queues. -/
structure Moves (b b' : Bay) : Prop extends Plays b b' where
  schedule : b'.trigger.schedule.Sublist b.trigger.schedule
  stays : Stays b b'

theorem Moves.refl (b : Bay) : Moves b b := ⟨.refl b, .refl _, .refl b⟩

theorem Moves.trans {a b c : Bay} (h : Moves a b) (k : Moves b c) : Moves a c :=
  ⟨h.toPlays.trans k.toPlays, k.schedule.trans h.schedule, h.stays.trans k.stays⟩

theorem Acts.moves {b b' : Bay} (h : Acts b b') (g : Stays b b') : Moves b b' := ⟨h.plays, by rw [h.schedule], g⟩

theorem Plays.moves {b b' : Bay} (h : Plays b b') (g : Tame b b') : Moves b b' := ⟨h, by rw [g.schedule], g.stays⟩

theorem plays_eachOf {ι : Type} {f : ι → Bay → Bay} (h : ∀ i b, Plays b (f i b)) (l : List ι) (b : Bay) :
    Plays b (eachOf l f b) := eachOf_keeps (P := Plays b) (fun i c hc => hc.trans (h i c)) l b (Plays.refl b)

theorem plays_each {n : Nat} {f : Fin n → Bay → Bay} (h : ∀ i b, Plays b (f i b)) (b : Bay) : Plays b (each n f b) :=
  plays_eachOf h _ b

theorem plays_request (b : Bay) (q : Request) : Plays b (b.request q) := .of_parts rfl rfl rfl rfl rfl
theorem plays_setSchedule (b : Bay) (l : List ScheduleEntry) : Plays b (b.setSchedule l) := .of_parts rfl rfl rfl rfl rfl
theorem plays_keepPins (levels : BitVec 12) (b : Bay) : Plays b (keepPins levels b) := .of_parts rfl rfl rfl rfl rfl

theorem plays_notify (b : Bay) (n : Notice) : Plays b (b.notify n) := by
  unfold Bay.notify
  split
  · exact .of_parts rfl rfl rfl rfl rfl
  · exact (acts_latch b _).plays

theorem plays_reportFirst (o : Origin) (x : ReqOutcome) (b : Bay) : Plays b (reportFirst o x b) := by
  unfold reportFirst
  split
  · exact (acts_firstOutcome _ _ b).plays
  · exact .of_parts rfl rfl rfl rfl rfl
  all_goals exact Plays.refl b

theorem plays_waitOrNot (q : Request) (t : Tables) (b : Bay) : Plays b (waitOrNot q t b).2 := by
  unfold waitOrNot
  dsimp only
  split
  · exact Plays.refl b
  · split
    · exact Plays.refl b
    · split
      · exact (acts_latch b _).plays
      · exact (acts_setQueue b _).plays

theorem plays_decideRequest (q : Request) (t : Tables) (b : Bay) : Plays b (decideRequest q t b).2 := by
  unfold decideRequest
  split
  · exact Plays.refl b
  · split
    · next k _ =>
      split
      · dsimp only
        exact (acts_restart acts_endRun k q.origin t b).plays
      · exact Plays.refl b
    · split
      · next k _ =>
        dsimp only
        exact (acts_admitScene acts_endRun k q.slot q.origin t b).plays
      · exact plays_waitOrNot q t b

theorem plays_takeRequest (q : Request) (t : Tables) (b : Bay) : Plays b (takeRequest q t b) := by
  unfold takeRequest
  exact (plays_decideRequest q t b).trans (plays_reportFirst _ _ _)

theorem plays_inFlight (b : Bay) (l : List Request) : Plays b { b with claim := { b.claim with inFlight := l } } :=
  .of_parts rfl rfl rfl rfl rfl

theorem drainFuel_succ (t : Tables) (n : Nat) (b : Bay) : drainFuel t (n + 1) b =
    match b.claim.inFlight with
    | [] => b
    | q :: rest => drainFuel t n (takeRequest q t { b with claim := { b.claim with inFlight := rest } }) := rfl

theorem plays_drainFuel (t : Tables) (n : Nat) (b : Bay) : Plays b (drainFuel t n b) := by
  induction n generalizing b with
  | zero => exact Plays.refl b
  | succ n ih =>
    rw [drainFuel_succ]
    split
    · exact Plays.refl b
    · next q rest _ => exact ((plays_inFlight b rest).trans (plays_takeRequest q t _)).trans (ih _)

theorem plays_drain (t : Tables) (b : Bay) : Plays b (drain t b) := plays_drainFuel t _ b

/-- The request that a press makes. -/
def pressRequest (n : Fin 12) (slot : Option (Fin 32)) (b : Bay) : Bay :=
  match slot with
  | some slot => (b.updTrigger n (fun x => { x with pending := true })).request ⟨slot, .trigger n⟩
  | none => b

theorem plays_pressRequest (n : Fin 12) (slot : Option (Fin 32)) (b : Bay) : Plays b (pressRequest n slot b) := by
  cases slot
  · exact Plays.refl b
  · exact (acts_updTrigger b n _).plays.trans (plays_request _ _)

/-- A press in SHOW mode on an ARMED trigger that waits for no outcome. -/
theorem press_of_ready (n : Fin 12) (t : Tables) (b : Bay) (hm : b.trigger.mode = .showMode)
    (ha : (b.triggerRec n).state = .armed) (hp : (b.triggerRec n).pending = false) :
    press n t b =
      if (t.trigger.get n).broadcast then
        (pressRequest n (t.trigger.get n).slot b).notify ⟨.trigger, BitVec.ofNat 8 n.val⟩
      else pressRequest n (t.trigger.get n).slot b := by
  unfold press pressRequest
  simp only [hm, ha, hp, decide_true, Bool.not_false, Bool.and_true, if_true] <;> rfl

/-- Any other press changes nothing. -/
theorem press_of_not (n : Fin 12) (t : Tables) (b : Bay)
    (h : ¬ (b.trigger.mode = .showMode ∧ (b.triggerRec n).state = .armed ∧ (b.triggerRec n).pending = false)) :
    press n t b = b := by
  unfold press
  have : (decide (b.trigger.mode = .showMode) && decide ((b.triggerRec n).state = .armed) && !(b.triggerRec n).pending) = false := by
    rw [Bool.eq_false_iff]
    intro hc
    simp only [Bool.and_eq_true, decide_eq_true_eq, Bool.not_eq_true'] at hc
    exact h ⟨hc.1.1, hc.1.2, hc.2⟩
  simp only [this, Bool.false_eq_true, if_false]

theorem plays_press (n : Fin 12) (t : Tables) (b : Bay) : Plays b (press n t b) := by
  by_cases h : b.trigger.mode = .showMode ∧ (b.triggerRec n).state = .armed ∧ (b.triggerRec n).pending = false
  · rw [press_of_ready n t b h.1 h.2.1 h.2.2]
    split
    · exact (plays_pressRequest _ _ b).trans (plays_notify _ _)
    · exact plays_pressRequest _ _ b
  · rw [press_of_not n t b h]
    exact Plays.refl b

theorem plays_countTriggers (b : Bay) : Plays b (countTriggers b) := plays_each (fun n b => (acts_updTrigger b n _).plays) b

theorem plays_arm (n : Fin 12) (t : Tables) (b : Bay) : Plays b (arm n t b) := by
  unfold arm
  split
  · exact (acts_updTrigger b n _).plays
  · exact Plays.refl b

theorem plays_disarm (n : Fin 12) (b : Bay) : Plays b (disarm n b) := (acts_updTrigger b n _).plays

theorem plays_armEnabled (t : Tables) (b : Bay) : Plays b (armEnabled t b) :=
  plays_each (fun n b => by
    split
    · exact (acts_updTrigger b n _).plays
    · exact Plays.refl b) b

theorem plays_restAll (t : Tables) (b : Bay) : Plays b (restAll t b) :=
  plays_each (fun n b => (acts_updTrigger b n _).plays) b

theorem plays_takeNotice (origin : Nat) (kind : NoticeKind) (number : Byte) (t : Tables) (b : Bay) :
    Plays b (takeNotice origin kind number t b) := by
  unfold takeNotice
  split
  · exact plays_request b _
  · exact Plays.refl b

theorem plays_takeGo (cue : BitVec 16) (time : Option ShowTime) (t : Tables) (b : Bay) : Plays b (takeGo cue time t b) := by
  unfold takeGo
  split
  · split
    · unfold scheduleGo
      dsimp only
      split
      · exact plays_setSchedule _ _
      · exact (acts_latch b _).plays
    · exact (plays_setSchedule _ _).trans (plays_request _ _)
  · exact Plays.refl b

theorem plays_checkSchedule (b : Bay) : Plays b (checkSchedule b) := by
  unfold checkSchedule
  exact (plays_setSchedule b _).trans (plays_eachOf (fun e b => plays_request b _) _ _)

theorem plays_emptyQueues (b : Bay) : Plays b (emptyQueues b) := .of_parts rfl rfl rfl rfl rfl

theorem plays_haltAll (t : Tables) (b : Bay) : Plays b (haltAll t b) := by
  unfold haltAll
  split
  · exact Plays.refl b
  · exact (plays_emptyQueues b).trans ((plays_restAll t _).trans (acts_endAll _ t _).plays)

theorem runs_setMode (b : Bay) (m : Mode) : Runs b (b.setMode m) :=
  ⟨rfl, rfl, fun _ => rfl, fun _ => rfl, fun _ h => h⟩

theorem runs_enterDark (t : Tables) (b : Bay) : Runs b (enterDark t b) := by
  unfold enterDark
  split
  · exact (Plays.refl b).toRuns
  · exact (runs_setMode b _).trans ((plays_emptyQueues _).trans ((plays_restAll t _).trans (acts_endAll _ t _).plays)).toRuns

theorem runs_enterShow (t : Tables) (b : Bay) : Runs b (enterShow t b) := by
  unfold enterShow
  split
  · exact (Plays.refl b).toRuns
  · exact (runs_setMode b _).trans (plays_armEnabled t _).toRuns

theorem plays_updFixture (b : Bay) (i : Fin 16) (f : FixtureRun → FixtureRun) : Plays b (b.updFixture i f) :=
  .of_parts rfl rfl rfl rfl rfl

theorem plays_takeLevels (u c fade : Nat) (l : List Byte) (t : Tables) (b : Bay) : Plays b (takeLevels u c fade l t b) :=
  plays_each (fun i b => plays_updFixture b i _) b

theorem plays_clearLine (e : Fin 64) (t : Tables) (b : Bay) : Plays b (clearLine e t b) := plays_updFixture b _ _

theorem plays_captureAll (t : Tables) (b : Bay) : Plays b (captureAll t b) := plays_each (fun a b => (acts_updAxis b a _).plays) b

theorem plays_watchProximity (active : BitVec 4) (t : Tables) (b : Bay) : Plays b (watchProximity active t b) :=
  plays_eachOf (fun p b => (acts_proxActive p t b).plays) _ b

theorem plays_homeAtStart (home : BitVec 4) (t : Tables) (b : Bay) : Plays b (homeAtStart home t b) :=
  plays_each (fun a b => by
    split
    · exact (acts_enterHoming _ a t b).plays
    · exact Plays.refl b) b

theorem runs_startBay (home active : BitVec 4) (trigPins : BitVec 12) (t : Tables) (b : Bay) :
    Runs b (startBay home active trigPins t b) := by
  unfold startBay
  refine (((plays_captureAll t b).trans (plays_watchProximity active t _)).trans ((plays_homeAtStart home t _).trans
    ((plays_keepPins trigPins _).trans (plays_armEnabled t _)))).toRuns.trans ?_
  unfold startMode
  split
  · exact (Plays.refl _).toRuns
  · exact runs_enterDark t _

theorem plays_refillDone (v : Fin 6) (l : List Sample) (t : Tables) (b : Bay) : Plays b (refillDone v l t b) := by
  unfold refillDone
  split
  · exact Plays.refl b
  · exact ((acts_updVoice b v _).trans (acts_duckExamine t _)).plays

theorem plays_clearClip (z : Fin 2) (b : Bay) : Plays b (clearClip z b) := by
  unfold clearClip
  refine (acts_updZone b z _ ?_ ?_).plays <;> intro x <;> rfl

theorem plays_clearReadClips (i n : Nat) (b : Bay) : Plays b (clearReadClips i n b) :=
  plays_each (fun z b => by
    split
    · exact plays_clearClip z b
    · exact Plays.refl b) b

theorem schedule_decideRequest (q : Request) (t : Tables) (b : Bay) :
    (decideRequest q t b).2.trigger.schedule = b.trigger.schedule := by
  unfold decideRequest
  split
  · rfl
  · split
    · next k _ =>
      split
      · dsimp only
        exact (acts_restart acts_endRun k q.origin t b).schedule
      · rfl
    · split
      · next k _ =>
        dsimp only
        exact (acts_admitScene acts_endRun k q.slot q.origin t b).schedule
      · unfold waitOrNot
        dsimp only
        split
        · rfl
        · split
          · rfl
          · split <;> rfl

theorem schedule_drainFuel (t : Tables) : ∀ (n : Nat) (b : Bay), (drainFuel t n b).trigger.schedule = b.trigger.schedule
  | 0, _ => rfl
  | n + 1, b => by
    rw [drainFuel_succ]
    split
    · rfl
    · next q rest _ =>
      rw [schedule_drainFuel t n]
      unfold takeRequest
      exact ((tame_reportFirst _ _ _).schedule).trans (schedule_decideRequest q t _)

theorem moves_drain (t : Tables) (b : Bay) : Moves b (drain t b) :=
  ⟨plays_drain t b, by unfold drain; rw [schedule_drainFuel], stays_drain t b⟩

theorem moves_checkSchedule (b : Bay) : Moves b (checkSchedule b) := by
  refine ⟨plays_checkSchedule b, ?_, stays_checkSchedule b⟩
  unfold checkSchedule
  generalize hc : b.setSchedule (b.trigger.schedule.filter (fun e => !reached b.time e.time)) = c
  have hs : c.trigger.schedule.Sublist b.trigger.schedule := by rw [← hc]; exact List.filter_sublist
  exact ((tame_eachOf (f := fun (e : ScheduleEntry) b => b.request ⟨e.slot, .cue⟩) (fun e b => tame_request b _) _ c).schedule) ▸ hs

theorem schedule_ended (e : EndReason) (t : Tables) (b : Bay) : (endAll e t (restAll t (emptyQueues b))).trigger.schedule = [] :=
  ((acts_endAll e t _).schedule).trans (tame_restAll t _).schedule

theorem moves_haltAll (t : Tables) (b : Bay) : Moves b (haltAll t b) := by
  refine ⟨plays_haltAll t b, ?_, stays_haltAll t b⟩
  unfold haltAll
  split
  · exact .refl _
  · rw [schedule_ended]; exact List.nil_sublist _

theorem schedule_enterDark (t : Tables) (b : Bay) : (enterDark t b).trigger.schedule.Sublist b.trigger.schedule := by
  unfold enterDark
  split
  · exact .refl _
  · rw [schedule_ended]; exact List.nil_sublist _

theorem schedule_enterShow (t : Tables) (b : Bay) : (enterShow t b).trigger.schedule.Sublist b.trigger.schedule := by
  rw [(tame_enterShow t b).schedule]

theorem schedule_startBay (home active : BitVec 4) (trigPins : BitVec 12) (t : Tables) (b : Bay) :
    (startBay home active trigPins t b).trigger.schedule.Sublist b.trigger.schedule := by
  have h : (armEnabled t (keepPins trigPins (homeAtStart home t (watchProximity active t (captureAll t b))))).trigger.schedule =
      b.trigger.schedule := by
    rw [(tame_armEnabled t _).schedule, (tame_keepPins _ _).schedule]
    have h1 : (captureAll t b).trigger.schedule = b.trigger.schedule := (acts_each (fun a b => acts_updAxis b a _) b).schedule
    have h2 : ∀ b, (watchProximity active t b).trigger.schedule = b.trigger.schedule := fun b =>
      (acts_eachOf (f := fun p b => proxActive p t b) (fun p b => acts_proxActive p t b) _ b).schedule
    have h3 : ∀ b, (homeAtStart home t b).trigger.schedule = b.trigger.schedule := fun b =>
      (acts_each (f := fun a b => if (t.axis.get a).homeAtStart then enterHoming (home.getLsbD a.val) a t b else b)
        (fun a b => acts_ite (acts_enterHoming _ a t b) (Acts.refl b)) b).schedule
    rw [h3, h2, h1]
  unfold startBay startMode
  split
  · rw [h]
  · exact (schedule_enterDark t _).trans (by rw [h])

/-! ### The operations of the node -/

theorem keeps_onBay {e : List Part} {s : State} {f : Tables → Bay → Bay} (h : Moves s.bay (f s.tables s.bay)) :
    Keeps e s (s.onBay f) := by
  intro p _
  cases p <;> simp only [Part.same, State.onBay]
  case time => exact h.time
  case duty => exact h.duty
  case mode => exact h.mode
  case audio => exact fun z => ⟨h.sent z, h.formed z⟩
  case latched => exact h.latched
  case schedule => exact h.schedule
  case ledger => exact h.stays

theorem keeps_onBay_mode {s : State} {f : Tables → Bay → Bay} (h : Runs s.bay (f s.tables s.bay))
    (hs : (f s.tables s.bay).trigger.schedule.Sublist s.bay.trigger.schedule) (g : Stays s.bay (f s.tables s.bay)) :
    Keeps [.mode] s (s.onBay f) := by
  intro p hp
  cases p <;> simp only [Part.same, State.onBay]
  case time => exact h.time
  case duty => exact h.duty
  case mode => exact absurd (by simp) hp
  case audio => exact fun z => ⟨h.sent z, h.formed z⟩
  case latched => exact h.latched
  case schedule => exact hs
  case ledger => exact g

theorem keeps_onBay_schedule {s : State} {f : Tables → Bay → Bay} (h : Plays s.bay (f s.tables s.bay))
    (g : Stays s.bay (f s.tables s.bay)) : Keeps [.schedule] s (s.onBay f) := by
  intro p hp
  cases p <;> simp only [Part.same, State.onBay]
  case time => exact h.time
  case duty => exact h.duty
  case mode => exact h.mode
  case audio => exact fun z => ⟨h.sent z, h.formed z⟩
  case latched => exact h.latched
  case schedule => exact absurd (by simp) hp
  case ledger => exact g

/-- An update of the line unit, the pins, the draws, or the port or the management unit where no part lies. -/
theorem keeps_of_rest {e : List Part} {s t : State} (queue : t.pending = s.pending) (serial : t.serial = s.serial)
    (flash : t.flash = s.flash) (image : t.storeCut = s.storeCut) (tables : t.tables = s.tables) (staging : t.staging = s.staging)
    (buffer : t.port.buffer = s.port.buffer) (protect : t.mgmt.protectState = s.mgmt.protectState) (bay : Moves s.bay t.bay) :
    Keeps e s t := by
  intro p _
  cases p <;> simp only [Part.same]
  case time => exact bay.time
  case duty => exact bay.duty
  case mode => exact bay.mode
  case audio => exact fun z => ⟨bay.sent z, bay.formed z⟩
  case latched => exact bay.latched
  case schedule => exact bay.schedule
  case ledger => exact bay.stays
  case record => rw [tables]
  all_goals assumption

theorem keeps_answer {e : List Part} (s : State) (code : Byte) (data : List Byte) : Keeps e s (s.answer code data) :=
  keeps_of_rest rfl rfl rfl rfl rfl rfl rfl rfl (Moves.refl _)

theorem keeps_done {e : List Part} (s : State) : Keeps e s s.done := keeps_answer s _ _

theorem keeps_latch {e : List Part} (s : State) (x : ErrItem) : Keeps e s (s.latch x) :=
  keeps_of_rest rfl rfl rfl rfl rfl rfl rfl rfl ((acts_latch _ x).moves (tame_latch _ x).stays)

theorem keeps_answerOutcome {e : List Part} (s : State) : Keeps e s (answerOutcome s) := by
  unfold answerOutcome
  split
  · refine Keeps.trans ?_ (keeps_answer _ _ _)
    refine keeps_of_rest rfl rfl rfl rfl rfl rfl rfl rfl (Plays.moves ?_ ?_)
    · exact .of_parts rfl rfl rfl rfl rfl
    · exact .of_rest rfl rfl rfl rfl
  · exact Keeps.refl s

theorem keeps_settle {e : List Part} (s : State) : Keeps e s (settle s) :=
  (keeps_onBay (moves_drain _ _)).trans (keeps_answerOutcome _)

theorem keeps_onAsk {e : List Part} (s : State) (p : Ask → Bool) {act : List Byte → State → State}
    (h : ∀ l s, Keeps e s (act l s)) : Keeps e s (s.onAsk p act) := by
  unfold State.onAsk
  split
  · exact keeps_ite (h _ s) (Keeps.refl s)
  · exact Keeps.refl s

theorem keeps_whenReady {e : List Part} {act : List Byte → State → State} (h : ∀ l s, Keeps e s (act l s)) (l : List Byte)
    (s : State) : Keeps e s (whenReady act l s) := keeps_ite (h l s) (keeps_answer s _ _)

theorem keeps_withParams {α : Type} {e : List Part} (form : List Byte → Option α) {act : α → State → State}
    (h : ∀ x s, Keeps e s (act x s)) (l : List Byte) (s : State) : Keeps e s (withParams form act l s) := by
  unfold withParams
  split
  · exact keeps_answer s _ _
  · exact h _ s

theorem keeps_ask {α : Type} {e : List Part} (s : State) (k : AskKind) (form : List Byte → Option α)
    {act : α → State → State} (h : ∀ x s, Keeps e s (act x s)) : Keeps e s (s.ask k form act) :=
  keeps_onAsk s _ (keeps_whenReady (keeps_withParams form h))

theorem keeps_unlessStoring {e : List Part} {act : State → State} (h : ∀ s, Keeps e s (act s)) (s : State) :
    Keeps e s (unlessStoring act s) := keeps_ite (keeps_answer s _ _) (h s)

theorem keeps_unlessRestarting {e : List Part} {act : State → State} (h : ∀ s, Keeps e s (act s)) (s : State) :
    Keeps e s (unlessRestarting act s) := keeps_ite (h s) (keeps_answer s _ _)

theorem keeps_write {α : Type} {e : List Part} (s : State) (id : TableId) (w : Writer α)
    (h : ∀ i l s, Keeps e s (w.put i l s)) : Keeps e s (s.write id w) :=
  keeps_onAsk s _ (keeps_whenReady (keeps_withParams _ (fun p s =>
    keeps_ite (keeps_answer s _ _) (keeps_ite (keeps_answer s _ _)
      (keeps_unlessStoring (fun s => (h p.1 p.2 s).trans ((keeps_done _).trans (keeps_settle _))) s)))))

theorem keeps_setTables (s : State) (f : Tables → Tables) (h : (f s.tables).protect = s.tables.protect) :
    Keeps [.tables] s (s.setTables f) := by
  intro p hp
  cases p <;> simp_all [Part.same, State.setTables]

theorem keeps_rxTake {e : List Part} (s : State) (c : RxChar) : Keeps e s (s.rxTake c) :=
  keeps_of_rest rfl rfl rfl rfl rfl rfl rfl rfl (Moves.refl _)

theorem keeps_enter {e : List Part} (s : State) (x : TxEntry) : Keeps e s (s.enter x) :=
  keeps_of_rest rfl rfl rfl rfl rfl rfl rfl rfl (Moves.refl _)

theorem keeps_forward {e : List Part} (f : Frame) (s : State) : Keeps e s (forward f s) := keeps_enter s _

theorem keeps_onFrame {e : List Part} (s : State) (c : RxChar) (t : Treatment) {act : Fin 251 → Frame → State → State}
    (h : ∀ own f s, Keeps e s (act own f s)) : Keeps e s (s.onFrame c t act) := by
  unfold State.onFrame
  split
  · unfold State.takeFrame
    exact keeps_ite ((keeps_rxTake s c).trans (keeps_latch _ _)) ((keeps_rxTake s c).trans (h _ _ _))
  · exact Keeps.refl s

theorem keeps_fillOr {e : List Part} (own : Fin 251) (f : Frame) (s : State) : Keeps e s (fillOr own f s) := by
  unfold fillOr
  split
  · exact keeps_enter s _
  · refine Keeps.trans ?_ (keeps_enter _ _)
    refine keeps_of_rest rfl rfl rfl rfl rfl rfl rfl rfl (Plays.moves ?_ ?_)
    · exact .of_parts rfl rfl rfl rfl rfl
    · exact .of_rest rfl rfl rfl rfl

theorem keeps_lineLost {e : List Part} (s : State) : Keeps e s (lineLost s) := by
  unfold lineLost
  split
  · refine Keeps.trans ?_ (keeps_latch _ _)
    exact keeps_of_rest rfl rfl rfl rfl rfl rfl rfl rfl (Moves.refl _)
  · exact Keeps.refl s

theorem keeps_cutOff {e : List Part} (s : State) : Keeps e s (cutOff s) := by
  unfold cutOff
  dsimp only
  split
  · refine Keeps.trans ?_ (keeps_latch _ _)
    exact keeps_of_rest rfl rfl rfl rfl rfl rfl rfl rfl (Moves.refl _)
  · refine Keeps.trans ?_ (keeps_latch _ _)
    exact keeps_of_rest rfl rfl rfl rfl rfl rfl rfl rfl (Moves.refl _)
  · exact Keeps.refl s

theorem keeps_lineMillisecond {e : List Part} (s : State) : Keeps e s (lineMillisecond s) := by
  unfold lineMillisecond
  refine (keeps_cutOff s).trans ?_
  refine Keeps.trans ?_ (keeps_lineLost _)
  exact keeps_of_rest rfl rfl rfl rfl rfl rfl rfl rfl (Moves.refl _)

/-! ### The store port -/

theorem keeps_setPort {e : List Part} (s : State) (f : StorePort → StorePort) (h : (f s.port).buffer = s.port.buffer) :
    Keeps e s (s.setPort f) := keeps_of_rest rfl rfl rfl rfl rfl rfl h rfl (Moves.refl _)

theorem keeps_updOp {e : List Part} (s : State) (f : Operation → Operation) : Keeps e s (s.updOp f) := keeps_setPort s _ rfl

theorem keeps_beginImageReads {e : List Part} (s : State) : Keeps e s (beginImageReads s) :=
  keeps_of_rest rfl rfl rfl rfl rfl rfl rfl rfl (Moves.refl _)

theorem keeps_readyTimeout {e : List Part} (s : State) : Keeps e s (readyTimeout s) := by
  unfold readyTimeout
  split
  · exact keeps_ite ((keeps_latch s _).trans (keeps_beginImageReads _)) (Keeps.refl s)
  · exact Keeps.refl s

theorem keeps_flashReady {e : List Part} (s : State) : Keeps e s (flashReady s) := by
  unfold flashReady
  split
  · exact keeps_beginImageReads s
  · exact Keeps.refl s

theorem keeps_countReadyWait {e : List Part} (s : State) : Keeps e s (countReadyWait s) := by
  unfold countReadyWait
  split
  · refine Keeps.trans ?_ (keeps_readyTimeout _)
    exact keeps_of_rest rfl rfl rfl rfl rfl rfl rfl rfl (Moves.refl _)
  · exact Keeps.refl s

theorem keeps_beginRefill {e : List Part} (s : State) : Keeps e s (beginRefill s) := by
  unfold beginRefill
  split
  · exact keeps_of_rest rfl rfl rfl rfl rfl rfl rfl rfl ((acts_updVoice _ _ _).moves (tame_updVoice _ _ _).stays)
  · exact Keeps.refl s

theorem keeps_endRefill {e : List Part} (s : State) : Keeps e s (endRefill s) := by
  unfold endRefill
  split
  · exact keeps_of_rest rfl rfl rfl rfl rfl rfl rfl rfl ((plays_refillDone _ _ _ _).moves (tame_refillDone _ _ _ _))
  · exact Keeps.refl s

theorem keeps_imageBytes {e : List Part} (old new : List Byte) (s : State) : Keeps e s (imageBytes old new s) := by
  unfold imageBytes
  dsimp only
  split <;> exact keeps_of_rest rfl rfl rfl rfl rfl rfl rfl rfl (Moves.refl _)

theorem keeps_beginManagementRead {e : List Part} (s : State) : Keeps e s (beginManagementRead s) := by
  unfold beginManagementRead
  split
  · exact keeps_setPort s _ rfl
  · exact Keeps.refl s

theorem keeps_endManagementRead {e : List Part} (s : State) : Keeps e s (endManagementRead s) := by
  unfold endManagementRead
  split
  · dsimp only
    split
    · refine Keeps.trans ?_ (keeps_answer _ _ _)
      exact keeps_of_rest rfl rfl rfl rfl rfl rfl rfl rfl (Moves.refl _)
    · exact (keeps_setPort s _ rfl).trans (keeps_imageBytes _ _ _)
    · exact keeps_setPort s _ rfl
  · exact Keeps.refl s

theorem keeps_beginStep {e : List Part} (s : State) : Keeps e s (beginStep s) := by
  unfold beginStep
  split
  · split
    · exact keeps_ite (Keeps.refl s) (keeps_setPort s _ rfl)
    · exact Keeps.refl s
  · exact Keeps.refl s

theorem keeps_setFlash (s : State) (m : Memory) (n : Nat) : Keeps [.flash] s { s with flash := m, draws := n } := by
  intro p hp
  cases p <;> simp_all [Part.same]

theorem keeps_setStoreCut (s : State) (x : Bool) (m : Management) (h : m.protectState = s.mgmt.protectState) :
    Keeps [.image] s { s with storeCut := x, mgmt := m } := by
  intro p hp
  cases p
  case image => exact absurd (by decide) hp
  case protect => exact h
  case audio => exact fun _ => ⟨rfl, rfl⟩
  case latched => exact fun _ h => h
  case schedule => exact .refl _
  case ledger => exact .refl _
  all_goals rfl

theorem keeps_endOp (c : Bool) (s : State) : Keeps [.image] s (endOp c s) := by
  unfold endOp
  dsimp only
  split
  · split
    · exact (keeps_setPort s _ rfl).trans (keeps_setStoreCut _ _ _ rfl)
    · refine Keeps.trans ?_ (keeps_latch _ _)
      exact (keeps_setPort s _ rfl).trans (keeps_setStoreCut _ _ _ rfl)
  · exact keeps_setPort s _ rfl

theorem keeps_abandon (s : State) : Keeps [.flash, .image] s (abandon s) := by
  unfold abandon
  split
  · refine Keeps.trans ?_ ((keeps_endOp _ _).mono (by simp))
    refine Keeps.trans ?_ (keeps_latch _ _)
    exact (keeps_setFlash s _ _).mono (by simp)
  · exact Keeps.refl s

theorem keeps_completeStep (s : State) : Keeps [.flash, .image] s (completeStep s) := by
  unfold completeStep
  split
  · exact Keeps.refl s
  · split
    · exact Keeps.refl s
    · dsimp only
      split
      · refine Keeps.trans ?_ ((keeps_endOp _ _).mono (by simp))
        exact (keeps_setFlash s _ s.draws).mono (by simp)
      · refine Keeps.trans ?_ (keeps_setPort _ _ rfl)
        exact (keeps_setFlash s _ s.draws).mono (by simp)

theorem keeps_stepReady (failed : Bool) (s : State) : Keeps [.flash, .image] s (stepReady failed s) :=
  keeps_ite (keeps_ite (keeps_abandon s) (keeps_completeStep s)) (Keeps.refl s)

theorem keeps_stepLimit (s : State) : Keeps [.flash, .image] s (stepLimit s) := by
  unfold stepLimit
  split
  · exact keeps_ite (keeps_abandon s) (Keeps.refl s)
  · exact Keeps.refl s

theorem keeps_portMillisecond (s : State) : Keeps [.flash, .image] s (portMillisecond s) := by
  unfold portMillisecond
  exact keeps_ite ((keeps_countReadyWait s).trans ((keeps_updOp _ _).trans (keeps_stepLimit _))) (keeps_countReadyWait s)

theorem keeps_handOperation {e : List Part} (k : OpKind) (s : State) : Keeps e s (handOperation k s) :=
  keeps_ite (keeps_answer s _ _) (keeps_ite (keeps_answer s _ _) (keeps_ite (keeps_answer s _ _)
    ((keeps_setPort s _ rfl).trans (keeps_done _))))

theorem keeps_clipOperation {e : List Part} (k : OpKind) (s : State) : Keeps e s (clipOperation k s) :=
  keeps_ite (keeps_answer s _ _) (keeps_unlessRestarting (keeps_handOperation k) s)

/-! ### The millisecond event -/

theorem keeps_fireSchedule {e : List Part} (s : State) : Keeps e s (fireSchedule s) :=
  (keeps_onBay (moves_checkSchedule _)).trans (keeps_settle _)

theorem keeps_expireRequests {e : List Part} (s : State) : Keeps e s (expireRequests s) :=
  keeps_onBay ((acts_expiryCheck _).moves (stays_expiryCheck _))

theorem keeps_readTriggers {e : List Part} (levels : BitVec 12) (s : State) : Keeps e s (readTriggers levels s) :=
  keeps_ite ((keeps_eachOf (fun n _ => (keeps_onBay ((plays_press n _ _).moves (tame_press n _ _))).trans (keeps_settle _)) _ s).trans
    (keeps_onBay ((plays_keepPins _ _).moves (tame_keepPins _ _)))) (Keeps.refl s)

theorem keeps_triggerTurn {e : List Part} (inp : MsInputs) (s : State) : Keeps e s (triggerTurn inp s) := by
  unfold triggerTurn
  dsimp only
  split
  · refine Keeps.trans ?_ (keeps_onBay ((plays_countTriggers _).moves (tame_countTriggers _)))
    exact (keeps_fireSchedule s).trans (keeps_readTriggers _ _)
  · refine Keeps.trans ?_ (keeps_readTriggers _ _)
    exact (keeps_fireSchedule s).trans (keeps_onBay ((plays_countTriggers _).moves (tame_countTriggers _)))

theorem keeps_time (s : State) (x : ShowTime) : Keeps [.time] s { s with bay := { s.bay with time := x } } := by
  intro p hp
  cases p
  case time => exact absurd (List.mem_singleton.mpr rfl) hp
  case audio => exact fun _ => ⟨rfl, rfl⟩
  case latched => exact fun _ h => h
  case schedule => exact .refl _
  case ledger => exact (Tame.of_rest rfl rfl rfl rfl).stays
  all_goals rfl

theorem keeps_fixture (s : State) (x : FixtureUnit) : Keeps [.duty] s { s with bay := { s.bay with fixture := x } } := by
  intro p hp
  cases p
  case duty => exact absurd (List.mem_singleton.mpr rfl) hp
  case audio => exact fun _ => ⟨rfl, rfl⟩
  case latched => exact fun _ h => h
  case schedule => exact .refl _
  case ledger => exact (Tame.of_rest rfl rfl rfl rfl).stays
  all_goals rfl

/-- What a block's turn may change. -/
def blockChanges : Block → List Part
  | .time => [.time]
  | .fixture => [.duty]
  | .store => [.flash, .image]
  | _ => []

theorem keeps_blockTurn (inp : MsInputs) (x : Block) (s : State) : Keeps (blockChanges x) s (blockTurn inp x s) := by
  cases x
  · exact keeps_time s _
  · exact keeps_fixture s _
  · refine Keeps.trans ?_ (keeps_settle _)
    refine Keeps.trans ?_ (keeps_onBay ((acts_axisMillisecond _ _ _).moves (stays_axisMillisecond _ _ _)))
    exact keeps_of_rest rfl rfl rfl rfl rfl rfl rfl rfl (Moves.refl _)
  · exact (keeps_onBay ((acts_sceneMillisecond acts_endRun _ _).moves (stays_sceneMillisecond stays_endRun _ _))).trans (keeps_settle _)
  · exact (keeps_onBay ((acts_claimMillisecond _ _).moves (stays_claimMillisecond _ _))).trans (keeps_settle _)
  · exact keeps_triggerTurn inp s
  · exact keeps_lineMillisecond s
  · exact keeps_portMillisecond s

theorem keeps_turns (inp : MsInputs) (l : List Block) (s : State) : 
    Keeps [.flash, .image, .time, .duty] s (eachOf l (blockTurn inp) s) :=
  keeps_eachOf (fun x s => (keeps_blockTurn inp x s).mono (by cases x <;> simp [blockChanges])) l s

/-! ### The commands -/

/-- The parts that a command may change. -/
def changes : Instr → List Part
  | .powerOnReset =>
    [.flash, .image, .tables, .record, .staging, .buffer, .protect, .time, .duty, .mode, .audio, .latched, .schedule]
  | .restartTakesEffect =>
    [.flash, .tables, .record, .staging, .buffer, .protect, .time, .duty, .mode, .audio, .latched, .schedule]
  | .startUp _ _ => [.tables, .record, .mode]
  | .setProtect _ => [.tables, .record]
  | .millisecondEvent _ => [.flash, .image, .time, .duty]
  | .flashStepReady _ | .stepLimitExceeded => [.flash, .image]
  | .audioSampleEvent => [.audio]
  | .timeFrame _ _ => [.time]
  | .cueGo _ => [.schedule]
  | .cueHouseDark _ | .cueHouseShow _ | .setMode => [.mode]
  | .status _ => [.latched]
  | .pageFill => [.buffer]
  | .freeze _ => [.protect]
  | .paletteStream => [.tables, .staging]
  | c => if isTableAsk c then [.tables] else []

theorem keeps_restartNow (s : State) : Keeps [.tables, .record, .staging, .buffer, .time, .duty, .mode, .audio, .latched, .schedule] s (restartNow s) := by
  unfold restartNow
  split
  · intro p hp
    cases p <;> simp_all [Part.same, beginImageReads, askImagePage, State.keeping, State.setPort]
    exact fun _ => reset_inv
  · exact Keeps.refl s

theorem keeps_powerOnReset (s : State) : Keeps (changes .powerOnReset) s (powerOnReset s) := by
  intro p hp
  cases p
  case queue => exact rfl
  case serial => exact rfl
  case ledger => exact fun _ => reset_inv
  all_goals exact absurd (by decide) hp

theorem keeps_startUp (home : BitVec 4) (trigPins : BitVec 12) (s : State) : Keeps [.tables, .record, .mode] s (startUp home trigPins s) := by
  unfold startUp
  split
  · dsimp only
    have h : ∀ (s : State) (x : StartUp), Keeps [.tables, .record, .mode] s { s with mgmt := { s.mgmt with startUp := x } } :=
      fun s x => keeps_of_rest rfl rfl rfl rfl rfl rfl rfl rfl (Moves.refl _)
    refine Keeps.trans ?_ (h _ _)
    refine Keeps.trans ?_ ((keeps_onBay_mode (runs_startBay home _ trigPins _ _) (schedule_startBay home _ trigPins _ _)
      (stays_startBay home _ trigPins _ _)).mono (by simp))
    have h2 : ∀ (s : State) (t : Tables) (x : Pins), Keeps [.tables, .record, .mode] s { s with tables := t, pins := x } := by
      intro s t x p hp
      cases p <;> simp_all [Part.same]
    refine Keeps.trans ?_ (h2 _ _ _)
    unfold markImage
    dsimp only
    split
    · refine Keeps.trans ?_ (keeps_latch _ _)
      exact keeps_of_rest rfl rfl rfl rfl rfl rfl rfl rfl (Moves.refl _)
    · exact keeps_of_rest rfl rfl rfl rfl rfl rfl rfl rfl (Moves.refl _)
  · exact Keeps.refl s

/-- What an audio sample event leaves. -/
structure Sounds (b b' : Bay) : Prop where
  time : b'.time = b.time
  duty : b'.fixture.duty = b.fixture.duty
  mode : b'.trigger.mode = b.trigger.mode
  latched : ∀ i, b.latched.getLsbD i = true → b'.latched.getLsbD i = true

theorem Sounds.trans {a b c : Bay} (h : Sounds a b) (k : Sounds b c) : Sounds a c :=
  ⟨k.time.trans h.time, k.duty.trans h.duty, k.mode.trans h.mode, fun i hi => k.latched i (h.latched i hi)⟩

theorem Plays.toSounds {b b' : Bay} (h : Plays b b') : Sounds b b' := ⟨h.time, h.duty, h.mode, h.latched⟩

theorem plays_drawEach (b : Bay) :
    Plays b (each 6 (fun v b => if (b.voiceRec v).sounds then b.updVoice v Voice.draw else b) b) :=
  plays_each (fun v b => by
    split
    · exact (acts_updVoice b v _).plays
    · exact Plays.refl b) b

theorem plays_drawVoices (b : Bay) : Plays b (drawVoices b) := by
  unfold drawVoices
  dsimp only
  split
  · exact (plays_drawEach b).trans (acts_latch _ _).plays
  · exact plays_drawEach b

theorem sounds_updZone (b : Bay) (z : Fin 2) (f : ZoneRun → ZoneRun) : Sounds b (b.updZone z f) :=
  ⟨rfl, rfl, rfl, fun _ h => h⟩

theorem sounds_mixZone (r : Int) (z : Zone) (b : Bay) : Sounds b (mixZone r z b) := by
  unfold mixZone
  dsimp only
  split
  · exact sounds_updZone b _ _
  · exact (sounds_updZone b _ _).trans (acts_latch _ _).plays.toSounds

/-- The work of an audio sample event on the results of the two zones and the voices that end. -/
theorem audioEvent_eq (started : Bool) (t : Tables) (b : Bay) : ∃ ra rb ending,
    audioEvent started t b = duckExamine t (eachOf ending voiceIdle (mixZone rb .b (mixZone ra .a (drawVoices b)))) :=
  ⟨_, _, _, rfl⟩

theorem sounds_audioEvent (started : Bool) (t : Tables) (b : Bay) : Sounds b (audioEvent started t b) := by
  obtain ⟨ra, rb, ending, h⟩ := audioEvent_eq started t b
  rw [h]
  refine Sounds.trans ?_ (acts_duckExamine t _).plays.toSounds
  refine Sounds.trans ?_ (acts_eachOf acts_voiceIdle ending _).plays.toSounds
  exact (plays_drawVoices b).toSounds.trans ((sounds_mixZone ra .a _).trans (sounds_mixZone rb .b _))

theorem keeps_audioEvent (s : State) : Keeps [.audio] s (s.onBay (audioEvent s.ready)) := by
  have h := sounds_audioEvent s.ready s.tables s.bay
  intro p hp
  cases p <;> simp only [Part.same, State.onBay]
  case time => exact h.time
  case duty => exact h.duty
  case mode => exact h.mode
  case audio => exact absurd (by simp) hp
  case latched => exact h.latched
  case schedule => rw [(tame_audioEvent _ _ _).schedule]
  case ledger => exact (tame_audioEvent _ _ _).stays

theorem keeps_withKey {e : List Part} (s : State) (k : Bool) : Keeps e s (s.withKey k) :=
  keeps_of_rest rfl rfl rfl rfl rfl rfl rfl rfl (Moves.refl _)

theorem keeps_put {s : State} (f : Tables → Tables) {g : Tables → Bay → Bay} (hf : (f s.tables).protect = s.tables.protect)
    (h : ∀ t b, Moves b (g t b)) : Keeps [.tables] s ((s.setTables f).onBay g) := (keeps_setTables s f hf).trans (keeps_onBay (h _ _))

theorem keeps_streamPalette (c : Bool) (x : Byte) (l : List Byte) (s : State) :
    Keeps [.tables, .staging] s (streamPalette c x l s) := by
  intro p hp
  unfold streamPalette
  cases p <;> simp_all [Part.same]

theorem keeps_adoptTime (u : ShowTime) (x : Bool) (s : State) : Keeps [.time] s (adoptTime u x s) := by
  unfold adoptTime
  split
  · exact Keeps.refl s
  · dsimp only
    have h : Keeps [.time] s { s with bay := { s.bay with time := u } } := by
      intro p hp
      cases p <;> simp_all [Part.same]
      exact (Tame.of_rest rfl rfl rfl rfl).stays
    split
    · exact h.trans ((keeps_expireRequests _).trans (keeps_fireSchedule _))
    · exact h.trans ((keeps_fireSchedule _).trans (keeps_expireRequests _))

theorem keeps_takeStatus (l : List Byte) (s : State) : Keeps [.latched] s (takeStatus l s) := by
  unfold takeStatus
  split
  · refine Keeps.trans (keeps_answer s codeDone (statusData s)) ?_
    intro p hp
    cases p <;> simp_all [Part.same]
    exact (Tame.of_rest rfl rfl rfl rfl).stays
  · exact keeps_answer s _ _

theorem keeps_act {e : List Part} {s : State} (f : Tables → Bay → Bay) (h : ∀ t b, Acts b (f t b))
    (g : ∀ t b, Stays b (f t b)) : Keeps e s (s.onBay f) := keeps_onBay ((h _ _).moves (g _ _))

theorem keeps_actSettle {e : List Part} {s : State} (f : Tables → Bay → Bay) (h : ∀ t b, Moves b (f t b)) :
    Keeps e s (settle (s.onBay f)) := (keeps_onBay (h _ _)).trans (keeps_settle _)

theorem keeps_mode (s : State) (f : Tables → Bay → Bay) (h : ∀ t b, Runs b (f t b))
    (hs : ∀ t b, (f t b).trigger.schedule.Sublist b.trigger.schedule) (g : ∀ t b, Stays b (f t b)) :
    Keeps [.mode] s (settle (s.onBay f)) := (keeps_onBay_mode (h _ _) (hs _ _) (g _ _)).trans (keeps_settle _)

theorem next_keeps {e : List Part} {s t u : State} (h : (Host.Outcome.next u : Result) = .next t) (k : Keeps e s u) :
    Keeps e s t := by cases h; exact k

theorem acts_guardExpiry (k : Fin 6) (t : Tables) (b : Bay) : Acts b (guardExpiry k t b) :=
  acts_ite (acts_scan acts_endRun t b) (Acts.refl b)

theorem moves_takePress (n : Fin 12) (t : Tables) (b : Bay) : Moves b (takePress n t b) :=
  ((plays_press n t b).trans (plays_keepPins _ _)).moves ((tame_press n t b).trans (tame_keepPins _ _))

theorem plays_countQuad (n : Int) (a : Fin 4) (t : Tables) (b : Bay) : Plays b (countQuad n a t b) := by
  unfold countQuad
  split
  · exact (acts_updAxis b a _).plays
  · exact Plays.refl b

theorem keeps_triggerPress {e : List Part} (n : Fin 12) (late : Bool) (s t : State) (h : execTriggerPress n late s = .next t) :
    Keeps e s t := by
  unfold execTriggerPress at h
  split at h
  · cases late
    · exact next_keeps h (keeps_actSettle _ (moves_takePress n))
    · exact next_keeps h (keeps_onBay (moves_takePress n _ _))
  · exact next_keeps h (Keeps.refl s)

theorem keeps_setProx {e : List Part} (s : State) (p : Fin 4) (on : Bool) : Keeps e s (s.setProx p on) :=
  keeps_of_rest rfl rfl rfl rfl rfl rfl rfl rfl (Moves.refl _)

theorem keeps_proximityActive {e : List Part} (p : Fin 4) (s t : State) (h : execProximityActive p s = .next t) : Keeps e s t := by
  unfold execProximityActive at h
  split at h
  · exact next_keeps h (Keeps.refl s)
  · split at h
    · exact next_keeps h ((keeps_setProx s p true).trans (keeps_actSettle _ (fun t b => (acts_proxActive p t b).moves (stays_proxActive p t b))))
    · exact next_keeps h (keeps_setProx s p true)

theorem keeps_proximityInactive {e : List Part} (p : Fin 4) (s t : State) (h : execProximityInactive p s = .next t) :
    Keeps e s t := by
  unfold execProximityInactive at h
  split at h
  · exact next_keeps h (Keeps.refl s)
  · split at h
    · exact next_keeps h ((keeps_setProx s p false).trans (keeps_actSettle _ (fun t b => (acts_proxInactive p t b).moves (stays_proxInactive p t b))))
    · exact next_keeps h (keeps_setProx s p false)

theorem keeps_withHome {e : List Part} (s : State) (a : Fin 4) (on : Bool) : Keeps e s (s.withHome a on) :=
  keeps_of_rest rfl rfl rfl rfl rfl rfl rfl rfl (Moves.refl _)

theorem keeps_homeAxisAsk {e : List Part} (home : Bool) (a : Fin 4) (s : State) : Keeps e s (homeAxisAsk home a s) := by
  unfold homeAxisAsk
  split
  · exact keeps_answer s _ _
  · split
    · exact keeps_answer s _ _
    · exact keeps_done s
    all_goals
      refine Keeps.trans ?_ (keeps_settle _)
      refine Keeps.trans ?_ (keeps_done _)
      exact (keeps_withHome s a home).trans (keeps_act _ (acts_enterHoming home a) (stays_enterHoming home a))

theorem keeps_waiting {e : List Part} (s : State) (w : Waiting) : Keeps e s { s with mgmt := { s.mgmt with waiting := w } } :=
  keeps_of_rest rfl rfl rfl rfl rfl rfl rfl rfl (Moves.refl _)

theorem keeps_readClipAsk {e : List Part} (r : ReadReq) (s : State) : Keeps e s (readClipAsk r s) := by
  unfold readClipAsk
  split
  · exact keeps_answer s _ _
  · exact keeps_of_rest rfl rfl rfl rfl rfl rfl rfl rfl (Moves.refl _)

theorem keeps_restartAsk {e : List Part} (s : State) : Keeps e s (restartAsk s) := by
  unfold restartAsk
  split
  · exact keeps_of_rest rfl rfl rfl rfl rfl rfl rfl rfl (Moves.refl _)
  · exact keeps_done s

theorem keeps_freezeAsk (s : State) : Keeps [.protect] s (freezeAsk s) := by
  unfold freezeAsk
  split
  · exact keeps_answer s _ _
  · refine Keeps.trans ?_ (keeps_done _)
    intro p hp
    cases p <;> simp_all [Part.same]

theorem keeps_setRecord (s : State) (f : Tables → Tables) : Keeps [.tables, .record] s (s.setTables f) := by
  intro p hp
  cases p <;> simp_all [Part.same, State.setTables]

theorem keeps_setProtectAsk (r : Protect) (s : State) : Keeps [.tables, .record] s (setProtectAsk r s) := by
  unfold setProtectAsk
  split
  · exact keeps_answer s _ _
  · exact keeps_unlessStoring (fun s => (keeps_setRecord s _).trans (keeps_done _)) s

theorem keeps_rejectAsk {e : List Part} (f : Frame) (s : State) : Keeps e s (rejectAsk f s) := by
  unfold rejectAsk
  exact (keeps_latch s _).trans (keeps_enter _ _)

theorem keeps_setNumberAsk {e : List Part} (f : Frame) (s : State) : Keeps e s (setNumberAsk f s) :=
  keeps_ite (keeps_enter s _) (keeps_forward f s)

theorem keeps_setPhase {e : List Part} (s : State) (x : Phase) : Keeps e s (s.setPhase x) := keeps_updOp s _

theorem keeps_suspendOp {e : List Part} (s : State) : Keeps e s (suspendOp s) := keeps_ite (keeps_setPhase s _) (Keeps.refl s)

theorem keeps_opSuspended {e : List Part} (s : State) : Keeps e s (opSuspended s) :=
  keeps_ite ((keeps_setPhase s _).trans (keeps_setPort _ _ rfl)) (Keeps.refl s)

theorem keeps_resumeOp {e : List Part} (s : State) : Keeps e s (resumeOp s) :=
  keeps_ite ((keeps_updOp s _).trans (keeps_setPort _ _ rfl)) (Keeps.refl s)

theorem keeps_startSending {e : List Part} (s : State) : Keeps e s (startSending s) := by
  unfold startSending
  split
  · split
    · exact Keeps.refl s
    · exact keeps_of_rest rfl rfl rfl rfl rfl rfl rfl rfl (Moves.refl _)
  · exact Keeps.refl s

theorem keeps_doneSending {e : List Part} (s : State) : Keeps e s (doneSending s) := by
  unfold doneSending
  split
  · refine keeps_of_rest rfl rfl rfl rfl rfl rfl rfl ?_ (Moves.refl _)
    dsimp only
    split <;> rfl
  · exact Keeps.refl s

theorem keeps_writePlain {α : Type} {e : List Part} (s : State) (id : TableId) (c : Codec α) {put : Nat → List α → State → State}
    (h : ∀ i l s, Keeps e s (put i l s)) : Keeps e s (s.write id (.plain c put)) := keeps_write s id _ h

/-- A write whose effect is on a table alone. -/
theorem keeps_writeTable {α : Type} (s : State) (id : TableId) (c : Codec α) (f : Nat → List α → Tables → Tables)
    (hf : ∀ i l t, (f i l t).protect = t.protect) : Keeps [.tables] s (s.write id (.plain c (fun i l s => s.setTables (f i l)))) :=
  keeps_writePlain s id c (fun i l s => keeps_setTables s (f i l) (hf i l _))

theorem keeps_writeTablePatch (s t : State) (h : execWriteTablePatch s = .next t) : Keeps [.tables] s t := by
  refine next_keeps h (keeps_writePlain s _ _ (fun i l s => ?_))
  refine keeps_put _ rfl ?_
  intro t b
  exact (plays_eachOf (fun e b => plays_clearLine e t b) _ b).moves (tame_eachOf (fun e b => tame_updFixture b _ _) _ b)

theorem keeps_writeTableZone (s t : State) (h : execWriteTableZone s = .next t) : Keeps [.tables] s t := by
  refine next_keeps h (keeps_writePlain s _ _ (fun i l s => ?_))
  refine keeps_put _ rfl ?_
  intro t b
  exact (acts_duckExamine t b).moves (tame_duckExamine t b).stays

theorem plays_axisWritten (old new : AxisCfg) (a : Fin 4) (b : Bay) : Plays b (axisWritten old new a b) := by
  unfold axisWritten
  split
  · exact (acts_updAxis b a _).plays
  · exact Plays.refl b

theorem keeps_writeTableAxis (s t : State) (h : execWriteTableAxis s = .next t) : Keeps [.tables] s t := by
  refine next_keeps h (keeps_write s _ _ (fun i l s => ?_))
  dsimp only
  refine keeps_put _ rfl ?_
  intro t b
  exact (plays_eachOf (fun a b => plays_axisWritten _ _ a b) _ b).moves (tame_eachOf (fun a b => tame_axisWritten _ _ a b) _ b)

theorem keeps_writeTableProximity (s t : State) (h : execWriteTableProximity s = .next t) : Keeps [.tables] s t := by
  refine next_keeps h (keeps_writePlain s _ _ (fun i l s => ?_))
  refine keeps_put _ rfl ?_
  intro t b
  exact (acts_eachOf (fun p b => acts_proxWritten p _ _ t b) _ b).moves (stays_eachOf (fun p b => stays_proxWritten p _ _ t b) _ b)

theorem keeps_writeTableScene (s t : State) (h : execWriteTableScene s = .next t) : Keeps [.tables] s t := by
  refine next_keeps h (keeps_write s _ _ (fun i l s => ?_))
  exact keeps_put (g := scan endRun) _ rfl (fun t b => (acts_scan acts_endRun t b).moves (stays_scan stays_endRun t b))

theorem plays_disarmDisabled (t : Tables) (n : Fin 12) (b : Bay) : Plays b (disarmDisabled t n b) := by
  unfold disarmDisabled
  split
  · exact Plays.refl b
  · exact plays_disarm n b

theorem keeps_writeTableTrigger (s t : State) (h : execWriteTableTrigger s = .next t) : Keeps [.tables] s t := by
  refine next_keeps h (keeps_writePlain s _ _ (fun i l s => ?_))
  refine keeps_put _ rfl ?_
  intro t b
  exact (plays_eachOf (plays_disarmDisabled t) _ b).moves (tame_eachOf (tame_disarmDisabled t) _ b)

theorem keeps_writeTableStep (s t : State) (h : execWriteTableStep s = .next t) : Keeps [.tables] s t := by
  refine next_keeps h (keeps_write s _ _ (fun i l s => ?_))
  dsimp only
  exact keeps_setTables s _ rfl

theorem keeps_setBuffer (s : State) (f : StorePort → StorePort) : Keeps [.buffer] s (s.setPort f) := by
  intro p hp
  cases p
  case buffer => exact absurd (by decide) hp
  case audio => exact fun _ => ⟨rfl, rfl⟩
  case latched => exact fun _ h => h
  case schedule => exact .refl _
  case ledger => exact .refl _
  all_goals exact rfl

/-- A command changes no part but those in its list. -/
theorem exec_keeps (c : Instr) (s t : State) (h : exec c s = .next t) : Keeps (changes c) s t := by
  cases c <;> simp only [exec] at h
  case powerOnReset => exact next_keeps h (keeps_powerOnReset s)
  case flashReady => exact next_keeps h (keeps_flashReady s)
  case flashReadyTimeout => exact next_keeps h (keeps_readyTimeout s)
  case startUp home pins => exact next_keeps h (keeps_startUp home pins s)
  case restartTakesEffect => exact next_keeps h ((keeps_restartNow s).mono (by decide))
  case millisecondEvent inp => exact next_keeps h (keeps_turns inp _ s)
  case gateTimeout k => exact next_keeps h (keeps_actSettle _ (fun t b => (acts_gateLimit acts_endRun k t b).moves (stays_gateLimit stays_endRun k t b)))
  case holdTimeout k => exact next_keeps h (keeps_actSettle _ (fun t b => (acts_holdLimit acts_endRun k t b).moves (stays_holdLimit stays_endRun k t b)))
  case resumeGuardExpiry k => exact next_keeps h (keeps_actSettle _ (fun t b => (acts_guardExpiry k t b).moves (stays_guardExpiry k t b)))
  case requestExpiry => exact next_keeps h (keeps_expireRequests s)
  case scheduleFire => exact next_keeps h (keeps_fireSchedule s)
  case lockoutExpiry n => exact next_keeps h (keeps_onBay ((acts_updTrigger _ n _).moves (tame_updTrigger _ n _).stays))
  case indicatorFlash n => exact next_keeps h (keeps_onBay ((acts_updTrigger _ n _).moves (tame_updTrigger _ n _).stays))
  case lineLost => exact next_keeps h (keeps_lineLost s)
  case frameCutOff => exact next_keeps h (keeps_cutOff s)
  case clearDelayExpiry p => exact next_keeps h (keeps_actSettle _ (fun t b => (acts_clearDelayEnd p t b).moves (stays_clearDelayEnd p t b)))
  case audioSampleEvent => exact next_keeps h (keeps_audioEvent s)
  case triggerPress n late => exact keeps_triggerPress n late s t h
  case proximityActive p => exact keeps_proximityActive p s t h
  case proximityInactive p => exact keeps_proximityInactive p s t h
  case quadratureChange a x y =>
    refine next_keeps h ?_
    refine Keeps.trans ?_ (keeps_onBay ((plays_countQuad _ a _ _).moves (tame_countQuad _ a _ _)))
    exact keeps_of_rest rfl rfl rfl rfl rfl rfl rfl rfl (Moves.refl _)
  case refillReadStart => exact next_keeps h (keeps_beginRefill s)
  case refillComplete => exact next_keeps h (keeps_endRefill s)
  case managementReadStart => exact next_keeps h (keeps_beginManagementRead s)
  case managementReadDone => exact next_keeps h (keeps_endManagementRead s)
  case operationStepStart => exact next_keeps h (keeps_beginStep s)
  case flashStepReady failed => exact next_keeps h (keeps_stepReady failed s)
  case stepLimitExceeded => exact next_keeps h (keeps_stepLimit s)
  case flashSuspend => exact next_keeps h (keeps_suspendOp s)
  case flashSuspended => exact next_keeps h (keeps_opSuspended s)
  case flashResume => exact next_keeps h (keeps_resumeOp s)
  case goodHeader c =>
    unfold execGoodHeader at h
    split at h
    · exact next_keeps h ((keeps_rxTake s c).trans (keeps_of_rest rfl rfl rfl rfl rfl rfl rfl rfl (Moves.refl _)))
    · exact next_keeps h (Keeps.refl s)
  case headerError c =>
    unfold execHeaderError at h
    split at h
    · exact next_keeps h ((keeps_rxTake s c).trans (keeps_latch _ _))
    · exact next_keeps h (Keeps.refl s)
  case timeFrame c x =>
    exact next_keeps h (keeps_onFrame s c _ (fun _ f s => (keeps_forward f s).trans (keeps_adoptTime _ _ _)))
  case levelFrame c =>
    exact next_keeps h (keeps_onFrame s c _ (fun _ f s => (keeps_forward f s).trans (keeps_onBay ((plays_takeLevels _ _ _ _ _ _).moves (tame_takeLevels _ _ _ _ _ _)))))
  case cueGo c =>
    exact next_keeps h (keeps_onFrame s c _ (fun _ f s => (keeps_forward f s).trans ((keeps_onBay_schedule (plays_takeGo _ _ _ _) (stays_takeGo _ _ _ _)).trans (keeps_settle _))))
  case cueHaltAll c =>
    exact next_keeps h (keeps_onFrame s c _ (fun _ f s => (keeps_forward f s).trans (keeps_actSettle _ moves_haltAll)))
  case cueHouseDark c =>
    exact next_keeps h (keeps_onFrame s c _ (fun _ f s => (keeps_forward f s).trans (keeps_mode _ _ runs_enterDark schedule_enterDark stays_enterDark)))
  case cueHouseShow c =>
    exact next_keeps h (keeps_onFrame s c _ (fun _ f s => (keeps_forward f s).trans (keeps_mode _ _ runs_enterShow schedule_enterShow
      (fun t b => (tame_enterShow t b).stays))))
  case noticeFrame c =>
    exact next_keeps h (keeps_onFrame s c _ (fun _ f s => (keeps_forward f s).trans (keeps_actSettle _ (fun t b => (plays_takeNotice _ _ _ t b).moves (tame_takeNotice _ _ _ t b)))))
  case noticeStrip c =>
    refine next_keeps h (keeps_onFrame s c _ (fun own f s' => ?_))
    split
    · exact (keeps_latch s' _).trans (keeps_fillOr own _ _)
    · exact keeps_fillOr own _ _
  case emptyFill c => exact next_keeps h (keeps_onFrame s c _ (fun own f s => keeps_fillOr own f s))
  case askFrame c => exact next_keeps h (keeps_onFrame s c _ (fun _ f s => keeps_enter s _))
  case setNumberBySerial c => exact next_keeps h (keeps_onFrame s c _ (fun _ f s => keeps_setNumberAsk f s))
  case askRejectedCheck c => exact next_keeps h (keeps_onFrame s c _ (fun _ f s => keeps_rejectAsk f s))
  case badBodyFrame c =>
    exact next_keeps h (keeps_onFrame s c _ (fun _ f s => (keeps_latch s _).trans (keeps_forward f _)))
  case frameForward c => exact next_keeps h (keeps_onFrame s c _ (fun _ f s => keeps_forward f s))
  case transmitStart => exact next_keeps h (keeps_startSending s)
  case transmitDone => exact next_keeps h (keeps_doneSending s)
  case status key =>
    exact next_keeps h (keeps_onAsk s _ (fun l s => (keeps_withKey s key).trans (keeps_takeStatus l _)))
  case readTable => exact next_keeps h (keeps_onAsk s _ (keeps_whenReady (keeps_withParams _ (fun p s => keeps_answer s _ _))))
  case readTableVoice =>
    exact next_keeps h (keeps_onAsk s _ (keeps_whenReady (keeps_withParams _ (fun p s =>
      (keeps_answer s _ _).trans (keeps_onBay ((plays_clearReadClips _ _ _).moves (tame_clearReadClips _ _ _)))))))
  case writeTable => exact next_keeps h (keeps_onAsk s _ (keeps_whenReady (fun _ s => keeps_answer s _ _)))
  case writeTablePatch => exact keeps_writeTablePatch s t h
  case writeTableZone => exact keeps_writeTableZone s t h
  case writeTableAxis => exact keeps_writeTableAxis s t h
  case writeTableProximity => exact keeps_writeTableProximity s t h
  case writeTableScene => exact keeps_writeTableScene s t h
  case writeTableTrigger => exact keeps_writeTableTrigger s t h
  case paletteStream =>
    exact next_keeps h (keeps_ask s _ _ (fun p s => keeps_unlessStoring (fun s =>
      (keeps_streamPalette _ _ _ s).trans (keeps_done _)) s))
  case startScene =>
    exact next_keeps h (keeps_ask s _ _ (fun slot s => (keeps_waiting s _).trans (keeps_actSettle _ (fun t b => (plays_request b _).moves (tame_request b _)))))
  case stopScene =>
    exact next_keeps h (keeps_ask s _ _ (fun slot s =>
      ((keeps_act _ (acts_stopScene slot) (stays_stopScene slot)).trans (keeps_answer _ _ _)).trans (keeps_settle _)))
  case armTrigger => exact next_keeps h (keeps_ask s _ _ (fun n s => (keeps_onBay ((plays_arm n _ _).moves (tame_arm n _ _))).trans (keeps_done _)))
  case disarmTrigger => exact next_keeps h (keeps_ask s _ _ (fun n s => (keeps_onBay ((plays_disarm n _).moves (tame_disarm n _))).trans (keeps_done _)))
  case homeAxis home => exact next_keeps h (keeps_ask s _ _ (fun a s => keeps_homeAxisAsk home a s))
  case clearFault =>
    refine next_keeps h (keeps_ask s _ _ (fun a s => Keeps.trans (keeps_onBay ?_) (keeps_done _)))
    unfold clearAxisFault
    split
    · exact (acts_updAxis _ a _).moves (tame_updAxis _ a _).stays
    · exact Moves.refl _
  case setMode =>
    refine next_keeps h (keeps_ask s _ _ (fun m s => ?_))
    refine Keeps.trans ?_ (keeps_settle _)
    refine Keeps.trans ?_ (keeps_done _)
    cases m
    · exact keeps_onBay_mode (runs_enterShow _ _) (schedule_enterShow _ _) (tame_enterShow _ _).stays
    · exact keeps_onBay_mode (runs_enterDark _ _) (schedule_enterDark _ _) (stays_enterDark _ _)
  case setProtect key =>
    exact next_keeps h (keeps_ask s _ _ (fun r s => (keeps_withKey s key).trans (keeps_setProtectAsk r _)))
  case freeze key =>
    exact next_keeps h (keeps_ask s _ _ (fun _ s => (keeps_withKey s key).trans (keeps_freezeAsk _)))
  case store =>
    exact next_keeps h (keeps_ask s _ _ (fun _ s => keeps_unlessRestarting (keeps_handOperation _) s))
  case restart => exact next_keeps h (keeps_ask s _ _ (fun _ s => keeps_restartAsk s))
  case eraseSectors => exact next_keeps h (keeps_ask s _ _ (fun p s => keeps_clipOperation _ s))
  case pageFill =>
    exact next_keeps h (keeps_ask s _ _ (fun p s => (keeps_setBuffer s _).trans (keeps_done _)))
  case pageProgram => exact next_keeps h (keeps_ask s _ _ (fun p s => keeps_clipOperation _ s))
  case readClip => exact next_keeps h (keeps_ask s _ _ (fun r s => keeps_unlessRestarting (keeps_readClipAsk r) s))
  case unknownAsk => exact next_keeps h (keeps_onAsk s _ (keeps_whenReady (fun _ s => keeps_answer s _ _)))
  case characterReceived c =>
    unfold execCharacterReceived at h
    split at h
    · exact next_keeps h (keeps_rxTake s c)
    · exact next_keeps h (Keeps.refl s)
  case setBank =>
    exact next_keeps h (keeps_ask s _ _ (fun k s => keeps_unlessStoring (fun s => (keeps_setTables s _ rfl).trans (keeps_done _)) s))
  case setNumber =>
    exact next_keeps h (keeps_ask s _ _ (fun k s => keeps_unlessStoring (fun s => (keeps_setTables s _ rfl).trans (keeps_done _)) s))
  case writeTableConfig => exact next_keeps h (keeps_writeTable s _ _ _ (fun _ _ _ => rfl))
  case writeTablePalette => exact next_keeps h (keeps_writeTable s _ _ _ (fun _ _ _ => rfl))
  case writeTableHighlight => exact next_keeps h (keeps_writeTable s _ _ _ (fun _ _ _ => rfl))
  case writeTableHouse => exact next_keeps h (keeps_writeTable s _ _ _ (fun _ _ _ => rfl))
  case writeTableBank => exact next_keeps h (keeps_writeTable s _ _ _ (fun _ _ _ => rfl))
  case writeTableFixture => exact next_keeps h (keeps_writeTable s _ _ _ (fun _ _ _ => rfl))
  case writeTableClip => exact next_keeps h (keeps_writeTable s _ _ _ (fun _ _ _ => rfl))
  case writeTableRemote => exact next_keeps h (keeps_writeTable s _ _ _ (fun _ _ _ => rfl))
  case writeTableCue => exact next_keeps h (keeps_writeTable s _ _ _ (fun _ _ _ => rfl))
  case writeTableStep => exact keeps_writeTableStep s t h

end Sys2Proof.Machine
end

