-- ==== Sys2Proof/Laws/Memory.lean ====
section
/-! SUPPORT. The flash: what a write reads as, and that every operation keeps the canonical form. -/

namespace Sys2Proof.Machine

theorem Memory.wfFrom_mono : ∀ (m : Memory) {lo hi : Nat}, lo ≤ hi → Memory.wfFrom hi m = true → Memory.wfFrom lo m = true
  | [], _, _, _, _ => rfl
  | (b, v) :: rest, lo, hi, h, hw => by
    simp only [Memory.wfFrom, Bool.and_eq_true, decide_eq_true_eq] at hw ⊢
    exact ⟨⟨by omega, hw.1.2⟩, hw.2⟩

theorem Memory.wfFrom_write : ∀ (m : Memory) (lo a : Nat) (x : Byte), lo ≤ a → Memory.wfFrom lo m = true →
    Memory.wfFrom lo (m.write a x) = true
  | [], lo, a, x, h, _ => by
    by_cases hx : x = Memory.blank
    · simp [Memory.write, hx, Memory.wfFrom]
    · simp [Memory.write, hx, Memory.wfFrom, h]
  | (b, v) :: rest, lo, a, x, h, hw => by
    simp only [Memory.wfFrom, Bool.and_eq_true, decide_eq_true_eq] at hw
    obtain ⟨⟨hb, hv⟩, hr⟩ := hw
    unfold Memory.write
    by_cases h1 : a < b
    · by_cases hx : x = Memory.blank
      · simp [h1, hx, Memory.wfFrom, hb, hv, hr]
      · simp [h1, hx, Memory.wfFrom, h, hv, hr]
    · by_cases h2 : a = b
      · by_cases hx : x = Memory.blank
        · simp only [h2, hx, if_true, lt_irrefl, if_false]
          simpa using Memory.wfFrom_mono rest (by omega) hr
        · subst h2
          simp [hx, Memory.wfFrom, hb, hr]
      · simp only [h1, h2, if_false, Memory.wfFrom, Bool.and_eq_true, decide_eq_true_eq]
        exact ⟨⟨hb, hv⟩, Memory.wfFrom_write rest (b + 1) a x (by omega) hr⟩

/-- A write keeps the canonical form. -/
theorem Memory.wf_write (m : Memory) (a : Nat) (x : Byte) (h : m.wf = true) : (m.write a x).wf = true :=
  Memory.wfFrom_write m 0 a x (Nat.zero_le a) h

/-- A run of writes keeps the canonical form. -/
theorem Memory.wf_writeRun : ∀ (l : List Byte) (m : Memory) (a : Nat), m.wf = true → (m.writeRun a l).wf = true
  | [], _, _, h => h
  | x :: l, m, a, h => Memory.wf_writeRun l (m.write a x) (a + 1) (Memory.wf_write m a x h)

theorem Memory.wfFrom_filter (p : Host.Cell → Bool) : ∀ (m : Memory) (lo : Nat), Memory.wfFrom lo m = true →
    Memory.wfFrom lo (m.filter p) = true
  | [], _, _ => rfl
  | (b, v) :: rest, lo, h => by
    simp only [Memory.wfFrom, Bool.and_eq_true, decide_eq_true_eq] at h
    obtain ⟨⟨hb, hv⟩, hr⟩ := h
    have ih := Memory.wfFrom_filter p rest (b + 1) hr
    by_cases hp : p (b, v) = true
    · simp [hp, Memory.wfFrom, hb, hv, ih]
    · simp only [List.filter_cons, hp]
      simpa using Memory.wfFrom_mono _ (by omega) ih

/-- A sector erase keeps the canonical form. -/
theorem Memory.wf_eraseSector (m : Memory) (sector : Nat) (h : m.wf = true) : (m.eraseSector sector).wf = true :=
  Memory.wfFrom_filter _ m 0 h

/-- A page program keeps the canonical form. -/
theorem Memory.wf_programPage (m : Memory) (page : Nat) (l : List Byte) (h : m.wf = true) :
    (m.programPage page l).wf = true := Memory.wf_writeRun _ m _ h

theorem Memory.read_of_wfFrom : ∀ (m : Memory) (lo a : Nat), a < lo → Memory.wfFrom lo m = true → m.read a = Memory.blank
  | [], _, _, _, _ => rfl
  | (b, v) :: rest, lo, a, h, hw => by
    simp only [Memory.wfFrom, Bool.and_eq_true, decide_eq_true_eq] at hw
    have hne : b ≠ a := by omega
    simp only [Memory.read, hne, if_false]
    exact Memory.read_of_wfFrom rest (b + 1) a (by omega) hw.2

theorem Memory.read_write_from : ∀ (m : Memory) (lo a c : Nat) (x : Byte), Memory.wfFrom lo m = true →
    (m.write a x).read c = if c = a then x else m.read c
  | [], _, a, c, x, _ => by
    by_cases hx : x = Memory.blank <;> by_cases hc : c = a <;> simp [Memory.write, hx, hc, Memory.read]
    intro h; exact absurd h.symm hc
  | (b, v) :: rest, lo, a, c, x, hw => by
    simp only [Memory.wfFrom, Bool.and_eq_true, decide_eq_true_eq] at hw
    obtain ⟨⟨hb, hv⟩, hr⟩ := hw
    unfold Memory.write
    by_cases h1 : a < b
    · by_cases hx : x = Memory.blank
      · simp only [h1, hx, if_true]
        by_cases hc : c = a
        · subst hc
          have hne : b ≠ c := by omega
          simp only [Memory.read, hne, if_false, if_true]
          exact Memory.read_of_wfFrom rest (b + 1) c (by omega) hr
        · simp [hc]
      · simp only [h1, hx, if_true, if_false]
        by_cases hc : c = a
        · simp [Memory.read, hc]
        · have : a ≠ c := fun e => hc e.symm
          simp [Memory.read, hc, this]
    · by_cases h2 : a = b
      · subst h2
        by_cases hx : x = Memory.blank
        · simp only [hx, if_true, lt_irrefl, if_false]
          by_cases hc : c = a
          · subst hc
            simp [Memory.read_of_wfFrom rest (c + 1) c (by omega) hr]
          · have : a ≠ c := fun e => hc e.symm
            simp [Memory.read, hc, this]
        · simp only [hx, if_true, if_false, lt_irrefl]
          by_cases hc : c = a
          · simp [Memory.read, hc]
          · have : a ≠ c := fun e => hc e.symm
            simp [Memory.read, hc, this]
      · simp only [h1, h2, if_false]
        have ih := Memory.read_write_from rest (b + 1) a c x hr
        by_cases hbc : b = c
        · subst hbc
          have : b ≠ a := fun e => h2 e.symm
          simp [Memory.read, this]
        · simp only [Memory.read, hbc, if_false]
          exact ih

/-- A write is read back at its address and nowhere else. -/
theorem Memory.read_write (m : Memory) (a c : Nat) (x : Byte) (h : m.wf = true) :
    (m.write a x).read c = if c = a then x else m.read c := Memory.read_write_from m 0 a c x h

theorem Memory.read_filter_from (p : Nat → Bool) : ∀ (m : Memory) (lo a : Nat), Memory.wfFrom lo m = true →
    Memory.read (m.filter (fun c => p c.1)) a = if p a then m.read a else Memory.blank
  | [], _, a, _ => by by_cases h : p a <;> simp [Memory.read, h]
  | (b, v) :: rest, lo, a, hw => by
    simp only [Memory.wfFrom, Bool.and_eq_true, decide_eq_true_eq] at hw
    have ih := Memory.read_filter_from p rest (b + 1) a hw.2
    by_cases hb : b = a
    · subst hb
      by_cases hp : p b
      · simp [hp, Memory.read]
      · simp only [List.filter_cons, hp, if_false, Bool.false_eq_true, ih]
    · by_cases hp : p b
      · simp only [List.filter_cons, hp, if_true, Memory.read, hb, if_false, ih]
      · simp only [List.filter_cons, hp, Bool.false_eq_true, if_false, Memory.read, hb, ih]

/-- What a sector erase leaves: 0xFF in the sector, every other byte as it was. -/
theorem Memory.read_eraseSector (m : Memory) (sector a : Nat) (h : m.wf = true) :
    (m.eraseSector sector).read a =
      if sector * 4096 ≤ a ∧ a < sector * 4096 + 4096 then 0xFF else m.read a := by
  have := Memory.read_filter_from (fun x => !(decide (sector * 4096 ≤ x) && decide (x < sector * 4096 + 4096))) m 0 a h
  unfold Memory.eraseSector
  rw [this]
  by_cases h1 : sector * 4096 ≤ a <;> by_cases h2 : a < sector * 4096 + 4096 <;> simp [h1, h2, Memory.blank]

/-- What a run of writes leaves: the bytes written, every other byte as it was. -/
theorem Memory.read_writeRun : ∀ (l : List Byte) (m : Memory) (a c : Nat), m.wf = true →
    (m.writeRun a l).read c = if a ≤ c then (l[c - a]?).getD (m.read c) else m.read c
  | [], _, _, _, _ => by simp [Memory.writeRun]
  | x :: l, m, a, c, h => by
    have ih := Memory.read_writeRun l (m.write a x) (a + 1) c (Memory.wf_write m a x h)
    simp only [Memory.writeRun, ih, Memory.read_write m a c x h]
    rcases Nat.lt_trichotomy c a with hlt | heq | hgt
    · have h1 : ¬ a + 1 ≤ c := by omega
      have h2 : ¬ a ≤ c := by omega
      have h3 : c ≠ a := by omega
      simp [h1, h2, h3]
    · subst heq; simp
    · have h1 : a + 1 ≤ c := by omega
      have h2 : a ≤ c := by omega
      have h3 : c ≠ a := by omega
      obtain ⟨d, hd⟩ : ∃ d, c - a = d + 1 := ⟨c - a - 1, by omega⟩
      have hd' : c - (a + 1) = d := by omega
      simp [h1, h2, h3, hd, hd']

end Sys2Proof.Machine
end

