-- ==== Sys2Proof/Laws/Flash.lean ====
section
/-! SUPPORT. What the work of the store port does to the flash: its canonical form stays, and only the present step's bytes change. -/

namespace Sys2Proof.Machine

/-! ### The canonical form stays -/

/-- A step that completes (R61) keeps the form. -/
theorem FlashStep.wf_apply (st : FlashStep) (l : List Byte) (m : Memory)
    (h : m.wf = true) : (st.apply l m).wf = true := by
  cases st
  · exact Memory.wf_eraseSector m _ h
  · exact Memory.wf_programPage m _ _ h

/-- Bytes left undefined by a step cut off (R62, R72) keep the form. -/
theorem FlashStep.wf_spoil (st : FlashStep) (n : Nat) (m : Memory)
    (h : m.wf = true) : (st.spoil n m).wf = true := Memory.wf_writeRun _ m _ h

theorem wf_cutStep (s : State) (h : s.flash.wf = true) : (cutStep s).wf = true := by
  unfold cutStep
  split
  · split
    · exact h
    · exact FlashStep.wf_spoil _ _ _ h
    · exact h
  · exact h

/-- The end of an operation (R71) writes no flash. -/
theorem endOp_flash (c : Bool) (s : State) : (endOp c s).flash = s.flash := keeps_endOp c s .flash (of_decide_eq_true rfl)

theorem wf_abandon (s : State) (h : s.flash.wf = true) : (abandon s).flash.wf = true := by
  unfold abandon
  split
  · rw [endOp_flash]; exact FlashStep.wf_spoil _ _ _ h
  · exact h

theorem wf_completeStep (s : State) (h : s.flash.wf = true) : (completeStep s).flash.wf = true := by
  unfold completeStep
  split
  · exact h
  · split
    · exact h
    · dsimp only
      split
      · rw [endOp_flash]; exact FlashStep.wf_apply _ _ _ h
      · exact FlashStep.wf_apply _ _ _ h

theorem wf_stepReady (f : Bool) (s : State) (h : s.flash.wf = true) : (stepReady f s).flash.wf = true := by
  unfold stepReady
  split
  · split
    · exact wf_abandon s h
    · exact wf_completeStep s h
  · exact h

theorem wf_stepLimit (s : State) (h : s.flash.wf = true) : (stepLimit s).flash.wf = true := by
  unfold stepLimit
  split
  · split
    · exact wf_abandon s h
    · exact h
  · exact h

theorem countReadyWait_flash (s : State) : (countReadyWait s).flash = s.flash := keeps_countReadyWait (e := []) s .flash (of_decide_eq_true rfl)

theorem wf_portMillisecond (s : State) (h : s.flash.wf = true) : (portMillisecond s).flash.wf = true := by
  unfold portMillisecond
  dsimp only
  split
  · refine wf_stepLimit _ ?_
    show (countReadyWait s).flash.wf = true
    rw [countReadyWait_flash]; exact h
  · rw [countReadyWait_flash]; exact h

/-- The turn of any block at a millisecond event keeps the form. -/
theorem wf_blockTurn (inp : MsInputs) (x : Block) (s : State)
    (h : s.flash.wf = true) : (blockTurn inp x s).flash.wf = true := by
  by_cases hx : x = .store
  · subst hx; exact wf_portMillisecond s h
  · have : (blockTurn inp x s).flash = s.flash := keeps_blockTurn inp x s .flash (by cases x <;> first | exact absurd rfl hx | exact of_decide_eq_true rfl)
    rw [this]; exact h

/-! ### Only the bytes of the present step change -/

/-- The address lies outside the sector or page of the step. -/
def FlashStep.Misses (st : FlashStep) (a : Nat) : Prop := ¬ (st.range.1 ≤ a ∧ a < st.range.1 + st.range.2)

theorem Memory.read_writeRun_out (m : Memory) (l : List Byte) (x a : Nat) (h : m.wf = true) (ha : ¬ (x ≤ a ∧
    a < x + l.length)) :
    (m.writeRun x l).read a = m.read a := by
  rw [Memory.read_writeRun l m x a h]
  split
  · rw [List.getElem?_eq_none (by omega)]; rfl
  · rfl

theorem FlashStep.read_apply (st : FlashStep) (l : List Byte) (m : Memory) (a : Nat) (h : m.wf = true)
    (hl : l.length ≤ 256) (ho : FlashStep.Misses st a) :
    (st.apply l m).read a = m.read a := by
  cases st with
  | erase n =>
    simp only [FlashStep.Misses, FlashStep.range] at ho
    simp only [FlashStep.apply, Memory.read_eraseSector m n a h, ho, if_false]
  | program n src =>
    simp only [FlashStep.Misses, FlashStep.range] at ho
    refine Memory.read_writeRun_out m _ _ a h ?_
    simp only [List.length_zipWith]
    omega

theorem FlashStep.read_spoil (st : FlashStep) (n : Nat) (m : Memory) (a : Nat) (h : m.wf = true)
    (ho : FlashStep.Misses st a) :
    (st.spoil n m).read a = m.read a := by
  refine Memory.read_writeRun_out m _ _ a h ?_
  simpa [FlashStep.Misses] using ho

theorem misses_of_not_atStep {p : StorePort} {a : Nat} (h : ¬ p.atStep a)
    {o : Operation} {st : FlashStep} {rest : List FlashStep}
   (ho : p.op = some o) (hs : o.steps = st :: rest) : FlashStep.Misses st a := fun hh => h ⟨o, st, rest, ho, hs, hh.1, hh.2⟩

theorem read_abandon (s : State) (a : Nat) (h : s.flash.wf = true)
    (ho : ¬ s.port.atStep a) : (abandon s).flash.read a = s.flash.read a := by
  unfold abandon
  split
  · next heq =>
    have : ∀ c s, (endOp c s).flash = s.flash := fun c s => keeps_endOp c s .flash (of_decide_eq_true rfl)
    rw [this]
    exact FlashStep.read_spoil _ _ _ a h (misses_of_not_atStep ho heq rfl)
  · rfl

theorem read_completeStep (s : State) (a : Nat) (h : s.flash.wf = true) (hp : s.port.inv = true)
    (ho : ¬ s.port.atStep a) : (completeStep s).flash.read a = s.flash.read a := by
  unfold completeStep
  split
  · rfl
  · next o heq =>
    have hl : o.sent.length ≤ 256 := by
      simp only [StorePort.inv, heq, Bool.and_eq_true] at hp
      simpa using hp.2
    split
    · rfl
    · next st rest hs =>
      dsimp only
      split
      · have : ∀ c s, (endOp c s).flash = s.flash := fun c s => keeps_endOp c s .flash (of_decide_eq_true rfl)
        rw [this]; exact FlashStep.read_apply _ _ _ a h hl (misses_of_not_atStep ho heq hs)
      · exact FlashStep.read_apply _ _ _ a h hl (misses_of_not_atStep ho heq hs)

theorem read_portMillisecond (s : State) (a : Nat) (h : s.flash.wf = true)
    (ho : ¬ s.port.atStep a) : (portMillisecond s).flash.read a = s.flash.read a := by
  have hf : (countReadyWait s).flash = s.flash := keeps_countReadyWait (e := []) s .flash (of_decide_eq_true rfl)
  have hop : (countReadyWait s).port.op = s.port.op := by
    unfold countReadyWait readyTimeout
    split
    · dsimp only
      split <;> rfl
    · rfl
  unfold portMillisecond
  dsimp only
  split
  · generalize countReadyWait s = u at *
    unfold stepLimit
    split
    · split
      · rw [read_abandon]
        · show u.flash.read a = _; rw [hf]
        · show u.flash.wf = true; rw [hf]; exact h
        · rintro ⟨o, st, rest, h1, h2, h3, h4⟩
          simp only [State.updOp_port] at h1
          cases hu : u.port.op with
          | none => rw [hu] at h1; simp at h1
          | some o' =>
            rw [hu] at h1; simp at h1; subst h1
            exact ho ⟨o', st, rest, by rw [← hop]; exact hu, h2, h3, h4⟩
      · show u.flash.read a = _; rw [hf]
    · show u.flash.read a = _; rw [hf]
  · rw [hf]

/-! ### A STORE cut off (R72, R187, log 45) -/

theorem endOp_storeCut (c : Bool) (s : State) : (endOp c s).storeCut = if s.storing = true then !c else s.storeCut := by
  unfold endOp
  dsimp only
  split
  · split <;> rfl
  · rfl

/-- An abandoned operation never leaves the image complete that was not so before. -/
theorem abandon_storeCut (s : State) (h : s.storeCut = true) : (abandon s).storeCut = true := by
  unfold abandon
  split
  · rw [endOp_storeCut]
    split
    · rfl
    · exact h
  · exact h

theorem portMillisecond_storeCut (s : State) (h : s.storeCut = true) : (portMillisecond s).storeCut = true := by
  have hf : (countReadyWait s).storeCut = true :=
    (keeps_countReadyWait (e := []) s .image (of_decide_eq_true rfl)).trans h
  unfold portMillisecond
  dsimp only
  split
  · unfold stepLimit
    split
    · split
      · exact abandon_storeCut _ hf
      · exact hf
    · exact hf
  · exact hf

/-- No turn of a millisecond event makes the image complete. -/
theorem blockTurn_storeCut (inp : MsInputs) (x : Block) (s : State) (h : s.storeCut = true) :
    (blockTurn inp x s).storeCut = true := by
  by_cases hx : x = .store
  · subst hx; exact portMillisecond_storeCut s h
  · exact (keeps_blockTurn inp x s .image (by
      cases x <;> first | exact absurd rfl hx | exact of_decide_eq_true rfl)).trans h

/-! ### The store port at a millisecond event -/

/-- Only the store port's turn changes the store port. -/
theorem blockTurn_port (inp : MsInputs) (x : Block) (s : State)
    (hx : x ≠ .store) : (blockTurn inp x s).port = s.port := by
  cases x <;> unfold blockTurn <;> dsimp only
  · rfl
  · rfl
  · rw [settle_port, State.onBay_port]
  · rw [settle_port, State.onBay_port]
  · rw [settle_port, State.onBay_port]
  · have h1 : ∀ s, (fireSchedule s).port = s.port := fun s => by unfold fireSchedule; rw [settle_port, State.onBay_port]
    have h2 : ∀ l s, (readTriggers l s).port = s.port := fun l s => by
      unfold readTriggers
      split
      · rw [State.onBay_port]
        exact eachOf_same (g := State.port) (fun n s => by rw [settle_port, State.onBay_port]) _ s
      · rfl
    unfold triggerTurn
    dsimp only
    split
    · rw [State.onBay_port, h2, h1]
    · rw [h2, State.onBay_port, h1]
  · unfold lineMillisecond lineLost cutOff
    dsimp only
    split <;> split <;> rfl
  · exact absurd rfl hx

end Sys2Proof.Machine
end

