-- ==== Sys2Proof/Laws/Handover.lean ====
section
/-! SUPPORT. What the loops over resources do to each record: the ends and takings of a run, a release to the return stacks,
the resumption of voices, and the start of the axes and proximity inputs. -/

namespace Sys2Proof.Machine

/-! ### Clocks -/

/-- The two bays show the same times to every lane (R16). -/
structure SameClock (b b' : Bay) : Prop where
  time : b'.time = b.time
  clock : ∀ k, (b'.run k).clock = (b.run k).clock
  free : ∀ k, ((b'.run k).state = .free) = ((b.run k).state = .free)

theorem SameClock.present {b b' : Bay} (h : SameClock b b') (s : TimeSource) : b'.present s = b.present s := by
  cases s <;> simp [Bay.present, h.time, h.clock]

theorem SameClock.elapsed {b b' : Bay} (h : SameClock b b') (l : Lane) : elapsed b' l = elapsed b l := by
  unfold Machine.elapsed; cases l.source <;> simp [h.time, h.clock]

theorem SameClock.laneDone {b b' : Bay} (h : SameClock b b') (l : Lane) : laneDone b' l = laneDone b l := by
  have : sourceFree b' l = sourceFree b l := by
    unfold sourceFree; cases l.source <;> simp [h.free]
  unfold Machine.laneDone; rw [this, h.elapsed]

theorem SameClock.laneValue {b b' : Bay} (h : SameClock b b') (t : Tables) (c : Comp) (l : Lane) :
    laneValue t b' c l = laneValue t b c l := by
  unfold Machine.laneValue; rw [h.laneDone, h.elapsed]

theorem SameClock.holdLevel {b b' : Bay} (h : SameClock b b') (t : Tables) (c : Comp) (s) (l : Lane) :
    holdLevel t b' c s l = holdLevel t b c s l := by
  unfold Machine.holdLevel; simp only [h.laneValue, h.present]

theorem SameClock.holdPosition {b b' : Bay} (h : SameClock b b') (t : Tables) (s) (l : Lane) :
    holdPosition t b' s l = holdPosition t b s l := by
  unfold Machine.holdPosition; simp only [h.laneValue, h.present]

theorem SameClock.retarget {b b' : Bay} (h : SameClock b b') (t : Tables) (c : Comp) (tg d cu s)
    (l : Lane) : retarget t b' c tg d cu s l = retarget t b c tg d cu s l := by
  unfold Machine.retarget; rw [h.laneValue, h.present]

theorem SameClock.refl (b : Bay) : SameClock b b := ⟨rfl, fun _ => rfl, fun _ => rfl⟩

theorem SameClock.trans {a b c : Bay} (h : SameClock a b) (g : SameClock b c) : SameClock a c :=
  ⟨g.time.trans h.time, fun k => (g.clock k).trans (h.clock k), fun k => (g.free k).trans (h.free k)⟩

theorem SameClock.of_rest {b b' : Bay} (t : b'.time = b.time) (s : b'.scene.run = b.scene.run) : SameClock b b' := by
  have : ∀ k, b'.run k = b.run k := fun k => by unfold Bay.run; rw [s]
  exact ⟨t, fun k => by rw [this], fun k => by rw [this]⟩

/-! ### Loops over the fixtures and the axes -/

theorem Bay.updFixture_fixtureRec (b : Bay) (i j : Fin 16) (f) :
    (b.updFixture i f).fixtureRec j = if i = j then f (b.fixtureRec i) else b.fixtureRec j := Tab.get_upd _ _ _ _

/-- A loop of updates that read nothing that another of them changes, fixture by fixture. -/
theorem eachOf_updFixture (f : Fin 16 → Bay → Bay) (G : Fin 16 → Bay → FixtureRun → FixtureRun)
    (hG : ∀ i b x, G i { b with fixture := x } = G i b)
    (hf : ∀ i b, f i b = b.updFixture i (G i b)) (l : List (Fin 16)) (hl : l.Nodup) (b : Bay) :
   eachOf l f b = { b with fixture := { b.fixture with run := (eachOf l f b).fixture.run } } ∧
   ∀ i, (eachOf l f b).fixtureRec i = if i ∈ l then G i b (b.fixtureRec i) else b.fixtureRec i := by
  have keep : ∀ j c, c = { b with fixture := { b.fixture with run := c.fixture.run } } →
      f j c = { b with fixture := { b.fixture with run := (f j c).fixture.run } } := by
    intro j c hc; rw [hf]; unfold Bay.updFixture; rw [hc]
  refine ⟨eachOf_keeps (P := fun c => c = { b with fixture := { b.fixture with run := c.fixture.run } }) keep l b rfl,
    fun i => ?_⟩
  rw [eachOf_at (g := fun b : Bay => b.fixtureRec i)
    (fun c => c = { b with fixture := { b.fixture with run := c.fixture.run } }) i (G i b) keep _ _ l b hl rfl]
  · intro j c hj _; simp only [hf, Bay.updFixture_fixtureRec, if_neg hj]
  · intro c hc; simp only [hf, Bay.updFixture_fixtureRec, if_true]
    rw [hc, hG]

/-- The same, axis by axis. -/
theorem eachOf_updAxis (f : Fin 4 → Bay → Bay) (G : Fin 4 → Bay → Axis → Axis)
    (hG : ∀ i b x, G i { b with axis := x } = G i b)
    (hf : ∀ i b, f i b = b.updAxis i (G i b)) (l : List (Fin 4)) (hl : l.Nodup) (b : Bay) :
   eachOf l f b = { b with axis := { b.axis with axis := (eachOf l f b).axis.axis } } ∧
   ∀ i, (eachOf l f b).axisRec i = if i ∈ l then G i b (b.axisRec i) else b.axisRec i := by
  have keep : ∀ j c, c = { b with axis := { b.axis with axis := c.axis.axis } } →
      f j c = { b with axis := { b.axis with axis := (f j c).axis.axis } } := by
    intro j c hc; rw [hf]; unfold Bay.updAxis; rw [hc]
  refine ⟨eachOf_keeps (P := fun c => c = { b with axis := { b.axis with axis := c.axis.axis } }) keep l b rfl,
    fun i => ?_⟩
  rw [eachOf_at (g := fun b : Bay => b.axisRec i)
    (fun c => c = { b with axis := { b.axis with axis := c.axis.axis } }) i (G i b) keep _ _ l b hl rfl]
  · intro j c hj _; simp only [hf, Bay.updAxis_axisRec, if_neg hj]
  · intro c hc; simp only [hf, Bay.updAxis_axisRec, if_true]
    rw [hc, hG]

theorem ownedFixtures_nodup (b : Bay) (k) : (b.ownedFixtures k).Nodup := (List.nodup_finRange 16).filter _

theorem ownedAxes_nodup (b : Bay) (k) : (b.ownedAxes k).Nodup := (List.nodup_finRange 4).filter _

theorem mem_ownedFixtures (b : Bay) (k i) : i ∈ b.ownedFixtures k ↔ b.owner (fixtureRes i) = some k := by
  simp [Bay.ownedFixtures]

theorem mem_ownedAxes (b : Bay) (k i) : i ∈ b.ownedAxes k ↔ b.owner (axisRes i) = some k := by simp [Bay.ownedAxes]

/-! ### Voices of a run -/

/-- The voices that the end of a run leaves depend on the voices and the clocks alone (R113). -/
theorem endVoices_congr (k : Fin 6) (fade : Nat) (t : Tables) (b c : Bay) (hv : c.voice = b.voice)
    (ht : c.time = b.time) (hs : c.scene = b.scene) : (endVoices k fade t c).voice = (endVoices k fade t b).voice := by
  have step : ∀ (p : VoiceState → Bool) (f : Fin 6 → Bay → Bay)
      (_ : ∀ w (c b : Bay), c.voice = b.voice → c.time = b.time → c.scene = b.scene →
        (f w c).voice = (f w b).voice ∧ (f w c).time = c.time ∧ (f w c).scene = c.scene)
      (c b : Bay), c.voice = b.voice → c.time = b.time → c.scene = b.scene →
      (eachOwnedVoice k p f c).voice = (eachOwnedVoice k p f b).voice ∧
        (eachOwnedVoice k p f c).time = (eachOwnedVoice k p f b).time ∧
        (eachOwnedVoice k p f c).scene = (eachOwnedVoice k p f b).scene := by
    intro p f hf c b h1 h2 h3
    unfold eachOwnedVoice each
    generalize List.finRange 6 = l
    induction l generalizing c b with
    | nil => exact ⟨h1, h2, h3⟩
    | cons v l ih =>
      simp only [eachOf_cons]
      have hx : c.voiceRec v = b.voiceRec v := by unfold Bay.voiceRec; rw [h1]
      rw [hx]
      split
      · obtain ⟨e1, e2, e3⟩ := hf v c b h1 h2 h3
        obtain ⟨_, e5, e6⟩ := hf v b b rfl rfl rfl
        exact ih _ _ e1 (by rw [e2, e5, h2]) (by rw [e3, e6, h3])
      · exact ih _ _ h1 h2 h3
  unfold endVoices
  obtain ⟨a1, a2, a3⟩ := step VoiceState.active (voiceStop 0 fade t) (by
    intro w c b h1 h2 h3
    refine ⟨?_, rfl, rfl⟩
    unfold voiceStop Bay.updVoice
    rw [h1]
    simp only [retarget_congr t h2 h3]) c b hv ht hs
  refine (step (· = .paused) voiceIdle ?_ _ _ a1 a2 a3).1
  intro w c b h1 h2 h3
  refine ⟨?_, rfl, rfl⟩
  unfold voiceIdle Bay.updVoice
  rw [h1]

/-- A resumption changes the voices alone, and reads of the run only its snapshot (R111). -/
theorem resumeVoices_congr (k : Fin 6) (b c : Bay) (hv : c.voice = b.voice) (hs : (c.run k).snap = (b.run k).snap) :
    ∃ v, resumeVoices k c = { c with voice := v } ∧ v = (resumeVoices k b).voice := by
  have step : ∀ (l : List (Fin 6)) (rw' : Nat) (c b : Bay), c.voice = b.voice →
      let f := fun (v : Fin 6) (b : Bay) =>
        if ((b.voiceRec v).owner = some k && (b.voiceRec v).state = .paused) = true then voiceResume rw' v b else b
      ∃ v, eachOf l f c = { c with voice := v } ∧ v = (eachOf l f b).voice := by
    intro l rw'
    induction l with
    | nil => intro c b h; exact ⟨c.voice, rfl, h⟩
    | cons x l ih =>
      intro c b h f
      simp only [eachOf_cons]
      have hx : c.voiceRec x = b.voiceRec x := by unfold Bay.voiceRec; rw [h]
      by_cases hp : ((b.voiceRec x).owner = some k && (b.voiceRec x).state = .paused) = true
      · have e1 : f x c = voiceResume rw' x c := by simp only [f, hx]; rw [if_pos hp]
        have e2 : f x b = voiceResume rw' x b := by simp only [f]; rw [if_pos hp]
        rw [e1, e2]
        obtain ⟨v, h1, h2⟩ := ih (voiceResume rw' x c) (voiceResume rw' x b) (by
          unfold voiceResume Bay.updVoice; rw [h])
        exact ⟨v, by rw [h1]; rfl, h2⟩
      · have e1 : f x c = c := by simp only [f, hx]; rw [if_neg hp]
        have e2 : f x b = b := by simp only [f]; rw [if_neg hp]
        rw [e1, e2]
        exact ih c b h
  unfold resumeVoices eachOwnedVoice each
  rw [hs]
  exact step _ _ c b hv

/-! ### The return stacks -/

theorem eq_of_resource_fixture (r : Fin 22) (i : Fin 16) (h : resource r = .fixture i) : r = fixtureRes i := by
  unfold resource at h; split at h
  · cases h; rfl
  · split at h <;> cases h

theorem eq_of_resource_axis (r : Fin 22) (i : Fin 4) (h : resource r = .axis i) : r = axisRes i := by
  unfold resource at h; split at h
  · cases h
  · split at h
    · cases h
    · cases h; apply Fin.ext; simp [axisRes]; omega

theorem resource_fixtureRes (i : Fin 16) : resource (fixtureRes i) = .fixture i := by fin_cases i <;> rfl

theorem resource_axisRes (i : Fin 4) : resource (axisRes i) = .axis i := by fin_cases i <;> rfl

/-- What handing back the resources that meet `p` makes of `c`: each goes to the first record of its stack `S`, with the holds of
R36 and R94 by the clocks of `b`; a record that gets an axis in HELD is held anew (R102). -/
structure HandedBack (t : Tables) (b : Bay) (S : Fin 22 → List (Fin 6)) (p : Fin 22 → Prop) [DecidablePred p]
    (c d : Bay) : Prop where
  rest : d = { c with
    fixture := { c.fixture with run := d.fixture.run }, axis := { c.axis with axis := d.axis.axis }
    scene := { c.scene with run := d.scene.run }, claim := { c.claim with claim := d.claim.claim } }
  fixture : ∀ i, d.fixtureRec i = if p (fixtureRes i) then (match (S (fixtureRes i)).head? with
    | some j => { c.fixtureRec i with
        scene := (c.fixtureRec i).scene.mapC (fun comp l => holdLevel t b comp (some (.run j)) l)
        intensity := 255, highlight := 0 }
    | none => c.fixtureRec i) else c.fixtureRec i
  axis : ∀ a, d.axisRec a = if p (axisRes a) then (match (S (axisRes a)).head? with
    | some j => { c.axisRec a with move := holdPosition t b (some (.run j)) (c.axisRec a).move }
    | none => c.axisRec a) else c.axisRec a
  run : ∀ j, d.run j =
    if (c.run j).held = false ∧ ∃ a : Fin 4, p (axisRes a) ∧ (S (axisRes a)).head? = some j ∧ (c.axisRec a).state = .held
    then { c.run j with held := true, holdTime := 0 } else c.run j

/-- One resource handed back, to a record that is SUSPENDED (R126 part 2). -/
theorem handBack_records (t : Tables) (b : Bay) (S : Fin 22 → List (Fin 6))
    (hS : ∀ r j, j ∈ S r → (b.run j).state = .suspended) (r : Fin 22) (c : Bay) (hst : (c.claim.claim.get r).stack = S r)
    (h2 : SameClock b c) (h3 : ∀ j, (c.run j).state = (b.run j).state) :
    HandedBack t b S (· = r) c (handBack t r c) ∧
    (∀ r', r' ≠ r → (handBack t r c).claim.claim.get r' = c.claim.claim.get r') ∧ SameClock c (handBack t r c) ∧
    ∀ j, ((handBack t r c).run j).state = (c.run j).state := by
  suffices ∃ d, d = handBack t r c ∧ (d = { c with
      fixture := { c.fixture with run := d.fixture.run }, axis := { c.axis with axis := d.axis.axis }
      scene := { c.scene with run := d.scene.run }, claim := { c.claim with claim := d.claim.claim } }) ∧
      (∀ r', r' ≠ r → d.claim.claim.get r' = c.claim.claim.get r') ∧ SameClock c d ∧
      (∀ j, (d.run j).state = (c.run j).state) ∧
      (∀ i, d.fixtureRec i = if fixtureRes i = r then (match (S (fixtureRes i)).head? with
      | some j => { c.fixtureRec i with
          scene := (c.fixtureRec i).scene.mapC (fun comp l => holdLevel t b comp (some (.run j)) l)
          intensity := 255, highlight := 0 }
      | none => c.fixtureRec i) else c.fixtureRec i) ∧
      (∀ a, d.axisRec a = if axisRes a = r then (match (S (axisRes a)).head? with
      | some j => { c.axisRec a with move := holdPosition t b (some (.run j)) (c.axisRec a).move }
      | none => c.axisRec a) else c.axisRec a) ∧
      (∀ j, d.run j =
        if (c.run j).held = false ∧ ∃ a : Fin 4, axisRes a = r ∧ (S (axisRes a)).head? = some j ∧ (c.axisRec a).state = .held
        then { c.run j with held := true, holdTime := 0 } else c.run j) by
    obtain ⟨d, rfl, d1, d2, d3, d4, d5, d6, d7⟩ := this
    exact ⟨⟨d1, d5, d6, d7⟩, d2, d3, d4⟩
  refine ⟨_, rfl, ?_⟩
  unfold handBack
  rw [hst]
  have hcl : ∀ (f : Claim → Claim) r', r' ≠ r → (c.updClaim r f).claim.claim.get r' = c.claim.claim.get r' :=
    fun f r' e => Tab.get_upd_of_ne _ _ (Ne.symm e)
  cases hS' : S r with
  | nil =>
    dsimp only
    refine ⟨rfl, hcl _, .of_rest rfl rfl, fun _ => rfl, ?_, ?_, ?_⟩
    · intro i; split
      · next e => rw [e, hS']; rfl
      · rfl
    · intro i; split
      · next e => rw [e, hS']; rfl
      · rfl
    · intro j; rw [if_neg]
      · rfl
      · rintro ⟨_, a, e, h, _⟩; rw [e, hS'] at h; cases h
  | cons j rest =>
    dsimp only
    cases hres : resource r with
    | fixture i =>
      have er := eq_of_resource_fixture r i hres
      dsimp only
      refine ⟨rfl, hcl _, .of_rest rfl rfl, fun _ => rfl, ?_, ?_, ?_⟩
      · intro i'
        have : (giveFixture j t i (c.updClaim r fun _ => ⟨some j, rest⟩)).fixtureRec i' = if i = i' then { c.fixtureRec i with
            scene := (c.fixtureRec i).scene.mapC (fun comp l => holdLevel t b comp (some (.run j)) l)
            intensity := 255, highlight := 0 } else c.fixtureRec i' := by
          have hh : ∀ comp l, holdLevel t (c.updClaim r fun _ => ⟨some j, rest⟩) comp (some (.run j)) l =
              holdLevel t b comp (some (.run j)) l := fun comp l =>
            (h2.trans (.of_rest (b' := (c.updClaim r fun _ => ⟨some j, rest⟩)) rfl rfl)).holdLevel t comp _ l
          unfold giveFixture plainLook holdScene
          rw [Bay.updFixture_fixtureRec, Bay.updFixture_fixtureRec, Bay.updFixture_fixtureRec]
          split
          · next e => subst e; simp only [hh]; rfl
          · rfl
        rw [this]
        by_cases e : i = i'
        · subst e; rw [if_pos rfl, if_pos er.symm, ← er, hS']; rfl
        · rw [if_neg e, if_neg]
          intro h; rw [er] at h; apply e; rw [fixtureRes, fixtureRes, Fin.mk.injEq] at h; exact Fin.ext h.symm
      · intro a; rw [if_neg]; · rfl
        intro h; rw [← h, resource_axisRes] at hres; cases hres
      · intro j'; rw [if_neg]; · rfl
        rintro ⟨_, a, h, _⟩; rw [← h, resource_axisRes] at hres; cases hres
    | lane z =>
      dsimp only
      refine ⟨rfl, hcl _, .of_rest rfl rfl, fun _ => rfl, ?_, ?_, ?_⟩
      · intro i; rw [if_neg]; · rfl
        intro h; rw [← h, resource_fixtureRes] at hres; cases hres
      · intro a; rw [if_neg]; · rfl
        intro h; rw [← h, resource_axisRes] at hres; cases hres
      · intro j'; rw [if_neg]; · rfl
        rintro ⟨_, a, h, _⟩; rw [← h, resource_axisRes] at hres; cases hres
    | axis a =>
      have er := eq_of_resource_axis r a hres
      dsimp only
      have hax : ∀ a', (giveAxis j t a (c.updClaim r fun _ => ⟨some j, rest⟩)).axisRec a' =
          if a = a' then { c.axisRec a with move := holdPosition t b (some (.run j)) (c.axisRec a).move } else c.axisRec a' := by
        intro a'
        unfold giveAxis holdAxis
        rw [Bay.updAxis_axisRec]
        split
        · next e => subst e; rw [(h2.trans (.of_rest (b' := (c.updClaim r fun _ => ⟨some j, rest⟩)) rfl rfl)).holdPosition]; rfl
        · rfl
      have hsusp : (c.run j).state = .suspended := by rw [h3]; exact hS r j (by rw [hS']; simp)
      have hadd : ∀ d : Bay, (d.run j).state = .suspended → addHeld j d =
          if (d.run j).held then d else d.updRun j (fun r => { r with held := true, holdTime := 0 }) := by
        intro d hd; unfold addHeld; simp [hd]
      have e1 : ((giveAxis j t a (c.updClaim r fun _ => ⟨some j, rest⟩)).axisRec a).state = (c.axisRec a).state := by
        rw [hax, if_pos rfl]
      rw [e1]
      generalize hg : giveAxis j t a (c.updClaim r fun _ => ⟨some j, rest⟩) = g at *
      have gsc : g.scene = c.scene := by rw [← hg]; rfl
      have gf : g.fixture = c.fixture := by rw [← hg]; rfl
      have gr : ∀ j, g.run j = c.run j := fun j => by unfold Bay.run; rw [gsc]
      have gcl : ∀ r', r' ≠ r → g.claim.claim.get r' = c.claim.claim.get r' := by rw [← hg]; exact hcl _
      have gg : g = { c with axis := { c.axis with axis := g.axis.axis }, claim := { c.claim with claim := g.claim.claim } } := by
        rw [← hg]; rfl
      have gax : ∀ a', g.axisRec a' = if axisRes a' = r then (match (S (axisRes a')).head? with 
          | some j => { c.axisRec a' with move := holdPosition t b (some (.run j)) (c.axisRec a').move }
          | none => c.axisRec a') else c.axisRec a' := by
        intro a'
        rw [hax]
        by_cases e : a = a'
        · subst e; rw [if_pos rfl, if_pos er.symm, ← er, hS']; rfl
        · rw [if_neg e, if_neg]
          intro h; rw [er] at h; apply e; rw [axisRes, axisRes, Fin.mk.injEq] at h; apply Fin.ext; omega
      have nofix : ∀ i, fixtureRes i ≠ r := by intro i h; rw [← h, resource_fixtureRes] at hres; cases hres
      have uniq : ∀ j', (∃ a' : Fin 4, axisRes a' = r ∧ (S (axisRes a')).head? = some j' ∧ (c.axisRec a').state = .held) ↔
          (j' = j ∧ (c.axisRec a).state = .held) := by
        intro j'
        constructor
        · rintro ⟨a', h, h', h''⟩
          have : a' = a := by rw [er, axisRes, axisRes, Fin.mk.injEq] at h; apply Fin.ext; omega
          subst this; rw [h, hS'] at h'; cases h'; exact ⟨rfl, h''⟩
        · rintro ⟨rfl, h⟩; exact ⟨a, er.symm, by rw [← er, hS']; rfl, h⟩
      by_cases hh : (c.axisRec a).state = .held
      · rw [if_pos hh, hadd g (by rw [gr]; exact hsusp), gr]
        by_cases hd : (c.run j).held = true
        · rw [if_pos hd]
          refine ⟨by rw [gg], gcl, .of_rest (by rw [gg]) (by rw [gg]), fun j => by rw [gr], ?_, gax, ?_⟩
          · intro i; rw [if_neg (nofix i)]; rw [gg]; rfl
          · intro j'; rw [gr, if_neg]
            rintro ⟨h, h'⟩; rw [uniq] at h'; obtain ⟨rfl, _⟩ := h'; rw [hd] at h; cases h
        · rw [if_neg hd]
          have ur : ∀ j', (g.updRun j (fun r => { r with held := true, holdTime := 0 })).run j' =
              if j = j' then { c.run j with held := true, holdTime := 0 } else c.run j' := by
            intro j'; rw [Bay.run_updRun, gr, gr]
          refine ⟨by rw [gg]; rfl, gcl,
            ⟨by rw [gg]; rfl, fun j' => by rw [ur]; split; (next e => subst e; rfl); rfl,
              fun j' => by rw [ur]; split; (next e => subst e; rfl); rfl⟩,
            fun j' => by rw [ur]; split; (next e => subst e; rfl); rfl, ?_, gax, ?_⟩
          · intro i; rw [if_neg (nofix i)]; rw [gg]; rfl
          · intro j'; rw [ur]
            simp only [uniq]
            by_cases e : j = j'
            · subst e; rw [if_pos rfl, if_pos ⟨by simpa using hd, rfl, hh⟩]
            · rw [if_neg e, if_neg]; rintro ⟨_, h, _⟩; exact e h.symm
      · rw [if_neg hh]
        refine ⟨by rw [gg], gcl, .of_rest (by rw [gg]) (by rw [gg]), fun j => by rw [gr], ?_, gax, ?_⟩
        · intro i; rw [if_neg (nofix i)]; rw [gg]; rfl
        · intro j'; rw [gr, if_neg]
          rintro ⟨_, h'⟩; rw [uniq] at h'; exact hh h'.2

/-- All the resources of a release handed back (R126 part 2). -/
theorem eachOf_handBack (t : Tables) (b : Bay) (S : Fin 22 → List (Fin 6))
    (hS : ∀ r j, j ∈ S r → (b.run j).state = .suspended) : ∀ (l : List (Fin 22)), l.Nodup → ∀ c,
    (∀ r ∈ l, (c.claim.claim.get r).stack = S r) → SameClock b c → (∀ j, (c.run j).state = (b.run j).state) →
    HandedBack t b S (· ∈ l) c (eachOf l (handBack t) c)
  | [], _, c, _, _, _ => ⟨rfl, fun i => by simp, fun a => by simp, fun j => by simp⟩
  | r :: l, hl, c, h1, h2, h3 => by
    obtain ⟨hr, hl⟩ := List.nodup_cons.mp hl
    obtain ⟨⟨d1, d5, d6, d7⟩, d2, d3, d4⟩ := handBack_records t b S hS r c (h1 r (by simp)) h2 h3
    obtain ⟨i1, i2, i3, i4⟩ := eachOf_handBack t b S hS l hl (handBack t r c)
      (fun r' h => by rw [d2 r' (by rintro rfl; exact hr h)]; exact h1 r' (by simp [h])) (h2.trans d3)
      (fun j => (d4 j).trans (h3 j))
    rw [eachOf_cons]
    generalize handBack t r c = d at *
    have ddax : ∀ a, (d.axisRec a).state = (c.axisRec a).state := by
      intro a; rw [d6]; split
      · cases (S (axisRes a)).head? <;> rfl
      · rfl
    refine ⟨by rw [i1, d1], ?_, ?_, ?_⟩
    · intro i; rw [i2, d5]
      by_cases e : fixtureRes i = r
      · rw [if_neg (by rw [e]; exact hr), if_pos e, if_pos (by rw [e]; simp)]
      · rw [if_neg e]; simp only [List.mem_cons, e, false_or]
    · intro i; rw [i3, d6]
      by_cases e : axisRes i = r
      · rw [if_neg (by rw [e]; exact hr), if_pos e, if_pos (by rw [e]; simp)]
      · rw [if_neg e]; simp only [List.mem_cons, e, false_or]
    · intro j; rw [i4, d7]
      simp only [ddax]
      by_cases hx : (c.run j).held = false
      · by_cases hy : ∃ a : Fin 4, axisRes a = r ∧ (S (axisRes a)).head? = some j ∧ (c.axisRec a).state = .held
        · have hy' : ∃ a : Fin 4, axisRes a ∈ r :: l ∧ (S (axisRes a)).head? = some j ∧ (c.axisRec a).state = .held := by
            obtain ⟨a, e, h⟩ := hy
            exact ⟨a, by rw [e]; simp, h⟩
          simp only [hx, hy, hy', and_self, if_true]
          simp
        · simp only [hy, and_false, if_false]
          congr 1
          simp only [hx, true_and, eq_iff_iff]
          constructor
          · rintro ⟨a, h, h'⟩; exact ⟨a, by simp [h], h'⟩
          · rintro ⟨a, h, h'⟩
            rcases List.mem_cons.mp h with h | h
            · exact absurd ⟨a, h, h'⟩ hy
            · exact ⟨a, h, h'⟩
      · simp [hx]

/-! ### Start-up -/

theorem holdBy_unhomed (p a : Fin 4) (t : Tables) (b : Bay) (ho : b.owner (axisRes a) = none)
    (hs : (b.axisRec a).state = .unhomed) (hg : ∀ k, (b.run k).gate = none) :
    holdBy p a t b = b.updAxis a (fun x => { x with held := x.held ||| proxBit p }) := by
  unfold holdBy
  rw [report_of_unowned _ _ _ _ (by exact ho) (by
    intro k g h; rw [show ((b.updAxis a _).run k) = b.run k from rfl, hg] at h; cases h)]
  exact Bay.updAxis_congr _ _ _ _ (by simp [hs])

/-- A bay as a reset leaves its axes: no owner, UNHOMED, and no gate open. -/
structure Unhomed (b : Bay) : Prop where
  owner : ∀ a, b.owner (axisRes a) = none
  state : ∀ a, (b.axisRec a).state = .unhomed
  gate : ∀ k, (b.run k).gate = none

/-- `c` is `b` but for the held bits of the axes, to which `P` says what was added, and the proximity records. -/
structure HeldMore (b c : Bay) (P : Fin 4 → Fin 4 → Bool) : Prop where
  rest : c = { b with axis := c.axis }
  axis : ∀ a, ∃ h : BitVec 4, c.axisRec a = { b.axisRec a with held := h } ∧
    ∀ q : Fin 4, h.getLsbD q.val = ((b.axisRec a).held.getLsbD q.val || P q a)

theorem HeldMore.refl (b : Bay) : HeldMore b b (fun _ _ => false) :=
  ⟨rfl, fun a => ⟨(b.axisRec a).held, rfl, fun _ => by rw [Bool.or_false]⟩⟩

theorem HeldMore.unhomed {b c : Bay} {P} (h : HeldMore b c P) (n : Unhomed b) : Unhomed c := by
  refine ⟨?_, ?_, ?_⟩
  · intro a; rw [h.rest]; exact n.owner a
  · intro a; obtain ⟨x, e, _⟩ := h.axis a; rw [e]; exact n.state a
  · intro k; rw [h.rest]; exact n.gate k

theorem HeldMore.trans {b c d : Bay} {P Q R} (h : HeldMore b c P) (g : HeldMore c d Q) (hr : ∀ q a, R q a = (P q a || Q q a)) :
    HeldMore b d R := by
  refine ⟨by rw [g.rest, h.rest], fun a => ?_⟩
  obtain ⟨x, e, hx⟩ := h.axis a
  obtain ⟨y, e', hy⟩ := g.axis a
  refine ⟨y, by rw [e', e], fun q => ?_⟩
  rw [hy, e]
  show (x.getLsbD q.val || _) = _
  rw [hx, hr, Bool.or_assoc]

theorem HeldMore.congr {b c : Bay} {P Q} (h : HeldMore b c P) (e : ∀ q a, Q q a = P q a) : HeldMore b c Q :=
  ⟨h.rest, fun a => (h.axis a).imp fun _ x => ⟨x.1, fun q => by rw [x.2, e]⟩⟩

theorem getLsbD_or_proxBit (p q : Fin 4) (h : BitVec 4) :
    (h ||| proxBit p).getLsbD q.val = (h.getLsbD q.val || decide (p = q)) := by
  revert h p q; decide

theorem heldMore_holdBy (p x : Fin 4) (t : Tables) (b : Bay) (n : Unhomed b) :
    HeldMore b (holdBy p x t b) (fun q a => decide (p = q) && decide (a = x)) ∧
    (holdBy p x t b).axis.prox = b.axis.prox := by
  rw [holdBy_unhomed p x t b (n.owner x) (n.state x) n.gate]
  refine ⟨⟨rfl, fun a => ?_⟩, rfl⟩
  rw [Bay.updAxis_axisRec]
  by_cases e : x = a
  · subst e; rw [if_pos rfl]; exact ⟨_, rfl, fun q => by rw [getLsbD_or_proxBit]; simp⟩
  · rw [if_neg e]; exact ⟨(b.axisRec a).held, rfl, fun q => by simp [Ne.symm e]⟩

theorem eachOf_holdBy (p : Fin 4) (t : Tables) : ∀ (l : List (Fin 4)) (b : Bay), Unhomed b →
    HeldMore b (eachOf l (fun a b => holdBy p a t b) b) (fun q a => decide (p = q) && decide (a ∈ l)) ∧
    (eachOf l (fun a b => holdBy p a t b) b).axis.prox = b.axis.prox
  | [], b, _ => ⟨(HeldMore.refl b).congr (by simp), rfl⟩
  | x :: l, b, n => by
    obtain ⟨h, e⟩ := heldMore_holdBy p x t b n
    obtain ⟨g, f⟩ := eachOf_holdBy p t l _ (h.unhomed n)
    refine ⟨h.trans g ?_, f.trans e⟩
    intro q a
    by_cases e : p = q <;> by_cases e' : a = x <;> simp [e, e']

/-- An active input at start-up (R189): it becomes ACTIVE, and holds each axis of its mask (R92). -/
theorem proxActive_unhomed (p : Fin 4) (t : Tables) (b : Bay) (n : Unhomed b) (hc : (b.axis.prox.get p).state = .clear) :
    HeldMore b (proxActive p t b) (fun q a => decide (p = q) && (t.prox.get q).axes.getLsbD a.val) ∧
    ∀ q, (proxActive p t b).axis.prox.get q = if p = q then ⟨.active, 0⟩ else b.axis.prox.get q := by
  have e : proxActive p t b = eachOf (members (t.prox.get p).axes) (fun a b => holdBy p a t b)
      (b.updProx p (fun _ => ⟨.active, 0⟩)) := by unfold proxActive; rw [hc]
  have h0 : HeldMore b (b.updProx p (fun _ => ⟨.active, 0⟩)) (fun _ _ => false) :=
    ⟨rfl, fun a => ⟨(b.axisRec a).held, rfl, fun _ => by rw [Bool.or_false]⟩⟩
  obtain ⟨h, f⟩ := eachOf_holdBy p t (members (t.prox.get p).axes) _ (h0.unhomed n)
  rw [e]
  refine ⟨(h0.trans h (fun _ _ => (Bool.false_or _).symm)).congr ?_, fun q => by rw [f]; exact Tab.get_upd _ _ _ _⟩
  intro q a
  by_cases e : p = q
  · subst e; simp [members]
  · simp [e]

theorem eachOf_proxActive (t : Tables) : ∀ (l : List (Fin 4)) (b : Bay), l.Nodup → Unhomed b →
    (∀ p ∈ l, (b.axis.prox.get p).state = .clear) →
    HeldMore b (eachOf l (fun p b => proxActive p t b) b) (fun q a => decide (q ∈ l) && (t.prox.get q).axes.getLsbD a.val) ∧
    ∀ q, (eachOf l (fun p b => proxActive p t b) b).axis.prox.get q = if q ∈ l then ⟨.active, 0⟩ else b.axis.prox.get q
  | [], b, _, _, _ => ⟨(HeldMore.refl b).congr (by simp), fun _ => rfl⟩
  | p :: l, b, nd, n, hc => by
    obtain ⟨np, nd⟩ := List.nodup_cons.1 nd
    obtain ⟨h, e⟩ := proxActive_unhomed p t b n (hc p (by simp))
    obtain ⟨g, f⟩ := eachOf_proxActive t l (proxActive p t b) nd (h.unhomed n) (by
      intro q hq; rw [e, if_neg (by rintro rfl; exact np hq)]; exact hc q (by simp [hq]))
    rw [eachOf_cons]
    refine ⟨h.trans g ?_, fun q => ?_⟩
    · intro q a
      by_cases e : p = q
      · subst e; simp [np]
      · simp [e, Ne.symm e]
    · rw [f, e]
      by_cases e : p = q
      · subst e; simp [np]
      · simp [e, Ne.symm e]

/-- Entering HOMING without an owner or a gate (R84): the axis alone changes. -/
theorem enterHoming_unowned (active : Bool) (x : Fin 4) (t : Tables) (b : Bay) (ho : b.owner (axisRes x) = none)
    (hg : ∀ k, (b.run k).gate = none) :
    enterHoming active x t b = b.updAxis x (fun y => { captureHoming (t.axis.get x) y with
      state := .homing, travel := 0, phase := if active then .offSwitch else .seek
      move := holdPosition t b (some .node) y.move }) := by
  unfold enterHoming holdAxis
  rw [Bay.updAxis_updAxis]
  rw [report_of_unowned _ _ _ _ (by exact ho) (by
    intro k g h; rw [show ((b.updAxis x _).run k) = b.run k from rfl, hg] at h; cases h)]
  rfl

theorem eachOf_enterHoming (t : Tables) (home : BitVec 4) : ∀ (l : List (Fin 4)) (b : Bay), l.Nodup →
    (∀ a, b.owner (axisRes a) = none) → (∀ k, (b.run k).gate = none) →
    let c := eachOf l (fun a b => if (t.axis.get a).homeAtStart then enterHoming (home.getLsbD a.val) a t b else b) b
    c = { b with axis := { b.axis with axis := c.axis.axis } } ∧
    ∀ a, c.axisRec a = if a ∈ l ∧ (t.axis.get a).homeAtStart = true then { captureHoming (t.axis.get a) (b.axisRec a) with
      state := .homing, travel := 0, phase := if home.getLsbD a.val then .offSwitch else .seek
      move := holdPosition t b (some .node) (b.axisRec a).move } else b.axisRec a
  | [], b, _, _, _ => ⟨rfl, fun a => by simp⟩
  | x :: l, b, nd, ho, hg => by
    obtain ⟨nx, nd⟩ := List.nodup_cons.1 nd
    intro c
    obtain ⟨d, hd, d1, d2⟩ : ∃ d, d = (if (t.axis.get x).homeAtStart then enterHoming (home.getLsbD x.val) x t b else b) ∧
        d = { b with axis := { b.axis with axis := d.axis.axis } } ∧
        ∀ a, d.axisRec a = if a = x ∧ (t.axis.get a).homeAtStart = true then { captureHoming (t.axis.get a) (b.axisRec a) with
          state := .homing, travel := 0, phase := if home.getLsbD a.val then .offSwitch else .seek
          move := holdPosition t b (some .node) (b.axisRec a).move } else b.axisRec a := by
      refine ⟨_, rfl, ?_⟩
      split
      · next hh =>
        rw [enterHoming_unowned _ _ _ _ (ho x) hg]
        refine ⟨rfl, fun a => ?_⟩
        rw [Bay.updAxis_axisRec]
        by_cases e : x = a
        · subst e; simp [hh]
        · rw [if_neg e, if_neg (fun h => e h.1.symm)]
      · next hh => exact ⟨rfl, fun a => by rw [if_neg]; rintro ⟨rfl, h⟩; exact hh h⟩
    have hc : c = eachOf l (fun a b => if (t.axis.get a).homeAtStart then enterHoming (home.getLsbD a.val) a t b else b) d := by
      rw [hd]; rfl
    obtain ⟨c1, c2⟩ := eachOf_enterHoming t home l d nd (by intro a; rw [d1]; exact ho a) (by intro k; rw [d1]; exact hg k)
    rw [← hc] at c1 c2
    refine ⟨by rw [c1, d1], fun a => ?_⟩
    rw [c2, d2, (SameClock.of_rest (b := b) (b' := d) (by rw [d1]) (by rw [d1])).holdPosition]
    by_cases e : a = x
    · subst e; simp [nx]
    · simp [e]

theorem captureAll_parts (t : Tables) (b : Bay) : captureAll t b = { b with axis := (captureAll t b).axis } ∧
    (captureAll t b).axis.prox = b.axis.prox ∧
    ∀ a, (captureAll t b).axisRec a = captureHoming (t.axis.get a) (b.axisRec a) := by
  refine ⟨rfl, rfl, fun a => ?_⟩
  show (((((b.updAxis 0 _).updAxis 1 _).updAxis 2 _).updAxis 3 _).axisRec a) = _
  simp only [Bay.updAxis_axisRec]
  fin_cases a <;> rfl

end Sys2Proof.Machine
end

