-- ==== Sys2Proof/Laws/Invariant.lean ====
section
/-! SUPPORT. The shared operations keep the tables in range, and the line unit and the store port in their bounds. -/

namespace Sys2Proof.Machine

/-! ### Tables read from an image lie in range -/

theorem fits_of_tablesOf (l : List Byte) (t : Tables) (r : List Byte)
    (h : tablesOf l = some (t, r)) : t.fits = true := by
  unfold tablesOf at h
  obtain ⟨⟨config, l0⟩, -, h⟩ := Option.bind_eq_some_iff.mp h
  obtain ⟨⟨protect, l1⟩, -, h⟩ := Option.bind_eq_some_iff.mp h
  obtain ⟨⟨bank, l2⟩, -, h⟩ := Option.bind_eq_some_iff.mp h
  obtain ⟨⟨house, l3⟩, -, h⟩ := Option.bind_eq_some_iff.mp h
  obtain ⟨⟨hl, l4⟩, -, h⟩ := Option.bind_eq_some_iff.mp h
  obtain ⟨⟨zone, l5⟩, -, h⟩ := Option.bind_eq_some_iff.mp h
  obtain ⟨⟨fixture, l6⟩, -, h⟩ := Option.bind_eq_some_iff.mp h
  obtain ⟨⟨prox, l7⟩, -, h⟩ := Option.bind_eq_some_iff.mp h
  obtain ⟨⟨axis, l8⟩, h9, h⟩ := Option.bind_eq_some_iff.mp h
  obtain ⟨⟨trig, l9⟩, -, h⟩ := Option.bind_eq_some_iff.mp h
  obtain ⟨⟨rem, l10⟩, h11, h⟩ := Option.bind_eq_some_iff.mp h
  obtain ⟨⟨cue, l11⟩, h12, h⟩ := Option.bind_eq_some_iff.mp h
  obtain ⟨⟨patch, l12⟩, -, h⟩ := Option.bind_eq_some_iff.mp h
  obtain ⟨⟨pal, l13⟩, -, h⟩ := Option.bind_eq_some_iff.mp h
  obtain ⟨⟨clip, l14⟩, h15, h⟩ := Option.bind_eq_some_iff.mp h
  obtain ⟨⟨scene, l15⟩, h16, h⟩ := Option.bind_eq_some_iff.mp h
  obtain ⟨⟨step, l16⟩, -, h⟩ := Option.bind_eq_some_iff.mp h
  injection h with h
  injection h with h1 h2
  subst h1
  simp only [Tables.fits, Bool.and_eq_true]
  exact ⟨⟨⟨⟨decEntries_reads axisC_reads _ _ _ _ h9, decEntries_reads clipC_reads _ _ _ _ h15⟩, decEntries_reads sceneC_reads _ _ _ _ h16⟩, decEntries_reads remoteC_reads _ _ _ _ h11⟩, decEntries_reads cueC_reads _ _ _ _ h12⟩

theorem factory_fits : Tables.factory.fits = true := by decide +kernel

theorem fits_imageTables (a b : List Byte) : ((imageTables a b).getD Tables.factory).fits = true := by
  unfold imageTables
  split
  · cases h : tablesOf b with
    | none => exact factory_fits
    | some p => exact fits_of_tablesOf b p.1 p.2 h
  · exact factory_fits

/-! ### The line unit and the store port -/

/-- The line unit and the store port are in their bounds. -/
def Bounded (s : State) : Prop := s.line.inv = true ∧ s.port.inv = true

theorem Bounded.of_same {s t : State} (hs : Bounded s) (hl : t.line = s.line)
    (hp : t.port = s.port) : Bounded t := by unfold Bounded; rw [hl, hp]; exact hs

theorem headComplete_completeFirst (g : Ask → Frame) (r : Bool) (l : List TxEntry)
    (h : headComplete l = true) : headComplete (completeFirst g r l) = true := by
  match l, h with
  | .frame _ _ :: _, _ => rfl

theorem LineUnit.inv_completeFirst (l : LineUnit) (g : Ask → Frame) (r : Bool)
    (h : l.inv = true) : ({ l with tx := completeFirst g r l.tx } : LineUnit).inv = true := by
  simp only [LineUnit.inv, Bool.and_eq_true, length_completeFirst, Bool.or_eq_true] at h ⊢
  exact ⟨h.1, h.2.imp id (headComplete_completeFirst g r l.tx)⟩

theorem bounded_answer {s : State} (c : Byte) (d : List Byte)
    (h : Bounded s) : Bounded (s.answer c d) := ⟨LineUnit.inv_completeFirst _ _ _ h.1, h.2⟩

theorem bounded_answerOutcome {s : State} (h : Bounded s) : Bounded (answerOutcome s) := by
  rcases answerOutcome_line s with e | ⟨c, d, e⟩
  · exact Bounded.of_same h e (answerOutcome_port s)
  · unfold Bounded; rw [e, answerOutcome_port]; exact ⟨LineUnit.inv_completeFirst _ _ _ h.1, h.2⟩

theorem bounded_onBay {s : State} (f : Tables → Bay → Bay)
    (h : Bounded s) : Bounded (s.onBay f) := Bounded.of_same h rfl rfl

theorem bounded_settle {s : State} (h : Bounded s) : Bounded (settle s) := bounded_answerOutcome (bounded_onBay _ h)

theorem bounded_done {s : State} (h : Bounded s) : Bounded s.done := bounded_answer _ _ h

/-! ### Asks -/

theorem bounded_onAsk (s : State) (p : Ask → Bool) {act : List Byte → State → State} (hs : Bounded s)
    (h : ∀ l s, Bounded s → Bounded (act l s)) : Bounded (s.onAsk p act) := by
  unfold State.onAsk
  split
  · split
    · exact h _ _ hs
    · exact hs
  · exact hs

theorem bounded_whenReady {act : List Byte → State → State} (h : ∀ l s, Bounded s → Bounded (act l s))
    (l : List Byte) (s : State) (hs : Bounded s) : Bounded (whenReady act l s) := by
  unfold whenReady
  split
  · exact h _ _ hs
  · exact bounded_answer _ _ hs

theorem bounded_withParams {α} (form : List Byte → Option α) {act : α → State → State} (h : ∀ x s, Bounded s →
    Bounded (act x s)) (l : List Byte) (s : State) (hs : Bounded s) : Bounded (withParams form act l s) := by
  unfold withParams
  split
  · exact bounded_answer _ _ hs
  · next x hx => exact h _ _ hs

theorem bounded_unlessStoring {act : State → State} (h : ∀ s, Bounded s → Bounded (act s)) (s : State)
    (hs : Bounded s) : Bounded (unlessStoring act s) := by
  unfold unlessStoring
  split
  · exact bounded_answer _ _ hs
  · exact h _ hs

theorem bounded_unlessRestarting {act : State → State} (h : ∀ s, Bounded s → Bounded (act s)) (s : State)
    (hs : Bounded s) : Bounded (unlessRestarting act s) := by
  unfold unlessRestarting
  split
  · exact h _ hs
  · exact bounded_answer _ _ hs

theorem bounded_ask {α} (s : State) (k : AskKind) (form : List Byte → Option α) {act : α → State → State}
    (hs : Bounded s)
   (h : ∀ x s, Bounded s → Bounded (act x s)) : Bounded (s.ask k form act) :=
  bounded_onAsk s _ hs (bounded_whenReady (bounded_withParams form h))

theorem bounded_write {α} (s : State) (id : TableId) (w : Machine.Writer α) (hs : Bounded s)
    (h : ∀ i l s, (w.put i l s).line = s.line ∧ (w.put i l s).port = s.port) : Bounded (s.write id w) := by
  refine bounded_onAsk s _ hs (bounded_whenReady (bounded_withParams _ (fun p s hs => ?_)))
  split
  · exact bounded_answer _ _ hs
  · split
    · exact bounded_answer _ _ hs
    · exact bounded_unlessStoring (fun s hs => bounded_settle (bounded_done (Bounded.of_same hs (h _ _ s).1 (h _ _ s).2))) s hs

/-! ### Frames -/

theorem LineUnit.inv_enter (l : LineUnit) (e : TxEntry) (h : l.inv = true)
    (hl : l.tx.length < 4) : ({ l with tx := l.tx ++ [e] } : LineUnit).inv = true := by
  simp only [LineUnit.inv, Bool.and_eq_true, decide_eq_true_eq, List.length_append, List.length_cons, List.length_nil] at h ⊢
  obtain ⟨⟨⟨h1, h2⟩, h3⟩, h4⟩ := h
  refine ⟨⟨⟨by omega, h2⟩, h3⟩, ?_⟩
  simp only [Bool.or_eq_true] at h4 ⊢
  refine h4.imp id (fun h => ?_)
  match l.tx, h with
  | .frame _ _ :: _, _ => rfl

theorem bounded_enter {s : State} (e : TxEntry) (h : Bounded s)
    (hl : s.line.tx.length < 4) : Bounded (s.enter e) := ⟨LineUnit.inv_enter _ e h.1 hl, h.2⟩

theorem bounded_fillOr {s : State} (own : Fin 251) (f : Frame) (h : Bounded s)
    (hl : s.line.tx.length < 4) : Bounded (fillOr own f s) := by
  unfold fillOr
  split
  · exact bounded_enter _ h hl
  · exact bounded_enter _ (Bounded.of_same h rfl rfl) hl

theorem bounded_rxTake {s : State} (c : RxChar) (h : Bounded s) : Bounded (s.rxTake c) := ⟨h.1, h.2⟩

theorem bounded_onFrame {s : State} (c : RxChar) (t : Treatment) {act : Fin 251 → Frame → State → State}
    (hs : Bounded s)
    (h : ∀ own f s, Bounded s → s.line.tx.length < 4 → Bounded (act own f s)) : Bounded (s.onFrame c t act) := by
  unfold State.onFrame
  split
  · unfold State.takeFrame
    split
    · exact Bounded.of_same (bounded_rxTake c hs) rfl rfl
    · next hl => exact h _ _ _ (bounded_rxTake c hs) (by simpa using hl)
  · exact hs

/-! ### The store port -/

theorem StorePort.inv_of_same {p q : StorePort} (h : p.inv = true) (h1 : q.link = p.link)
    (h2 : q.op = p.op) : q.inv = true := by
  unfold StorePort.inv StorePort.working StorePort.phase at *
  rw [h1, h2]; exact h

theorem StorePort.not_working {p : StorePort} (h : p.inv = true) (hl : p.link ≠ .operation) : p.working = false := by
  simp only [StorePort.inv, Bool.and_eq_true, beq_iff_eq] at h
  rw [h.1]; simpa using hl

theorem StorePort.inv_setLink {p : StorePort} (h : p.inv = true) (hl : p.link ≠ .operation) (l : Link)
    (hl' : l ≠ .operation) (w : Option ReadReq) :
   ({ p with link := l, waiting := w } : StorePort).inv = true := by
  have hw := StorePort.not_working h hl
  simp only [StorePort.inv, Bool.and_eq_true] at h ⊢
  refine ⟨?_, h.2⟩
  have : ({ p with link := l, waiting := w } : StorePort).working = p.working := rfl
  simp [this, hw, hl']

theorem bounded_beginRefill {s : State} (h : Bounded s) : Bounded (beginRefill s) := by
  unfold beginRefill
  split
  · next v hl hw hv =>
    refine ⟨h.1, ?_⟩
    have := StorePort.inv_setLink h.2 (by rw [hl]; simp) (.refill v (s.bay.voiceRec v).refillRead)
        (by simp) s.port.waiting
    exact this
  · exact h

theorem bounded_endRefill {s : State} (h : Bounded s) : Bounded (endRefill s) := by
  unfold endRefill
  split
  · next v r hl =>
    exact ⟨h.1, StorePort.inv_setLink h.2 (by rw [hl]; simp) .free (by simp) s.port.waiting⟩
  · exact h

theorem bounded_beginManagementRead {s : State} (h : Bounded s) : Bounded (beginManagementRead s) := by
  unfold beginManagementRead
  split
  · next r hl hw => exact ⟨h.1, StorePort.inv_setLink h.2 (by rw [hl]; simp) _ (by simp) none⟩
  · exact h

theorem bounded_imageBytes {s : State} (a b : List Byte) (h : Bounded s) : Bounded (imageBytes a b s) := by
  unfold imageBytes
  dsimp only
  split
  · exact ⟨h.1, StorePort.inv_of_same h.2 rfl rfl⟩
  · exact ⟨h.1, h.2⟩

theorem bounded_endManagementRead {s : State} (h : Bounded s) : Bounded (endManagementRead s) := by
  unfold endManagementRead
  split
  · next r hl =>
    have hb : Bounded (s.setPort (fun p => { p with link := .free })) := ⟨h.1, StorePort.inv_setLink h.2 (by rw [hl]; simp) .free (by simp) s.port.waiting⟩
    dsimp only
    split
    · exact bounded_answer _ _ (Bounded.of_same hb rfl rfl)
    · exact bounded_imageBytes _ _ hb
    · exact hb
  · exact h

theorem bounded_beginImageReads {s : State}
    (h : Bounded s) : Bounded (beginImageReads s) := ⟨h.1, StorePort.inv_of_same h.2 rfl rfl⟩

theorem bounded_readyTimeout {s : State} (h : Bounded s) : Bounded (readyTimeout s) := by
  unfold readyTimeout
  split
  · split
    · exact bounded_beginImageReads (Bounded.of_same h rfl rfl)
    · exact h
  · exact h

theorem length_page (t : Tables) (i : Nat) : (t.page i).length ≤ 256 := by simp [Tables.page]

theorem length_trailerPage (c : BitVec 16) : (trailerPage c).length ≤ 256 := by
  unfold trailerPage imageIdentity
  rw [List.length_append, List.length_append, List.length_append, length_bytesOf, List.length_replicate]
  decide

/-- A step sends at most a page (R67). -/
theorem length_stepBytes (s : State) (o : Operation) (st : FlashStep) : (stepBytes s o st).length ≤ 256 := by
  unfold stepBytes
  split
  · simp
  · simp [s.port.buffer.len]
  · exact length_page _ _
  · exact length_trailerPage _

theorem bounded_beginStep {s : State} (h : Bounded s) : Bounded (beginStep s) := by
  unfold beginStep
  split
  · split
    · split
      · exact h
      · refine ⟨h.1, ?_⟩
        simp [State.setPort, StorePort.inv, StorePort.working, StorePort.phase, length_stepBytes]
    · exact h
  · exact h

theorem bounded_endOp {s : State} (c : Bool) (h : Bounded s) : Bounded (endOp c s) := by
  unfold endOp
  have hb : Bounded (s.setPort (fun p => { p with op := none, link := .free, state := if c then .idle
      else .failed })) :=
    ⟨h.1, by simp [State.setPort, StorePort.inv, StorePort.working, StorePort.phase]⟩
  dsimp only
  split
  · cases c
    · exact Bounded.of_same hb rfl rfl
    · exact Bounded.of_same hb rfl rfl
  · exact hb

theorem bounded_abandon {s : State} (h : Bounded s) : Bounded (abandon s) := by
  unfold abandon
  split
  · exact bounded_endOp _ (Bounded.of_same h rfl rfl)
  · exact h

theorem bounded_completeStep {s : State} (h : Bounded s) : Bounded (completeStep s) := by
  unfold completeStep
  split
  · exact h
  · next o ho =>
    split
    · exact h
    · dsimp only
      split
      · exact bounded_endOp _ (Bounded.of_same h rfl rfl)
      · refine ⟨h.1, ?_⟩
        have h2 := h.2
        simp only [StorePort.inv, Bool.and_eq_true] at h2
        have h3 := h2.2
        rw [ho] at h3
        simp [State.setPort, StorePort.inv, StorePort.working, StorePort.phase]
        simpa using h3

theorem bounded_stepReady {s : State} (f : Bool) (h : Bounded s) : Bounded (stepReady f s) := by
  unfold stepReady
  split
  · split
    · exact bounded_abandon h
    · exact bounded_completeStep h
  · exact h

theorem bounded_stepLimit {s : State} (h : Bounded s) : Bounded (stepLimit s) := by
  unfold stepLimit
  split
  · split
    · exact bounded_abandon h
    · exact h
  · exact h

theorem StorePort.inv_counted (q : StorePort) (h : q.inv = true) :
    ({ q with op := q.op.map (fun o => { o with stepCount := o.stepCount + 1, runCount := o.runCount + 1 }) } : StorePort).inv = true := by
  obtain ⟨link, waiting, op, st, buf, rw⟩ := q
  cases op <;> simpa [StorePort.inv, StorePort.working, StorePort.phase] using h

theorem bounded_counted {s : State} (h : Bounded s) : Bounded (s.updOp (fun o => { o with stepCount := o.stepCount + 1, runCount := o.runCount + 1 })) :=
  ⟨h.1, StorePort.inv_counted _ h.2⟩

theorem StorePort.inv_suspending (q : StorePort) (h : q.inv = true) (hp : q.phase = some .working) :
    ({ q with op := q.op.map (fun o => { o with phase := .suspending }) } : StorePort).inv = true := by
  obtain ⟨link, waiting, op, st, buf, rw⟩ := q
  cases op
  · simp [StorePort.phase] at hp
  · simp [StorePort.inv, StorePort.working, StorePort.phase] at h hp ⊢; simp_all

theorem StorePort.inv_suspended (q : StorePort) (h : q.inv = true) :
    ({ q with link := .free, op := q.op.map (fun o => { o with phase := .suspended }) } : StorePort).inv = true := by
  obtain ⟨link, waiting, op, st, buf, rw⟩ := q
  cases op
  · simp [StorePort.inv, StorePort.working, StorePort.phase]
  · simp [StorePort.inv, StorePort.working, StorePort.phase] at h ⊢; simp_all

theorem StorePort.inv_resumed (q : StorePort) (h : q.inv = true) (hp : q.phase = some .suspended) :
    ({ q with link := .operation, op := q.op.map (fun o => { o with phase := .working, runCount := 0 }) } : StorePort).inv = true := by
  obtain ⟨link, waiting, op, st, buf, rw⟩ := q
  cases op
  · simp [StorePort.phase] at hp
  · simp [StorePort.inv, StorePort.working, StorePort.phase] at h hp ⊢; simp_all

theorem bounded_portMillisecond {s : State} (h : Bounded s) : Bounded (portMillisecond s) := by
  have hc : Bounded (countReadyWait s) := by
    unfold countReadyWait
    split
    · exact bounded_readyTimeout (Bounded.of_same h rfl rfl)
    · exact h
  unfold portMillisecond
  dsimp only
  split
  · exact bounded_stepLimit (bounded_counted hc)
  · exact hc

theorem bounded_suspendOp {s : State} (h : Bounded s) : Bounded (suspendOp s) := by
  unfold suspendOp
  split
  · next hc =>
    simp only [Bool.and_eq_true, decide_eq_true_eq] at hc
    exact ⟨h.1, StorePort.inv_suspending _ h.2 hc.1.1⟩
  · exact h

theorem bounded_opSuspended {s : State} (h : Bounded s) : Bounded (opSuspended s) := by
  unfold opSuspended
  split
  · exact ⟨h.1, StorePort.inv_suspended _ h.2⟩
  · exact h

theorem bounded_resumeOp {s : State} (h : Bounded s) : Bounded (resumeOp s) := by
  unfold resumeOp
  split
  · next hc =>
    simp only [Bool.and_eq_true, decide_eq_true_eq] at hc
    exact ⟨h.1, StorePort.inv_resumed _ h.2 hc.1.1.1⟩
  · exact h

theorem StorePort.inv_accepted (k : OpKind) (q : StorePort) (h : q.inv = true) (hn : q.op = none) :
    ({ q with op := some { kind := k, steps := k.steps, phase := .gap, stepCount := 0, runCount := 0, sent := [], crc := 0xFFFF }
              state := .busy } : StorePort).inv = true := by
  obtain ⟨link, waiting, op, st, buf, rw⟩ := q
  cases op
  · simpa [StorePort.inv, StorePort.working, StorePort.phase] using h
  · simp at hn

theorem bounded_handOperation {s : State} (k : OpKind) (h : Bounded s) : Bounded (handOperation k s) := by
  unfold handOperation
  split
  · exact bounded_answer _ _ h
  · next hn =>
    split
    · exact bounded_answer _ _ h
    · split
      · exact bounded_answer _ _ h
      · refine bounded_done ⟨h.1, ?_⟩
        exact StorePort.inv_accepted k _ h.2 (by simpa using hn)

theorem bounded_clipOperation {s : State} (k : OpKind) (h : Bounded s) : Bounded (clipOperation k s) := by
  unfold clipOperation
  split
  · exact bounded_answer _ _ h
  · exact bounded_unlessRestarting (fun s h => bounded_handOperation k h) s h

/-! ### The line unit -/

theorem bounded_lineLost {s : State} (h : Bounded s) : Bounded (lineLost s) := by
  unfold lineLost
  split
  · refine ⟨?_, h.2⟩
    have h1 := h.1
    simp only [LineUnit.inv, Bool.and_eq_true] at h1
    simp only [LineUnit.inv, State.latch, Bool.and_eq_true]
    exact ⟨⟨h1.1.1, by simp⟩, h1.2⟩
  · exact h

theorem bounded_cutOff {s : State} (h : Bounded s) : Bounded (cutOff s) := by
  unfold cutOff
  dsimp only
  split
  · exact ⟨h.1, h.2⟩
  · exact ⟨h.1, h.2⟩
  · exact h

theorem bounded_lineMillisecond {s : State} (h : Bounded s) : Bounded (lineMillisecond s) := by
  have hc := bounded_cutOff h
  unfold lineMillisecond
  dsimp only
  generalize cutOff s = u at hc
  refine ⟨?_, ?_⟩
  · have h1 := hc.1
    simp only [LineUnit.inv, Bool.and_eq_true, decide_eq_true_eq, Bool.or_eq_true] at h1
    unfold lineLost
    split
    · simp only [LineUnit.inv, State.latch, Bool.and_eq_true, decide_eq_true_eq, Bool.or_eq_true]
      exact ⟨⟨⟨decide_eq_true h1.1.1.1, decide_eq_true (by omega)⟩, by simp⟩, h1.2⟩
    · next hn =>
      simp only [LineUnit.inv, Bool.and_eq_true, decide_eq_true_eq, Bool.or_eq_true] at hn ⊢
      refine ⟨⟨⟨h1.1.1.1, by omega⟩, ?_⟩, h1.2⟩
      cases hl : u.line.state
      · simp [hl] at hn; right; omega
      · left; rfl
  · have := hc.2
    unfold lineLost
    split
    · exact this
    · exact this

theorem bounded_headerHeard {s : State} (h : Bounded s) : Bounded (headerHeard s) := by
  refine ⟨?_, h.2⟩
  have h1 := h.1
  simp only [LineUnit.inv, headerHeard, Bool.and_eq_true, decide_eq_true_eq, Bool.or_eq_true] at h1 ⊢
  exact ⟨⟨⟨decide_eq_true h1.1.1.1, decide_eq_true (by omega)⟩, by simp⟩, h1.2⟩

theorem bounded_startSending {s : State} (h : Bounded s) : Bounded (startSending s) := by
  unfold startSending
  split
  · next f r l hl =>
    split
    · exact h
    · refine ⟨?_, h.2⟩
      have h1 := h.1
      simp only [LineUnit.inv, Bool.and_eq_true, decide_eq_true_eq, Bool.or_eq_true] at h1 ⊢
      exact ⟨h1.1, by right; rw [hl]; rfl⟩
  · exact h

theorem bounded_doneSending {s : State} (h : Bounded s) : Bounded (doneSending s) := by
  unfold doneSending
  split
  · next r l hs hl =>
    refine ⟨?_, h.2⟩
    have h1 := h.1
    simp only [LineUnit.inv, Bool.and_eq_true, decide_eq_true_eq, Bool.or_eq_true] at h1 ⊢
    rw [hl] at h1
    simp at h1 ⊢
    refine ⟨⟨by omega, h1.1.1.2⟩, h1.1.2⟩
  · exact h

theorem bounded_restartNow {s : State} (h : Bounded s) : Bounded (restartNow s) := by
  unfold restartNow
  split
  · refine ⟨?_, ?_⟩
    · have h1 := h.1
      simp only [LineUnit.inv, Bool.and_eq_true, decide_eq_true_eq, Bool.or_eq_true] at h1
      simp only [LineUnit.inv, beginImageReads, askImagePage, State.setPort, State.keeping, State.reset, LineUnit.reset, keepSending, Bool.and_eq_true, decide_eq_true_eq, Bool.or_eq_true]
      refine ⟨⟨⟨decide_eq_true ?_, by simp⟩, by simp⟩, ?_⟩
      · split
        · simp
        · simp
      · by_cases hs : s.line.sending = true
        · right
          rw [if_pos hs]
          have h2 := h1.2
          simp [hs] at h2
          match s.line.tx, h2 with
          | .frame _ _ :: _, _ => rfl
        · left; simpa using hs
    · rfl
  · exact h

end Sys2Proof.Machine
end

