-- ==== Sys2Proof/Tests/Slice0.lean ====
section
/-! SUPPORT. The tests: the ill-formed millisecond orders that the check refuses, the worked values of the manual, and for
every statement with hypotheses a state and operands that meet them. -/

namespace Sys2Proof.Tests

open Sys2Proof Sys2Proof.Machine

/-! ### Small states -/

/-- The node after reset, ready. -/
def node : State := { State.reset with mgmt := { State.reset.mgmt with startUp := .ready } }

/-- A node whose management unit takes next an ask to node 1 with tag 0. -/
def asking (s : State) (kind : Byte) (params : List Byte) : State :=
  { s with line := { s.line with tx := [.answer ⟨1, 0, kind, params⟩] } }

/-- A node numbered 7 that has heard all of a frame but its last character. -/
def hearing (s : State) (kind dest : Byte) (body : List Byte) : State :=
  let heard := (body ++ (bytesOf 2 (crc16 body).toNat).take 1).map (fun x => (⟨x, false⟩ : RxChar))
  { s with
    tables := { s.tables with config := ⟨7, 500, .showMode⟩ }
    line := { s.line with rx := .body 7 kind dest body.length heard } }

/-- The last character of a frame with that body. -/
def lastOf (body : List Byte) : RxChar := ⟨(bytesOf 2 (crc16 body).toNat).getD 1 0, false⟩

/-- The snapshot of a run whose claim set is `claims`, with one step and duration 100. -/
def snapOf (claims : ClaimSet) : Snapshot := ⟨1, claims, 0, 1, 100, 50, 0, 0, 0⟩

/-- Record `k` runs slot `slot` and owns `claims`. -/
def runs (k : Fin 6) (slot : Fin 32) (claims : ClaimSet) (b : Bay) : Bay :=
  eachOf claims.resources (fun r b => b.updClaim r (fun c => { c with owner := some k }))
    (b.updRun k (fun r => { r with
      state := .running, slot := some slot, snap := some (snapOf claims), origin := some .control
      look := some Look.blank }))

/-- Change the bay. -/
def withBay (s : State) (f : Bay → Bay) : State := { s with bay := f s.bay }

theorem asked (s : State) (kind : Byte) (params : List Byte) (k : AskKind) (hw : s.mgmt.waiting = .none)
    (hk : (Ask.mk 1 0 kind params).askKind = some k) : Asked (asking s kind params) k params :=
  ⟨⟨1, 0, kind, params⟩, by simp [State.nextAsk, asking, hw, firstAsk], hk, rfl⟩

theorem taken (s : State) (kind : Byte) (params : List Byte) (k : AskKind) (hr : s.ready = true)
    (hw : s.mgmt.waiting = .none) (hk : (Ask.mk 1 0 kind params).askKind = some k) :
    Taken (asking s kind params) k params := ⟨hr, asked s kind params k hw hk⟩

/-! ### Ill-formed commands (WellFormed) -/

/-- An order that names a block twice, and one that leaves a block out. -/
theorem test_order_once_each :
    (Instr.millisecondEvent ⟨[.time, .time, .axis, .scene, .claim, .trigger, .line, .store], false, 0, 0⟩).wf = false ∧
    (Instr.millisecondEvent ⟨[.time, .fixture, .axis, .scene, .claim, .trigger, .line], false, 0, 0⟩).wf = false := by
  decide

/-- Orders in which a check of show time comes before its change. -/
theorem test_order_time_before_checks :
    (Instr.millisecondEvent ⟨[.claim, .time, .fixture, .axis, .scene, .trigger, .line, .store], false, 0, 0⟩).wf = false ∧
    (Instr.millisecondEvent ⟨[.trigger, .time, .fixture, .axis, .scene, .claim, .line, .store], false, 0, 0⟩).wf = false := by
  decide

theorem test_order_allowed :
    (Instr.millisecondEvent ⟨[.store, .line, .scene, .time, .trigger, .axis, .claim, .fixture], true, 0, 0⟩).wf = true := by
  decide

/-! ### No word spells a command -/

theorem test_no_word : decodeTableWord 8 0 = none ∧ State.withFetchWord State.reset 8 0 = State.reset := ⟨rfl, rfl⟩

/-! ### Worked values of the manual -/

/-- The worked cases of evaluation of chapter 1: the EASE fade, the LINEAR fade, the negative move. -/
theorem test_lane_cases :
    Bank.effective ⟨0x3F, 0x80⟩ 0x47 = 135 ∧ Bank.effective ⟨0x3F, 0x40⟩ 0x47 = 71 ∧
    progress .ease (fraction 500 2000) = 10240 ∧ between 0 51400 (progress .ease (fraction 500 2000)) = 8031 ∧
    between 0 51400 (progress .ease (fraction 1000 2000)) = 25700 ∧
    between 65535 0 (progress .linear (fraction 1000 3000)) = 43691 ∧
    [1, 2, 3].map (fun e => between 0 (-7) (progress .linear (fraction e 4))) = [-1, -3, -5] := by decide +kernel

/-- The NODE fade across the wrap of show time. -/
theorem test_lane_across_wrap :
    laneValue Tables.factory { Bay.reset with time := 500 } .red ⟨65535, .level 16384, 4294966796, 2000, .linear, .node⟩ = 40960 := by
  decide +kernel

/-- One component through the pipeline (chapter 2). -/
theorem test_pipeline :
    8031 * 191 / 255 = 6015 ∧ FixtureMode.highest.merge 6015 5140 = 6015 ∧ Dimming.square.duty 6015 = 34 ∧
    Dimming.linear.duty 6015 = 375 := by decide

/-- The EASE move of chapter 5. -/
theorem test_ease_move :
    leastDuration .ease 4000 8 = 750 ∧
    [372, 373, 374, 375].map (fun e => between 1000 5000 (progress .ease (fraction e 750))) = [2975, 2983, 2991, 3000] := by
  decide

/-- The stream cut across entries (chapter 2), its first two asks: the staging record and the entries written. -/
theorem test_palette_stream :
    let s := streamPalette false 254 [10, 20, 30, 40, 50, 60] node
    let t := streamPalette true 0 [70, 80, 90] s
    s.staging = ⟨255, [50, 60]⟩ ∧ s.tables.palette.get 254 = ⟨10, 20, 30, 40⟩ ∧ t.staging = ⟨0, [90]⟩ ∧
    t.tables.palette.get 255 = ⟨50, 60, 70, 80⟩ ∧ (streamPalette false 16 [] t).staging = ⟨16, []⟩ := by decide +kernel

/-- The header check of R154 and the EMPTY frame of node byte 255. -/
theorem test_header_check :
    crc8 [0x05] = 0x1B ∧ crc8 [0x05, 0xFF] = 0xB2 ∧ crc8 [0x05, 0xFF, 0x00] = 0x17 ∧
    (mkFrame 5 255 []).chars = [0x7E, 0x05, 0xFF, 0x00, 0x17, 0xFF, 0xFF] := by decide +kernel

/-- A byte of 0x3C programmed with 0xF0 reads 0x30 (R61); an erased sector reads 0xFF. -/
theorem test_program :
    (Memory.programPage [(512, 0x3C)] 2 [0xF0]).read 512 = 0x30 ∧
    (Memory.eraseSector [(4095, 1), (4096, 2), (8192, 3)] 1) = [(4095, 1), (8192, 3)] := by decide

/-- Voice 1 (narration) and voice 0 (ambient) as the worked sample of chapter 3 has them, in zone A. -/
def mixing : State :=
  { withBay node (fun b => ((b.updVoice 1 (fun x => { x with
        state := .playing, kind := .narration, count := 9, fifo := [20000], gain := Lane.rest 0 (.level 52000) })).updVoice 0
      (fun x => { x with state := .playing, count := 9, fifo := [-12000], gain := Lane.rest 0 (.level 65535) })).updZone 0
        (fun z => { z with duck := Lane.rest 0 (.level 16384) })) with
    tables := { Tables.factory with zone := Tab.const 2 ⟨200, 16384, 0⟩ } }

theorem test_audio_sample : ∃ t, exec .audioSampleEvent mixing = .next t ∧ (t.bay.voice.zone.get 0).formed = 10053 :=
  ⟨_, rfl, by decide +kernel⟩

/-- Three voices at 30,000: the sample is limited, and ZONE-CLIP latches. -/
def clipping : State :=
  { withBay node (fun b => eachOf [0, 1, 2] (fun v b => b.updVoice v (fun x => { x with
      state := .playing, kind := if v = 2 then .narration else .ambient, count := 9, fifo := [30000]
      gain := Lane.rest 0 (.level 65535) })) b) with
    tables := { Tables.factory with zone := Tab.const 2 ⟨256, 65535, 0⟩ } }

theorem test_zone_clip : ∃ t, exec .audioSampleEvent clipping = .next t ∧ (t.bay.voice.zone.get 0).formed = 32767 ∧
    (t.bay.voice.zone.get 0).clipFlag = true ∧ t.bay.latched.getLsbD 11 = true := ⟨_, rfl, by decide +kernel⟩

/-- The homing of chapter 5: 37 updates off the switch, one that turns, 40 toward it, one that finds it. -/
theorem test_homing :
    let t := { Tables.factory with axis := Tab.const 4 ⟨0, 0, 1, 1, .none, 0, .negative, 10, 500, false⟩ }
    let start := enterHoming true 0 t (node.bay.updAxis 0 (captureHoming (t.axis.get 0)))
    let off := (List.range 37).foldl (fun b _ => homingUpdate true 0 t b) start
    let back := (List.range 40).foldl (fun b _ => homingUpdate false 0 t b) (homingUpdate false 0 t off)
    (off.axisRec 0).stepped = 370 ∧ (off.axisRec 0).travel = 370 ∧ (back.axisRec 0).stepped = -30 ∧
    (back.axisRec 0).travel = 400 ∧ ((homingUpdate true 0 t back).axisRec 0).state = .ready ∧
    ((homingUpdate true 0 t back).axisRec 0).stepped = 0 := by decide +kernel

/-! ### The hypotheses of the statements are met -/

theorem test_hyp_StepTakesFrontOfQueue : ({ node with pending := [.store, .restart] } : State).pending = .store :: [.restart] ∧
    State.reset.pending = [] := ⟨rfl, rfl⟩

theorem test_hyp_InvKeptByEveryStep :
    NodeInv { node with pending := [.frameCutOff] } = true ∧ ∃ t, step { node with pending := [.frameCutOff] } = .next t :=
  ⟨by decide +kernel, _, rfl⟩

theorem test_hyp_StoredImageReadsBack : Tables.factory.fits = true := by decide +kernel

/-- An operation that works on the erase of sector 4,095, the last, with the flash busy for `n` events. -/
def working (kind : OpKind) (st : FlashStep) (rest : List FlashStep) (phase : Phase) (n : Nat) : State :=
  { node with
    port := { StorePort.reset with
      link := .operation, state := .busy
      op := some { kind := kind, steps := st :: rest, phase := phase, stepCount := n, runCount := n, sent := [0xF0], crc := 0xFFFF } }
    flash := [(0, 0x3C), (16777215, 1)] }

/-- A frame command: it completes, is no flash work, no reset, no table ask; an address outside the present step. -/
theorem test_hyp_FlashTablesLatchedOutputs :
    (∃ t, exec .frameCutOff (working .store (.erase 4095) [] .working 2) = .next t) ∧ isFlashWork .frameCutOff = false ∧
    NodeInv (working .store (.erase 4095) [] .working 2) = true ∧
    (¬ (working .store (.erase 4095) [] .working 2).port.atStep 16773119) ∧
    isReset .frameCutOff = false ∧ isTableAsk .frameCutOff = false ∧
    (working .store (.erase 4095) [] .working 2).storing = true ∧ isTableAsk .setBank = true ∧
    (∃ t, exec .setBank (working .store (.erase 4095) [] .working 2) = .next t) ∧
    State.reset.bay.latched.getLsbD 13 = true := by
  refine ⟨⟨_, rfl⟩, rfl, by decide +kernel, ?_, rfl, rfl, by decide +kernel, rfl, ⟨_, rfl⟩, by decide +kernel⟩
  rintro ⟨o, st, rest, h, h', h1, _⟩
  cases h; cases h'
  exact absurd h1 (by decide)

/-- A RESTART whose ANSWER has been sent. -/
def restarting : State := { node with mgmt := { node.mgmt with restart := .answered } }

theorem test_hyp_ShowTimeGainsOneAtEachMillisecond :
    (withBay node (fun b => { b with time := 4294967295 })).bay.time.toNat = 4294967295 ∧
    (withBay node (fun b => { b with time := 4294967294 })).bay.time.toNat < 4294967295 ∧
    restarting.mgmt.restart = .answered ∧ restarting.port.op = none := by decide +kernel

/-- Lanes at their corners: done, not done, on a record's clock, on that of a FREE record. -/
theorem test_hyp_lanes :
    let b := runs 2 0 ⟨0, 0, 0⟩ { Bay.reset with time := 1999 }
    laneDone b ⟨0, .level 9, 0, 2000, .linear, .node⟩ = false ∧ laneDone b ⟨0, .level 9, 0, 1999, .snap, .node⟩ = true ∧
    laneDone b ⟨9, .level 0, 0, 1, .ease, .run 2⟩ = false ∧ laneDone b ⟨9, .level 0, 0, 1, .ease, .run 3⟩ = true ∧
    (∀ k, TimeSource.run 2 = .run k → (b.run k).state ≠ .free) ∧
    (∀ p, (Lane.rest 0 .house).target ≠ .position p) ∧ 0 ≤ (Lane.rest 0 .house).start ∧
    laneValue Tables.factory b .red ⟨9, .level 9, 0, 2000, .linear, .node⟩ = targetValue Tables.factory .red (.level 9) := by
  refine ⟨by decide +kernel, by decide +kernel, by decide +kernel, by decide +kernel, ?_, ?_, by decide, by decide +kernel⟩
  · rintro k h; cases h; decide +kernel
  · rintro p h; cases h

theorem test_hyp_LineValueMergeAndDimming :
    Tables.factory.patch.get (patchIdx 15 .white) = none ∧
    (Tables.factory.patch.set (patchIdx 15 .white) (some ⟨15, 511⟩)).get (patchIdx 15 .white) = some ⟨15, 511⟩ := by
  decide +kernel

/-- An order the manual allows. -/
def order : List Block := [.time, .axis, .scene, .fixture, .claim, .trigger, .line, .store]

theorem test_hyp_MillisecondReachesEveryBlockOnce : (⟨order, false, 0, 0⟩ : MsInputs).wf = true ∧
    turns ⟨order, false, 0, 0⟩ = [.time, .axis, .scene] ++ .fixture :: [.claim, .trigger, .line, .store] := by decide

/-- At the fixture unit's turn: not ready; DARK; no owner; an owner with highlight code 0 and with code 3. -/
theorem test_hyp_PwmPeriodFormsTheDuties :
    let own : Bay → Bay := fun b => runs 5 0 ⟨0x8000, 0, 0⟩ (b.updFixture 15 (fun x => { x with highlight := 3 }))
    let at' := fun s => eachOf [.time, .axis, .scene] (blockTurn ⟨order, false, 0, 0⟩) s
    (at' State.reset).ready = false ∧
    (at' (withBay node (fun b => b.setMode .darkMode))).bay.trigger.mode = .darkMode ∧
    (at' node).ready = true ∧ (at' node).bay.trigger.mode = .showMode ∧ (at' node).bay.owner (fixtureRes 15) = none ∧
    (at' (withBay node own)).bay.owner (fixtureRes 15) = some 5 ∧
    ((at' (withBay node own)).bay.fixtureRec 15).highlight.val = 3 ∧
    ((at' (withBay node own)).bay.fixtureRec 14).highlight = 0 := by decide +kernel

theorem test_hyp_PaletteStreamCommitsWholeEntries :
    let s := { node with staging := ⟨255, [1, 2, 3]⟩ }
    Taken (asking s 4 (1 :: 0 :: List.replicate 196 5)) .paletteStream (1 :: 0 :: List.replicate 196 5) ∧
    (asking s 4 (1 :: 0 :: List.replicate 196 5)).storing = false ∧ s.staging.staged.length ≤ 3 :=
  ⟨taken _ _ _ _ rfl rfl rfl, by decide +kernel, by decide⟩

/-- A LEVEL frame whose one level is that of channel 511. -/
theorem test_hyp_LevelFrameRetargetsPatchedLines :
    Completes (hearing node 2 7 [15, 1, 255, 0, 0, 0, 9, 255]) (lastOf [15, 1, 255, 0, 0, 0, 9, 255]) .level 7
      (mkFrame 2 7 [15, 1, 255, 0, 0, 0, 9, 255]) := ⟨by decide +kernel, by decide⟩

/-- Record 5 runs slot 31 with look memory; a step of each kind names fixtures inside and outside its claim set. -/
theorem test_hyp_FixtureStepsActOnClaimedFixtures :
    let b := runs 5 31 ⟨0x8000, 0, 0⟩ Bay.reset
    (b.run 5).slot = some 31 ∧ (b.run 5).look = some Look.blank ∧
    ((0x8001 &&& (b.claims 5).fixtures).getLsbD 15 = true) ∧ (0x8001 &&& ~~~(b.claims 5).fixtures ≠ 0) := by decide +kernel

theorem test_hyp_voices :
    mixing.ready = true ∧ State.reset.ready = false ∧ (mixing.bay.voiceRec 1).state = .playing ∧
    (mixing.bay.voiceRec 5).state ≠ .playing ∧ (mixing.bay.voiceRec 5).state ≠ .stopping ∧
    (mixing.bay.voiceRec 0).fifo = [BitVec.ofInt 16 (-12000)] ∧
    (mixing.bay.voiceRec 0).readPos + 1 ≠ (mixing.bay.voiceRec 0).count := by decide +kernel

/-- Voice 4 stops with its gain lane done, its FIFO empty; voice 5 plays its last sample, looping or not. -/
def lastSamples (loop : Bool) : Bay :=
  (Bay.reset.updVoice 4 (fun x => { x with state := .stopping })).updVoice 5
    (fun x => { x with state := .playing, loop := loop, fifo := [1], readPos := 6, count := 7 })

theorem test_hyp_AudioSampleEventDrawsFromVoices :
    ((lastSamples true).voiceRec 4).state = .stopping ∧ ((lastSamples true).voiceRec 4).fifo = [] ∧
    laneDone (lastSamples true) ((lastSamples true).voiceRec 4).gain = true ∧
    ((lastSamples true).voiceRec 5).readPos + 1 = ((lastSamples true).voiceRec 5).count ∧
    ((lastSamples true).voiceRec 5).loop = true ∧ ((lastSamples false).voiceRec 5).loop = false := by decide +kernel

/-- Voice 3 primes with the last 128 samples of a looping clip to fetch: their refill brings the fetch position to its count. -/
def filling : State := withBay node (fun b => b.updVoice 3 (fun x => { x with
  state := .priming, firstPage := 4, count := 300, fetchPos := 172, loop := true, fifo := List.replicate 384 0 }))

theorem test_hyp_RefillReadsTheClipIntoTheFifo :
    filling.port.link = .free ∧ filling.port.waiting = none ∧ (filling.bay.voiceRec 3).wants = true ∧
    (∀ w : Fin 6, (filling.bay.voiceRec w).wants = true → (filling.bay.voiceRec 3).fifo.length ≤ (filling.bay.voiceRec w).fifo.length ∧
      ((filling.bay.voiceRec w).fifo.length = (filling.bay.voiceRec 3).fifo.length → 3 ≤ w)) ∧
    (∃ t, exec .refillReadStart filling = .next t ∧ t.port.link = .refill 3 ⟨1368, 256⟩ ∧
      (t.bay.voiceRec 3).refill = some 128 ∧ t.port.op = none ∧ 172 + 128 = (t.bay.voiceRec 3).count ∧ 1368 + 256 ≤ 16777216) := by
  refine ⟨rfl, rfl, by decide +kernel, by decide +kernel, _, rfl, by decide +kernel⟩

/-- A valid clip 127. -/
def clips : Tables := { Tables.factory with clip := Tab.const 128 ⟨true, 65279, 1, 65535⟩ }

/-- Every voice plays narration, so none can be taken; every voice plays ambience, and voice 2 began first. -/
def allPlaying (kind : LaneKind) : Bay :=
  { Bay.reset with voice := { VoiceUnit.reset with
      voice := Tab.const 6 { Voice.reset with state := .playing, kind := kind }, startList := [2, 0, 1, 3, 4, 5] } }

theorem test_hyp_PlayTakesAndFillsAVoice :
    ((runs 0 0 ⟨0, 2, 0⟩ Bay.reset).claims 0).lanes.getLsbD Zone.b.idx.val = true ∧
    (Tables.factory.clip.get 0).valid = false ∧ (clips.clip.get 127).valid = true ∧
    ((Bay.reset.voiceRec 0).state = .idle ∧ ∀ w, w < 0 → (Bay.reset.voiceRec w).state ≠ .idle) ∧
    (∀ w, ((allPlaying .ambient).voiceRec w).state ≠ .idle) ∧
    ((allPlaying .ambient).voice.startList.find? (fun w => ((allPlaying .ambient).voiceRec w).kind = .ambient &&
      ((allPlaying .ambient).voiceRec w).state != .idle && ((allPlaying .ambient).voiceRec w).state != .paused) = some 2) ∧
    (∀ w, ((allPlaying .narration).voiceRec w).state ≠ .idle ∧ (((allPlaying .narration).voiceRec w).kind = .narration ∨
      ((allPlaying .narration).voiceRec w).state = .paused)) ∧
    ((Bay.reset.updVoice 5 (fun x => { x with state := .playing, kind := .narration, zone := .b, owner := some 0 })).voiceRec 5).plays
      0 .b .narration = true := by decide +kernel

/-- Voice 0 plays and voice 1 is paused, both of record 2. -/
def ownedVoices : Bay :=
  (((runs 2 0 ⟨0, 3, 0⟩ Bay.reset).updVoice 0 (fun x => { x with state := .playing, owner := some 2 })).updVoice 1
    (fun x => { x with state := .paused, owner := some 2 }))

theorem test_hyp_VoicesFollowTheirRecord :
    (ownedVoices.voiceRec 0).owner = some 2 ∧ (ownedVoices.voiceRec 0).state = .playing ∧
    (ownedVoices.voiceRec 1).owner = some 2 ∧ (ownedVoices.voiceRec 1).state = .paused ∧
    (ownedVoices.voiceRec 2).owner ≠ some 2 ∧ (ownedVoices.run 2).snap ≠ none ∧
    ((allPlaying .narration).voiceRec 5).kind = .narration ∧ ((allPlaying .narration).voiceRec 5).zone = .a ∧
    (∀ v, (Bay.reset.voiceRec v).kind = .narration → (Bay.reset.voiceRec v).zone = .a →
      (Bay.reset.voiceRec v).state ≠ .priming ∧ (Bay.reset.voiceRec v).state ≠ .playing) := by decide +kernel

/-- The image reads stand before their last page. -/
def reading : State :=
  { State.reset with
    mgmt := { State.reset.mgmt with startUp := .reading (List.replicate (80 * 256) 0) }
    port := { StorePort.reset with link := .management ⟨65359 * 256, 256⟩ } }

theorem test_hyp_ManagementReadsReturnTheBytes :
    ({ node with port := { node.port with waiting := some ⟨0, 1⟩ } } : State).port.waiting = some ⟨0, 1⟩ ∧
    ({ node with port := { node.port with link := .management ⟨16777215, 192⟩ },
                 mgmt := { node.mgmt with waiting := .readClip } } : State).mgmt.waiting = .readClip ∧
    reading.port.link = .management ⟨65359 * 256, 256⟩ ∧ reading.mgmt.waiting ≠ .readClip ∧
    reading.mgmt.startUp = .reading (List.replicate (80 * 256) 0) ∧ reading.port.op = none ∧
    (List.replicate (80 * 256) (0 : Byte) ++ reading.flashBytes ⟨65359 * 256, 256⟩).length = 81 * 256 := by
  refine ⟨rfl, rfl, rfl, (by decide), rfl, rfl, ?_⟩
  rw [List.length_append, List.length_replicate,
    show (reading.flashBytes ⟨65359 * 256, 256⟩).length = 256 by decide +kernel]

/-- Between steps of an operation, the link free and no voice wanting a refill. -/
def between' : State :=
  { working (.pageProgram 65279) (.program 65279 .buffer) [] .gap 0 with
    port := { (working (.pageProgram 65279) (.program 65279 .buffer) [] .gap 0).port with link := .free } }

theorem test_hyp_FlashStepBeginsAndCompletes :
    between'.port.phase = some .gap ∧ between'.port.link = .free ∧ between'.port.waiting = none ∧
    (∀ v, (between'.bay.voiceRec v).wants = false) ∧
    NodeInv (working .store (.program 65360 .trailer) [] .suspending 3) = true ∧
    NodeInv (working (.eraseSectors 0 2) (.erase 0) [.erase 1] .working 3) = true ∧
    (working (.eraseSectors 0 2) (.erase 0) [.erase 1] .working 3).port.phase = some .working := by decide +kernel

/-- The limits of R69: 5 events of a program, 500 of an erase. -/
theorem test_hyp_AbandonedStepEndsTheOperationFailed :
    NodeInv (working .store (.program 65360 .trailer) [] .working 6) = true ∧ 5 < 6 ∧
    NodeInv (working (.eraseSectors 4079 1) (.erase 4079) [] .suspending 501) = true ∧
    (FlashStep.erase 4079).range = (4079 * 4096, 4096) := by decide +kernel

/-- An urgent voice while a step works, and the step suspended with nothing else waiting. -/
theorem test_hyp_StepIsSuspendedForUrgentVoices :
    let s := withBay (working .store (.erase 4095) [] .working 2) (fun b => b.updVoice 5 (fun x => { x with
      state := .playing, count := 200, fifo := List.replicate 127 0 }))
    let u := { working .store (.erase 4095) [] .suspended 2 with
      port := { (working .store (.erase 4095) [] .suspended 2).port with link := .free } }
    (∃ v, (s.bay.voiceRec v).wants = true ∧ (s.bay.voiceRec v).fifo.length < 128) ∧ s.port.phase = some .working ∧
    (∀ v, (u.bay.voiceRec v).wants = true → 128 ≤ (u.bay.voiceRec v).fifo.length) ∧
    u.port.phase = some .suspended ∧ u.port.link = .free ∧ u.port.waiting = none ∧
    (∀ v, (u.bay.voiceRec v).wants = false) := by decide +kernel

/-- A protected block 254 beside an unprotected block 253, and a voice in page 9. -/
theorem test_hyp_OperationsAreAcceptedOrRefused :
    let s := { node with tables := { Tables.factory with protect := ⟨.low, 0, .high, 1, false, .opened⟩ } }
    let v := withBay node (fun b => b.updVoice 0 (fun x => { x with state := .paused, firstPage := 9, count := 1 }))
    Taken (asking node 0x10 []) .store [] ∧ Taken (asking s 0x14 [254, 0]) .pageProgram [254, 0] ∧
    Taken (asking node 0x12 [15, 255, 0, 1]) .eraseSectors [15, 255, 0, 1] ∧
    s.tables.protect.block (254 * 256 / 256) = true ∧ s.tables.protect.block (253 * 256 / 256) = false ∧
    node.mgmt.restart = .none ∧ node.port.op = none ∧ restarting.mgmt.restart ≠ .none ∧
    (v.bay.voiceRec 0).state ≠ .idle ∧ 9 < (v.bay.voiceRec 0).firstPage + ((v.bay.voiceRec 0).count + 127) / 128 ∧
    (∀ w, (node.bay.voiceRec w).state = .idle) :=
  ⟨taken _ _ _ _ rfl rfl rfl, taken _ _ _ _ rfl rfl rfl, taken _ _ _ _ rfl rfl rfl, by decide +kernel⟩

theorem test_hyp_PageFillAndReadClip :
    Taken (asking node 0x13 (255 :: List.replicate 196 0)) .pageFill (255 :: List.replicate 196 0) ∧
    Taken (asking node 0x13 [0, 7]) .pageFill [0, 7] ∧ Taken (asking node 0x15 [255, 255, 255, 192]) .readClip [255, 255, 255, 192] ∧
    Taken (asking node 0x15 [0, 0, 0, 1]) .readClip [0, 0, 0, 1] :=
  ⟨taken _ _ _ _ rfl rfl rfl, taken _ _ _ _ rfl rfl rfl, taken _ _ _ _ rfl rfl rfl, taken _ _ _ _ rfl rfl rfl⟩

/-- Axis 3 owned by record 1, FAULTED, HOMING; a bay at rest has it UNHOMED without owner. -/
theorem test_hyp_QuadratureHomeAndClearFault :
    Taken (asking node 0x09 [3]) .homeAxis [3] ∧ Taken (asking node 0x0A [0]) .clearFault [0] ∧
    (runs 1 0 ⟨0, 0, 8⟩ Bay.reset).owner (axisRes 3) ≠ none ∧ Settled node ∧ node.bay.owner (axisRes 3) = none ∧
    (node.bay.axisRec 3).state = .unhomed ∧ (∀ k, (node.bay.run k).gate = none) ∧
    ((node.bay.updAxis 3 (fun x => { x with state := .faulted })).axisRec 3).state = .faulted ∧
    ((node.bay.updAxis 3 (fun x => { x with state := .homing })).axisRec 3).state = .homing :=
  ⟨taken _ _ _ _ rfl rfl rfl, taken _ _ _ _ rfl rfl rfl, by decide +kernel, ⟨rfl, by decide⟩, by decide +kernel⟩

/-- Input 3 guards axis 0; its record CLEAR, ACTIVE with either clear delay, CLEARING, with an owner of the axis. -/
theorem test_hyp_ProximityHoldsAndReleasesAxes :
    let s := fun (d : Fin 10001) (x : Prox) (pins : BitVec 4) => { withBay node (fun b =>
        (b.updProx 3 (fun _ => x)).updAxis 0 (fun a => { a with state := .moving })) with
      tables := { Tables.factory with prox := Tab.const 4 ⟨1, d⟩ }, pins := { node.pins with prox := pins } }
    Settled (s 0 ⟨.clear, 0⟩ 0) ∧ (s 0 ⟨.clear, 0⟩ 0).ready = true ∧ (∀ k, ((s 0 ⟨.clear, 0⟩ 0).bay.run k).gate = none) ∧
    (s 0 ⟨.clear, 0⟩ 0).pins.prox.getLsbD 3 = false ∧ ((s 0 ⟨.clearing, 0⟩ 0).bay.axis.prox.get 3) = ⟨.clearing, 0⟩ ∧
    (s 10000 ⟨.active, 0⟩ 8).pins.prox.getLsbD 3 = true ∧
    ((s 10000 ⟨.active, 0⟩ 8).tables.prox.get 3).clearDelay.val ≠ 0 ∧
    ((s 0 ⟨.active, 0⟩ 8).tables.prox.get 3).clearDelay.val = 0 ∧
    (∀ a, (s 0 ⟨.active, 0⟩ 8).bay.owner (axisRes a) = none) ∧
    (runs 1 0 ⟨0, 0, 1⟩ (s 0 ⟨.clear, 0⟩ 0).bay).owner (axisRes 0) = some 1 ∧
    ((runs 1 0 ⟨0, 0, 1⟩ (s 0 ⟨.clear, 0⟩ 0).bay).run 1).held = false ∧
    ((s 0 ⟨.clear, 0⟩ 0).bay.axisRec 0).state = .moving := ⟨⟨rfl, by decide⟩, by decide +kernel⟩

/-- An axis 9 counts short of its commanded position; one that trails its encoder beyond the stall limit. -/
theorem test_hyp_MotionUpdateStepsTowardCommanded :
    let b := Bay.reset.updAxis 2 (fun x => { x with state := .moving, move := Lane.rest 0 (.position 9) })
    let t := { Tables.factory with axis := Tab.const 4 ⟨0, 9, 8, 8, .encoder, 7, .negative, 1, 0, false⟩ }
    commanded t b 2 = 9 ∧ (∀ k, (b.run k).gate = none) ∧ max (-8) (min 8 (9 - (b.axisRec 2).stepped)) = 8 ∧
    (t.axis.get 2).feedback = .encoder ∧ (t.axis.get 2).stallLimit.toNat < (8 - (b.axisRec 2).measured).natAbs ∧
    (Tables.factory.axis.get 2).feedback = .none ∧ (b.axisRec 2).state = .moving := by decide +kernel

theorem test_hyp_HomingUpdateSeeksHome :
    let x := Bay.reset.axisRec 0
    let b := fun (phase : HomingPhase) (travel : Nat) =>
      Bay.reset.updAxis 0 (fun x => { x with state := .homing, phase := phase, capRate := 10, capTravel := 500, travel := travel })
    x.stepped = 0 ∧ ((b .offSwitch 0).axisRec 0).phase = .offSwitch ∧ ((b .seek 0).axisRec 0).phase = .seek ∧
    ((b .seek 495).axisRec 0).travel ≠ ((b .seek 495).axisRec 0).capTravel ∧
    ((b .seek 500).axisRec 0).travel = ((b .seek 500).axisRec 0).capTravel ∧
    (b .seek 0).owner (axisRes 0) = none ∧ min 10 (500 - ((b .seek 495).axisRec 0).travel) = 5 := by decide +kernel

/-- The stretched move of chapter 5, by its least durations: 750 for EASE, 500 for LINEAR. -/
theorem test_hyp_MoveIsClampedAndStretched :
    max (-1000) (min 5000 (5800 : Int)) = 5000 ∧ ((5000 : Int) - 1000).natAbs = 4000 ∧
    3 * 4000 ≤ 2 * 8 * 750 ∧ (∀ m, 3 * 4000 ≤ 2 * 8 * m → 750 ≤ m) ∧ 4000 ≤ 8 * 500 ∧ (∀ m, 4000 ≤ 8 * m → 500 ≤ m) ∧
    ((runs 3 0 ⟨0, 0, 4⟩ Bay.reset).claims 3).axes.getLsbD 2 = true ∧
    ((runs 3 0 ⟨0, 0, 4⟩ Bay.reset).claims 3).axes.getLsbD 1 = false ∧
    ((Bay.reset.updAxis 2 (fun x => { x with state := .ready })).axisRec 2).state = .ready := by
  refine ⟨by decide, by decide, by decide, by omega, by decide, by omega, by decide +kernel, by decide +kernel, by decide +kernel⟩

/-- Record 5 waits at a gate that has reached its limit; it is held up to its hold limit; its first step is due. -/
theorem test_hyp_GateTimeoutHoldTimeoutExamination :
    let b := fun f : RunRec → RunRec => (runs 5 31 ⟨0, 0, 8⟩ Bay.reset).updRun 5 f
    let g := b (fun r => { r with gate := some ⟨8, 100, 100⟩ })
    let h := b (fun r => { r with held := true, holdTime := 1, snap := some { snapOf ⟨0, 0, 8⟩ with holdLimit := 1 } })
    let late := b (fun r => { r with next := 1, clock := 100 })
    (g.run 5).state = .running ∧ (g.run 5).gate = some ⟨8, 100, 100⟩ ∧ (g.run 5).slot = some 31 ∧
    (h.run 5).held = true ∧ (h.run 5).holdTime = 1 ∧ (h.run 5).snap = some { snapOf ⟨0, 0, 8⟩ with holdLimit := 1 } ∧
    ((b id).run 5).gate = none ∧ ((b id).run 5).held = false ∧ ((b id).run 5).next < 1 ∧
    (Tables.factory.step.get 0).offset.val ≤ ((b id).run 5).clock - ((b id).run 5).gateDelay ∧
    1 ≤ (late.run 5).next ∧ 100 ≤ (late.run 5).clock - (late.run 5).gateDelay := by decide +kernel

/-- Record 5 ends with nothing waiting; slot 31 carried, queued for a trigger, or neither. -/
theorem test_hyp_EndOfRunReleasesItsResources :
    let b := runs 5 31 ⟨0x8000, 2, 8⟩ Bay.reset
    let e : QueueEntry := ⟨31, .trigger 11, 1, 0, none⟩
    (b.run 5).state ≠ .free ∧ (b.run 5).slot = some 31 ∧ (b.run 5).snap = some (snapOf ⟨0x8000, 2, 8⟩) ∧ b.claim.queue = [] ∧
    (∀ res, b.owner res = some 5 → (b.claim.claim.get res).stack = []) ∧ b.owner 21 = some 5 ∧
    b.carrier 31 = some 5 ∧ Bay.reset.carrier 31 = none ∧ Settled node ∧
    (Bay.reset.setQueue [e]).claim.queue.find? (fun e => e.slot = 31) = some e ∧
    Taken (asking node 0x06 [31]) .stopScene [31] :=
  ⟨by decide +kernel, by decide +kernel, by decide +kernel, by decide +kernel, by decide +kernel, by decide +kernel,
    by decide +kernel, by decide +kernel, ⟨rfl, by decide⟩, by decide +kernel, taken _ _ _ _ rfl rfl rfl⟩

/-- A scene that can be admitted, of priority `p` and wait policy `w`, claiming fixture 15. -/
def scenes (p : Fin 16) (w : WaitPolicy) : Tables :=
  { Tables.factory with
    scene := Tab.const 32 ⟨true, p, 0, 1, 100, ⟨0x8000, 0, 0⟩, .restart, w, 600, 0, 0, 0, 0⟩ }

/-- Record 5 runs slot 30 and owns fixture 15, with priority 1. -/
def holding : Bay := runs 5 30 ⟨0x8000, 0, 0⟩ Bay.reset

theorem test_hyp_RequestsAreDecided :
    (Tables.factory.scene.get 0).enabled = false ∧ ((scenes 1 .queue).scene.get 31).enabled = true ∧
    ((scenes 1 .queue).scene.get 31).stepCount ≠ 0 ∧ ((scenes 1 .queue).scene.get 31).duration.val ≠ 0 ∧
    holding.trigger.mode = .showMode ∧ holding.carrier 30 = some 5 ∧ holding.carrier 31 = none ∧
    holding.owner 15 = some 5 ∧ runPriority holding 5 = 1 ∧ (holding.run 5).guard = 0 ∧
    ((scenes 1 .queue).scene.get 31).claims.has 15 = true ∧ ((scenes 2 .queue).scene.get 31).priority.val = 2 ∧
    (holding.run 0).state = .free ∧ (∀ r, holding.owner r ≠ some 0) ∧ holding.claim.queue.length < 8 ∧
    8 ≤ (holding.setQueue (List.replicate 8 ⟨0, .cue, 1, 0, none⟩)).claim.queue.length := by decide +kernel

/-- START-SCENE of slot 31 is decided with no request left in flight. -/
theorem test_hyp_StartScene :
    let s := { node with tables := scenes 1 .discard }
    Taken (asking s 0x05 [31]) .startScene [31] ∧ Settled (asking s 0x05 [31]) ∧
    (decideRequest ⟨31, .control⟩ s.tables s.bay).2.claim.inFlight = [] ∧
    (decideRequest ⟨31, .control⟩ s.tables s.bay).1 = .admitted :=
  ⟨taken _ _ _ _ rfl rfl rfl, ⟨rfl, by decide⟩, by decide +kernel, by decide +kernel⟩

theorem test_hyp_ExpiryScheduleAndScan :
    let e : QueueEntry := ⟨31, .trigger 0, 1, 0, some 0⟩
    let b := Bay.reset.setQueue [e]
    passed 1 0 = true ∧ passed 0 0 = false ∧ reached 0 0 = true ∧ (holding.run 5).state ≠ .free ∧ (holding.run 5).guard = 0 ∧
    b.claim.queue.find? (fun x => x.slot = e.slot) = some e ∧ (Tables.factory.scene.get 31).enabled = false ∧
    admissible (scenes 1 .queue) b 31 = some 0 ∧ admissible (scenes 1 .queue) holding 31 = none ∧
    b.carrier 31 = none := by decide +kernel

/-- Trigger 11, active high, enabled, with and without a slot. -/
def buttons (slot : Option (Fin 32)) : State :=
  { withBay node (fun b => b.updTrigger 11 (fun x => { x with state := .armed })) with
    tables := { Tables.factory with trigger := Tab.const 12 ⟨true, slot, .activeHigh, 600, true⟩ } }

theorem test_hyp_PressesAreTakenByStateAndMode :
    let s := buttons (some 31)
    ((s.tables.trigger.get 11).polarity = .activeHigh) ∧ s.ready = true ∧ s.bay.trigger.pins.getLsbD 11 ≠ true ∧
    s.bay.trigger.mode = .showMode ∧ (s.bay.triggerRec 11).state = .armed ∧ (s.bay.triggerRec 11).pending = false ∧
    (s.tables.trigger.get 11).slot = some 31 ∧ ((buttons none).tables.trigger.get 11).slot = none ∧
    s.bay.notices.length < 4 ∧
    4 ≤ (withBay s (fun b => { b with notices := List.replicate 4 ⟨.signal, 0⟩ })).bay.notices.length ∧
    State.reset.ready = false ∧ (node.bay.triggerRec 11).state ≠ .armed := by decide +kernel

theorem test_hyp_TriggersFollowOutcomesLockoutsAndAsks :
    let x := fun (st : TriggerState) (n f : Nat) => node.bay.updTrigger 11 (fun x => { x with state := st, lockout := n, flash := f })
    ((x .lockout 1 0).triggerRec 11).lockout ≤ 1 ∧ ((x .lockout 0 0).triggerRec 11).lockout = 0 ∧
    ¬ ((x .lockout 600000 0).triggerRec 11).lockout ≤ 1 ∧
    500 ≤ ((x .waiting 0 499).triggerRec 11).flash + 1 ∧ ((x .waiting 0 500).triggerRec 11).state = .waiting ∧
    Taken (asking node 0x08 [11]) .disarmTrigger [11] ∧ Taken (asking (buttons none) 0x07 [11]) .armTrigger [11] ∧
    ((buttons none).tables.trigger.get 11).enabled = true ∧ (node.bay.triggerRec 11).state = .disarmed :=
  ⟨by decide +kernel, by decide +kernel, by decide +kernel, by decide +kernel, by decide +kernel, taken _ _ _ _ rfl rfl rfl,
    taken _ _ _ _ rfl rfl rfl, by decide +kernel, by decide +kernel⟩

/-- Cue 9 maps to slot 31 in entry 63, trigger 4 of node 250 to slot 30 in entry 15. -/
def maps : Tables :=
  { Tables.factory with
    cue := Tables.factory.cue.set 63 (some ⟨9, 31⟩), remote := Tables.factory.remote.set 15 (some ⟨250, .trigger, 4, 30⟩) }

theorem test_hyp_GoCuesAndNoticesAskForScenes :
    maps.cue.get 63 = some ⟨9, 31⟩ ∧ (∀ j : Fin 64, j < 63 → maps.cue.get j = none) ∧
    maps.remote.get 15 = some ⟨250, .trigger, 4, 30⟩ ∧ (∀ j : Fin 16, j < 15 → maps.remote.get j = none) ∧
    (∀ i : Fin 64, Tables.factory.cue.get i = none) ∧ Bay.reset.trigger.mode = .showMode ∧
    reached 5 5 = true ∧ reached 5 6 = false ∧ Bay.reset.trigger.schedule.length < 8 ∧
    Completes (hearing node 3 255 [1, 0, 9, 0, 0, 0, 5]) (lastOf [1, 0, 9, 0, 0, 0, 5]) .go 7 (mkFrame 3 255 [1, 0, 9, 0, 0, 0, 5]) ∧
    Completes (hearing node 4 250 [1, 4]) (lastOf [1, 4]) .notice 7 (mkFrame 4 250 [1, 4]) :=
  ⟨by decide +kernel, by decide +kernel, by decide +kernel, by decide +kernel, by decide +kernel, by decide +kernel,
    by decide +kernel, by decide +kernel, by decide +kernel, ⟨by decide +kernel, by decide⟩, ⟨by decide +kernel, by decide⟩⟩

theorem test_hyp_HaltAllAndDarkEntryEndEveryRun :
    holding.trigger.mode = .showMode ∧ holding.owner (fixtureRes 15) = some 5 ∧ (holding.run 5).state ≠ .free ∧
    (holding.run 5).snap = some (snapOf ⟨0x8000, 0, 0⟩) ∧ (runs 1 0 ⟨0, 0, 8⟩ Bay.reset).owner (axisRes 3) = some 1 ∧
    (ownedVoices.voiceRec 0).owner = some 2 ∧ holding.carrier 30 ≠ none := by decide +kernel

theorem test_hyp_ModeChangesByCueAndAsk :
    (Bay.reset.setMode .darkMode).trigger.mode = .darkMode ∧ Bay.reset.trigger.mode = .showMode ∧
    Completes (hearing node 3 7 [2, 0, 0]) (lastOf [2, 0, 0]) .haltAll 7 (mkFrame 3 7 [2, 0, 0]) ∧
    Completes (hearing node 3 7 [3, 0, 0]) (lastOf [3, 0, 0]) .houseDark 7 (mkFrame 3 7 [3, 0, 0]) ∧
    Completes (hearing node 3 7 [4, 0, 0]) (lastOf [4, 0, 0]) .houseShow 7 (mkFrame 3 7 [4, 0, 0]) ∧
    Taken (asking node 0x0B [0]) .setMode [0] ∧ Taken (asking node 0x0B [1]) .setMode [1] :=
  ⟨by decide +kernel, by decide +kernel, ⟨by decide +kernel, by decide⟩, ⟨by decide +kernel, by decide⟩,
    ⟨by decide +kernel, by decide⟩, taken _ _ _ _ rfl rfl rfl, taken _ _ _ _ rfl rfl rfl⟩

/-- A good header of the longest body, a bad one that holds a start character, and a body's last character but one. -/
theorem test_hyp_ReceiverTakesCharacters :
    let ok : Byte → RxChar := fun x => ⟨x, false⟩
    receive 7 (.header [ok 1, ok 7, ok 200]) (ok (crc8 [1, 7, 200])) = (.body 7 1 7 200 [], .goodHeader) ∧
    receive 7 (.header [ok 1, ok 0x7E, ok 5]) (ok 6) = (.header [ok 5, ok 6], .headerError) ∧
    receive 7 (.header [ok 1, ok 7, ⟨4, true⟩]) (ok (crc8 [1, 7, 4])) = (.hunt, .headerError) ∧
    (receive 7 (.body 7 5 7 0 [ok 0xFF]) (ok 0xFF)).1 = .hunt ∧ (receive 7 .hunt (ok 0x7E)).1 = .header [] := by decide +kernel

theorem test_hyp_CutOffFramesAndLostLines :
    State.reset.line.rx = .hunt ∧ State.reset.line.heard = false ∧ State.reset.line.state = .lost ∧
    ({ State.reset.line with state := .up, count := 250 } : LineUnit).state = .up := by decide

/-- A frame of each treatment arrives in full at node 7, once with the transmit queue full. -/
theorem test_hyp_FramesAreTreatedByKindAndNode :
    [(1, 7, [0, 0, 0, 1]), (2, 255, [0, 0, 0, 0, 0, 0, 0, 0]), (3, 7, [1, 0, 9]), (4, 250, [2, 0]), (4, 7, [2, 0]), (5, 255, []),
      (6, 7, [0, 1]), (6, 0, [0, 0x0D]), (7, 7, [1, 1, 0])].map (fun p : Byte × Byte × List Byte =>
        treatment 7 true (mkFrame p.1 p.2.1 p.2.2) false) =
      [.time, .level, .go, .notice, .strip, .empty, .ask, .setNumber, .forward] ∧
    treatment 7 true (mkFrame 6 7 [0, 1]) true = .rejected ∧ treatment 7 true (mkFrame 5 255 []) true = .badBody ∧
    State.frameFor node ⟨0, false⟩ .forward = none ∧
    4 ≤ ({ node.line with tx := List.replicate 4 (.frame (mkFrame 5 255 []) false) } : LineUnit).tx.length ∧
    Completes (hearing node 7 9 []) (lastOf []) .forward 7 (mkFrame 7 9 []) ∧
    (hearing node 5 255 []).frameFor ⟨0xFF, true⟩ .badBody = some (7, mkFrame 5 255 []) := by
  refine ⟨by decide +kernel, by decide +kernel, by decide +kernel, by decide +kernel, by decide, ⟨by decide +kernel, by decide⟩,
    by decide +kernel⟩

theorem test_hyp_TransmitQueueIsFilledAndSent :
    Completes (hearing node 6 7 [3, 1]) (lastOf [3, 1]) .ask 7 (mkFrame 6 7 [3, 1]) ∧
    Completes (hearing node 6 0 [3, 0x0D]) (lastOf [3, 0x0D]) .setNumber 7 (mkFrame 6 0 [3, 0x0D]) ∧
    Completes (hearing node 6 7 [3, 1]) ⟨(lastOf [3, 1]).byte, true⟩ .rejected 7 (mkFrame 6 7 [3, 1]) ∧
    Completes (hearing node 5 255 []) (lastOf []) .empty 7 (mkFrame 5 255 []) ∧
    Completes (hearing node 4 7 [2, 0]) (lastOf [2, 0]) .strip 7 (mkFrame 4 7 [2, 0]) :=
  ⟨⟨by decide +kernel, by decide⟩, ⟨by decide +kernel, by decide⟩, ⟨by decide +kernel, by decide⟩,
    ⟨by decide +kernel, by decide⟩, ⟨by decide +kernel, by decide⟩⟩

theorem test_hyp_TimeFramesAreAdopted :
    Completes (hearing node 1 255 [255, 255, 255, 255]) (lastOf [255, 255, 255, 255]) .time 7 (mkFrame 1 255 [255, 255, 255, 255]) ∧
    Completes (hearing node 1 7 [0, 0, 0, 0]) (lastOf [0, 0, 0, 0]) .time 7 (mkFrame 1 7 [0, 0, 0, 0]) ∧
    node.bay.time = 0 := ⟨⟨by decide +kernel, by decide⟩, ⟨by decide +kernel, by decide⟩, rfl⟩

theorem test_hyp_StatusReportsAndClears :
    Asked (asking State.reset 0x01 []) .status [] ∧ Asked (asking State.reset 0x01 [0]) .status [0] ∧
    (∀ i : Fin 8, (8 : Byte).getLsbD i.val = true ↔
      (i = 0 ∧ ∃ v, (State.reset.bay.voiceRec v).underrun = true) ∨ (i = 1 ∧ ∃ a, (State.reset.bay.axisRec a).state = .faulted) ∨
      (i = 2 ∧ State.reset.mgmt.imageInvalid = true) ∨ (i = 3 ∧ State.reset.line.state = .lost)) :=
  ⟨asked _ _ _ _ rfl rfl, asked _ _ _ _ rfl rfl, by decide +kernel⟩

/-- The last entry of PALETTE and of VOICE's zones, and more entries than an answer has room for. -/
theorem test_hyp_ReadTableCarriesWholeEntries :
    Taken (asking node 0x02 [1, 0, 255, 255]) .readTable [1, 0, 255, 255] ∧
    ([1, 2, 3, 17, 18] : List Nat).map (fun n => (tableOf n).isSome) = [true, true, true, true, true] ∧
    TableId.voice.entries = 8 ∧ (∃ code : Byte, tableOf code.toNat = some .voice) ∧ (∃ code : Byte, tableOf code.toNat = some .palette) :=
  ⟨taken _ _ _ _ rfl rfl rfl, by decide, by decide, by decide +kernel, by decide +kernel⟩


theorem writesIn {α : Type} (s : State) (id : TableId) (c : Codec α) (i : Nat) (l : List α) (params : List Byte)
    (hr : s.ready = true) (ho : s.port.op = none) (ha : s.mgmt.waiting = .none)
    (hn : namedTable params = some id) (hw : writeParams c id params = some (i, l)) :
    Writes (asking s 3 params) id c i l :=
  ⟨by simp [State.storing, asking, ho], params, taken s 3 params .writeTable hr ha rfl, hn, hw⟩

theorem writes {α : Type} (id : TableId) (c : Codec α) (i : Nat) (l : List α) (params : List Byte)
    (hn : namedTable params = some id) (hw : writeParams c id params = some (i, l)) :
    Writes (asking node 3 params) id c i l := writesIn node id c i l params rfl rfl rfl hn hw

/-- A write of the last entry, or the only one, of each table: its parameters are the table's code, the entry's number and
the entry as its codec carries it. -/
theorem test_hyp_Writes :
    (∃ s x, Writes s .config configC 0 [x]) ∧ (∃ s x, Writes s .palette colourC 255 [x]) ∧
    (∃ s x, Writes s .highlight colourC 2 [x]) ∧ (∃ s x, Writes s .house colourC 0 [x]) ∧ (∃ s x, Writes s .bank bankC 0 [x]) ∧
    (∃ s x, Writes s .fixture fixtureC 15 [x]) ∧ (∃ s x, Writes s .patch patchC 63 [x]) ∧ (∃ s x, Writes s .clip clipC 127 [x]) ∧
    (∃ s x, Writes s .zone zoneC 1 [x]) ∧ (∃ s x, Writes s .proximity proxC 3 [x]) :=
  ⟨⟨_, ⟨250, 5000, .darkMode⟩, writes .config configC 0 _ [1, 0, 0, 250, 19, 136, 1] (by decide +kernel) (by decide +kernel)⟩,
    ⟨_, ⟨1, 2, 3, 4⟩, writes .palette colourC 255 _ [2, 0, 255, 1, 2, 3, 4] (by decide +kernel) (by decide +kernel)⟩,
    ⟨_, ⟨1, 2, 3, 4⟩, writes .highlight colourC 2 _ [3, 0, 3, 1, 2, 3, 4] (by decide +kernel) (by decide +kernel)⟩,
    ⟨_, ⟨1, 2, 3, 4⟩, writes .house colourC 0 _ [4, 0, 0, 1, 2, 3, 4] (by decide +kernel) (by decide +kernel)⟩,
    ⟨_, ⟨63, 128⟩, writes .bank bankC 0 _ [5, 0, 0, 63, 128] (by decide +kernel) (by decide +kernel)⟩,
    ⟨_, ⟨.highest, .square⟩, writes .fixture fixtureC 15 _ [6, 0, 15, 2, 1] (by decide +kernel) (by decide +kernel)⟩,
    ⟨_, some ⟨15, 511⟩, writes .patch patchC 63 _ [7, 0, 63, 1, 15, 1, 255] (by decide +kernel) (by decide +kernel)⟩,
    ⟨_, ⟨true, 65279, 128, 65535⟩, writes .clip clipC 127 _ [8, 0, 127, 1, 254, 255, 0, 0, 128, 255, 255]
      (by decide +kernel) (by decide +kernel)⟩,
    ⟨_, ⟨256, 65535, 60000⟩, writes .zone zoneC 1 _ [9, 0, 1, 1, 0, 255, 255, 234, 96] (by decide +kernel) (by decide +kernel)⟩,
    ⟨_, ⟨15, 10000⟩, writes .proximity proxC 3 _ [11, 0, 3, 15, 39, 16] (by decide +kernel) (by decide +kernel)⟩⟩

/-- The same for AXIS, SCENE, STEP, TRIGGER, REMOTE and CUE. -/
theorem test_hyp_Writes_rest :
    (∃ s x, Writes s .axis axisC 3 [x] ∧ axisFits x (node.bay.axisRec 3) = true) ∧
    (∃ s x, Writes s .axis axisC 3 [x] ∧ axisFits x ((node.bay.updAxis 3 (fun a => { a with
      state := .moving, move := Lane.rest 0 (.position 9) })).axisRec 3) = false) ∧
    (∃ s x, Writes s .scene sceneC 31 [x]) ∧ (∃ s x, Writes s .step stepC 1023 [x]) ∧
    (∃ s x, Writes s .trigger triggerC 11 [x]) ∧ (∃ s x, Writes s .remote remoteC 15 [x]) ∧
    (∃ s x, Writes s .cue cueC 63 [x]) :=
  ⟨⟨_, ⟨0, 8, 50, 50, .encoder, 1, .positive, 50, 9, true⟩,
      writes .axis axisC 3 _ (10 :: 0 :: 3 :: axisC.enc ⟨0, 8, 50, 50, .encoder, 1, .positive, 50, 9, true⟩) (by decide +kernel)
        (by decide +kernel), by decide +kernel⟩,
    ⟨_, ⟨0, 8, 50, 50, .encoder, 1, .positive, 50, 9, true⟩,
      writes .axis axisC 3 _ (10 :: 0 :: 3 :: axisC.enc ⟨0, 8, 50, 50, .encoder, 1, .positive, 50, 9, true⟩) (by decide +kernel)
        (by decide +kernel), by decide +kernel⟩,
    ⟨_, (scenes 15 .queue).scene.get 0,
      writes .scene sceneC 31 _ (12 :: 0 :: 31 :: sceneC.enc ((scenes 15 .queue).scene.get 0)) (by decide +kernel)
        (by decide +kernel)⟩,
    ⟨_, ⟨3599999, .start 31⟩, writes .step stepC 1023 _ (13 :: 3 :: 255 :: stepC.enc ⟨3599999, .start 31⟩) (by decide +kernel)
      (by decide +kernel)⟩,
    ⟨_, ⟨true, some 31, .activeHigh, 600, true⟩,
      writes .trigger triggerC 11 _ [14, 0, 11, 1, 1, 31, 1, 2, 88, 1] (by decide +kernel) (by decide +kernel)⟩,
    ⟨_, some ⟨250, .trigger, 11, 31⟩, writes .remote remoteC 15 _ [15, 0, 15, 1, 250, 0, 11, 31] (by decide +kernel)
      (by decide +kernel)⟩,
    ⟨_, some ⟨65535, 31⟩, writes .cue cueC 63 _ [16, 0, 63, 1, 255, 255, 31] (by decide +kernel) (by decide +kernel)⟩⟩

theorem test_hyp_WritesReplaceTheNamedEntries :
    Taken (asking node 0x0C [255, 0]) .setBank [255, 0] ∧
    ∃ serial : List Byte, serial.length = 6 ∧ numberOf serial = node.serial.toNat ∧
      Taken (asking node 0x0D (serial ++ [250])) .setNumber (serial ++ [250]) :=
  ⟨taken _ _ _ _ rfl rfl rfl, bytesOf 6 node.serial.toNat, rfl, by
    have h : ∀ x : BitVec 48, numberOf (bytesOf 6 x.toNat) = x.toNat := by
      intro x; have := x.isLt; simp [bytesOf, numberOf]; omega
    exact h _, taken _ _ _ _ rfl rfl rfl⟩

/-- An ask before readiness, one of bad form, one of no kind, a write of no working table, one while a STORE is in flight. -/
theorem test_hyp_AsksAreTestedInOrder :
    let storing := working .store (.erase 4095) [] .working 2
    State.reset.ready = false ∧ Asked (asking State.reset 0x05 [0]) .startScene [0] ∧
    Asked (asking State.reset 0x03 [1]) .writeTable [1] ∧
    Taken (asking node 0x05 [32]) .startScene [32] ∧ slotParam [32] = none ∧ slotParam [31] ≠ none ∧
    Taken (asking node 0x03 [1]) .writeTable [1] ∧ namedTable [1] = some .config ∧ writeParams configC .config [1] = none ∧
    Taken (asking storing 0x03 [5, 0, 0, 63, 128]) .writeTable [5, 0, 0, 63, 128] ∧ storing.storing = true ∧
    (∀ i, protectedStep storing.tables i = false) ∧
    (asking node 0x16 []).nextAsk = some ⟨1, 0, 0x16, []⟩ ∧ (Ask.mk 1 0 0x16 []).askKind = none ∧
    Taken (asking node 0x03 [17, 0, 0]) .writeTable [17, 0, 0] ∧ (∀ id, namedTable [17, 0, 0] = some id → id.working = false) ∧
    Taken (asking node 0x02 []) .readTable [] ∧ namedTable [] ≠ some .voice ∧ readParams [] = none ∧
    Taken (asking storing 0x0C [255, 0]) .setBank [255, 0] ∧ bankParam [255, 0] ≠ none ∧
    Taken (asking storing 0x04 [0, 0]) .paletteStream [0, 0] ∧ streamParams [0, 0] ≠ none := by
  refine ⟨rfl, asked _ _ _ _ rfl rfl, asked _ _ _ _ rfl rfl, taken _ _ _ _ rfl rfl rfl, by decide +kernel, by decide +kernel,
    taken _ _ _ _ rfl rfl rfl, rfl, rfl, taken _ _ _ _ rfl rfl rfl, rfl, ?_, rfl, rfl, taken _ _ _ _ rfl rfl rfl, ?_,
    taken _ _ _ _ rfl rfl rfl, by decide, rfl, taken _ _ _ _ rfl rfl rfl, by decide +kernel, taken _ _ _ _ rfl rfl rfl,
    by decide +kernel⟩
  · intro i
    have h : ∀ s : Fin 32, (Tables.factory.protect).slot s = false := by decide +kernel
    have : ∀ l : List (Fin 32), l.any (fun s => Tables.factory.protect.slot s &&
        (Tables.factory.scene.get s).firstStep.val ≤ i &&
        i < (Tables.factory.scene.get s).firstStep.val + (Tables.factory.scene.get s).stepCount.toNat) = false := by
      intro l; rw [List.any_eq_false]; intro s _; simp [h s]
    exact this _
  · decide +kernel

theorem test_hyp_ProtectionAndFreeze :
    let r : Protect := ⟨.low, 1, .high, 1, false, .keyed⟩
    let s := { node with tables := { Tables.factory with protect := r, scene := (scenes 1 .queue).scene } }
    r.slot 0 = true ∧ r.slot 1 = false ∧ r.block 254 = true ∧ r.block 253 = false ∧ protectedStep s.tables 0 = true ∧
    protectParam [0, 1, 1, 1, 0, 1] = some r ∧
    Taken (asking node 0x0E [0, 1, 1, 1, 0, 1]) .setProtect [0, 1, 1, 1, 0, 1] ∧ Taken (asking node 0x0F []) .freeze [] ∧
    (∃ t, exec .frameCutOff s = .next t) ∧ isReset .frameCutOff = false ∧
    (∃ p x, Writes (asking s 3 p) .scene sceneC 0 [x]) ∧ (∃ p x, Writes (asking s 3 p) .step stepC 0 [x]) :=
  ⟨by decide +kernel, by decide +kernel, by decide +kernel, by decide +kernel, by decide +kernel, by decide +kernel,
    taken _ _ _ _ rfl rfl rfl, taken _ _ _ _ rfl rfl rfl, ⟨_, rfl⟩, rfl,
    ⟨12 :: 0 :: 0 :: sceneC.enc ((scenes 15 .queue).scene.get 0), (scenes 15 .queue).scene.get 0,
      writesIn _ _ _ _ _ _ rfl rfl rfl (by decide +kernel) (by decide +kernel)⟩,
    ⟨13 :: 0 :: 0 :: stepC.enc ⟨0, .start 31⟩, ⟨0, .start 31⟩,
      writesIn _ _ _ _ _ _ rfl rfl rfl (by decide +kernel) (by decide +kernel)⟩⟩

/-- The ready wait at its limit; the image read in full; RESTART asked, and its ANSWER sent. -/
theorem test_hyp_ResetsAndStartUp :
    State.reset.mgmt.startUp = .flashWait 0 ∧ State.reset.port.op = none ∧
    ({ State.reset.mgmt with startUp := .imageRead (List.replicate 256 0 ++ []) } : Management).startUp =
      .imageRead (List.replicate 256 0 ++ []) ∧ (List.replicate 256 (0 : Byte)).length = 256 ∧
    Taken (asking node 0x11 []) .restart [] ∧ node.mgmt.restart = .none ∧ restarting.mgmt.restart = .answered ∧
    restarting.port.op = none :=
  ⟨rfl, rfl, rfl, List.length_replicate, taken _ _ _ _ rfl rfl rfl, rfl, rfl, rfl⟩

/-! ### The hypotheses of the further clauses are met -/

/-- The store port's turn in a ready wait, with no operation, with a step suspended and with a step at work; a record that
counts up to the limit of its gate, one that is held; a clear delay with 2 and with 1 to go. -/
theorem test_hyp_MillisecondReachesEveryBlockOnce_turns :
    State.reset.mgmt.startUp = .flashWait 0 ∧ State.reset.port.op = none ∧
    (working .store (.erase 4095) [] .suspended 2).port.op.map (·.phase) = some .suspended ∧
    (working .store (.erase 4095) [] .working 2).port.op.map (·.phase) = some .working ∧
    (let b := (runs 5 31 ⟨0, 0, 8⟩ Bay.reset).updRun 5 (fun r => { r with gate := some ⟨8, 99, 100⟩ })
     (b.run 5).state = .running ∧ (b.run 5).held = false ∧ (b.run 5).slot = some 31 ∧ 0 < 100 ∧ 100 ≤ 99 + 1 ∧
      (b.run 0).state = .free) ∧
    (let b := (runs 5 31 ⟨0, 0, 8⟩ Bay.reset).updRun 5 (fun r => { r with held := true })
     (b.run 5).state ≠ .free ∧ (b.run 5).held = true ∧ (b.run 5).snap = some (snapOf ⟨0, 0, 8⟩)) ∧
    (∀ d : Fin 3, ((Bay.reset.updProx 3 (fun _ => ⟨.clearing, d.val⟩)).axis.prox.get 3).state = .clearing) ∧
    (Bay.reset.axis.prox.get 3).state ≠ .clearing := by decide +kernel

/-- VOICE-FADE reaches a voice that plays; a narration step whose lane the record has not claimed. -/
theorem test_hyp_PlayTakesAndFillsAVoice_fade :
    let b := (runs 0 9 ⟨0, 2, 0⟩ Bay.reset).updVoice 5 (fun x => { x with
      state := .playing, kind := .narration, zone := .b, owner := some 0 })
    (b.claims 0).lanes.getLsbD Zone.b.idx.val = true ∧ (b.claims 0).lanes.getLsbD Zone.a.idx.val = false ∧
    (b.run 0).slot = some 9 ∧ (b.voiceRec 5).owner = some 0 ∧ (b.voiceRec 5).zone = .b ∧ (b.voiceRec 5).kind = .narration ∧
    (b.voiceRec 5).state = .playing := by decide +kernel

/-- Before readiness; at a level that stands already; a record that HELD joins, and one that it leaves, RUNNING or not. -/
theorem test_hyp_ProximityHoldsAndReleasesAxes_all :
    let b := fun (st : RunState) (held : Bool) => (runs 1 0 ⟨0, 0, 1⟩ Bay.reset).updRun 1 (fun r => { r with
      state := st, held := held })
    State.reset.ready = false ∧ State.reset.pins.prox.getLsbD 3 = false ∧ node.ready = true ∧
    (node.bay.axis.prox.get 3).state = .clear ∧
    ({ node with pins := { node.pins with prox := 8 } } : State).pins.prox.getLsbD 3 = true ∧
    ((b .running false).run 1).state ≠ .free ∧ ((b .running false).run 1).held = false ∧ ((b .free false).run 1).state = .free ∧
    ((b .running true).run 1).held = true ∧ ((b .suspended true).run 1).state ≠ .running ∧ ((b .running true).run 1).gate = none ∧
    (∀ a, (b .running true).owner (axisRes a) = some 1 → ((b .running true).axisRec a).state ≠ .held) ∧
    (∃ a, ((b .running true).updAxis 0 (fun x => { x with state := .held })).owner (axisRes a) = some 1 ∧
      (((b .running true).updAxis 0 (fun x => { x with state := .held })).axisRec a).state = .held) := by decide +kernel

/-- A HELD axis within its stall limit, and beyond it. -/
theorem test_hyp_MotionUpdateStepsTowardCommanded_held :
    let b := fun m : Int => Bay.reset.updAxis 2 (fun x => { x with state := .held, measured := m })
    let t := { Tables.factory with axis := Tab.const 4 ⟨0, 9, 8, 8, .encoder, 7, .negative, 1, 0, false⟩ }
    ((b 7).axisRec 2).state = .held ∧ (t.axis.get 2).feedback = .encoder ∧
    ¬ (t.axis.get 2).stallLimit.toNat < (((b 7).axisRec 2).stepped - ((b 7).axisRec 2).measured).natAbs ∧
    (t.axis.get 2).stallLimit.toNat < (((b 8).axisRec 2).stepped - ((b 8).axisRec 2).measured).natAbs := by decide +kernel

/-- A WAIT-AXIS for a claimed axis that moves and one outside the claim set; the notice queue with and without room; a START of
the record's own slot and of another. -/
theorem test_hyp_GateTimeoutHoldTimeoutExamination_steps :
    let b := (runs 5 31 ⟨0, 0, 8⟩ Bay.reset).updAxis 3 (fun x => { x with state := .moving })
    (b.run 5).slot = some 31 ∧ (9 &&& (b.claims 5).axes : BitVec 4) = 8 ∧ (9 &&& ~~~(b.claims 5).axes : BitVec 4) ≠ 0 ∧
    settled Tables.factory b 3 = false ∧ settled Tables.factory b 0 = true ∧ b.notices.length < 4 ∧
    ¬ ({ b with notices := List.replicate 4 ⟨.signal, 0⟩ } : Bay).notices.length < 4 ∧ (30 : Fin 32) ≠ 31 := by decide +kernel

/-- Record 5 owns fixture 15 and axis 3, whose stacks hold the suspended record 1. -/
def stacked : Bay :=
  eachOf [15, 21] (fun r b => b.updClaim r (fun _ => ⟨some 5, [1]⟩))
    ((runs 5 31 ⟨0x8000, 0, 8⟩ (runs 1 30 ⟨0x8000, 0, 8⟩ Bay.reset)).updRun 1 (fun r => { r with state := .suspended }))

/-- An end that hands both resources to record 1 and makes it whole; record 1, whole again, is due to end. -/
theorem test_hyp_EndOfRunReleasesItsResources_resumed :
    (stacked.run 5).state ≠ .free ∧ (stacked.run 5).slot = some 31 ∧ (stacked.run 5).snap = some (snapOf ⟨0x8000, 0, 8⟩) ∧
    (∀ r, ∀ j ∈ (stacked.claim.claim.get r).stack, (stacked.run j).state = .suspended) ∧
    madeWhole 5 Tables.factory stacked = [1] ∧ (stacked.run 1).state = .suspended ∧
    (stacked.run 1).snap = some (snapOf ⟨0x8000, 0, 8⟩) ∧ (stacked.run 1).look = some Look.blank ∧ (stacked.run 0).state = .free ∧
    (handOver 5 Tables.factory stacked).owner (fixtureRes 15) = some 1 ∧
    overdue (stacked.updRun 1 (fun r => { r with state := .running, clock := 100 })) 1 = true := by decide +kernel

/-- The restart of record 5, by its slot's own scene; an admission of priority 2 that pre-empts it, with an axis in HELD. -/
theorem test_hyp_RequestsAreDecided_restart :
    (holding.run 5).state = .running ∧ (holding.run 5).slot = some 30 ∧ (holding.run 5).held = false ∧
    ((scenes 2 .queue).scene.get 30).retrigger = .restart ∧
    admissible (scenes 2 .queue) holding 31 = some 0 ∧ (holding.run 0).state = .free ∧ (∀ r, holding.owner r ≠ some 0) ∧
    (∃ r, ((scenes 2 .queue).scene.get 31).claims.has r = true ∧ holding.owner r = some 5) := by decide +kernel

/-- A queued entry whose slot a record carries, and one that is no longer queued. -/
theorem test_hyp_ExpiryScheduleAndScan_carried :
    let e : QueueEntry := ⟨30, .cue, 1, 0, none⟩
    (holding.setQueue [e]).claim.queue.find? (fun x => x.slot = e.slot) = some e ∧ (holding.setQueue [e]).carrier 30 ≠ none ∧
    holding.claim.queue.find? (fun x => x.slot = e.slot) = none ∧ ((scenes 1 .queue).scene.get 30).enabled = true ∧
    ((scenes 1 .queue).scene.get 30).stepCount ≠ 0 ∧ ((scenes 1 .queue).scene.get 30).duration.val ≠ 0 ∧
    holding.trigger.mode = .showMode := by decide +kernel

theorem test_hyp_GoCuesAndNoticesAskForScenes_schedule :
    (∃ t, exec .lineLost node = .next t) ∧ isReset .lineLost = false ∧ (∀ x, Instr.lineLost ≠ .cueGo x) := by
  refine ⟨⟨_, rfl⟩, rfl, ?_⟩; rintro x h; cases h

/-- A header that is good and one whose length is too great; a body with a character to come and one at its last character;
the characters that a header error gives back. -/
theorem test_hyp_ReceiverTakesCharacters_clauses :
    let ok : Byte → RxChar := fun x => ⟨x, false⟩
    ([ok 1, ok 7].length < 3) ∧
    ((ok 1).framing = false ∧ 1 ≤ (ok 1).byte.toNat ∧ (ok 7).byte.toNat ≤ 7 ∧ (ok 200).byte.toNat ≤ 200 ∧
      crc8 [(ok 7).byte, (ok 7).byte, (ok 200).byte] = (ok (crc8 [7, 7, 200])).byte) ∧ ¬ (ok 201).byte.toNat ≤ 200 ∧
    ([ok 9].length + 1 < 1 + 2) ∧ ([ok 9, ok 9].length + 1 = 1 + 2) ∧
    ([ok 1, ok 0x7E, ok 5, ok 6] = [ok 1] ++ ok 0x7E :: [ok 5, ok 6]) ∧
    (∀ y ∈ [ok 1], ¬ (y.byte = 0x7E ∧ y.framing = false)) ∧ (∀ y ∈ [ok 1, ⟨0x7E, true⟩], ¬ (y.byte = 0x7E ∧ y.framing = false)) ∧
    receive 7 .hunt (ok 0) = (.hunt, .quiet) := by decide +kernel

/-- Bodies that are well formed and that are not, by kind. -/
theorem test_hyp_FramesAreTreatedByKindAndNode_bodies :
    [(1, [0, 0, 0, 1]), (2, [15, 1, 255, 0, 0, 0, 0, 0]), (3, [4, 0, 9]), (3, [1, 0, 9, 0, 0, 0, 5]), (4, [2, 255]), (5, []), (6, [0, 1]),
      (7, [])].map (fun p : Byte × List Byte => (mkFrame p.1 7 p.2).wellFormed) = List.replicate 8 true ∧
    [(1, [0, 0, 1]), (2, [16, 0, 0, 0, 0, 0, 0, 0]), (2, [0, 2, 0, 0, 0, 0, 0, 0]), (2, [0, 0, 0, 0, 0, 0, 0]), (3, [5, 0, 9]),
      (3, [1, 0, 9, 0]), (4, [3, 0]), (5, [0]), (6, [0])].map (fun p : Byte × List Byte => (mkFrame p.1 7 p.2).wellFormed) =
      List.replicate 9 false := by decide +kernel

/-- The head of the transmit queue before, during and at the end of its sending; an ask with a bad body of no character. -/
theorem test_hyp_TransmitQueueIsFilledAndSent_sending :
    let f := mkFrame 5 255 []
    let s := fun sending : Bool => { node with line := { node.line with tx := [.frame f true], sending := sending } }
    (s false).line.tx = .frame f true :: [] ∧ (s false).line.sending = false ∧ (s true).line.sending = true ∧
    (∀ f r, node.line.tx.head? ≠ some (.frame f r)) ∧
    Completes (hearing node 6 7 []) (lastOf []) .rejected 7 (mkFrame 6 7 []) ∧
    Completes (hearing node 6 7 [9]) (lastOf [9]) .rejected 7 (mkFrame 6 7 [9]) := by
  refine ⟨rfl, rfl, rfl, ?_, ⟨by decide +kernel, by decide⟩, ⟨by decide +kernel, by decide⟩⟩
  rintro f r h; cases h

/-- The mask of the resources that record 5 holds: fixture 15 and axis 3. -/
theorem test_hyp_ReadTableCarriesWholeEntries_run :
    (2 ^ 15 + 2 ^ 21 < 2 ^ 22) ∧ ∀ x : Fin 22, (2 ^ 15 + 2 ^ 21).testBit x.val = true ↔ stacked.owner x = some 5 := by
  decide +kernel

/-- A write of the last two PROXIMITY records; one of them CLEAR, the other ACTIVE. -/
theorem test_hyp_WritesActOnTheirBlocks_proximity :
    (∃ s l, Writes s .proximity proxC 2 l ∧ l.length = 2) ∧
    ((Bay.reset.updProx 3 (fun _ => ⟨.active, 0⟩)).axis.prox.get 3).state ≠ .clear ∧
    ((Bay.reset.updProx 3 (fun _ => ⟨.active, 0⟩)).axis.prox.get 2).state = .clear :=
  ⟨⟨_, [⟨15, 10000⟩, ⟨0, 0⟩], writes .proximity proxC 2 _ [11, 0, 2, 15, 39, 16, 0, 0, 0] (by decide +kernel) (by decide +kernel), rfl⟩,
    by decide +kernel, by decide +kernel⟩

/-- Asks of each kind before readiness, a read of VOICE of bad form; AXIS, SCENE and STEP writes that do not fit or are
protected, or that fit while a STORE is in flight. -/
theorem test_hyp_AsksAreTestedInOrder_rest :
    let storing := working .store (.erase 4095) [] .working 2
    let axis := axisC.enc ⟨0, 8, 50, 50, .encoder, 1, .positive, 50, 9, true⟩
    let step := stepC.enc ⟨0, .start 31⟩
    let scene := sceneC.enc ((scenes 15 .queue).scene.get 0)
    let r : Protect := ⟨.low, 1, .high, 1, false, .opened⟩
    Asked (asking State.reset 0x02 [19]) .readTable [19] ∧ namedTable [19] = some .voice ∧ readParams [19] = none ∧
    Taken (asking node 0x02 [19]) .readTable [19] ∧ Asked (asking State.reset 0x03 [17]) .writeTable [17] ∧
    (asking State.reset 0x16 []).nextAsk = some ⟨1, 0, 0x16, []⟩ ∧
    Taken (asking storing 0x03 (10 :: 0 :: 3 :: axis)) .writeTable (10 :: 0 :: 3 :: axis) ∧
    namedTable (10 :: 0 :: 3 :: axis) = some .axis ∧ writeParams axisC .axis (10 :: 0 :: 3 :: axis) ≠ none ∧
    Taken (asking storing 0x03 (12 :: 0 :: 0 :: scene)) .writeTable (12 :: 0 :: 0 :: scene) ∧
    namedTable (12 :: 0 :: 0 :: scene) = some .scene ∧ writeParams sceneC .scene (12 :: 0 :: 0 :: scene) ≠ none ∧
    Taken (asking storing 0x03 (13 :: 0 :: 0 :: step)) .writeTable (13 :: 0 :: 0 :: step) ∧
    namedTable (13 :: 0 :: 0 :: step) = some .step ∧ writeParams stepC .step (13 :: 0 :: 0 :: step) ≠ none ∧
    r.slot 0 = true ∧ r.slot 1 = false ∧ storing.tables.protect.slot 0 = false ∧
    axisFits ⟨0, 8, 50, 50, .encoder, 1, .positive, 50, 9, true⟩ (storing.bay.axisRec 3) = true :=
  ⟨asked _ _ _ _ rfl rfl, by decide +kernel, by decide +kernel, taken _ _ _ _ rfl rfl rfl, asked _ _ _ _ rfl rfl, rfl,
    taken _ _ _ _ rfl rfl rfl, by decide +kernel, by decide +kernel, taken _ _ _ _ rfl rfl rfl, by decide +kernel,
    by decide +kernel, taken _ _ _ _ rfl rfl rfl, by decide +kernel, by decide +kernel, by decide +kernel, by decide +kernel,
    by decide +kernel, by decide +kernel⟩

/-- The ready wait at its limit; a power-on reset with a step at work, between steps, and with none; a bay as after reset, with
an input that is active and guards axis 0, and axes that home at start. -/
theorem test_hyp_ResetsAndStartUp_operands :
    ({ State.reset with mgmt := { State.reset.mgmt with startUp := .flashWait 500 } } : State).mgmt.startUp = .flashWait 500 ∧
    (working .store (.erase 4095) [] .working 2).port.op.map (·.phase) = some .working ∧
    (working .store (.erase 4095) [] .working 2).flash.wf = true ∧
    (working .store (.erase 4095) [] .gap 0).port.phase = some .gap ∧ State.reset.port.op = none ∧
    (∀ a, (Bay.reset.axisRec a).state = .unhomed ∧ Bay.reset.owner (axisRes a) = none) ∧
    (∀ p, (Bay.reset.axis.prox.get p).state = .clear) ∧ (∀ k, (Bay.reset.run k).gate = none) ∧
    (let v := startBay 2 8 0 { Tables.factory with
        axis := Tab.const 4 ⟨0, 9, 8, 8, .none, 0, .negative, 1, 9, true⟩, prox := Tab.const 4 ⟨1, 0⟩
        config := ⟨7, 500, .darkMode⟩ } Bay.reset
     (v.axisRec 0).held = 8 ∧ (v.axisRec 1).phase = .offSwitch ∧ (v.axisRec 0).phase = .seek ∧
      (v.axisRec 3).state = .homing ∧ v.trigger.mode = .darkMode) := by decide +kernel

/-- The program of the trailer ends a STORE complete, whatever the one before it left (R187). -/
theorem test_hyp_FlashChangesOnlyAtTheStep_cut :
    let s := { working .store (.program 65360 .trailer) [] .working 3 with storeCut := true }
    s.storeCut = true ∧ s.storing = true ∧ (stepReady false s).storeCut = false := by decide +kernel

/-- A power-on reset between the steps of a STORE, and a step of one that fails: the next start-up finds no valid image (R72,
R187), whatever bytes it reads. -/
theorem test_cutStore_leavesNoImage :
    (powerOnReset (working .store (.erase 4080) [] .gap 0)).storeCut = true ∧
    (abandon (working .store (.program 65360 .trailer) [] .working 3)).storeCut = true ∧
    ∀ (s : State) (bytes : List Byte), s.storeCut = true → s.imageFound bytes = none :=
  ⟨rfl, rfl, fun s _ h => by unfold State.imageFound; rw [if_pos h]⟩

/-- A valid image: that of the factory defaults. -/
theorem test_hyp_ResetsAndStartUp_image :
    ∃ trailer body, trailer.length = 256 ∧ imageTables trailer body = some Tables.factory := by
  have hv : ∀ l : List Byte, imageValid (trailerPage (crc16 l)) l = true := by
    intro l
    generalize hx : crc16 l = x
    have h : numberOf (bytesOf 2 x.toNat) = x.toNat := by have := x.isLt; simp [bytesOf, numberOf]; omega
    have e : imageValid (trailerPage x) l = (true && true && decide (numberOf (bytesOf 2 x.toNat) = (crc16 l).toNat)) := rfl
    rw [e, hx, h]; simp
  have hn : ∀ x : BitVec 16, (trailerPage x).length = 256 := fun x => by
    rw [trailerPage, List.length_append, List.length_replicate]; rfl
  refine ⟨trailerPage (crc16 Tables.factory.image), Tables.factory.image, hn _, ?_⟩
  unfold imageTables
  rw [if_pos (hv _)]
  show (tablesOf (Tables.factory.body ++ _)).map _ = _
  rw [tablesOf_body _ (by decide +kernel)]; rfl

end Sys2Proof.Tests
end

section
/-! PROOFS. Show time (R3, R4) and lanes (R9 to R17): the facts of chapter 1's operations, then the statements about them. -/

namespace Sys2Proof.Machine

/-! ### Comparing show times (R4) -/

theorem timeDiff_eq (u t : ShowTime) : timeDiff u t = (t.toNat + 2 ^ 32 - u.toNat) % 2 ^ 32 := by
  have := u.isLt
  rw [timeDiff, BitVec.toNat_sub]
  congr 1
  omega

theorem timeDiff_lt (u t : ShowTime) : timeDiff u t < 2 ^ 32 := (t - u).isLt

@[simp] theorem timeDiff_self (t : ShowTime) : timeDiff t t = 0 := by simp [timeDiff]

theorem reached_iff (now u : ShowTime) : reached now u = true ↔ timeDiff u now < 2 ^ 31 := decide_eq_true_iff

theorem passed_iff (now u : ShowTime) : passed now u = true ↔ 1 ≤ timeDiff u now ∧ timeDiff u now < 2 ^ 31 := by
  rw [passed, Bool.and_eq_true, decide_eq_true_iff, decide_eq_true_iff]

/-- Settles O10, from the value and the range of the difference. -/
theorem showTimesCompareByModularDifference : Obligations.ShowTimesCompareByModularDifference := by
  refine ⟨fun u t => ⟨timeDiff_eq u t, ?_, reached_iff t u, ?_, ?_⟩, by decide⟩
  · have := timeDiff_lt u t
    omega
  · rw [passed_iff]
    omega
  · rw [← Bool.not_eq_true, reached_iff]
    omega

/-! ### The turns of a millisecond event (R1) -/

theorem perm_of_onceEach {inp : MsInputs} (h : inp.onceEach = true) : Block.all.Perm inp.order := by
  obtain ⟨hlen, hall⟩ := Bool.and_eq_true_iff.mp h
  have hsub : Block.all ⊆ inp.order := fun x hx => List.contains_iff_mem.mp (List.all_eq_true.mp hall x hx)
  exact (List.subperm_of_subset (by decide) hsub).perm_of_length_le (beq_iff_eq.mp hlen).le

/-- Each block takes a millisecond event once, whatever order came with it. -/
theorem perm_turns (inp : MsInputs) : Block.all.Perm (turns inp) := by
  unfold turns
  split
  · next h => exact perm_of_onceEach (Bool.and_eq_true_iff.mp h).1
  · exact .refl _

theorem nodup_turns (inp : MsInputs) : (turns inp).Nodup := (perm_turns inp).nodup (by decide)

theorem mem_turns (inp : MsInputs) (x : Block) : x ∈ turns inp := (perm_turns inp).subset (by cases x <;> decide)

/-! ### Show time (R3) -/

/-- No turn but the time unit's changes show time. -/
theorem blockTurn_time_of_ne (inp : MsInputs) {x : Block} (h : x ≠ .time) (s : State) :
    (blockTurn inp x s).bay.time = s.bay.time := by
  refine keeps_blockTurn inp x s .time ?_
  cases x
  case time => exact absurd rfl h
  all_goals decide

theorem turns_time (inp : MsInputs) (s : State) :
    (eachOf (turns inp) (blockTurn inp) s).bay.time = s.bay.time + 1 := by
  rw [eachOf_at (g := fun s : State => s.bay.time) (fun _ => True) .time (· + 1) (fun _ _ _ => trivial)
    (fun _ s hx _ => blockTurn_time_of_ne inp hx s) (fun _ _ => rfl) _ s (nodup_turns inp) trivial,
    if_pos (mem_turns inp .time)]

theorem restartNow_time {s : State} (answered : s.mgmt.restart = .answered) (idle : s.port.op = none) :
    (restartNow s).bay.time = 0 := by
  rw [restartNow, if_pos (by simp [answered, idle])]
  rfl

/-- Settles O11: of the event's turns the time unit's alone changes show time, and it comes once. -/
theorem showTimeGainsOneAtEachMillisecond : Obligations.ShowTimeGainsOneAtEachMillisecond := by
  refine fun s => ⟨fun inp => ⟨_, rfl, ?_, ?_⟩, ⟨_, rfl, rfl⟩,
    fun answered idle => ⟨_, rfl, restartNow_time answered idle⟩⟩
  · intro below
    rw [turns_time, BitVec.toNat_add]
    exact Nat.mod_eq_of_lt (Nat.succ_lt_succ below)
  · intro last
    rw [turns_time, BitVec.toNat_add, last]
    rfl

/-! ### Target values (R9) -/

/-- Settles O15: the definition's arms, one for each target kind. -/
theorem targetValueIsReadLive : Obligations.TargetValueIsReadLive :=
  fun _ _ => ⟨fun _ => rfl, rfl, fun _ => rfl, fun _ => rfl⟩

/-- Only a POSITION target can be negative (R7, R8). -/
theorem targetValue_nonneg (t : Tables) (c : Comp) {target : Target} (h : ∀ p, target ≠ .position p) :
    0 ≤ targetValue t c target := by
  cases target with
  | index i => exact Int.natCast_nonneg _
  | level v => exact Int.natCast_nonneg _
  | house => exact Int.natCast_nonneg _
  | position p => exact absurd rfl (h p)

/-! ### Elapsed time and done lanes (R10, R12) -/

theorem elapsed_of_node (b : Bay) {l : Lane} (h : l.source = .node) :
    elapsed b l = if timeDiff (BitVec.ofNat 32 l.startTime) b.time < 2 ^ 31
      then timeDiff (BitVec.ofNat 32 l.startTime) b.time else 0 := by
  rw [elapsed, h]

theorem elapsed_of_run (b : Bay) {l : Lane} {k : Fin 6} (h : l.source = .run k) :
    elapsed b l = (b.run k).clock - l.startTime := by
  rw [elapsed, h]

/-- A lane that starts at the present time of its source has no elapsed time. -/
theorem elapsed_of_present (b : Bay) {l : Lane} (h : l.startTime = b.present l.source) : elapsed b l = 0 := by
  cases hs : l.source with
  | node =>
    have e : BitVec.ofNat 32 l.startTime = b.time := by rw [h, hs]; exact BitVec.ofNat_toNat _ _
    simp [elapsed_of_node b hs, e]
  | run k => simp [elapsed_of_run b hs, h, hs, Bay.present]

theorem sourceFree_iff (b : Bay) (l : Lane) :
    sourceFree b l = true ↔ ∃ k, l.source = .run k ∧ (b.run k).state = .free := by
  unfold sourceFree
  cases l.source with
  | node => simp
  | run k => simp

theorem laneDone_iff (b : Bay) (l : Lane) : laneDone b l = true ↔
    l.duration = 0 ∨ l.duration ≤ elapsed b l ∨ ∃ k, l.source = .run k ∧ (b.run k).state = .free := by
  rw [← sourceFree_iff]
  simp only [laneDone, Bool.or_eq_true, decide_eq_true_iff]
  tauto

theorem laneDone_of_duration_zero (b : Bay) {l : Lane} (h : l.duration = 0) : laneDone b l = true :=
  (laneDone_iff b l).mpr (.inl h)

theorem elapsed_lt_duration {b : Bay} {l : Lane} (h : laneDone b l = false) : elapsed b l < l.duration := by
  rw [← Bool.not_eq_true, laneDone_iff] at h
  omega

theorem laneValue_of_done (t : Tables) {b : Bay} (c : Comp) {l : Lane} (h : laneDone b l = true) :
    laneValue t b c l = targetValue t c l.target := if_pos h

theorem laneValue_of_not_done (t : Tables) {b : Bay} (c : Comp) {l : Lane} (h : laneDone b l = false) :
    laneValue t b c l = between l.start (targetValue t c l.target)
      (progress l.curve (fraction (elapsed b l) l.duration)) := if_neg (by simp [h])

/-! ### Fraction and progress (R12, R13) -/

theorem fraction_le {e d : Nat} (h : e < d) : fraction e d ≤ 65535 := by
  refine Nat.lt_succ_iff.mp (Nat.div_lt_of_lt_mul ?_)
  omega

/-- Settles O12: a lane that is not done has less elapsed time than its duration. -/
theorem laneElapsedDoneAndFraction : Obligations.LaneElapsedDoneAndFraction := by
  refine fun t b c l => ⟨elapsed_of_node b, fun k hk => ?_, laneDone_iff b l, laneValue_of_done t c, fun h => ?_⟩
  · rw [elapsed_of_run b hk]
    omega
  · have lt := elapsed_lt_duration h
    exact ⟨by omega, rfl, fraction_le lt⟩

/-- What a fraction makes of a number is at most that number. -/
theorem mul_fraction_div_le (a : Nat) {f : Nat} (h : f ≤ 65535) : a * f / 65536 ≤ a :=
  Nat.div_le_of_le_mul (by nlinarith)

theorem progress_le (curve : Curve) {f : Nat} (h : f ≤ 65535) : progress curve f ≤ 65535 := by
  cases curve with
  | linear => exact h
  | ease => exact min_le_right _ _
  | snap => exact Nat.zero_le _

@[simp] theorem progress_zero (curve : Curve) : progress curve 0 = 0 := by cases curve <;> rfl

/-! ### Values between start and target (R14) -/

@[simp] theorem between_zero (s t : Int) : between s t 0 = s := by simp [between]

@[simp] theorem between_self (s : Int) (g : Nat) : between s s g = s := by simp [between]

theorem between_of_le {s t : Int} (h : s ≤ t) (g : Nat) : between s t g = s + (t - s) * g / 65536 := if_pos h

theorem between_of_gt {s t : Int} (h : t < s) (g : Nat) : between s t g = s - (s - t) * g / 65536 :=
  if_neg (not_le.mpr h)

/-- The part of a distance that a progress below 1 makes. -/
theorem share_bounds {d : Int} (hd : 0 < d) {g : Nat} (hg : g ≤ 65535) : 0 ≤ d * g / 65536 ∧ d * g / 65536 < d := by
  constructor
  · positivity
  · exact Int.ediv_lt_of_lt_mul (by decide) (by nlinarith)

/-- Below progress 1 a value lies from its start on and short of its target. -/
theorem between_short (s t : Int) {g : Nat} (hg : g ≤ 65535) :
    (s < t → s ≤ between s t g ∧ between s t g < t) ∧ (t < s → t < between s t g ∧ between s t g ≤ s) := by
  constructor
  · intro h
    have := share_bounds (sub_pos.mpr h) hg
    rw [between_of_le h.le]
    omega
  · intro h
    have := share_bounds (sub_pos.mpr h) hg
    rw [between_of_gt h]
    omega

theorem between_mem (s t : Int) {g : Nat} (hg : g ≤ 65535) : min s t ≤ between s t g ∧ between s t g ≤ max s t := by
  obtain ⟨rising, falling⟩ := between_short s t hg
  rcases lt_trichotomy s t with h | rfl | h
  · have := rising h
    omega
  · simp
  · have := falling h
    omega

theorem between_moved_lt {s t : Int} (h : s ≠ t) {g : Nat} (hg : g ≤ 65535) :
    (between s t g - s).natAbs < (t - s).natAbs := by
  obtain ⟨rising, falling⟩ := between_short s t hg
  rcases lt_or_gt_of_ne h with h | h
  · have := rising h
    omega
  · have := falling h
    omega

/-! ### Values of lanes -/

theorem progress_of_not_done {b : Bay} {l : Lane} (h : laneDone b l = false) :
    progress l.curve (fraction (elapsed b l) l.duration) ≤ 65535 := progress_le _ (fraction_le (elapsed_lt_duration h))

theorem laneValue_of_snap (t : Tables) (b : Bay) (c : Comp) {l : Lane} (h : l.curve = .snap) :
    laneValue t b c l = if laneDone b l then targetValue t c l.target else l.start := by
  cases hd : laneDone b l with
  | true => exact laneValue_of_done t c hd
  | false => rw [laneValue_of_not_done t c hd, h]; exact between_zero _ _

/-- Settles O13, each curve by its definition. -/
theorem progressFollowsTheCurve : Obligations.ProgressFollowsTheCurve :=
  ⟨fun f h => ⟨rfl, rfl, mul_fraction_div_le _ h, rfl, fun curve => progress_le curve h⟩, by decide, by decide,
    fun t b c _ => laneValue_of_snap t b c⟩

theorem laneValue_mem (t : Tables) (b : Bay) (c : Comp) (l : Lane) :
    min l.start (targetValue t c l.target) ≤ laneValue t b c l ∧
    laneValue t b c l ≤ max l.start (targetValue t c l.target) := by
  cases hd : laneDone b l with
  | true => rw [laneValue_of_done t c hd]; exact ⟨min_le_right _ _, le_max_right _ _⟩
  | false => rw [laneValue_of_not_done t c hd]; exact between_mem _ _ (progress_of_not_done hd)

/-- Settles O14: below progress 1 the share of the distance is short of the whole. -/
theorem laneValueRoundsTowardStart : Obligations.LaneValueRoundsTowardStart := by
  refine fun t b c l => ⟨laneValue_of_done t c, fun hd => ?_, laneValue_mem t b c l⟩
  rw [laneValue_of_not_done t c hd]
  exact ⟨fun h => between_of_le h _, fun h => between_of_gt h _, fun h => between_moved_lt h (progress_of_not_done hd)⟩

/-- A lane whose start is its target value stays there. -/
theorem laneValue_of_start_eq {t : Tables} (b : Bay) {c : Comp} {l : Lane} (h : l.start = targetValue t c l.target) :
    laneValue t b c l = l.start := by
  have := laneValue_mem t b c l
  omega

/-- A lane with no elapsed time that is not done stands at its start. -/
theorem laneValue_of_elapsed_zero (t : Tables) {b : Bay} (c : Comp) {l : Lane} (hd : laneDone b l = false)
    (h : elapsed b l = 0) : laneValue t b c l = l.start := by
  rw [laneValue_of_not_done t c hd, h]
  simp [fraction]

theorem laneValue_nonneg (t : Tables) (b : Bay) (c : Comp) {l : Lane} (start : 0 ≤ l.start)
    (target : ∀ p, l.target ≠ .position p) : 0 ≤ laneValue t b c l :=
  (le_min start (targetValue_nonneg t c target)).trans (laneValue_mem t b c l).1

/-! ### Holds (R16) -/

theorem laneDone_holdLevel (t : Tables) (b b' : Bay) (c : Comp) (src : Option TimeSource) (l : Lane) :
    laneDone b' (holdLevel t b c src l) = true := laneDone_of_duration_zero b' rfl

theorem laneDone_holdPosition (t : Tables) (b b' : Bay) (src : Option TimeSource) (l : Lane) :
    laneDone b' (holdPosition t b src l) = true := laneDone_of_duration_zero b' rfl

/-- A held lane keeps a value that a LEVEL target can have, under any tables and clocks. -/
theorem laneValue_holdLevel {t : Tables} {b : Bay} {c : Comp} {l : Lane} (h : 0 ≤ laneValue t b c l)
    (src : Option TimeSource) (t' : Tables) (b' : Bay) (c' : Comp) :
    laneValue t' b' c' (holdLevel t b c src l) = laneValue t b c l :=
  (laneValue_of_done t' c' (laneDone_holdLevel t b b' c src l)).trans (Int.toNat_of_nonneg h)

theorem laneValue_holdPosition (t : Tables) (b : Bay) (src : Option TimeSource) (l : Lane) (t' : Tables) (b' : Bay)
    (c' : Comp) : laneValue t' b' c' (holdPosition t b src l) = laneValue t b .red l :=
  laneValue_of_done t' c' (laneDone_holdPosition t b b' src l)

/-- Settles O16: a held lane is done and its target is the held value, so a second hold takes that value again. -/
theorem holdFixesTheLane : Obligations.HoldFixesTheLane := by
  refine fun t b c src l => ⟨?_, ?_⟩
  · rintro start target _ rfl
    have nonneg := laneValue_nonneg t b c start target
    refine ⟨rfl, fun t' b' c' src' => ?_⟩
    have held := laneValue_holdLevel nonneg src t' b' c'
    exact ⟨laneDone_holdLevel t b b' c src l, held,
      (laneValue_holdLevel (nonneg.trans_eq held.symm) src' t' b' c').trans held⟩
  · rintro _ rfl
    refine ⟨rfl, fun t' b' src' => ?_⟩
    have held := laneValue_holdPosition t b src l t' b' .red
    exact ⟨laneDone_holdPosition t b b' src l, held, (laneValue_holdPosition t' b' src' _ t' b' .red).trans held⟩

/-! ### Retargets (R17) -/

section
variable (t : Tables) (b : Bay) (c : Comp) (target : Target) (duration : Nat) (curve : Curve) (src : TimeSource) (l : Lane)

theorem retarget_eq : retarget t b c target duration curve src l =
    { start := laneValue t b c l, target := target, startTime := b.present src
      duration := if 600000 < duration then 600000 else duration, curve := curve, source := src } := by
  have : min duration maxDuration = if 600000 < duration then 600000 else duration := by
    rw [maxDuration]
    split <;> omega
  rw [retarget, this]

theorem elapsed_retarget : elapsed b (retarget t b c target duration curve src l) = 0 := elapsed_of_present b rfl

variable {duration src}

theorem laneDone_retarget (pos : 0 < duration) (live : ∀ k, src = .run k → (b.run k).state ≠ .free) :
    laneDone b (retarget t b c target duration curve src l) = false := by
  rw [← Bool.not_eq_true, laneDone_iff, elapsed_retarget]
  have hd : (retarget t b c target duration curve src l).duration = min duration maxDuration := rfl
  rintro (h | h | ⟨k, hk, free⟩)
  · rw [hd, maxDuration] at h; omega
  · rw [hd, maxDuration] at h; omega
  · exact live k hk free

end

/-- Settles O17: the lane starts at the present time of its source, so it has no elapsed time. -/
theorem retargetStartsFromTheValue : Obligations.RetargetStartsFromTheValue := by
  refine fun t b c target duration curve src l => ⟨retarget_eq .., elapsed_retarget .., fun pos live => ?_, ?_,
    fun still t' b' same => ?_⟩
  · exact laneValue_of_elapsed_zero t c (laneDone_retarget t b c target curve l pos live) (elapsed_retarget ..)
  · rintro rfl
    exact laneValue_of_done t c (laneDone_of_duration_zero b (Nat.zero_min _))
  · exact laneValue_of_start_eq b' (still.trans same.symm)

end Sys2Proof.Machine
end

section
/-! PROOFS. The output pipeline (R30, R31): the line value, the merge and the dimming curves, then the statement about
them. -/

namespace Sys2Proof.Machine

/-! ### The line value (R30) -/

section
variable {t : Tables} {i : Fin 16} {c : Comp}

theorem lineValue_of_unpatched (b : Bay) (h : t.patch.get (patchIdx i c) = none) : lineValue t b i c = 0 := by
  rw [lineValue, h]

theorem lineValue_of_patched {p} (b : Bay) (h : t.patch.get (patchIdx i c) = some p) :
    lineValue t b i c = (laneValue t b c ((b.fixtureRec i).line.get c)).toNat := by
  rw [lineValue, h]

end

/-! ### The merge (R30) -/

@[simp] theorem FixtureMode.merge_scene (s l : Nat) : FixtureMode.scene.merge s l = s := rfl
@[simp] theorem FixtureMode.merge_line (s l : Nat) : FixtureMode.line.merge s l = l := rfl
@[simp] theorem FixtureMode.merge_highest (s l : Nat) : FixtureMode.highest.merge s l = max s l := rfl

/-! ### The dimming curves (R31) -/

theorem Dimming.duty_linear (l : Nat) : Dimming.linear.duty l = l / 16 := rfl
theorem Dimming.duty_square (l : Nat) : Dimming.square.duty l = l * l / 1048576 := rfl

theorem Dimming.duty_mono (d : Dimming) {l m : Nat} (h : l ≤ m) : d.duty l ≤ d.duty m := by
  cases d with
  | linear => exact Nat.div_le_div_right h
  | square => exact Nat.div_le_div_right (Nat.mul_le_mul h h)

@[simp] theorem Dimming.duty_zero (d : Dimming) : d.duty 0 = 0 := by cases d <;> rfl

@[simp] theorem Dimming.duty_full (d : Dimming) : d.duty 65535 = 4095 := by cases d <;> rfl

theorem Dimming.duty_le (d : Dimming) {l : Nat} (h : l ≤ 65535) : d.duty l ≤ 4095 :=
  (d.duty_mono h).trans_eq d.duty_full

/-- SQUARE's dark end: the square of a level below 1,024 is short of the divisor 1,024². -/
theorem Dimming.duty_square_of_lt {l : Nat} (h : l < 1024) : Dimming.square.duty l = 0 :=
  Nat.div_eq_of_lt (Nat.mul_self_lt_mul_self h)

/-- Settles O18: each value by its case, and the bound of a duty by the curve's monotony up to full level. -/
theorem lineValueMergeAndDimming : Obligations.LineValueMergeAndDimming := by
  refine ⟨fun t b i c => ⟨lineValue_of_unpatched b, fun _ => lineValue_of_patched b⟩,
    fun s l => ⟨FixtureMode.merge_scene s l, FixtureMode.merge_line s l, FixtureMode.merge_highest s l⟩,
    fun l hl => ⟨Dimming.duty_linear l, Dimming.duty_square l, fun d => ⟨d.duty_le hl, ?_, ?_⟩,
      Dimming.duty_square_of_lt⟩⟩
  · rintro rfl
    exact d.duty_zero
  · rintro rfl
    exact d.duty_full

end Sys2Proof.Machine
end

section
/-! PROOFS. The mix of an audio sample event (R53 to R55): the sum of a zone, what the mix makes of a zone, and what the rest
of the event leaves of it; then the statement about them. -/

namespace Sys2Proof.Machine

/-! ### The result of a zone (R53) -/

theorem Voice.sounds_iff (x : Voice) : x.sounds = true ↔ x.state = .playing ∨ x.state = .stopping := by
  simp [Voice.sounds]

/-- The sum over a zone's sounding voices is the sum over all voices, the others contributing 0. -/
theorem zoneSum_eq_sum {t : Tables} {b : Bay} {z : Zone} {part : Fin 6 → Int}
    (sounding : ∀ v, (b.voiceRec v).sounds = true → (b.voiceRec v).zone = z →
      part v = contribution t b (laneValue t b .red (b.voice.zone.get z.idx).duck) (b.voiceRec v))
    (silent : ∀ v, ¬ ((b.voiceRec v).sounds = true ∧ (b.voiceRec v).zone = z) → part v = 0) :
    zoneSum t b z = ((List.finRange 6).map part).sum := by
  rw [List.sum_eq_foldl, List.foldl_map, zoneSum]
  refine List.foldl_ext _ _ _ fun sum v _ => ?_
  dsimp only
  by_cases h : (b.voiceRec v).sounds = true ∧ (b.voiceRec v).zone = z
  · obtain ⟨sounds, zone⟩ := h
    rw [if_pos (by simp [sounds, zone]), sounding v sounds zone]
  · rw [if_neg (by simpa using h), silent v h, add_zero]

theorem saturate_ne_iff (r : Int) : saturate r ≠ r ↔ 32767 < r ∨ r < -32768 := by
  unfold saturate
  split_ifs <;> omega

/-! ### The mix of one zone (R53 to R55) -/

theorem Zone.idx_inj {z w : Zone} : z.idx = w.idx ↔ z = w := by cases z <;> cases w <;> decide

/-- What the mix makes of the run part of its zone. -/
def ZoneRun.mixed (r : Int) (y : ZoneRun) : ZoneRun :=
  { y with sent := y.formed, formed := saturate r, clipFlag := y.clipFlag || saturate r != r }

theorem mixZone_zone (r : Int) (z w : Zone) (b : Bay) : (mixZone r z b).voice.zone.get w.idx =
    if z = w then (b.voice.zone.get z.idx).mixed r else b.voice.zone.get w.idx := by
  have mixed : (mixZone r z b).voice.zone = b.voice.zone.upd z.idx (ZoneRun.mixed r) := by
    unfold mixZone
    dsimp only
    split <;> rfl
  simp only [mixed, Tab.get_upd, Zone.idx_inj]

theorem mixZone_latches_zoneClip {r : Int} (beyond : saturate r ≠ r) (z : Zone) (b : Bay) :
    (mixZone r z b).latched.getLsbD ErrItem.zoneClip.bit = true := by
  unfold mixZone
  dsimp only
  rw [if_neg beyond, Bay.latch_latched, BitVec.getLsbD_or]
  simp [ErrItem.bit]

/-! ### The rest of the event -/

/-- Drawing from the voices leaves the zones. -/
theorem drawVoices_zone (b : Bay) : (drawVoices b).voice.zone = b.voice.zone := by
  have turn : ∀ (v : Fin 6) (b : Bay),
      (if (b.voiceRec v).sounds = true then b.updVoice v Voice.draw else b).voice.zone = b.voice.zone :=
    fun v b => by split <;> rfl
  have drawn := each_same (g := fun b : Bay => b.voice.zone) turn b
  unfold drawVoices
  dsimp only
  split
  · rw [Bay.latch_voice, drawn]
  · rw [drawn]

/-- The end of the voices that end at this event leaves the zones. -/
theorem eachOf_voiceIdle_zone (l : List (Fin 6)) (b : Bay) : (eachOf l voiceIdle b).voice.zone = b.voice.zone :=
  eachOf_same (f := voiceIdle) (g := fun b : Bay => b.voice.zone) (fun _ _ => rfl) l b

/-- An examination of the duck targets leaves of each zone all but its duck lane. -/
theorem duckExamine_zone (t : Tables) (b : Bay) (z : Fin 2) : ∃ duck,
    (duckExamine t b).voice.zone.get z = { b.voice.zone.get z with duck := duck } := by
  obtain ⟨zone, examined, same⟩ := duckExamine_eq t b
  exact ⟨_, by rw [examined]; exact same z⟩

/-- An audio sample event mixes each zone once with the zone's own result (R53); its duck lane follows R52. -/
theorem audioEvent_zone (t : Tables) (b : Bay) (z : Zone) : ∃ duck,
    (audioEvent true t b).voice.zone.get z.idx =
      { (b.voice.zone.get z.idx).mixed (zoneResult t b z) with duck := duck } := by
  unfold audioEvent
  dsimp only
  rw [if_pos rfl, if_pos rfl]
  obtain ⟨duck, examined⟩ := duckExamine_zone t (eachOf ((List.finRange 6).filter (fun v => endsNow b (b.voiceRec v)))
    voiceIdle (mixZone (zoneResult t b .b) .b (mixZone (zoneResult t b .a) .a (drawVoices b)))) z.idx
  refine ⟨duck, ?_⟩
  rw [examined, eachOf_voiceIdle_zone]
  cases z <;> simp [mixZone_zone, drawVoices_zone]

/-- A zone result beyond the range of a sample latches ZONE-CLIP (R54), and nothing after it in the event unlatches it. -/
theorem audioEvent_latches_zoneClip {t : Tables} {b : Bay} {z : Zone}
    (beyond : saturate (zoneResult t b z) ≠ zoneResult t b z) :
    (audioEvent true t b).latched.getLsbD ErrItem.zoneClip.bit = true := by
  unfold audioEvent
  dsimp only
  rw [if_pos rfl, if_pos rfl]
  refine ((acts_eachOf acts_voiceIdle _ _).trans (acts_duckExamine t _)).latched _ ?_
  cases z with
  | a => exact (sounds_mixZone _ .b _).latched _ (mixZone_latches_zoneClip beyond .a _)
  | b => exact mixZone_latches_zoneClip beyond .b _

/-- Settles O24: the sum over the zone's voices is the sum of the given parts, so the zone is mixed with the given result. -/
theorem audioSampleEventMixesEachZone : Obligations.AudioSampleEventMixesEachZone := by
  intro s ready
  refine ⟨_, rfl, ?_⟩
  rintro z duck result part rfl parts rfl
  have sum : zoneSum s.tables s.bay z = ((List.finRange 6).map part).sum := by
    refine zoneSum_eq_sum (fun v sounds zone => ?_) (fun v silent => ?_)
    · exact (parts v _ rfl _ rfl).1 ⟨(Voice.sounds_iff _).mp sounds, zone⟩ _ rfl
    · exact (parts v _ rfl _ rfl).2 (by rwa [← Voice.sounds_iff])
  rw [← sum]
  simp only [State.onBay, ready]
  obtain ⟨duck, mixed⟩ := audioEvent_zone s.tables s.bay z
  rw [mixed]
  refine ⟨rfl, rfl, ?_, fun beyond => audioEvent_latches_zoneClip ((saturate_ne_iff _).mpr beyond)⟩
  rw [← saturate_ne_iff]
  simp [ZoneRun.mixed, zoneResult]

end Sys2Proof.Machine
end

section
/-! PROOFS. Proximity inputs (R90 to R92) and the stall sets of the owners (R109): the commands of an input, what it does to
one axis, what an owner is told, the loops over the axes of a mask; then the statement about them. -/

namespace Sys2Proof.Machine

/-! ### The records of the inputs (R90, R91) -/

section
variable {p : Fin 4} {t : Tables} {b : Bay}

theorem proxActive_of_clear (h : (b.axis.prox.get p).state = .clear) : proxActive p t b =
    eachOf (members (t.prox.get p).axes) (fun a b => holdBy p a t b) (b.updProx p (fun _ => ⟨.active, 0⟩)) := by
  rw [proxActive, h]

theorem proxActive_of_clearing (h : (b.axis.prox.get p).state = .clearing) :
    proxActive p t b = b.updProx p (fun _ => ⟨.active, 0⟩) := by
  rw [proxActive, h]

theorem proxInactive_of_delay (h : (b.axis.prox.get p).state = .active) (delay : (t.prox.get p).clearDelay.val ≠ 0) :
    proxInactive p t b = b.updProx p (fun _ => ⟨.clearing, (t.prox.get p).clearDelay.val⟩) := by
  rw [proxInactive, h]
  exact if_neg delay

theorem proxInactive_of_noDelay (h : (b.axis.prox.get p).state = .active) (delay : (t.prox.get p).clearDelay.val = 0) :
    proxInactive p t b = proxClear p t b := by
  rw [proxInactive, h]
  exact if_pos delay

theorem clearDelayEnd_of_over (h : (b.axis.prox.get p).state = .clearing) (ended : (b.axis.prox.get p).delay = 0) :
    clearDelayEnd p t b = proxClear p t b := if_pos (by simp [h, ended])

end

/-! ### The commands -/

section
variable {s : State} {p : Fin 4}

theorem exec_proximityActive_of_active (h : s.pins.prox.getLsbD p.val = true) :
    exec (.proximityActive p) s = .next s := if_pos h

theorem exec_proximityActive_of_ready (h : s.pins.prox.getLsbD p.val = false) (ready : s.ready = true) :
    exec (.proximityActive p) s =
      .next (settle { s.setProx p true with bay := proxActive p s.tables s.bay }) :=
  (if_neg (ne_true_of_eq_false h)).trans (if_pos ready)

theorem exec_proximityActive_of_notReady (h : s.pins.prox.getLsbD p.val = false) (ready : s.ready = false) :
    exec (.proximityActive p) s = .next (s.setProx p true) :=
  (if_neg (ne_true_of_eq_false h)).trans (if_neg (ne_true_of_eq_false ready))

theorem exec_proximityInactive_of_inactive (h : s.pins.prox.getLsbD p.val = false) :
    exec (.proximityInactive p) s = .next s := if_pos (by rw [h]; rfl)

theorem exec_proximityInactive_of_ready (h : s.pins.prox.getLsbD p.val = true) (ready : s.ready = true) :
    exec (.proximityInactive p) s =
      .next (settle { s.setProx p false with bay := proxInactive p s.tables s.bay }) :=
  (if_neg (by simp [h])).trans (if_pos ready)

theorem exec_proximityInactive_of_notReady (h : s.pins.prox.getLsbD p.val = true) (ready : s.ready = false) :
    exec (.proximityInactive p) s = .next (s.setProx p false) :=
  (if_neg (by simp [h])).trans (if_neg (ne_true_of_eq_false ready))

theorem exec_clearDelayExpiry :
    exec (.clearDelayExpiry p) s = .next (settle { s with bay := clearDelayEnd p s.tables s.bay }) := rfl

/-- The two ways to a CLEAR record: an input without a clear delay goes inactive, and a clear delay has run out. -/
theorem exec_clears {c : Instr} {after : State}
    (h : c = .proximityInactive p ∧ s.ready = true ∧ s.pins.prox.getLsbD p.val = true ∧
        (s.bay.axis.prox.get p).state = .active ∧ (s.tables.prox.get p).clearDelay.val = 0 ∧ after = s.setProx p false ∨
      c = .clearDelayExpiry p ∧ (s.bay.axis.prox.get p).state = .clearing ∧ (s.bay.axis.prox.get p).delay = 0 ∧
        after = s) :
    exec c s = .next (settle { after with bay := proxClear p s.tables s.bay }) := by
  rcases h with ⟨rfl, ready, pin, active, delay, rfl⟩ | ⟨rfl, clearing, ended, rfl⟩
  · rw [exec_proximityInactive_of_ready pin ready, proxInactive_of_noDelay active delay]
  · rw [exec_clearDelayExpiry, clearDelayEnd_of_over clearing ended]

/-- A change of the bay that makes no request leaves nothing to settle. -/
theorem settle_of_claim_same (settled : Settled s) {after : State} {b : Bay} (mgmt : after.mgmt = s.mgmt)
    (claim : b.claim = s.bay.claim) : settle { after with bay := b } = { after with bay := b } :=
  settle_of_settled _ ⟨(congrArg ClaimUnit.inFlight claim).trans settled.1, fun waits => settled.2 (mgmt ▸ waits)⟩

theorem exec_proximityActive_of_settled (h : s.pins.prox.getLsbD p.val = false) (ready : s.ready = true)
    (settled : Settled s) (claim : (proxActive p s.tables s.bay).claim = s.bay.claim) :
    exec (.proximityActive p) s = .next { s.setProx p true with bay := proxActive p s.tables s.bay } := by
  rw [exec_proximityActive_of_ready h ready, settle_of_claim_same settled (after := s.setProx p true) rfl claim]

theorem exec_proximityInactive_of_settled (h : s.pins.prox.getLsbD p.val = true) (ready : s.ready = true)
    (settled : Settled s) (claim : (proxInactive p s.tables s.bay).claim = s.bay.claim) :
    exec (.proximityInactive p) s = .next { s.setProx p false with bay := proxInactive p s.tables s.bay } := by
  rw [exec_proximityInactive_of_ready h ready, settle_of_claim_same settled (after := s.setProx p false) rfl claim]

end

/-! ### One axis (R90, R92) -/

/-- An axis that input `p` holds. -/
def Axis.heldBy (p : Fin 4) (x : Axis) : Axis :=
  { x with
    held := x.held ||| proxBit p
    state := if x.state = .ready ∨ x.state = .moving then .held else x.state }

/-- An axis that input `p` no longer holds, under the clocks of a bay. -/
def Axis.unheldBy (p : Fin 4) (t : Tables) (b : Bay) (x : Axis) : Axis :=
  { x with
    held := x.held &&& ~~~proxBit p
    state := if x.state = .held ∧ x.held &&& ~~~proxBit p = 0 then
        (if laneDone b x.move = true ∧ x.stepped = laneValue t b .red x.move then .ready else .moving)
      else x.state }

theorem holdBy_eq (p a : Fin 4) (t : Tables) (b : Bay) :
    holdBy p a t b = report a b t (b.updAxis a (Axis.heldBy p)) := by
  simp only [holdBy, Bool.or_eq_true, decide_eq_true_eq]
  rfl

theorem unholdBy_eq (p a : Fin 4) (t : Tables) (b : Bay) :
    unholdBy p a t b = report a b t (b.updAxis a (Axis.unheldBy p t b)) := by
  simp only [unholdBy, Bool.and_eq_true, decide_eq_true_eq]
  exact congrArg (report a b t) (Bay.updAxis_congr _ _ _ _ rfl)

/-! ### The stall set of an owner (R109) -/

section
variable {k : Fin 6} {t : Tables} {b : Bay}

theorem ownsHeld_iff : ownsHeld b k = true ↔ ∃ a, b.owner (axisRes a) = some k ∧ (b.axisRec a).state = .held := by
  simp [ownsHeld, mem_ownedAxes]

theorem addHeld_of_free_or_held (h : (b.run k).state = .free ∨ (b.run k).held = true) : addHeld k b = b :=
  if_pos (by simpa using h)

theorem addHeld_of_live (live : (b.run k).state ≠ .free) (held : (b.run k).held = false) : addHeld k b =
    if (b.run k).state = .running then pauseVoices k (b.updRun k (fun r => { r with held := true, holdTime := 0 }))
    else b.updRun k (fun r => { r with held := true, holdTime := 0 }) := if_neg (by simp [live, held])

theorem removeHeld_of_stays {endK : EndRun}
    (h : (b.run k).held = false ∨ ∃ a, b.owner (axisRes a) = some k ∧ (b.axisRec a).state = .held) :
    removeHeld endK k t b = b := by
  rw [← ownsHeld_iff] at h
  refine if_neg ?_
  rcases h with h | h <;> simp [h]

theorem removeHeld_of_leaves {endK : EndRun} (held : (b.run k).held = true)
    (none_held : ∀ a, b.owner (axisRes a) = some k → (b.axisRec a).state ≠ .held) : removeHeld endK k t b =
    if (b.run k).state = .running then
      examineIfFires endK true k t (duckExamine t (resumeVoices k (b.updRun k (fun r => { r with held := false }))))
    else b.updRun k (fun r => { r with held := false }) := by
  have owns : ownsHeld b k = false := by
    rw [← Bool.not_eq_true, ownsHeld_iff]
    rintro ⟨a, own, state⟩
    exact none_held a own state
  exact if_pos (by simp [held, owns])

/-- Resuming the voices of a record and examining the duck targets leave the run records. -/
theorem run_duckExamine_resumeVoices (j : Fin 6) : (duckExamine t (resumeVoices k b)).run j = b.run j := by
  obtain ⟨voice, resumed, -⟩ := resumeVoices_congr k b b rfl rfl
  obtain ⟨-, scene, -⟩ := duckExamine_parts t (resumeVoices k b)
  rw [Bay.run, scene, resumed]
  rfl

/-- A RUNNING record that HELD has left fires when it has no gate. -/
theorem examineIfFires_of_left {endK : EndRun} {c : Bay} (running : (b.run k).state = .running)
    (c_eq : c = b.updRun k (fun r => { r with held := false })) :
    examineIfFires endK true k t (duckExamine t (resumeVoices k c)) =
      if (b.run k).gate = none then examine endK true k t (duckExamine t (resumeVoices k c))
      else duckExamine t (resumeVoices k c) := by
  have fires : ((duckExamine t (resumeVoices k c)).run k).canFire = true ↔ (b.run k).gate = none := by
    rw [run_duckExamine_resumeVoices, c_eq, Bay.run_updRun_same]
    simp [RunRec.canFire, running]
  simp only [examineIfFires, fires]

end

/-! ### Reports (R82, R108, R109) -/

theorem reportHeld_of_unowned {a : Fin 4} {b : Bay} (own : b.owner (axisRes a) = none) (was : AxisState) (t : Tables) :
    reportHeld a was t b = b := by
  unfold reportHeld
  rw [own]

/-- What the owner of an axis is told of HELD. -/
theorem reportHeld_of_owned {a : Fin 4} {b : Bay} {k : Fin 6} (own : b.owner (axisRes a) = some k) (was : AxisState)
    (t : Tables) : reportHeld a was t b =
      if (b.axisRec a).state = .held ∧ was ≠ .held then duckExamine t (addHeld k b)
      else if (b.axisRec a).state ≠ .held ∧ was = .held then removeHeld endRun k t b else b := by
  unfold reportHeld
  rw [own]
  simp only [Bool.and_eq_true, bne_iff_ne, decide_eq_true_eq]

theorem report_eq (a : Fin 4) (before : Bay) (t : Tables) (b : Bay) : report a before t b =
    if settled t b a = true ∧ settled t before a = false then
      reportSettled a t (reportHeld a (before.axisRec a).state t b)
    else reportHeld a (before.axisRec a).state t b := by
  simp only [report, Bool.and_eq_true, Bool.not_eq_true']

/-- Where no gate waits on an axis, its owner alone is told. -/
theorem report_of_noGate (a : Fin 4) (before : Bay) (t : Tables) (b : Bay)
    (noGate : ∀ k g, ((reportHeld a (before.axisRec a).state t b).run k).gate = some g → g.axes.getLsbD a.val = false) :
    report a before t b = reportHeld a (before.axisRec a).state t b := by
  rw [report_eq, reportSettled_of_noGate a t _ noGate, ite_self]

/-! ### HELD joining stall sets -/

/-- A record that HELD joins. -/
def RunRec.joined (r : RunRec) : RunRec := { r with held := true, holdTime := 0 }

/-- What HELD joining stall sets leaves of the bay: it joins no record that has it. -/
structure Joins (b b' : Bay) : Prop where
  claim : b'.claim = b.claim
  axis : b'.axis = b.axis
  run : ∀ k, b'.run k = b.run k ∨ (b.run k).held = false ∧ b'.run k = (b.run k).joined

theorem Joins.refl (b : Bay) : Joins b b := ⟨rfl, rfl, fun _ => .inl rfl⟩

theorem Joins.gate {b b' : Bay} (h : Joins b b') (k : Fin 6) : (b'.run k).gate = (b.run k).gate := by
  rcases h.run k with e | ⟨-, e⟩
  · rw [e]
  · rw [e]
    rfl

/-- A record that has HELD in its stall set stays as it is. -/
theorem Joins.run_of_held {b b' : Bay} (h : Joins b b') {k : Fin 6} (held : (b.run k).held = true) : b'.run k = b.run k := by
  rcases h.run k with e | ⟨e, -⟩
  · exact e
  · simp [held] at e

theorem pauseVoices_axis (k : Fin 6) (b : Bay) : (pauseVoices k b).axis = b.axis :=
  each_same (g := fun b : Bay => b.axis) (fun v b => by split <;> rfl) b

theorem addHeld_parts (k : Fin 6) (b : Bay) : (addHeld k b).claim = b.claim ∧ (addHeld k b).axis = b.axis := by
  unfold addHeld
  dsimp only
  split_ifs
  · exact ⟨rfl, rfl⟩
  · exact ⟨(pauseVoices_parts k _).1, pauseVoices_axis k _⟩
  · exact ⟨rfl, rfl⟩

/-- What an owner whose axis enters HELD becomes. -/
theorem duckExamine_addHeld_run (k j : Fin 6) (t : Tables) (b : Bay) : (duckExamine t (addHeld k b)).run j =
    if k = j ∧ (b.run k).state ≠ .free ∧ (b.run k).held = false then (b.run k).joined else b.run j := by
  obtain ⟨-, scene, -⟩ := duckExamine_parts t (addHeld k b)
  rw [Bay.run, scene]
  by_cases h : (b.run k).state = .free ∨ (b.run k).held = true
  · rw [addHeld_of_free_or_held h, if_neg (by rcases h with h | h <;> simp [h])]
    rfl
  · obtain ⟨live, held⟩ := not_or.mp h
    rw [Bool.not_eq_true] at held
    have paused : (addHeld k b).scene = (b.updRun k RunRec.joined).scene := by
      rw [addHeld_of_live live held]
      split
      · exact (pauseVoices_parts k _).2
      · rfl
    rw [paused]
    refine (Bay.run_updRun b k j RunRec.joined).trans ?_
    simp only [live, held, ne_eq, not_false_eq_true, and_self, and_true]

theorem joins_duckExamine_addHeld (k : Fin 6) (t : Tables) (b : Bay) : Joins b (duckExamine t (addHeld k b)) := by
  obtain ⟨claim, -, -, -, axis, -⟩ := duckExamine_parts t (addHeld k b)
  obtain ⟨claim_added, axis_added⟩ := addHeld_parts k b
  refine ⟨claim.trans claim_added, axis.trans axis_added, fun j => ?_⟩
  rw [duckExamine_addHeld_run]
  split
  · next h =>
    obtain ⟨rfl, -, held⟩ := h
    exact .inr ⟨held, rfl⟩
  · exact .inl rfl

/-! ### One turn of a hold -/

/-- Input `p` holds an axis, and its owner alone is told. -/
def holdTold (p a : Fin 4) (t : Tables) (b : Bay) : Bay :=
  reportHeld a (b.axisRec a).state t (b.updAxis a (Axis.heldBy p))

section
variable {p a : Fin 4} {t : Tables} {b : Bay}

theorem Axis.heldBy_state_held {x : Axis} (h : x.state = .held) : (x.heldBy p).state = .held := by
  simp [Axis.heldBy, h]

/-- A hold takes no axis out of HELD, so its owner is told at most that HELD joins. -/
theorem joins_holdTold (p a : Fin 4) (t : Tables) (b : Bay) : Joins (b.updAxis a (Axis.heldBy p)) (holdTold p a t b) := by
  unfold holdTold
  cases own : (b.updAxis a (Axis.heldBy p)).owner (axisRes a) with
  | none =>
    rw [reportHeld_of_unowned own]
    exact .refl _
  | some k =>
    have stays : ¬ (((b.updAxis a (Axis.heldBy p)).axisRec a).state ≠ .held ∧ (b.axisRec a).state = .held) := by
      rintro ⟨now, was⟩
      exact now (by rw [Bay.updAxis_same]; exact Axis.heldBy_state_held was)
    rw [reportHeld_of_owned own, if_neg stays]
    split
    · exact joins_duckExamine_addHeld k t _
    · exact .refl _

theorem holdTold_run_owner {k : Fin 6} (own : b.owner (axisRes a) = some k)
    (state : (b.axisRec a).state = .ready ∨ (b.axisRec a).state = .moving) (live : (b.run k).state ≠ .free)
    (held : (b.run k).held = false) : (holdTold p a t b).run k = (b.run k).joined := by
  have now : ((b.updAxis a (Axis.heldBy p)).axisRec a).state = .held := by
    rw [Bay.updAxis_same]
    exact if_pos state
  have was : (b.axisRec a).state ≠ .held := by rcases state with h | h <;> simp [h]
  have told : (b.updAxis a (Axis.heldBy p)).owner (axisRes a) = some k := own
  rw [holdTold, reportHeld_of_owned told, if_pos ⟨now, was⟩, duckExamine_addHeld_run]
  exact if_pos ⟨rfl, live, held⟩

theorem holdTold_claim : (holdTold p a t b).claim = b.claim := (joins_holdTold p a t b).claim

theorem holdTold_prox : (holdTold p a t b).axis.prox = b.axis.prox := by rw [(joins_holdTold p a t b).axis]; rfl

theorem holdTold_axisRec (c : Fin 4) : (holdTold p a t b).axisRec c =
    if a = c then (b.axisRec a).heldBy p else b.axisRec c := by
  rw [Bay.axisRec, (joins_holdTold p a t b).axis]
  exact Bay.updAxis_axisRec ..

/-- Where no gate waits on the axis, a hold is told to its owner alone. -/
theorem holdBy_of_noGate (noGate : ∀ k g, (b.run k).gate = some g → g.axes.getLsbD a.val = false) :
    holdBy p a t b = holdTold p a t b := by
  rw [holdBy_eq]
  refine report_of_noGate a b t _ fun k g h => noGate k g ?_
  rw [← h]
  exact ((joins_holdTold p a t b).gate k).symm

end

/-! ### The axes of a mask (log 41) -/

/-- Two loops whose turns do the same to every bay that meets an invariant do the same. -/
theorem eachOf_congr {ι β : Type} {f g : ι → β → β} (P : β → Prop) (l : List ι) (same : ∀ i ∈ l, ∀ b, P b → f i b = g i b)
    (keep : ∀ i b, P b → P (g i b)) (b : β) (hb : P b) : eachOf l f b = eachOf l g b := by
  induction l generalizing b with
  | nil => rfl
  | cons i l ih =>
    rw [eachOf_cons, eachOf_cons, same i List.mem_cons_self b hb]
    exact ih (fun j hj => same j (List.mem_cons_of_mem i hj)) _ (keep i b hb)

theorem mem_members {n : Nat} {m : BitVec n} {i : Fin n} : i ∈ members m ↔ m.getLsbD i.val = true := by simp [members]

theorem nodup_members {n : Nat} (m : BitVec n) : (members m).Nodup := (List.nodup_finRange n).filter _

/-- No gate waits on an axis of a mask. -/
def Ungated (mask : BitVec 4) (b : Bay) : Prop := ∀ k g, (b.run k).gate = some g → g.axes &&& mask = 0

theorem Ungated.noGate {mask : BitVec 4} {b : Bay} (h : Ungated mask b) {a : Fin 4} (mem : a ∈ members mask) :
    ∀ k g, (b.run k).gate = some g → g.axes.getLsbD a.val = false := by
  intro k g waits
  have bit := congrArg (fun m : BitVec 4 => m.getLsbD a.val) (h k g waits)
  rw [BitVec.getLsbD_and, mem_members.mp mem, Bool.and_true] at bit
  simpa using bit

theorem ungated_holdTold {mask : BitVec 4} {b : Bay} (h : Ungated mask b) (p a : Fin 4) (t : Tables) :
    Ungated mask (holdTold p a t b) := by
  intro k g waits
  rw [(joins_holdTold p a t b).gate k] at waits
  exact h k g waits

theorem eachOf_holdBy_of_ungated (p : Fin 4) (t : Tables) (mask : BitVec 4) (b : Bay) (h : Ungated mask b) :
    eachOf (members mask) (fun a b => holdBy p a t b) b = eachOf (members mask) (fun a b => holdTold p a t b) b :=
  eachOf_congr (Ungated mask) _ (fun _ mem _ h => holdBy_of_noGate (h.noGate mem))
    (fun a _ h => ungated_holdTold h p a t) b h

/-- The record that owns an axis which a hold takes out of READY or MOVING has HELD in its stall set after the loop. -/
theorem eachOf_holdTold_run (p : Fin 4) (t : Tables) {a : Fin 4} {k : Fin 6} (l : List (Fin 4)) (b : Bay) (mem : a ∈ l)
    (own : b.owner (axisRes a) = some k) (state : (b.axisRec a).state = .ready ∨ (b.axisRec a).state = .moving)
    (live : (b.run k).state ≠ .free) (held : (b.run k).held = false) :
    (eachOf l (fun a b => holdTold p a t b) b).run k = (b.run k).joined := by
  have stays : ∀ (r : RunRec), r.held = true → ∀ (l : List (Fin 4)) (c : Bay), c.run k = r →
      (eachOf l (fun a b => holdTold p a t b) c).run k = r := fun r hr =>
    eachOf_keeps (P := fun c : Bay => c.run k = r) fun x c hc =>
      ((joins_holdTold p x t c).run_of_held (show (c.run k).held = true by rw [hc, hr])).trans hc
  induction l generalizing b with
  | nil => simp at mem
  | cons x l ih =>
    rw [eachOf_cons]
    by_cases e : x = a
    · rw [e]
      exact stays _ rfl l _ (holdTold_run_owner own state live held)
    · have same : (holdTold p x t b).axisRec a = b.axisRec a := by rw [holdTold_axisRec, if_neg e]
      rcases (joins_holdTold p x t b).run k with unchanged | ⟨-, joined⟩
      · have run : (holdTold p x t b).run k = b.run k := unchanged
        rw [← run]
        refine ih _ ((List.mem_cons.mp mem).resolve_left (Ne.symm e)) ?_ (by rw [same]; exact state)
          (by rw [run]; exact live) (by rw [run]; exact held)
        rw [Bay.owner, holdTold_claim]
        exact own
      · exact stays _ rfl l _ joined

theorem eachOf_holdTold_axisRec (p : Fin 4) (t : Tables) (mask : BitVec 4) (b : Bay) (a : Fin 4) :
    (eachOf (members mask) (fun a b => holdTold p a t b) b).axisRec a =
      if mask.getLsbD a.val = true then (b.axisRec a).heldBy p else b.axisRec a := by
  rw [eachOf_at (g := fun b : Bay => b.axisRec a) (fun _ => True) a (Axis.heldBy p) (fun _ _ _ => trivial)
    (fun j b h _ => by simp only [holdTold_axisRec, if_neg h]) (fun b _ => by simp only [holdTold_axisRec, if_true])
    _ b (nodup_members mask) trivial]
  simp only [mem_members]

/-- Where no record owns an axis of the mask and no gate waits on one, a release changes the axes alone. -/
theorem eachOf_unholdBy_of_unowned (p : Fin 4) (t : Tables) (mask : BitVec 4) (b : Bay) (ungated : Ungated mask b)
    (unowned : ∀ a : Fin 4, mask.getLsbD a.val = true → b.owner (axisRes a) = none) :
    ∃ axis : Tab Axis 4, eachOf (members mask) (fun a b => unholdBy p a t b) b =
        { b with axis := { b.axis with axis := axis } } ∧
      ∀ a, axis.get a = if mask.getLsbD a.val = true then (b.axisRec a).unheldBy p t b else b.axisRec a := by
  have alone : eachOf (members mask) (fun a b => unholdBy p a t b) b =
      eachOf (members mask) (fun a b => b.updAxis a (Axis.unheldBy p t b)) b := by
    refine eachOf_congr (g := fun a b => b.updAxis a (Axis.unheldBy p t b))
      (fun c => Ungated mask c ∧ ∀ a : Fin 4, mask.getLsbD a.val = true → c.owner (axisRes a) = none) _
      ?_ (fun _ _ h => h) b ⟨ungated, unowned⟩
    rintro a mem c ⟨ungated, unowned⟩
    rw [unholdBy_eq]
    exact report_of_unowned a c t _ (unowned a (mem_members.mp mem)) (ungated.noGate mem)
  obtain ⟨rest, axis⟩ := eachOf_updAxis (fun a b => b.updAxis a (Axis.unheldBy p t b)) (fun _ b => Axis.unheldBy p t b)
    (fun _ _ _ => rfl) (fun _ _ => rfl) _ (nodup_members mask) b
  rw [alone]
  refine ⟨_, rest, fun a => (axis a).trans ?_⟩
  simp only [mem_members]

/-! ### What an input does to the bay (R90, R92) -/

section
variable {p : Fin 4} {t : Tables} {b : Bay}

/-- A CLEAR input that goes active where no gate waits on an axis of its mask. -/
theorem proxActive_of_ungated (clear : (b.axis.prox.get p).state = .clear) (ungated : Ungated (t.prox.get p).axes b) :
    (proxActive p t b).claim = b.claim ∧ (proxActive p t b).axis.prox.get p = ⟨.active, 0⟩ ∧
    (∀ a, (proxActive p t b).axisRec a =
      if (t.prox.get p).axes.getLsbD a.val = true then (b.axisRec a).heldBy p else b.axisRec a) ∧
    ∀ k, (b.run k).state ≠ .free → (b.run k).held = false →
      (∃ a : Fin 4, (t.prox.get p).axes.getLsbD a.val = true ∧ b.owner (axisRes a) = some k ∧
        ((b.axisRec a).state = .ready ∨ (b.axisRec a).state = .moving)) →
      (proxActive p t b).run k = (b.run k).joined := by
  rw [proxActive_of_clear clear, eachOf_holdBy_of_ungated p t _ (b.updProx p _) ungated]
  refine ⟨?_, ?_, eachOf_holdTold_axisRec p t _ _, ?_⟩
  · exact eachOf_same (f := fun a b => holdTold p a t b) (g := fun b : Bay => b.claim) (fun _ _ => holdTold_claim) _ _
  · rw [eachOf_same (f := fun a b => holdTold p a t b) (g := fun b : Bay => b.axis.prox) (fun _ _ => holdTold_prox)]
    exact Tab.get_upd_same _ _ _
  · rintro k live held ⟨a, mem, own, state⟩
    exact eachOf_holdTold_run p t _ (b.updProx p (fun _ => ⟨.active, 0⟩)) (mem_members.mpr mem) own state live held

/-- A record that becomes CLEAR where no record owns an axis of its mask and no gate waits on one. -/
theorem proxClear_of_unowned (ungated : Ungated (t.prox.get p).axes b)
    (unowned : ∀ a : Fin 4, (t.prox.get p).axes.getLsbD a.val = true → b.owner (axisRes a) = none) :
    proxClear p t b = { b with axis := (proxClear p t b).axis } ∧
    (∀ q, (proxClear p t b).axis.prox.get q = if q = p then ⟨.clear, 0⟩ else b.axis.prox.get q) ∧
    ∀ a, (proxClear p t b).axisRec a =
      if (t.prox.get p).axes.getLsbD a.val = true then (b.axisRec a).unheldBy p t b else b.axisRec a := by
  obtain ⟨axis, released, each_axis⟩ :=
    eachOf_unholdBy_of_unowned p t (t.prox.get p).axes (b.updProx p (fun _ => ⟨.clear, 0⟩)) ungated unowned
  rw [show proxClear p t b = _ from released]
  refine ⟨rfl, fun q => ?_, each_axis⟩
  simp only [eq_comm (a := q)]
  exact Tab.get_upd _ _ _ _

end

/-- Settles O36: the commands by the level and the record, one axis by its turn of the loop, the owners by the reports. -/
theorem proximityHoldsAndReleasesAxes : Obligations.ProximityHoldsAndReleasesAxes := by
  refine ⟨?_, ?_, ?_, ?_, ?_⟩
  · rintro s p mask rec on off ready settled rfl rfl rfl rfl ungated
    refine ⟨fun pin clear => ?_, fun pin clearing => ?_, fun pin active delay => ?_, fun unowned c after h => ?_⟩
    · obtain ⟨claim, prox, axes, runs⟩ := proxActive_of_ungated (t := s.tables) clear ungated
      rw [exec_proximityActive_of_settled pin ready settled claim]
      refine ⟨_, rfl, rfl, prox, axes, fun k live held owns => ?_⟩
      have joined := runs k live held owns
      exact ⟨congrArg RunRec.held joined, congrArg RunRec.holdTime joined⟩
    · have bay := proxActive_of_clearing (t := s.tables) clearing
      rw [exec_proximityActive_of_settled pin ready settled (by rw [bay]; rfl), bay]
      rfl
    · have bay := proxInactive_of_delay active delay
      rw [exec_proximityInactive_of_settled pin ready settled (by rw [bay]; rfl), bay]
      rfl
    · obtain ⟨rest, prox, axes⟩ := proxClear_of_unowned ungated unowned
      have claim : (proxClear p s.tables s.bay).claim = s.bay.claim := by rw [rest]
      have mgmt : after.mgmt = s.mgmt := by rcases h with ⟨-, -, -, -, rfl⟩ | ⟨-, -, rfl⟩ <;> rfl
      have clears : exec c s = .next (settle { after with bay := proxClear p s.tables s.bay }) := by
        refine exec_clears (h.imp ?_ ?_)
        · rintro ⟨rfl, pin, active, delay, rfl⟩
          exact ⟨rfl, ready, pin, active, delay, rfl⟩
        · rintro ⟨rfl, record, rfl⟩
          exact ⟨rfl, congrArg Prox.state record, congrArg Prox.delay record, rfl⟩
      rw [clears, settle_of_claim_same settled mgmt claim]
      refine ⟨_, rfl, congrArg (fun b : Bay => { after with bay := b }) rest, prox, ?_⟩
      rintro a x left rfl rfl
      exact axes a
  · rintro s p rec on off mask put rfl rfl hput rfl rfl
    simp only [hput]
    refine ⟨exec_proximityActive_of_active, exec_proximityInactive_of_inactive, fun notReady =>
      ⟨fun pin => exec_proximityActive_of_notReady pin notReady,
        fun pin => exec_proximityInactive_of_notReady pin notReady⟩, fun ready pin clear => ?_, fun c after => exec_clears⟩
    rw [exec_proximityActive_of_ready pin ready, proxActive_of_clear clear]
    rfl
  · rintro p a t b x bit left rfl rfl rfl
    refine ⟨holdBy_eq p a t b, (unholdBy_eq p a t b).trans ?_⟩
    exact congrArg (report a b t) (Bay.updAxis_congr _ _ _ _ rfl)
  · rintro a t before b told was now rfl rfl rfl
    rw [report_eq]
    cases own : b.owner (axisRes a) with
    | none => rw [reportHeld_of_unowned own]
    | some k => rw [reportHeld_of_owned own]
  · rintro k t b c r rfl
    refine ⟨addHeld_of_free_or_held, ?_, removeHeld_of_stays, fun held leaves hc => ⟨fun state => ?_, ?_⟩⟩
    · rintro live held rfl
      exact addHeld_of_live live held
    · rw [removeHeld_of_leaves held leaves, if_neg state, hc]
    · intro running d hd
      rw [removeHeld_of_leaves held leaves, if_pos running, ← hc, examineIfFires_of_left running hc, hd]

end Sys2Proof.Machine
end

section
/-! PROOFS. The statements of the family 'other'. Their proofs are elaborated one after another: the tests above already bring
the check of the one text close to its memory limit, and elaborating these proofs beside them would exceed it. -/

set_option Elab.async false

section
/-! PROOFS. Steps, the invariant and frames: that every command completes, what each command can change (from the frame of
every command), and that every command keeps the invariant of the node. -/

namespace Sys2Proof.Machine

/-! ### Steps -/

theorem exec_next (c : Instr) (s : State) : ∃ t, exec c s = .next t := by
  cases c with
  | triggerPress n late => exact if h : _ then ⟨_, if_pos h⟩ else ⟨_, if_neg h⟩
  | goodHeader c => exact if h : _ then ⟨_, if_pos h⟩ else ⟨_, if_neg h⟩
  | headerError c => exact if h : _ then ⟨_, if_pos h⟩ else ⟨_, if_neg h⟩
  | characterReceived c => exact if h : _ then ⟨_, if_pos h⟩ else ⟨_, if_neg h⟩
  | proximityActive p =>
    show ∃ t, execProximityActive p s = .next t
    unfold execProximityActive
    split_ifs <;> exact ⟨_, rfl⟩
  | proximityInactive p =>
    show ∃ t, execProximityInactive p s = .next t
    unfold execProximityInactive
    split_ifs <;> exact ⟨_, rfl⟩
  | _ => exact ⟨_, rfl⟩

theorem step_of_pending {s : State} {c : Instr} {rest : List Instr} (h : s.pending = c :: rest) :
    step s = exec c { s with pending := rest } := by
  rw [step, h]

theorem step_of_idle {s : State} (h : s.pending = []) : step s = .next s := by
  rw [step, h]

/-- Settles O1: the front of the queue is the command that runs. -/
theorem stepTakesFrontOfQueue : Obligations.StepTakesFrontOfQueue :=
  fun _ _ _ => step_of_pending

/-! ### What each command can change -/

/-- A part that a command's list does not name stays. -/
theorem same_of_exec {c : Instr} {s t : State} {p : Part} (h : exec c s = .next t)
    (out : (changes c).contains p = false) : p.same s t :=
  exec_keeps c s t h p (by simpa using out)

section
variable (c : Instr)

theorem contains_queue : (changes c).contains .queue = false := by cases c <;> rfl
theorem contains_serial : (changes c).contains .serial = false := by cases c <;> rfl
theorem contains_ledger : (changes c).contains .ledger = false := by cases c <;> rfl

variable {c}

theorem contains_flash (h : isFlashWork c = false) (restart : c ≠ .restartTakesEffect) :
    (changes c).contains .flash = false := by
  cases c
  case restartTakesEffect => exact absurd rfl restart
  all_goals first | rfl | exact Bool.noConfusion h

theorem contains_image (h : isFlashWork c = false) : (changes c).contains .image = false := by
  cases c <;> first | rfl | exact Bool.noConfusion h

variable (h : isReset c = false)
include h

theorem contains_tables (h' : isTableAsk c = false) (h'' : ∀ x p, c ≠ .startUp x p) :
    (changes c).contains .tables = false := by
  cases c
  case startUp x p => exact absurd rfl (h'' x p)
  all_goals first | rfl | exact Bool.noConfusion h | exact Bool.noConfusion h'

theorem contains_staging (h' : c ≠ .paletteStream) : (changes c).contains .staging = false := by
  cases c
  case paletteStream => exact absurd rfl h'
  all_goals first | rfl | exact Bool.noConfusion h

theorem contains_buffer (h' : c ≠ .pageFill) : (changes c).contains .buffer = false := by
  cases c
  case pageFill => exact absurd rfl h'
  all_goals first | rfl | exact Bool.noConfusion h

theorem contains_latched (h' : ∀ key, c ≠ .status key) : (changes c).contains .latched = false := by
  cases c
  case status key => exact absurd rfl (h' key)
  all_goals first | rfl | exact Bool.noConfusion h

theorem contains_time (h' : ∀ inp, c ≠ .millisecondEvent inp) (h'' : ∀ x e, c ≠ .timeFrame x e) :
    (changes c).contains .time = false := by
  cases c
  case millisecondEvent inp => exact absurd rfl (h' inp)
  case timeFrame x e => exact absurd rfl (h'' x e)
  all_goals first | rfl | exact Bool.noConfusion h

theorem contains_duty (h' : ∀ inp, c ≠ .millisecondEvent inp) : (changes c).contains .duty = false := by
  cases c
  case millisecondEvent inp => exact absurd rfl (h' inp)
  all_goals first | rfl | exact Bool.noConfusion h

theorem contains_audio (h' : c ≠ .audioSampleEvent) : (changes c).contains .audio = false := by
  cases c
  case audioSampleEvent => exact absurd rfl h'
  all_goals first | rfl | exact Bool.noConfusion h

theorem contains_mode (dark : ∀ x, c ≠ .cueHouseDark x) (light : ∀ x, c ≠ .cueHouseShow x) (set : c ≠ .setMode)
    (start : ∀ x p, c ≠ .startUp x p) : (changes c).contains .mode = false := by
  cases c
  case cueHouseDark x => exact absurd rfl (dark x)
  case cueHouseShow x => exact absurd rfl (light x)
  case setMode => exact absurd rfl set
  case startUp x p => exact absurd rfl (start x p)
  all_goals first | rfl | exact Bool.noConfusion h

end

/-- Settles O2: no command changes the queue or the serial, as the frame of every command says. -/
theorem everyCommandCompletes : Obligations.EveryCommandCompletes := by
  refine ⟨fun c s => ?_, fun _ => step_of_idle⟩
  obtain ⟨t, h⟩ := exec_next c s
  exact ⟨t, h, same_of_exec (p := .queue) h (contains_queue c), same_of_exec (p := .serial) h (contains_serial c)⟩

/-- Settles O8: the frame of every command but STATUS and the resets keeps the latched half. -/
theorem latchedItemsStay : Obligations.LatchedItemsStay :=
  fun _ _ _ h reset status => same_of_exec (p := .latched) h (contains_latched reset status)

/-- Settles O9: each output's part stands in the frame of every other command. -/
theorem outputsChangeOnlyByTheirEvents : Obligations.OutputsChangeOnlyByTheirEvents :=
  fun _ _ _ h reset =>
    ⟨fun ms frame => same_of_exec (p := .time) h (contains_time reset ms frame),
     fun ms => same_of_exec (p := .duty) h (contains_duty reset ms),
     fun audio => same_of_exec (p := .audio) h (contains_audio reset audio),
     fun dark light set start => same_of_exec (p := .mode) h (contains_mode reset dark light set start)⟩

/-! ### What an ask comes to -/

/-- The ask is not the next, or is answered at once, or is of good form and acts. -/
theorem ask_cases {α : Type} (s : State) (k : AskKind) (form : List Byte → Option α) (act : α → State → State) :
    s.ask k form act = s ∨ (∃ code, s.ask k form act = s.answer code []) ∨
      ∃ params x, Taken s k params ∧ form params = some x ∧ s.ask k form act = act x s := by
  unfold State.ask State.onAsk
  split
  · next a next =>
    split
    · next kind =>
      unfold whenReady
      split
      · next ready =>
        unfold withParams
        split
        · exact .inr (.inl ⟨_, rfl⟩)
        · next x form => exact .inr (.inr ⟨_, x, ⟨ready, a, next, of_decide_eq_true kind, rfl⟩, form, rfl⟩)
      · exact .inr (.inl ⟨_, rfl⟩)
    · exact .inl rfl
  · exact .inl rfl

/-- A write is not the next ask, or is answered at once, or is accepted. -/
theorem write_cases {α : Type} (s : State) (id : TableId) (w : Writer α) :
    s.write id w = s ∨ (∃ code, s.write id w = s.answer code []) ∨
      ∃ i l, Writes s id w.codec i l ∧ s.write id w = settle (w.put i l s).done := by
  unfold State.write State.onAsk
  split
  · next a next =>
    split
    · next kind =>
      unfold whenReady
      split
      · next ready =>
        unfold withParams
        split
        · exact .inr (.inl ⟨_, rfl⟩)
        · next p form =>
          dsimp only
          split
          · exact .inr (.inl ⟨_, rfl⟩)
          · split
            · exact .inr (.inl ⟨_, rfl⟩)
            · unfold unlessStoring
              split
              · exact .inr (.inl ⟨_, rfl⟩)
              · next idle =>
                obtain ⟨kind, table⟩ := Bool.and_eq_true_iff.mp kind
                exact .inr (.inr ⟨p.1, p.2, ⟨Bool.eq_false_iff.mpr idle, a.params,
                  ⟨ready, a, next, of_decide_eq_true kind, rfl⟩, of_decide_eq_true table, form⟩, rfl⟩)
      · exact .inr (.inl ⟨_, rfl⟩)
    · exact .inl rfl
  · exact .inl rfl

/-! ### The working tables while a STORE is in flight -/

theorem write_tables_of_storing {α : Type} {s : State} (h : s.storing = true) (id : TableId) (w : Writer α) :
    (s.write id w).tables = s.tables := by
  obtain e | ⟨code, e⟩ | ⟨i, l, ⟨idle, _⟩, _⟩ := write_cases s id w
  · rw [e]
  · rw [e, State.answer_tables]
  · exact absurd h (Bool.eq_false_iff.mp idle)

theorem ask_tables_of_storing {α : Type} {s : State} (h : s.storing = true) (k : AskKind) (form : List Byte → Option α)
    (act : α → State → State) : (s.ask k form (fun x => unlessStoring (act x))).tables = s.tables := by
  obtain e | ⟨code, e⟩ | ⟨params, x, _, _, e⟩ := ask_cases s k form (fun x => unlessStoring (act x))
  · rw [e]
  · rw [e, State.answer_tables]
  · rw [e, unlessStoring, if_pos h, State.answer_tables]

theorem setProtect_tables_of_storing {s : State} (h : s.storing = true) (key : Bool) :
    (s.ask .setProtect protectParam (fun r s => setProtectAsk r (s.withKey key))).tables = s.tables := by
  obtain e | ⟨code, e⟩ | ⟨params, x, _, _, e⟩ := ask_cases s .setProtect protectParam
    (fun r s => setProtectAsk r (s.withKey key))
  · rw [e]
  · rw [e, State.answer_tables]
  · rw [e, setProtectAsk]
    split
    · rfl
    · rw [unlessStoring, if_pos (show (s.withKey key).storing = true from h)]
      rfl

theorem tables_of_storing {c : Instr} {s t : State} (h : exec c s = .next t) (ask : isTableAsk c = true)
    (storing : s.storing = true) : t.tables = s.tables := by
  have eq {u : State} (e : exec c s = .next u) (same : u.tables = s.tables) : t.tables = s.tables := by
    obtain rfl := Host.Outcome.next.inj (h.symm.trans e)
    exact same
  cases c
  case setBank => exact eq rfl (ask_tables_of_storing storing _ _ _)
  case setNumber => exact eq rfl (ask_tables_of_storing storing _ _ _)
  case paletteStream => exact eq rfl (ask_tables_of_storing storing _ _ _)
  case setProtect key => exact eq rfl (setProtect_tables_of_storing storing key)
  all_goals first | exact Bool.noConfusion ask | exact eq rfl (write_tables_of_storing storing _ _)

/-- Settles O7: the frame of the other commands, and for table asks that a STORE in flight makes each of them BUSY. -/
theorem tablesChangeOnlyByTableAsks : Obligations.TablesChangeOnlyByTableAsks := by
  refine fun c s t h reset => ⟨fun start only => ?_,
    fun stream => same_of_exec (p := .staging) h (contains_staging reset stream),
    fun fill => same_of_exec (p := .buffer) h (contains_buffer reset fill)⟩
  by_cases ask : isTableAsk c = true
  · exact tables_of_storing h ask (only.resolve_left (by simp [ask]))
  · exact same_of_exec (p := .tables) h (contains_tables reset (Bool.eq_false_iff.mpr ask) start)

/-! ### The flash -/

theorem eachOf_append {ι β : Type} (l m : List ι) (f : ι → β → β) (b : β) :
    eachOf (l ++ m) f b = eachOf m f (eachOf l f b) := List.foldl_append ..

/-- The turns of a millisecond event, before and after the one turn of a block. -/
theorem turns_split (inp : MsInputs) (x : Block) : ∃ before after, turns inp = before ++ x :: after ∧
    (∀ y ∈ before, y ≠ x) ∧ ∀ y ∈ after, y ≠ x := by
  obtain ⟨before, after, e⟩ := List.append_of_mem (mem_turns inp x)
  have once := nodup_turns inp
  rw [e, List.nodup_append] at once
  obtain ⟨-, once, apart⟩ := once
  refine ⟨before, after, e, fun y hy => apart y hy x (List.mem_cons_self ..), fun y hy eq => ?_⟩
  exact (List.nodup_cons.mp once).1 (eq ▸ hy)

/-- Turns that are not the store port's leave the flash and the store port. -/
theorem eachOf_turns_store (inp : MsInputs) : ∀ (l : List Block) (s : State), (∀ x ∈ l, x ≠ .store) →
    (eachOf l (blockTurn inp) s).flash = s.flash ∧ (eachOf l (blockTurn inp) s).port = s.port
  | [], _, _ => ⟨rfl, rfl⟩
  | x :: l, s, h => by
    obtain ⟨flash, port⟩ := eachOf_turns_store inp l (blockTurn inp x s) fun y hy => h y (List.mem_cons_of_mem x hy)
    have other : x ≠ .store := h x (List.mem_cons_self ..)
    have kept : (blockTurn inp x s).flash = s.flash := by
      refine keeps_blockTurn inp x s .flash ?_
      cases x
      case store => exact absurd rfl other
      all_goals decide
    rw [eachOf_cons, flash, port]
    exact ⟨kept, blockTurn_port inp x s other⟩

theorem read_millisecond (inp : MsInputs) {s : State} {a : Nat} (wf : s.flash.wf = true) (out : ¬ s.port.atStep a) :
    (eachOf (turns inp) (blockTurn inp) s).flash.read a = s.flash.read a := by
  obtain ⟨before, after, e, others, others'⟩ := turns_split inp .store
  obtain ⟨flash, port⟩ := eachOf_turns_store inp before s others
  rw [e, eachOf_append, eachOf_cons, (eachOf_turns_store inp after _ others').1]
  refine (read_portMillisecond _ a (by rwa [flash]) (by rwa [port])).trans ?_
  rw [flash]

theorem read_cutStep {s : State} {a : Nat} (wf : s.flash.wf = true) (out : ¬ s.port.atStep a) :
    (cutStep s).read a = s.flash.read a := by
  unfold cutStep
  split
  · next o op =>
    split
    · rfl
    · next st rest steps _ => exact FlashStep.read_spoil st _ _ a wf (misses_of_not_atStep out op steps)
    · rfl
  · rfl

theorem read_stepReady (failed : Bool) {s : State} {a : Nat} (wf : s.flash.wf = true) (port : s.port.inv = true)
    (out : ¬ s.port.atStep a) : (stepReady failed s).flash.read a = s.flash.read a := by
  unfold stepReady
  split_ifs
  · exact read_abandon s a wf out
  · exact read_completeStep s a wf port out
  · rfl

theorem read_stepLimit {s : State} {a : Nat} (wf : s.flash.wf = true) (out : ¬ s.port.atStep a) :
    (stepLimit s).flash.read a = s.flash.read a := by
  unfold stepLimit
  split
  · split_ifs
    · exact read_abandon s a wf out
    · rfl
  · rfl

theorem restartNow_flash (s : State) : (restartNow s).flash = s.flash ∧ (restartNow s).storeCut = s.storeCut :=
  ⟨keeps_restartNow s .flash (by decide), keeps_restartNow s .image (by decide)⟩

/-- Only a STORE whose last step ends complete makes the image complete. -/
theorem stepReady_storeCut {failed : Bool} {s : State} (cut : s.storeCut = true)
    (whole : (stepReady failed s).storeCut = false) : failed = false ∧ s.storing = true := by
  rw [← Bool.not_eq_true] at whole
  unfold stepReady at whole
  split_ifs at whole with working failed'
  · exact absurd (abandon_storeCut s cut) whole
  · refine ⟨Bool.eq_false_iff.mpr failed', by_contra fun idle => whole ?_⟩
    unfold completeStep
    split
    · exact cut
    · split
      · exact cut
      · dsimp only
        split
        · exact (endOp_storeCut _ _).trans ((if_neg idle).trans cut)
        · exact cut
  · exact absurd cut whole

theorem stepLimit_storeCut {s : State} (cut : s.storeCut = true) : (stepLimit s).storeCut = true := by
  unfold stepLimit
  split
  · split_ifs
    · exact abandon_storeCut s cut
    · exact cut
  · exact cut

/-- Settles O6: the frame of the commands that do no flash work, and what each of the four that do changes. -/
theorem flashChangesOnlyAtTheStep : Obligations.FlashChangesOnlyAtTheStep := by
  intro c s t h
  by_cases work : isFlashWork c = false
  · have same : t.flash = s.flash := by
      by_cases restart : c = .restartTakesEffect
      · subst restart
        obtain rfl := Host.Outcome.next.inj h
        exact (restartNow_flash s).1
      · exact same_of_exec (p := .flash) h (contains_flash work restart)
    have cut : t.storeCut = s.storeCut := same_of_exec (p := .image) h (contains_image work)
    exact ⟨fun _ => ⟨same, cut⟩, fun yes no => absurd (cut.symm.trans no) (by simp [yes]), fun _ a _ => by rw [same]⟩
  · refine ⟨fun no => absurd no work, ?_⟩
    have parts (inv : NodeInv s = true) : s.flash.wf = true ∧ s.port.inv = true := by
      simp only [NodeInv, Bool.and_eq_true] at inv
      obtain ⟨⟨⟨⟨⟨wf, -⟩, -⟩, port⟩, -⟩, -⟩ := inv
      exact ⟨wf, port⟩
    cases c
    case powerOnReset =>
      obtain rfl := Host.Outcome.next.inj h
      exact ⟨fun yes no => by simp [powerOnReset, yes] at no, fun inv a out => read_cutStep (parts inv).1 out⟩
    case flashStepReady failed =>
      obtain rfl := Host.Outcome.next.inj h
      refine ⟨fun yes no => ?_, fun inv a out => read_stepReady failed (parts inv).1 (parts inv).2 out⟩
      obtain ⟨rfl, storing⟩ := stepReady_storeCut yes no
      exact ⟨rfl, storing⟩
    case stepLimitExceeded =>
      obtain rfl := Host.Outcome.next.inj h
      exact ⟨fun yes no => absurd (stepLimit_storeCut yes) (Bool.eq_false_iff.mp no),
        fun inv a out => read_stepLimit (parts inv).1 out⟩
    case millisecondEvent inp =>
      obtain rfl := Host.Outcome.next.inj h
      refine ⟨fun yes no => ?_, fun inv a out => read_millisecond inp (parts inv).1 out⟩
      exact absurd (eachOf_keeps (blockTurn_storeCut inp) (turns inp) s yes) (Bool.eq_false_iff.mp no)
    all_goals exact absurd rfl work

end Sys2Proof.Machine
end

section
/-! PROOFS. Every step keeps the invariant of the node (O4): one lemma per part of it, each over all commands; the ledger of
the claim unit stands in the frame of every command already. -/

namespace Sys2Proof.Machine

theorem nodeInv_iff (s : State) : NodeInv s = true ↔
    s.flash.wf = true ∧ s.tables.fits = true ∧ Bounded s ∧ s.staging.staged.length ≤ 3 ∧ s.bay.inv = true := by
  simp only [NodeInv, Bounded, Bool.and_eq_true, decide_eq_true_eq]
  tauto

/-! ### The flash -/

theorem exec_flash_wf {c : Instr} {s t : State} (h : exec c s = .next t) (wf : s.flash.wf = true) :
    t.flash.wf = true := by
  by_cases work : isFlashWork c = false
  · by_cases restart : c = .restartTakesEffect
    · subst restart
      obtain rfl := Host.Outcome.next.inj h
      rwa [(restartNow_flash s).1]
    · have same : t.flash = s.flash := same_of_exec (p := .flash) h (contains_flash work restart)
      rwa [same]
  · cases c
    case powerOnReset =>
      obtain rfl := Host.Outcome.next.inj h
      exact wf_cutStep s wf
    case flashStepReady failed =>
      obtain rfl := Host.Outcome.next.inj h
      exact wf_stepReady failed s wf
    case stepLimitExceeded =>
      obtain rfl := Host.Outcome.next.inj h
      exact wf_stepLimit s wf
    case millisecondEvent inp =>
      obtain rfl := Host.Outcome.next.inj h
      exact eachOf_keeps (P := fun s : State => s.flash.wf = true) (wf_blockTurn inp) (turns inp) s wf
    all_goals exact absurd rfl work

/-! ### The staging record (R21) -/

theorem streamByte_staged (p : Staging × Tab Colour 256) (x : Byte) (h : p.1.staged.length ≤ 3) :
    (streamByte p x).1.staged.length ≤ 3 := by
  unfold streamByte
  split
  · exact Nat.zero_le _
  · next staged part =>
    rw [List.length_append, List.length_singleton]
    refine Nat.succ_le_of_lt (lt_of_le_of_ne h fun whole => ?_)
    obtain ⟨r, g, b, e⟩ := List.length_eq_three.mp whole
    exact part r g b e

theorem foldl_streamByte_staged : ∀ (l : List Byte) (p : Staging × Tab Colour 256), p.1.staged.length ≤ 3 →
    (l.foldl streamByte p).1.staged.length ≤ 3
  | [], _, h => h
  | x :: l, p, h => foldl_streamByte_staged l _ (streamByte_staged p x h)

theorem streamPalette_staged (continues : Bool) (start : Byte) (bytes : List Byte) {s : State}
    (h : s.staging.staged.length ≤ 3) : (streamPalette continues start bytes s).staging.staged.length ≤ 3 := by
  refine foldl_streamByte_staged bytes _ ?_
  cases continues
  · exact Nat.zero_le _
  · exact h

theorem exec_staged {c : Instr} {s t : State} (h : exec c s = .next t) (few : s.staging.staged.length ≤ 3) :
    t.staging.staged.length ≤ 3 := by
  by_cases reset : isReset c = false
  · by_cases stream : c = .paletteStream
    · subst stream
      obtain rfl := Host.Outcome.next.inj h
      obtain e | ⟨code, e⟩ | ⟨params, p, -, -, e⟩ := ask_cases s .paletteStream streamParams
        (fun p => unlessStoring (fun s => (streamPalette p.1 p.2.1 p.2.2 s).done))
      · rwa [e]
      · rwa [e, State.answer_staging]
      · rw [e, unlessStoring]
        split
        · rwa [State.answer_staging]
        · rw [State.done_staging]
          exact streamPalette_staged _ _ _ few
    · have same : t.staging = s.staging := same_of_exec (p := .staging) h (contains_staging reset stream)
      rwa [same]
  · cases c
    case powerOnReset =>
      obtain rfl := Host.Outcome.next.inj h
      exact Nat.zero_le _
    case restartTakesEffect =>
      obtain rfl := Host.Outcome.next.inj h
      unfold restartNow
      split
      · exact Nat.zero_le _
      · exact few
    all_goals exact absurd rfl reset

/-! ### The working tables -/

theorem Tables.fits_iff (t : Tables) : t.fits = true ↔
    t.axis.list.all AxisCfg.fits = true ∧ t.clip.list.all Clip.fits = true ∧ t.scene.list.all Header.fits = true ∧
      t.remote.list.all (fun e => e.all Remote.fits) = true ∧ t.cue.list.all (fun e => e.all CueMap.fits) = true := by
  simp only [Tables.fits, Bool.and_eq_true]
  tauto

theorem write_fits {α : Type} {s : State} (id : TableId) (w : Writer α) (fits : s.tables.fits = true)
    (put : ∀ i l params, writeParams w.codec id params = some (i, l) → (w.put i l s).tables.fits = true) :
    (s.write id w).tables.fits = true := by
  obtain e | ⟨code, e⟩ | ⟨i, l, ⟨-, params, -, -, form⟩, e⟩ := write_cases s id w
  · rwa [e]
  · rwa [e, State.answer_tables]
  · rw [e, settle_tables, State.done_tables]
    exact put i l params form

theorem ask_fits {α : Type} {s : State} (k : AskKind) (form : List Byte → Option α) {act : α → State → State}
    (fits : s.tables.fits = true) (h : ∀ x, (act x s).tables.fits = true) : (s.ask k form act).tables.fits = true := by
  obtain e | ⟨code, e⟩ | ⟨params, x, -, -, e⟩ := ask_cases s k form act
  · rwa [e]
  · rwa [e, State.answer_tables]
  · rw [e]
    exact h x

theorem unlessStoring_fits {s : State} {act : State → State} (fits : s.tables.fits = true)
    (h : (act s).tables.fits = true) : (unlessStoring act s).tables.fits = true := by
  unfold unlessStoring
  split
  · rwa [State.answer_tables]
  · exact h

/-- An accepted table ask writes entries that its codec reads, which lie in range. -/
theorem exec_tableAsk_fits {c : Instr} {s t : State} (h : exec c s = .next t) (ask : isTableAsk c = true)
    (fits : s.tables.fits = true) : t.tables.fits = true := by
  have eq {u : State} (e : exec c s = .next u) (fits : u.tables.fits = true) : t.tables.fits = true := by
    obtain rfl := Host.Outcome.next.inj (h.symm.trans e)
    exact fits
  obtain ⟨axis, clip, scene, remote, cue⟩ := (Tables.fits_iff _).mp fits
  cases c
  case setBank => exact eq rfl (ask_fits _ _ fits fun _ => unlessStoring_fits fits fits)
  case setNumber => exact eq rfl (ask_fits _ _ fits fun _ => unlessStoring_fits fits fits)
  case paletteStream => exact eq rfl (ask_fits _ _ fits fun _ => unlessStoring_fits fits fits)
  case setProtect key =>
    refine eq rfl (ask_fits _ _ fits fun _ => ?_)
    unfold setProtectAsk
    split
    · exact fits
    · exact unlessStoring_fits fits fits
  case writeTableAxis =>
    refine eq rfl (write_fits _ _ fits fun i l params form => (Tables.fits_iff _).mpr ⟨?_, clip, scene, remote, cue⟩)
    exact putEntries_all l i _ (writeParams_reads axisC_reads _ _ _ _ form) axis
  case writeTableClip =>
    refine eq rfl (write_fits _ _ fits fun i l params form => (Tables.fits_iff _).mpr ⟨axis, ?_, scene, remote, cue⟩)
    exact putEntries_all l i _ (writeParams_reads clipC_reads _ _ _ _ form) clip
  case writeTableScene =>
    refine eq rfl (write_fits _ _ fits fun i l params form => (Tables.fits_iff _).mpr ⟨axis, clip, ?_, remote, cue⟩)
    exact putEntries_all l i _ (writeParams_reads sceneC_reads _ _ _ _ form) scene
  case writeTableRemote =>
    refine eq rfl (write_fits _ _ fits fun i l params form => (Tables.fits_iff _).mpr ⟨axis, clip, scene, ?_, cue⟩)
    exact putEntries_all l i _ (writeParams_reads remoteC_reads _ _ _ _ form) remote
  case writeTableCue =>
    refine eq rfl (write_fits _ _ fits fun i l params form => (Tables.fits_iff _).mpr ⟨axis, clip, scene, remote, ?_⟩)
    exact putEntries_all l i _ (writeParams_reads cueC_reads _ _ _ _ form) cue
  all_goals first | exact Bool.noConfusion ask | exact eq rfl (write_fits _ _ fits fun _ _ _ _ => fits)

theorem startUp_fits (home : BitVec 4) (pins : BitVec 12) {s : State} (fits : s.tables.fits = true) :
    (startUp home pins s).tables.fits = true := by
  unfold startUp
  split
  · next bytes _ =>
    show ((s.imageFound bytes).getD Tables.factory).fits = true
    unfold State.imageFound
    split
    · exact factory_fits
    · exact fits_imageTables _ _
  · exact fits

theorem restartNow_fits {s : State} (fits : s.tables.fits = true) : (restartNow s).tables.fits = true := by
  unfold restartNow
  split
  · exact factory_fits
  · exact fits

theorem exec_fits {c : Instr} {s t : State} (h : exec c s = .next t) (fits : s.tables.fits = true) :
    t.tables.fits = true := by
  by_cases ask : isTableAsk c = true
  · exact exec_tableAsk_fits h ask fits
  · cases c
    case powerOnReset =>
      obtain rfl := Host.Outcome.next.inj h
      exact factory_fits
    case restartTakesEffect =>
      obtain rfl := Host.Outcome.next.inj h
      exact restartNow_fits fits
    case startUp home pins =>
      obtain rfl := Host.Outcome.next.inj h
      exact startUp_fits home pins fits
    all_goals
      first
        | exact absurd rfl ask
        | exact (congrArg Tables.fits (same_of_exec (p := .tables) h rfl : t.tables = s.tables)).trans fits

/-! ### The line unit and the store port -/

theorem Bounded.ite {p : Prop} [Decidable p] {x y : State} (hx : Bounded x) (hy : Bounded y) :
    Bounded (if p then x else y) := by
  split
  · exact hx
  · exact hy

theorem bounded_fireSchedule {s : State} (h : Bounded s) : Bounded (fireSchedule s) := bounded_settle (bounded_onBay _ h)

theorem bounded_readTriggers (levels : BitVec 12) {s : State} (h : Bounded s) : Bounded (readTriggers levels s) :=
  .ite (bounded_onBay _ (eachOf_keeps (fun _ _ h => bounded_settle (bounded_onBay _ h)) _ s h)) h

theorem bounded_triggerTurn (inp : MsInputs) {s : State} (h : Bounded s) : Bounded (triggerTurn inp s) :=
  .ite (bounded_onBay _ (bounded_readTriggers _ (bounded_fireSchedule h)))
    (bounded_readTriggers _ (bounded_onBay _ (bounded_fireSchedule h)))

theorem bounded_blockTurn (inp : MsInputs) (x : Block) (s : State) (h : Bounded s) : Bounded (blockTurn inp x s) := by
  cases x with
  | time => exact h
  | fixture => exact bounded_onBay _ h
  | axis => exact bounded_settle (bounded_onBay _ (Bounded.of_same h rfl rfl))
  | scene => exact bounded_settle (bounded_onBay _ h)
  | claim => exact bounded_settle (bounded_onBay _ h)
  | trigger => exact bounded_triggerTurn inp h
  | line => exact bounded_lineMillisecond h
  | store => exact bounded_portMillisecond h

theorem bounded_forward (f : Frame) {s : State} (h : Bounded s) (room : s.line.tx.length < 4) : Bounded (forward f s) :=
  bounded_enter _ h room

theorem bounded_adoptTime (u : ShowTime) (first : Bool) {s : State} (h : Bounded s) : Bounded (adoptTime u first s) :=
  .ite h (.ite (bounded_fireSchedule h) (bounded_fireSchedule h))

theorem bounded_startUp (home : BitVec 4) (pins : BitVec 12) {s : State} (h : Bounded s) :
    Bounded (startUp home pins s) := by
  unfold startUp
  split
  · next bytes _ =>
    have marked (invalid : Bool) : Bounded (markImage invalid s) := by
      cases invalid
      · exact h
      · exact h
    exact marked _
  · exact h

/-- An ask that changes the tables, where no STORE is in flight. -/
theorem bounded_change {act : State → State} (same : ∀ s, (act s).line = s.line ∧ (act s).port = s.port) {s : State} :
    Bounded s → Bounded (unlessStoring (fun s => (act s).done) s) :=
  bounded_unlessStoring (fun s h => bounded_done (Bounded.of_same h (same s).1 (same s).2)) s

theorem bounded_handed {s : State} {r : ReadReq} (h : Bounded s) : Bounded (readClipAsk r s) :=
  .ite (bounded_answer _ _ h) ⟨h.1, StorePort.inv_of_same h.2 rfl rfl⟩

theorem bounded_restartAsk {s : State} (h : Bounded s) : Bounded (restartAsk s) :=
  .ite ⟨LineUnit.inv_completeFirst _ _ _ h.1, StorePort.inv_of_same h.2 rfl rfl⟩ (bounded_done h)

theorem bounded_homeAxisAsk (home : Bool) (a : Fin 4) {s : State} (h : Bounded s) : Bounded (homeAxisAsk home a s) := by
  unfold homeAxisAsk
  split
  · exact bounded_answer _ _ h
  · split
    · exact bounded_answer _ _ h
    · exact bounded_done h
    all_goals exact bounded_settle (bounded_done (bounded_onBay _ h))

theorem bounded_rejectAsk (f : Frame) {s : State} (h : Bounded s) (room : s.line.tx.length < 4) :
    Bounded (rejectAsk f s) := bounded_enter _ (Bounded.of_same h rfl rfl) room

theorem bounded_setNumberAsk (f : Frame) {s : State} (h : Bounded s) (room : s.line.tx.length < 4) :
    Bounded (setNumberAsk f s) := .ite (bounded_enter _ h room) (bounded_enter _ h room)

/-- A frame that comes with a request: forwarded, the bay acts, and the request is taken. -/
theorem bounded_cue (c : RxChar) (t : Treatment) (act : Frame → Tables → Bay → Bay) {s : State} (h : Bounded s) :
    Bounded (s.onFrame c t (fun _ f s => settle ((forward f s).onBay (act f)))) :=
  bounded_onFrame c t h fun _ f _ h room => bounded_settle (bounded_onBay _ (bounded_forward f h room))

theorem exec_bounded {c : Instr} {s t : State} (e : exec c s = .next t) (h : Bounded s) : Bounded t := by
  have eq {u : State} (e' : exec c s = .next u) (h : Bounded u) : Bounded t := by
    obtain rfl := Host.Outcome.next.inj (e.symm.trans e')
    exact h
  cases c
  case powerOnReset => exact eq rfl ⟨(by decide : LineUnit.reset.inv = true), (by decide : StorePort.reset.inv = true)⟩
  case flashReady => exact eq rfl (by unfold flashReady; split; exacts [bounded_beginImageReads h, h])
  case flashReadyTimeout => exact eq rfl (bounded_readyTimeout h)
  case startUp home pins => exact eq rfl (bounded_startUp home pins h)
  case restartTakesEffect => exact eq rfl (bounded_restartNow h)
  case millisecondEvent inp => exact eq rfl (eachOf_keeps (bounded_blockTurn inp) _ s h)
  case scheduleFire => exact eq rfl (bounded_fireSchedule h)
  case lineLost => exact eq rfl (bounded_lineLost h)
  case frameCutOff => exact eq rfl (bounded_cutOff h)
  case triggerPress n late =>
    by_cases press : (s.ready && pressed (pressPin n s.tables s.bay) s.tables s.bay n) = true
    · exact eq (if_pos press) (.ite (bounded_onBay _ h) (bounded_settle (bounded_onBay _ h)))
    · exact eq (if_neg press) h
  case proximityActive p =>
    change execProximityActive p s = .next t at e
    unfold execProximityActive at e
    split_ifs at e <;> obtain rfl := Host.Outcome.next.inj e
    exacts [h, bounded_settle (bounded_onBay _ h), h]
  case proximityInactive p =>
    change execProximityInactive p s = .next t at e
    unfold execProximityInactive at e
    split_ifs at e <;> obtain rfl := Host.Outcome.next.inj e
    exacts [h, bounded_settle (bounded_onBay _ h), h]
  case refillReadStart => exact eq rfl (bounded_beginRefill h)
  case refillComplete => exact eq rfl (bounded_endRefill h)
  case managementReadStart => exact eq rfl (bounded_beginManagementRead h)
  case managementReadDone => exact eq rfl (bounded_endManagementRead h)
  case operationStepStart => exact eq rfl (bounded_beginStep h)
  case flashStepReady failed => exact eq rfl (bounded_stepReady failed h)
  case stepLimitExceeded => exact eq rfl (bounded_stepLimit h)
  case flashSuspend => exact eq rfl (bounded_suspendOp h)
  case flashSuspended => exact eq rfl (bounded_opSuspended h)
  case flashResume => exact eq rfl (bounded_resumeOp h)
  case goodHeader c =>
    by_cases good : s.rxEvent c = .goodHeader
    · exact eq (if_pos good) (bounded_headerHeard (bounded_rxTake c h))
    · exact eq (if_neg good) h
  case headerError c =>
    by_cases bad : s.rxEvent c = .headerError
    · exact eq (if_pos bad) (bounded_rxTake c h)
    · exact eq (if_neg bad) h
  case characterReceived c =>
    by_cases quiet : s.rxEvent c = .quiet
    · exact eq (if_pos quiet) (bounded_rxTake c h)
    · exact eq (if_neg quiet) h
  case timeFrame c first =>
    exact eq rfl (bounded_onFrame c _ h fun _ f _ h room => bounded_adoptTime _ _ (bounded_forward f h room))
  case levelFrame c =>
    exact eq rfl (bounded_onFrame c _ h fun _ f _ h room => bounded_onBay _ (bounded_forward f h room))
  case cueGo c => exact eq rfl (bounded_cue c .go _ h)
  case cueHaltAll c => exact eq rfl (bounded_cue c .haltAll (fun _ => haltAll) h)
  case cueHouseDark c => exact eq rfl (bounded_cue c .houseDark (fun _ => enterDark) h)
  case cueHouseShow c => exact eq rfl (bounded_cue c .houseShow (fun _ => enterShow) h)
  case noticeFrame c => exact eq rfl (bounded_cue c .notice _ h)
  case noticeStrip c =>
    refine eq rfl (bounded_onFrame c _ h fun own f u h room => ?_)
    by_cases bad : badFrame s c = true
    · rw [if_pos bad]
      exact bounded_fillOr own _ (Bounded.of_same h rfl rfl) room
    · rw [if_neg bad]
      exact bounded_fillOr own _ h room
  case emptyFill c => exact eq rfl (bounded_onFrame c _ h fun own f _ h room => bounded_fillOr own f h room)
  case askFrame c => exact eq rfl (bounded_onFrame c _ h fun _ f _ h room => bounded_enter _ h room)
  case setNumberBySerial c => exact eq rfl (bounded_onFrame c _ h fun _ f _ h room => bounded_setNumberAsk f h room)
  case askRejectedCheck c => exact eq rfl (bounded_onFrame c _ h fun _ f _ h room => bounded_rejectAsk f h room)
  case badBodyFrame c => exact eq rfl (bounded_onFrame c _ h fun _ f _ h room => bounded_enter _ h room)
  case frameForward c => exact eq rfl (bounded_onFrame c _ h fun _ f _ h room => bounded_forward f h room)
  case transmitStart => exact eq rfl (bounded_startSending h)
  case transmitDone => exact eq rfl (bounded_doneSending h)
  case status key =>
    exact eq rfl (bounded_onAsk s _ h fun _ _ h => .ite (bounded_answer _ _ h) (bounded_answer _ _ h))
  case readTable =>
    exact eq rfl (bounded_onAsk s _ h (bounded_whenReady (bounded_withParams _ fun _ _ h => bounded_answer _ _ h)))
  case readTableVoice =>
    exact eq rfl (bounded_onAsk s _ h (bounded_whenReady (bounded_withParams _ fun _ _ h =>
      bounded_onBay _ (bounded_answer _ _ h))))
  case writeTable => exact eq rfl (bounded_onAsk s _ h (bounded_whenReady fun _ _ h => bounded_answer _ _ h))
  case unknownAsk => exact eq rfl (bounded_onAsk s _ h (bounded_whenReady fun _ _ h => bounded_answer _ _ h))
  case paletteStream => exact eq rfl (bounded_ask s _ _ h fun _ _ => bounded_change (by exact fun _ => ⟨rfl, rfl⟩))
  case setBank => exact eq rfl (bounded_ask s _ _ h fun _ _ => bounded_change (by exact fun _ => ⟨rfl, rfl⟩))
  case setNumber => exact eq rfl (bounded_ask s _ _ h fun _ _ => bounded_change (by exact fun _ => ⟨rfl, rfl⟩))
  case setProtect key =>
    exact eq rfl (bounded_ask s _ _ h fun _ _ h =>
      .ite (bounded_answer _ _ h) (bounded_change (by exact fun _ => ⟨rfl, rfl⟩) h))
  case freeze key => exact eq rfl (bounded_ask s _ _ h fun _ _ h => .ite (bounded_answer _ _ h) (bounded_done h))
  case startScene => exact eq rfl (bounded_ask s _ _ h fun _ _ h => bounded_settle (bounded_onBay _ h))
  case stopScene => exact eq rfl (bounded_ask s _ _ h fun _ _ h => bounded_settle (bounded_answer _ _ (bounded_onBay _ h)))
  case armTrigger => exact eq rfl (bounded_ask s _ _ h fun _ _ h => bounded_done (bounded_onBay _ h))
  case disarmTrigger => exact eq rfl (bounded_ask s _ _ h fun _ _ h => bounded_done (bounded_onBay _ h))
  case clearFault => exact eq rfl (bounded_ask s _ _ h fun _ _ h => bounded_done (bounded_onBay _ h))
  case homeAxis home => exact eq rfl (bounded_ask s _ _ h fun a _ h => bounded_homeAxisAsk home a h)
  case setMode => exact eq rfl (bounded_ask s _ _ h fun _ _ h => bounded_settle (bounded_done (bounded_onBay _ h)))
  case store =>
    exact eq rfl (bounded_ask s _ _ h fun _ _ => bounded_unlessRestarting (fun _ h => bounded_handOperation _ h) _)
  case restart => exact eq rfl (bounded_ask s _ _ h fun _ _ h => bounded_restartAsk h)
  case eraseSectors => exact eq rfl (bounded_ask s _ _ h fun _ _ h => bounded_clipOperation _ h)
  case pageProgram => exact eq rfl (bounded_ask s _ _ h fun _ _ h => bounded_clipOperation _ h)
  case pageFill =>
    exact eq rfl (bounded_ask s _ _ h fun _ _ h => bounded_done ⟨h.1, StorePort.inv_of_same h.2 rfl rfl⟩)
  case readClip => exact eq rfl (bounded_ask s _ _ h fun _ _ => bounded_unlessRestarting (fun _ h => bounded_handed h) _)
  case requestExpiry => exact eq rfl (bounded_onBay _ h)
  case lockoutExpiry n => exact eq rfl (bounded_onBay _ h)
  case indicatorFlash n => exact eq rfl (bounded_onBay _ h)
  case audioSampleEvent => exact eq rfl (bounded_onBay _ h)
  case quadratureChange a x y => exact eq rfl (bounded_onBay _ (Bounded.of_same h rfl rfl))
  case gateTimeout k => exact eq rfl (bounded_settle (bounded_onBay _ h))
  case holdTimeout k => exact eq rfl (bounded_settle (bounded_onBay _ h))
  case resumeGuardExpiry k => exact eq rfl (bounded_settle (bounded_onBay _ h))
  case clearDelayExpiry p => exact eq rfl (bounded_settle (bounded_onBay _ h))
  all_goals exact eq rfl (bounded_write s _ _ h fun _ _ _ => ⟨rfl, rfl⟩)

/-! ### The whole invariant -/

theorem exec_nodeInv {c : Instr} {s t : State} (h : exec c s = .next t) (inv : NodeInv s = true) : NodeInv t = true := by
  obtain ⟨wf, fits, bounded, staged, bay⟩ := (nodeInv_iff s).mp inv
  exact (nodeInv_iff t).mpr ⟨exec_flash_wf h wf, exec_fits h fits, exec_bounded h bounded, exec_staged h staged,
    same_of_exec (p := .ledger) h (contains_ledger c) bay⟩

/-- Settles O3: every part of the invariant at the state after reset. -/
theorem invHoldsAtReset : Obligations.InvHoldsAtReset :=
  (nodeInv_iff _).mpr ⟨rfl, factory_fits, ⟨by decide, by decide⟩, Nat.zero_le _, reset_inv⟩

/-- Settles O4: a step is the front command on a state that differs in the queue alone, of which the invariant says
nothing. -/
theorem invKeptByEveryStep : Obligations.InvKeptByEveryStep := by
  intro s t inv h
  match e : s.pending with
  | [] =>
    rw [step_of_idle e] at h
    exact Host.Outcome.next.inj h ▸ inv
  | c :: rest =>
    rw [step_of_pending e] at h
    exact exec_nodeInv h inv

end Sys2Proof.Machine
end

section
/-! PROOFS. The store port: suspension, reads, steps of the flash, abandonment and acceptance (O29 to O34). -/

namespace Sys2Proof.Machine

/-! ### The voices that the port serves -/

theorem anyWants_eq_false {b : Bay} : anyWants b = false ↔ ∀ v, (b.voiceRec v).wants = false := by
  simp [anyWants]

theorem anyUrgent_iff {b : Bay} :
    anyUrgent b = true ↔ ∃ v, (b.voiceRec v).wants = true ∧ (b.voiceRec v).fifo.length < 128 := by
  simp [anyUrgent, Voice.urgent]

theorem anyUrgent_eq_false {b : Bay} :
    anyUrgent b = false ↔ ∀ v, (b.voiceRec v).wants = true → 128 ≤ (b.voiceRec v).fifo.length := by
  simp [anyUrgent, Voice.urgent]

/-! ### The operation in flight -/

theorem StorePort.phase_of_op {p : StorePort} {o : Operation} (h : p.op = some o) : p.phase = some o.phase := by
  rw [StorePort.phase, h]
  rfl

theorem StorePort.ranEnough_of_op {p : StorePort} {o : Operation} (h : p.op = some o) :
    p.ranEnough = decide (2 ≤ o.runCount) := by
  rw [StorePort.ranEnough, h]
  rfl

theorem State.storing_of_op {s : State} {o : Operation} (h : s.port.op = some o) :
    s.storing = decide (o.kind = .store) := by
  simp [State.storing, h]

theorem StorePort.working_of_op {p : StorePort} {o : Operation} (h : p.op = some o)
    (w : o.phase = .working ∨ o.phase = .suspending) : p.working = true := by
  rcases w with w | w <;> simp [StorePort.working, StorePort.phase_of_op h, w]

theorem State.updOp_of_op {s : State} {o : Operation} (h : s.port.op = some o) (f : Operation → Operation) :
    s.updOp f = { s with port := { s.port with op := some (f o) } } := by
  simp [State.updOp, State.setPort, h]

/-! ### Suspension -/

/-- Settles O32: each command's condition, read off the operation record and the voices. -/
theorem stepIsSuspendedForUrgentVoices : Obligations.StepIsSuspendedForUrgentVoices := by
  intro s o h
  refine ⟨fun working ran urgent => ?_, fun working calm => ?_, fun suspending => ?_,
    fun suspended free waiting wants => ?_⟩
  · have urgent := anyUrgent_iff.mpr urgent
    show Host.Outcome.next (suspendOp s) = _
    simp [suspendOp, StorePort.phase_of_op h, StorePort.ranEnough_of_op h, working, urgent, ran, State.setPhase,
      State.updOp_of_op h]
  · show Host.Outcome.next (suspendOp s) = _
    have stays : (anyUrgent s.bay && s.port.ranEnough) = false := by
      rw [StorePort.ranEnough_of_op h]
      rcases calm with short | none
      · simp [short]
      · simp [anyUrgent_eq_false.mpr none]
    simp [suspendOp, Bool.and_assoc, stays]
  · show Host.Outcome.next (opSuspended s) = _
    simp [opSuspended, StorePort.phase_of_op h, suspending, State.setPhase, State.updOp_of_op h, State.setPort]
  · show Host.Outcome.next (resumeOp s) = _
    simp [resumeOp, StorePort.phase_of_op h, suspended, free, waiting, anyWants_eq_false.mpr wants,
      State.updOp_of_op h, State.setPort]

/-! ### Reads -/

theorem addresses_eq : ∀ n a, addresses a n = (List.range n).map (fun i => (a + i) % flashSize)
  | 0, _ => rfl
  | n + 1, a => by
    rw [addresses, addresses_eq n, List.range_succ_eq_map, List.map_cons, List.map_map, Nat.add_zero]
    congr 1
    refine List.map_congr_left fun i _ => ?_
    show (a % flashSize + 1 + i) % flashSize = (a + (i + 1)) % flashSize
    rw [Nat.add_assoc, Nat.add_comm 1 i, Nat.mod_add_mod]

/-- The bytes of a read, address by address. -/
theorem State.flashBytes_eq (s : State) (r : ReadReq) : s.flashBytes r =
    (List.range r.count).map (fun i =>
      if s.port.under ((r.address + i) % flashSize) then Config.flashByte s.draws ((r.address + i) % flashSize)
      else s.flash.read ((r.address + i) % flashSize)) := by
  rw [State.flashBytes, addresses_eq, List.map_map]
  rfl

theorem State.flashBytes_of_clear (s : State) (r : ReadReq) (clear : ∀ a, s.port.under a = false) :
    s.flashBytes r = (List.range r.count).map (fun i => s.flash.read ((r.address + i) % 16777216)) := by
  rw [State.flashBytes_eq]
  refine List.map_congr_left fun i _ => ?_
  rw [clear]
  rfl

theorem StorePort.under_of_idle {p : StorePort} (h : p.op = none) (a : Nat) : p.under a = false := by
  rw [StorePort.under, h]

theorem imageBytes_eq (old new : List Byte) (s : State) : imageBytes old new s =
    if (old ++ new).length < 81 * 256 then
      { s with
        port := { s.port with waiting := some ⟨imagePage ((old ++ new).length / 256) * 256, 256⟩ }
        mgmt := { s.mgmt with startUp := .reading (old ++ new) } }
    else { s with mgmt := { s.mgmt with startUp := .imageRead (old ++ new) } } := rfl

/-- Settles O29. -/
theorem managementReadsReturnTheBytes : Obligations.ManagementReadsReturnTheBytes := by
  refine ⟨fun s r free waits => ?_, fun s r link waits => ?_, fun s r old bytes link waits reading eq => ?_,
    fun s r idle => s.flashBytes_of_clear r (StorePort.under_of_idle idle)⟩
  · show Host.Outcome.next (beginManagementRead s) = _
    simp [beginManagementRead, free, waits, State.setPort]
  · show Host.Outcome.next (endManagementRead s) = _
    simp [endManagementRead, link, waits, State.setPort]
    rfl
  · show Host.Outcome.next (endManagementRead s) = _
    subst eq
    have ends : endManagementRead s = imageBytes old (s.flashBytes r) (s.setPort fun p => { p with link := .free }) := by
      simp [endManagementRead, link, reading]
    rw [ends, imageBytes_eq]
    rfl

/-! ### Steps of the flash -/

theorem FlashStep.read_spoil_eq (st : FlashStep) (n : Nat) {m : Memory} (a : Nat) (wf : m.wf = true) :
    (st.spoil n m).read a =
      if st.range.1 ≤ a ∧ a < st.range.1 + st.range.2 then Config.flashByte n a else m.read a := by
  rw [FlashStep.spoil, Memory.read_writeRun _ _ _ _ wf]
  by_cases low : st.range.1 ≤ a
  · by_cases high : a < st.range.1 + st.range.2
    · have inside : a - st.range.1 < st.range.2 := by omega
      have back : st.range.1 + (a - st.range.1) = a := by omega
      simp [low, high, inside, back]
    · have outside : ¬ a - st.range.1 < st.range.2 := by omega
      simp [low, high, outside]
  · simp [low]

theorem Memory.readRun_eq (m : Memory) : ∀ n a, m.readRun a n = (addresses a n).map m.read
  | 0, _ => rfl
  | n + 1, a => by rw [Memory.readRun, Memory.readRun_eq m n, addresses, List.map_cons]

/-- A page program inside the flash leaves each byte that it sends the old value AND the new one. -/
theorem Memory.read_programPage (m : Memory) (p a : Nat) (l : List Byte) (wf : m.wf = true) (page : p < 65536)
    (len : l.length ≤ 256) : (m.programPage p l).read a =
      if p * 256 ≤ a ∧ a < p * 256 + l.length then m.read a &&& l.getD (a - p * 256) 0xFF else m.read a := by
  rw [Memory.programPage, Memory.read_writeRun _ _ _ _ wf, Memory.readRun_eq, addresses_eq]
  by_cases low : p * 256 ≤ a
  · by_cases high : a < p * 256 + l.length
    · have inside : a - p * 256 < l.length := by omega
      have back : p * 256 + (a - p * 256) = a := by omega
      have flash : a % flashSize = a := Nat.mod_eq_of_lt (by unfold flashSize; omega)
      simp [low, high, inside, back, flash]
    · have outside : l.length ≤ a - p * 256 := by omega
      simp [low, high, outside]
  · simp [low]

theorem endOp_complete {s : State} {o : Operation} (h : s.port.op = some o) : endOp true s =
    { s with
      storeCut := if o.kind = .store then false else s.storeCut
      port := { s.port with link := .free, op := none, state := .idle }
      mgmt := { s.mgmt with imageInvalid := if o.kind = .store then false else s.mgmt.imageInvalid } } := by
  unfold endOp
  rw [State.storing_of_op h]
  by_cases store : o.kind = .store <;> simp [store, State.setPort]

theorem endOp_failed {s : State} {o : Operation} (h : s.port.op = some o) : endOp false s =
    { s with
      storeCut := if o.kind = .store then true else s.storeCut
      port := { s.port with link := .free, op := none, state := .failed }
      mgmt := { s.mgmt with imageInvalid := if o.kind = .store then true else s.mgmt.imageInvalid }
      bay := if o.kind = .store then s.bay.latch .imageInvalid else s.bay } := by
  unfold endOp
  rw [State.storing_of_op h]
  by_cases store : o.kind = .store <;> simp [store, State.setPort, State.latch]

theorem completeStep_of_op {s : State} {o : Operation} {st : FlashStep} {rest : List FlashStep}
    (h : s.port.op = some o) (steps : o.steps = st :: rest) : completeStep s =
      if rest = [] then endOp true { s with flash := st.apply o.sent s.flash }
      else { s with
        flash := st.apply o.sent s.flash
        port := { s.port with link := .free, op := some { o with steps := rest, phase := .gap } } } := by
  simp [completeStep, h, steps, State.setPort]

theorem abandon_of_op {s : State} {o : Operation} {st : FlashStep} {rest : List FlashStep}
    (h : s.port.op = some o) (steps : o.steps = st :: rest) : abandon s =
      endOp false ({ s with flash := st.spoil s.draws s.flash, draws := s.draws + 1 }.latch .storeFault) := by
  obtain ⟨kind, _, phase, stepCount, runCount, sent, crc⟩ := o
  obtain rfl := steps
  simp only [abandon, h]

/-- Settles O30. -/
theorem flashStepBeginsAndCompletes : Obligations.FlashStepBeginsAndCompletes := by
  refine ⟨fun s o st rest op gap steps free waiting wants => ?_, fun s o st rest inv op phase steps => ?_⟩
  · show Host.Outcome.next (beginStep s) = _
    simp only [beginStep, op, free, waiting, gap, steps, anyWants_eq_false.mpr wants, Bool.false_eq_true, if_false,
      State.setPort]
    cases st with
    | erase n => rfl
    | program p src => cases src <;> rfl
  · obtain ⟨wf, _, ⟨_, port⟩, _, _⟩ := (nodeInv_iff s).mp inv
    have sent : o.sent.length ≤ 256 := by
      simp only [StorePort.inv, op, Bool.and_eq_true, Option.all_some, decide_eq_true_eq] at port
      exact port.2
    have ready : stepReady false s = completeStep s := by
      simp [stepReady, StorePort.working_of_op op phase]
    have flash : (completeStep s).flash = st.apply o.sent s.flash := by
      rw [completeStep_of_op op steps]
      split
      · exact endOp_flash _ _
      · rfl
    refine ⟨completeStep s, congrArg _ ready, ?_, fun n step a => ?_, fun p src step page a => ?_⟩
    · rw [flash, completeStep_of_op op steps]
      by_cases last : rest = []
      · rw [if_pos last, endOp_complete (s := { s with flash := st.apply o.sent s.flash }) op]
        simp [last]
      · simp [last]
    · rw [flash, step]
      exact Memory.read_eraseSector _ _ _ wf
    · rw [flash, step]
      exact Memory.read_programPage _ _ _ _ wf page sent

/-- Settles O31. -/
theorem abandonedStepEndsTheOperationFailed : Obligations.AbandonedStepEndsTheOperationFailed := by
  intro s o st rest c inv op phase steps why
  have wf : s.flash.wf = true := ((nodeInv_iff s).mp inv).1
  have working := StorePort.working_of_op op phase
  have abandons : exec c s = .next (abandon s) := by
    rcases why with rfl | ⟨rfl, late⟩
    · show Host.Outcome.next (stepReady true s) = _
      simp [stepReady, working]
    · have overrun : o.overrun = true := by
        unfold Operation.overrun
        rw [steps]
        cases st <;> exact decide_eq_true late
      show Host.Outcome.next (stepLimit s) = _
      simp [stepLimit, op, working, overrun]
  have failed := (abandon_of_op op steps).trans (endOp_failed (o := o) (by exact op))
  refine ⟨abandon s, abandons, ?_, fun a => ?_⟩
  · rw [failed]
    by_cases store : o.kind = .store
    · simp [store, Bay.latch, State.latch, ErrItem.bit, BitVec.or_assoc]
    · simp [store, Bay.latch, State.latch, ErrItem.bit]
  · rw [failed]
    exact FlashStep.read_spoil_eq st s.draws a wf

/-! ### Operations that are asked for -/

theorem taken_ask {α : Type} {s : State} {k : AskKind} {params : List Byte} (form : List Byte → Option α)
    (act : α → State → State) {x : α} (h : Taken s k params) (read : form params = some x) :
    (Host.Outcome.next (s.ask k form act) : Result) = .next (act x s) := congrArg _ (ask_of_taken s k params form act x h read)

theorem field_cons (x : Byte) (l : List Byte) (i n : Nat) : field (x :: l) (i + 1) n = field l i n := rfl

theorem field_one (x : Byte) (l : List Byte) : field (x :: l) 0 1 = x.toNat := by
  simp [field, numberOf]

theorem field_two (x y : Byte) (l : List Byte) : field (x :: y :: l) 0 2 = x.toNat * 256 + y.toNat := by
  simp [field, numberOf]

theorem field_three (x y z : Byte) (l : List Byte) :
    field (x :: y :: z :: l) 0 3 = x.toNat * 65536 + y.toNat * 256 + z.toNat := by
  simp [field, numberOf]
  omega

/-- The pages of an operation lie in the blocks from that of its first page to that of its last. -/
theorem protectedPages_iff (r : Protect) (k : OpKind) (some_page : 0 < k.pages.2) : protectedPages r k = true ↔
    ∃ p, k.pages.1 ≤ p ∧ p < k.pages.1 + k.pages.2 ∧ r.block (p / 256) = true := by
  simp only [protectedPages, List.any_eq_true, List.mem_range]
  constructor
  · rintro ⟨i, inside, locked⟩
    refine ⟨max k.pages.1 ((k.pages.1 / 256 + i) * 256), le_max_left _ _, by omega, ?_⟩
    have block : max k.pages.1 ((k.pages.1 / 256 + i) * 256) / 256 = k.pages.1 / 256 + i := by omega
    rwa [block]
  · rintro ⟨p, low, high, locked⟩
    refine ⟨p / 256 - k.pages.1 / 256, by omega, ?_⟩
    have block : k.pages.1 / 256 + (p / 256 - k.pages.1 / 256) = p / 256 := by omega
    rwa [block]

theorem pagesInUse_iff (b : Bay) (k : OpKind) : pagesInUse b k = true ↔
    ∃ v, (b.voiceRec v).state ≠ .idle ∧ (b.voiceRec v).firstPage < k.pages.1 + k.pages.2 ∧
      k.pages.1 < (b.voiceRec v).firstPage + ((b.voiceRec v).count + 127) / 128 := by
  simp [pagesInUse, Voice.holdsIn, and_assoc]

theorem acceptOp_done (k : OpKind) (s : State) : (acceptOp k s).done =
    ({ s with port := { s.port with
      state := .busy
      op := some { kind := k, steps := k.steps, phase := .gap, stepCount := 0, runCount := 0, sent := []
                   crc := 0xFFFF } } } : State).answer 0 [] := rfl

theorem handOperation_of_busy (k : OpKind) {s : State} (h : s.port.op ≠ none) : handOperation k s = s.answer 1 [] :=
  if_pos (Option.isSome_iff_ne_none.mpr h)

theorem handOperation_of_store {s : State} (h : s.port.op = none) :
    handOperation .store s = (acceptOp .store s).done := by
  simp [handOperation, h]

theorem handOperation_of_clip {k : OpKind} {s : State} (h : s.port.op = none) (clip : k ≠ .store) :
    handOperation k s =
      if 65280 < k.pages.1 + k.pages.2 then s.answer 2 []
      else if pagesInUse s.bay k then s.answer 3 [] else (acceptOp k s).done := by
  simp [handOperation, h, clip, OpKind.inImage, codeProtected, codeInUse]

theorem unlessRestarting_busy (act : State → State) {s : State} (h : s.mgmt.restart ≠ .none) :
    unlessRestarting act s = s.answer 1 [] := if_neg h

theorem unlessRestarting_none (act : State → State) {s : State} (h : s.mgmt.restart = .none) :
    unlessRestarting act s = act s := if_pos h

/-- What becomes of an operation asked of the port that names the pages from `first` on, `count` of them (none for a
STORE): the tests in their order (R66, R183). -/
def Decides (s : State) (kind : OpKind) (first count : Nat) (r : Result) : Prop :=
  ((∃ p, first ≤ p ∧ p < first + count ∧ s.tables.protect.block (p / 256) = true) → r = .next (s.answer 2 [])) ∧
  ((∀ p, first ≤ p → p < first + count → s.tables.protect.block (p / 256) = false) →
    (s.mgmt.restart ≠ .none ∨ s.port.op ≠ none → r = .next (s.answer 1 [])) ∧
    (s.mgmt.restart = .none → s.port.op = none →
      (0 < count → 65280 < first + count → r = .next (s.answer 2 [])) ∧
      (count = 0 ∨ first + count ≤ 65280 →
        ((∃ v, ∃ x, x = s.bay.voiceRec v ∧ 0 < count ∧ x.state ≠ .idle ∧ x.firstPage < first + count ∧
            first < x.firstPage + (x.count + 127) / 128) → r = .next (s.answer 3 [])) ∧
        ((∀ v x, x = s.bay.voiceRec v → count = 0 ∨ x.state = .idle ∨ first + count ≤ x.firstPage ∨
            x.firstPage + (x.count + 127) / 128 ≤ first) → r = .next (acceptOp kind s).done))))

theorem decides_store (s : State) : Decides s .store 65280 0 (.next (unlessRestarting (handOperation .store) s)) := by
  refine ⟨fun ⟨p, low, high, _⟩ => by omega, fun _ => ⟨fun busy => ?_, fun steady idle =>
    ⟨fun pages => by omega, fun _ => ⟨fun ⟨v, x, _, pages, _⟩ => by omega, fun _ => ?_⟩⟩⟩⟩
  · by_cases steady : s.mgmt.restart = .none
    · rw [unlessRestarting_none _ steady, handOperation_of_busy _ (busy.resolve_left (absurd steady))]
    · rw [unlessRestarting_busy _ steady]
  · rw [unlessRestarting_none _ steady, handOperation_of_store idle]

theorem decides_clip (s : State) (k : OpKind) (first count : Nat) (clip : k ≠ .store) (pages : k.pages = (first, count))
    (pos : 0 < count) : Decides s k first count (.next (clipOperation k s)) := by
  have locked := protectedPages_iff s.tables.protect k (by rwa [pages])
  have used := pagesInUse_iff s.bay k
  rw [pages] at locked used
  refine ⟨fun some => congrArg _ (if_pos (locked.mpr some)), fun open_ => ?_⟩
  have unlocked : ¬ protectedPages s.tables.protect k = true := fun h => by
    obtain ⟨p, low, high, block⟩ := locked.mp h
    rw [open_ p low high] at block
    exact Bool.noConfusion block
  have hands : clipOperation k s = unlessRestarting (handOperation k) s := if_neg unlocked
  rw [hands]
  refine ⟨fun busy => ?_, fun steady idle => ?_⟩
  · by_cases steady : s.mgmt.restart = .none
    · rw [unlessRestarting_none _ steady, handOperation_of_busy _ (busy.resolve_left (absurd steady))]
    · rw [unlessRestarting_busy _ steady]
  · rw [unlessRestarting_none _ steady, handOperation_of_clip idle clip, pages]
    refine ⟨fun _ image => congrArg _ (if_pos image), fun below => ?_⟩
    have below : ¬ 65280 < first + count := by omega
    rw [if_neg below]
    refine ⟨fun ⟨v, x, eq, _, inUse⟩ => ?_, fun unused => ?_⟩
    · subst eq
      rw [if_pos (used.mpr ⟨v, inUse⟩)]
    · rw [if_neg]
      intro h
      obtain ⟨v, busy, low, high⟩ := used.mp h
      rcases unused v _ rfl with zero | idle | out | out
      · omega
      · exact busy idle
      · omega
      · omega

theorem exec_store_of_taken {s : State} (h : Taken s .store []) :
    exec .store s = .next (unlessRestarting (handOperation .store) s) := taken_ask noParams _ h rfl

theorem exec_pageProgram_of_taken {s : State} {x y : Byte} (h : Taken s .pageProgram [x, y]) :
    exec .pageProgram s = .next (clipOperation (.pageProgram (x.toNat * 256 + y.toNat)) s) :=
  taken_ask pageParam (fun p => clipOperation (.pageProgram p)) h (congrArg some (field_two x y []))

theorem exec_eraseSectors_of_taken {s : State} {w x y z : Byte} {n m : Nat} (h : Taken s .eraseSectors [w, x, y, z])
    (hn : n = w.toNat * 256 + x.toNat) (hm : m = y.toNat * 256 + z.toNat) (pos : 1 ≤ m) (fits : n + m ≤ 4096) :
    exec .eraseSectors s = .next (clipOperation (.eraseSectors n m) s) := by
  have form : eraseParams [w, x, y, z] = some (n, m) := by
    have one : field [w, x, y, z] 0 2 = n := (field_two w x _).trans hn.symm
    have two : field [w, x, y, z] 2 2 = m := (field_two y z []).trans hm.symm
    simp [eraseParams, one, two, pos, fits]
  exact taken_ask eraseParams (fun p => clipOperation (.eraseSectors p.1 p.2)) (x := (n, m)) h form

/-- Settles O33: each of the three asks reads its parameters, and the port decides. -/
theorem operationsAreAcceptedOrRefused : Obligations.OperationsAreAcceptedOrRefused := by
  intro s c params kind first count steps which
  have decides : Decides s kind first count (exec c s) ∧ steps = kind.steps := by
    rcases which with ⟨rfl, taken, rfl, rfl, rfl, rfl, rfl⟩ | ⟨x, y, rfl, taken, rfl, rfl, hfirst, rfl, rfl⟩ |
      ⟨w, x, y, z, n, m, rfl, taken, rfl, hn, hm, pos, fits, rfl, rfl, rfl, rfl⟩
    · rw [exec_store_of_taken taken]
      exact ⟨decides_store s, rfl⟩
    · rw [exec_pageProgram_of_taken taken, ← hfirst]
      exact ⟨decides_clip s (.pageProgram first) first 1 (fun h => OpKind.noConfusion h) rfl Nat.one_pos, rfl⟩
    · rw [exec_eraseSectors_of_taken taken hn hm pos fits]
      exact ⟨decides_clip s (.eraseSectors n m) (n * 16) (m * 16) (fun h => OpKind.noConfusion h) rfl (by omega), rfl⟩
  obtain ⟨decides, rfl⟩ := decides
  exact decides

/-! ### The page buffer -/

/-- Byte `i` of the buffer after bytes have been written from offset `o` on: the one that lies as far behind `o`, going
round, or the old one. -/
theorem get_fillBuffer (i : Fin 256) : ∀ (l : List Byte) (o : Nat) (t : Tab Byte 256), l.length ≤ 256 →
    (fillBuffer o l t).get i =
      if (i.val + 256 - o % 256) % 256 < l.length then l.getD ((i.val + 256 - o % 256) % 256) 0 else t.get i
  | [], o, t, _ => by simp [fillBuffer]
  | x :: l, o, t, len => by
    rw [List.length_cons] at len ⊢
    rw [fillBuffer, get_fillBuffer i l (o + 1) _ (by omega), Tab.get_set]
    have offset : (Fin.ofNat 256 o).val = o % 256 := rfl
    by_cases here : Fin.ofNat 256 o = i
    · have first : (i.val + 256 - o % 256) % 256 = 0 := by rw [← here, offset]; omega
      have last : (i.val + 256 - (o + 1) % 256) % 256 = 255 := by rw [← here, offset]; omega
      have past : ¬ 255 < l.length := by omega
      rw [first, last, if_neg past, if_pos here, if_pos (Nat.succ_pos _)]
      rfl
    · have apart : o % 256 ≠ i.val := fun h => here (Fin.ext h)
      have next : (i.val + 256 - o % 256) % 256 = (i.val + 256 - (o + 1) % 256) % 256 + 1 := by omega
      rw [if_neg here, next]
      simp

/-- Settles O34. -/
theorem pageFillAndReadClip : Obligations.PageFillAndReadClip := by
  refine ⟨fun s offset bytes taken pos len => ?_, fun s x y z n taken pos len => ?_⟩
  · have form : fillParams (offset :: bytes) = some (offset.toNat, bytes) := by
      cases bytes with
      | nil => simp at pos
      | cons x rest =>
        rw [List.length_cons] at len
        exact if_pos (by omega)
    refine ⟨_, taken_ask fillParams _ taken form, rfl, fun i n eq => ?_⟩
    have small : offset.toNat % 256 = offset.toNat := Nat.mod_eq_of_lt offset.isLt
    have filled := get_fillBuffer i bytes offset.toNat s.port.buffer (by omega)
    rw [small, ← eq] at filled
    exact filled
  · have form : clipParams [x, y, z, n] = some ⟨x.toNat * 65536 + y.toNat * 256 + z.toNat, n.toNat⟩ := by
      have count : field [x, y, z, n] 3 1 = n.toNat := field_one n []
      simp [clipParams, count, field_three, pos, len]
    refine (taken_ask clipParams _ taken form).trans ?_
    by_cases steady : s.mgmt.restart = .none
    · rw [unlessRestarting_none _ steady]
      simp [readClipAsk, steady, Option.isSome_iff_ne_none, State.setPort, codeBusy]
    · rw [unlessRestarting_busy _ steady, if_pos (Or.inl steady)]

end Sys2Proof.Machine
end

section
/-! PROOFS. The line unit: the receiver, the treatment of frames, the transmit queue and the line state (O49 to O53). -/

namespace Sys2Proof.Machine

/-! ### The receiver -/

theorem starts_iff (c : RxChar) : starts c = true ↔ c.byte = 0x7E ∧ c.framing = false := by
  simp [starts]

theorem starts_eq_false (c : RxChar) : starts c = false ↔ ¬ (c.byte = 0x7E ∧ c.framing = false) := by
  rw [← starts_iff, Bool.not_eq_true]

theorem goodHeaderChars_iff (k n l x : RxChar) : goodHeaderChars [k, n, l, x] = true ↔
    k.framing = false ∧ n.framing = false ∧ l.framing = false ∧ x.framing = false ∧
      1 ≤ k.byte.toNat ∧ k.byte.toNat ≤ 7 ∧ l.byte.toNat ≤ 200 ∧ crc8 [k.byte, n.byte, l.byte] = x.byte := by
  simp [goodHeaderChars, and_assoc]

theorem receive_header (own : Fin 251) (chars : List RxChar) (c : RxChar) : receive own (.header chars) c =
    if (chars ++ [c]).length < 4 then (.header (chars ++ [c]), .quiet) else testHeader own (chars ++ [c]) := rfl

theorem receive_body (own own' : Fin 251) (k n : Byte) (length : Nat) (chars : List RxChar) (c : RxChar) :
    receive own (.body own' k n length chars) c =
      if (chars ++ [c]).length < length + 2 then (.body own' k n length (chars ++ [c]), .quiet)
      else (.hunt, .frame own' (completeFrame k n length (chars ++ [c])) ((chars ++ [c]).any (·.framing))) := rfl

theorem testHeader_four (own : Fin 251) (k n l c : RxChar) : testHeader own [k, n, l, c] =
    if goodHeaderChars [k, n, l, c] then (.body own k.byte n.byte l.byte.toNat [], .goodHeader)
    else (rescan [k, n, l, c], .headerError) := rfl

theorem rescan_of_none : ∀ chars : List RxChar, (∀ x ∈ chars, starts x = false) → rescan chars = .hunt
  | [], _ => rfl
  | c :: rest, h => by
    rw [rescan, h c List.mem_cons_self]
    exact rescan_of_none rest fun x m => h x (List.mem_cons_of_mem c m)

theorem rescan_of_first (x : RxChar) (after : List RxChar) (hx : starts x = true) : ∀ before : List RxChar,
    (∀ y ∈ before, starts y = false) → rescan (before ++ x :: after) = .header after
  | [], _ => if_pos hx
  | y :: before, h => by
    rw [List.cons_append, rescan, h y List.mem_cons_self]
    exact rescan_of_first x after hx before fun z m => h z (List.mem_cons_of_mem y m)

/-- Settles O49. -/
theorem receiverTakesCharacters : Obligations.ReceiverTakesCharacters := by
  refine ⟨fun own c => ⟨?_, fun chars short => ?_, fun k n l good tested => ?_, fun own' k n length chars =>
    ⟨fun short => ?_, fun last => ?_⟩⟩, fun chars => ⟨fun none => ?_, ?_⟩, ?_⟩
  · simp only [receive, starts_iff]
  · exact if_pos (by simp; omega)
  · have eq : goodHeaderChars [k, n, l, c] = good := Bool.eq_iff_iff.mpr ((goodHeaderChars_iff k n l c).trans tested.symm)
    rw [receive_header, if_neg (by simp), List.cons_append, List.cons_append, List.cons_append, List.nil_append,
      testHeader_four, eq]
  · exact if_pos (by simpa using short)
  · rw [receive_body, if_neg (by simpa using last.ge)]
    rfl
  · exact rescan_of_none chars fun x m => (starts_eq_false x).mpr (none x m)
  · rintro before x after rfl quiet start clean
    exact rescan_of_first x after ((starts_iff x).mpr ⟨start, clean⟩) before fun y m => (starts_eq_false y).mpr (quiet y m)
  · intro s c rx event received
    have taken : s.rxTake c = { s with line := { s.line with rx := rx, heard := true } } := by
      rw [State.rxTake, received]
    have completes : s.rxEvent c = event := by rw [State.rxEvent, received]
    refine ⟨?_, ?_, ?_⟩
    · show execCharacterReceived c s = _
      rw [execCharacterReceived, completes, taken]
      split <;> rfl
    · show execGoodHeader c s = _
      rw [execGoodHeader, completes, taken]
      split <;> rfl
    · show execHeaderError c s = _
      rw [execHeaderError, completes, taken]
      split <;> rfl

/-! ### Cut-off and line state -/

theorem lineLost_of_long {s : State} (up : s.line.state = .up) (long : 250 ≤ s.line.count) : lineLost s =
    { s with line := { s.line with state := .lost } }.latch .lineLost := by
  simp [lineLost, up, long]

theorem lineLost_of_not {s : State} (h : s.line.state = .lost ∨ s.line.count < 250) : lineLost s = s := by
  rcases h with lost | short
  · simp [lineLost, lost]
  · simp [lineLost, short]

/-- Settles O50. -/
theorem cutOffFramesAndLostLines : Obligations.CutOffFramesAndLostLines := by
  intro s
  refine ⟨fun h => congrArg Host.Outcome.next ?_, fun chars heard rx => congrArg Host.Outcome.next ?_,
    fun own k n l chars heard rx => congrArg Host.Outcome.next ?_,
    fun up long => congrArg _ (lineLost_of_long up long), fun h => congrArg _ (lineLost_of_not h),
    ⟨_, _, rfl, rfl, rfl⟩⟩
  · unfold cutOff
    rcases h with heard | hunting
    · simp [heard]
    · cases heard : s.line.heard <;> simp [hunting]
  · show cutOff s = _
    simp only [cutOff, heard, rx]
    rfl
  · show cutOff s = _
    simp only [cutOff, heard, rx]
    rfl

/-! ### The treatment of a frame -/

theorem onFrame_of_none {s : State} {c : RxChar} {t : Treatment} (act : Fin 251 → Frame → State → State)
    (h : s.frameFor c t = none) : s.onFrame c t act = s := by
  rw [State.onFrame, h]

theorem onFrame_of_full {s : State} {c : RxChar} {t : Treatment} {own : Fin 251} {f : Frame}
    (act : Fin 251 → Frame → State → State) (h : s.frameFor c t = some (own, f)) (full : 4 ≤ s.line.tx.length) :
    s.onFrame c t act = { s.rxTake c with bay := { s.bay with latched := s.bay.latched ||| 0x40 } } := by
  rw [State.onFrame, h]
  exact if_pos full

/-- A frame command where nothing of its treatment arrives, or no place is free. -/
theorem onFrame_dropped (s : State) (c : RxChar) (t : Treatment) (act : Fin 251 → Frame → State → State) :
    (s.frameFor c t = none → (.next (s.onFrame c t act) : Result) = .next s) ∧
    (∀ own f, s.frameFor c t = some (own, f) → 4 ≤ s.line.tx.length → (.next (s.onFrame c t act) : Result) =
      .next { s.rxTake c with bay := { s.bay with latched := s.bay.latched ||| 0x40 } }) :=
  ⟨fun h => congrArg _ (onFrame_of_none act h), fun _ _ h full => congrArg _ (onFrame_of_full act h full)⟩

theorem goodBody_iff (f : Frame) (framing : Bool) :
    goodBody f framing = true ↔ framing = false ∧ f.crc = crc16 f.body ∧ f.wellFormed = true := by
  simp [goodBody, and_assoc]

theorem treatment_of_bad {own : Fin 251} {f : Frame} {framing isOwn : Bool} (ready : Bool)
    (ownNode : isOwn = true ↔ own.val ≠ 0 ∧ f.node.toNat = own.val) (bad : goodBody f framing = false) :
    treatment own ready f framing =
      if f.kind = 6 ∧ isOwn = true then .rejected else if f.kind = 4 ∧ isOwn = true then .strip else .badBody := by
  have eq : (own.val != 0 && decide (f.node.toNat = own.val)) = isOwn := Bool.eq_iff_iff.mpr (by simp [ownNode])
  simp only [treatment, bad, Bool.false_eq_true, if_false, treatBad, eq, Bool.and_eq_true, decide_eq_true_eq]
  rfl

theorem wellFormed_level (l : List Byte) : wellFormedLevel l = true ↔ ∃ first hi lo levels, l = first :: hi :: lo :: levels ∧
    first.toNat ≤ 15 ∧ hi.toNat * 256 + lo.toNat ≤ 511 ∧ 5 ≤ levels.length ∧ levels.length ≤ 124 := by
  constructor
  · intro h
    match l with
    | first :: hi :: lo :: levels =>
      have channel : field (first :: hi :: lo :: levels) 1 2 = hi.toNat * 256 + lo.toNat := field_two hi lo levels
      simp only [wellFormedLevel, channel, field_one, List.length_cons, Bool.and_eq_true, decide_eq_true_eq] at h
      obtain ⟨⟨⟨long, short⟩, univ⟩, low⟩ := h
      exact ⟨first, hi, lo, levels, rfl, univ, low, by omega, by omega⟩
    | [] | [_] | [_, _] => simp [wellFormedLevel] at h
  · rintro ⟨first, hi, lo, levels, rfl, univ, low, long, short⟩
    have channel : field (first :: hi :: lo :: levels) 1 2 = hi.toNat * 256 + lo.toNat := field_two hi lo levels
    simp only [wellFormedLevel, channel, field_one, List.length_cons, Bool.and_eq_true, decide_eq_true_eq]
    exact ⟨⟨⟨by omega, by omega⟩, univ⟩, low⟩

theorem wellFormed_cue (l : List Byte) : wellFormedCue l = true ↔ ∃ action rest, l = action :: rest ∧ 1 ≤ action.toNat ∧
    action.toNat ≤ 4 ∧ (rest.length = 2 ∨ rest.length = 6) := by
  cases l with
  | nil => simp [wellFormedCue]
  | cons action rest =>
    simp only [wellFormedCue, field_one, List.length_cons, Bool.and_eq_true, Bool.or_eq_true, decide_eq_true_eq,
      List.cons.injEq]
    constructor
    · rintro ⟨⟨len, low⟩, high⟩
      exact ⟨action, rest, ⟨rfl, rfl⟩, low, high, by omega⟩
    · rintro ⟨_, _, ⟨rfl, rfl⟩, low, high, len⟩
      exact ⟨⟨by omega, low⟩, high⟩

theorem wellFormed_notice (l : List Byte) : wellFormedNotice l = true ↔ ∃ kind number, l = [kind, number] ∧
    (kind = 1 ∨ kind = 2) := by
  match l with
  | [kind, number] =>
    have code : (1 ≤ kind.toNat ∧ kind.toNat ≤ 2) ↔ kind = 1 ∨ kind = 2 := by bv_omega
    simp [wellFormedNotice, field_one, code]
  | [] | [_] | _ :: _ :: _ :: _ => simp [wellFormedNotice]

/-- Settles O51. -/
theorem framesAreTreatedByKindAndNode : Obligations.FramesAreTreatedByKindAndNode := by
  refine ⟨fun own ready f framing isOwn mine ownNode mineNode => ⟨goodBody_iff f framing, treatment_of_bad ready ownNode,
    fun good => ?_⟩, ⟨rfl, rfl, rfl, rfl⟩, fun f => ?_, fun s c x p which => ?_, fun s c own f => ⟨?_, ?_⟩⟩
  · have isOwn_eq : (own.val != 0 && decide (f.node.toNat = own.val)) = isOwn :=
      Bool.eq_iff_iff.mpr (by simp [ownNode])
    have mine_eq : (isOwn || (own.val != 0 && decide (f.node.toNat = 255))) = mine := by
      rw [← isOwn_eq]
      refine Bool.eq_iff_iff.mpr ?_
      rw [mineNode]
      simp
      tauto
    have treat : treatment own ready f framing = treatGood own ready f := if_pos good
    rw [treat]
    simp only [treatGood, isOwn_eq, mine_eq, kindTime, kindLevel, kindCue, kindNotice, kindEmpty, kindAsk]
    have zero : f.node.toNat = 0 ↔ f.node = 0 := (BitVec.toNat_eq (y := 0#8)).symm
    refine ⟨?_, ?_, ?_, ?_, ?_, ?_, ?_⟩ <;> intro kind <;> simp [kind, and_assoc, zero]
  · simp only [Frame.wellFormed, kindTime, kindLevel, kindCue, kindNotice, kindEmpty, kindAsk]
    refine ⟨?_, ?_, ?_, ?_, ?_, ?_, ?_⟩ <;> intro kind <;>
      simp [kind, wellFormed_level, wellFormed_cue, wellFormed_notice]
  · simp only [List.mem_cons, List.not_mem_nil, or_false] at which
    rcases which with rfl | rfl | rfl | rfl | rfl | rfl | rfl | rfl | rfl | rfl | rfl | rfl | rfl | rfl
    all_goals exact onFrame_dropped s c _ _
  · exact fun h => congrArg _ (onFrame_of_completes s c .forward _ own f h)
  · exact fun h => congrArg _ (onFrame_of_completes s c .badBody _ own f h)

/-! ### The transmit queue -/

theorem fillOr_none {s : State} (own : Fin 251) (other : Frame) (h : s.bay.notices = []) :
    fillOr own other s = s.enter (.frame other false) := by
  rw [fillOr, h]
  rfl

theorem fillOr_some {s : State} (own : Fin 251) (other : Frame) {n : Notice} {rest : List Notice}
    (h : s.bay.notices = n :: rest) : fillOr own other s =
      ({ s with bay := { s.bay with notices := rest } } : State).enter
        (.frame (mkFrame 4 (BitVec.ofNat 8 own.val) [n.kind.code, n.number]) false) := by
  rw [fillOr, h]
  rfl

theorem askOf_eq (f : Frame) {tag kind : Byte} {params : List Byte} (h : f.body = tag :: kind :: params) :
    askOf f = ⟨f.node, tag, kind, params⟩ := by
  have two : field (tag :: kind :: params) 1 1 = kind.toNat := field_one kind params
  simp [askOf, h, two, field_one]

/-- Settles O52. -/
theorem transmitQueueIsFilledAndSent : Obligations.TransmitQueueIsFilledAndSent := by
  refine ⟨fun s c own f u put hu hput => ?_, fun s => ⟨fun f r rest tx idle => ?_, fun busy => ?_,
    fun f r rest tx busy => ?_, fun idle => ?_⟩⟩
  · obtain rfl : put = fun e v => v.enter e := funext₂ hput
    subst hu
    refine ⟨fun tag kind params body => ⟨fun h => ?_, fun h => ?_⟩, fun v h hv => ?_, fun h => ?_, fun h b hb => ?_⟩
    · refine congrArg Host.Outcome.next ((onFrame_of_completes s c .ask _ own f h).trans ?_)
      rw [enterAsk, askOf_eq f body]
    · refine congrArg Host.Outcome.next ((onFrame_of_completes s c .setNumber _ own f h).trans ?_)
      have long : 8 ≤ (tag :: kind :: params).length ↔ 6 ≤ params.length := by simp
      have serial : field (tag :: kind :: params) 2 6 = numberOf (params.take 6) := rfl
      rw [setNumberAsk, enterAsk, askOf_eq f body, body]
      simp only [Bool.and_eq_true, decide_eq_true_eq, long, serial]
      rfl
    · subst hv
      exact congrArg Host.Outcome.next (onFrame_of_completes s c .rejected _ own f h)
    · refine congrArg Host.Outcome.next ((onFrame_of_completes s c .empty _ own f h).trans ?_)
      match waiting : s.bay.notices with
      | [] => exact fillOr_none own f waiting
      | n :: rest => exact fillOr_some own f waiting
    · refine congrArg Host.Outcome.next ((onFrame_of_completes s c .strip _ own f h).trans ?_)
      have struck : (if badFrame s c = true then (s.rxTake c).latch .bodyError else s.rxTake c) =
          { s.rxTake c with bay := b } := by
        subst hb
        by_cases bad : badFrame s c = true
        · rw [if_pos bad, if_pos bad]
          rfl
        · rw [if_neg bad, if_neg bad]
          rfl
      have same : b.notices = s.bay.notices := by
        subst hb
        split <;> rfl
      rw [struck]
      match waiting : s.bay.notices with
      | [] => exact fillOr_none (s := { s.rxTake c with bay := b }) own _ (same.trans waiting)
      | n :: rest => exact fillOr_some (s := { s.rxTake c with bay := b }) own _ (same.trans waiting)
  · show Host.Outcome.next (startSending s) = _
    simp [startSending, tx, idle]
  · refine congrArg Host.Outcome.next ?_
    unfold startSending
    split
    · next f r rest tx =>
      rcases busy with busy | none
      · exact if_pos busy
      · exact absurd (congrArg List.head? tx) (none f r)
    · rfl
  · show Host.Outcome.next (doneSending s) = _
    simp [doneSending, tx, busy]
  · show Host.Outcome.next (doneSending s) = _
    simp [doneSending, idle]

/-! ### TIME frames -/

/-- Settles O53. -/
theorem timeFramesAreAdopted : Obligations.TimeFramesAreAdopted := by
  intro s u c expiryFirst own f time h htime hu
  have takes : exec (.timeFrame c expiryFirst) s = .next (adoptTime time expiryFirst u) := by
    subst hu htime
    exact congrArg Host.Outcome.next (onFrame_of_completes s c .time _ own f h)
  have now : u.bay = s.bay := by rw [hu]; rfl
  refine ⟨fun same => ?_, fun moved => ?_⟩
  · rw [takes, adoptTime, now, if_pos same]
  · rw [takes, adoptTime, now, if_neg moved]
    cases expiryFirst
    · exact ⟨_, _, rfl, rfl, rfl⟩
    · exact ⟨_, _, rfl, rfl, rfl⟩

end Sys2Proof.Machine
end

section
/-! PROOFS. Asks: the order of their tests, protection, table writes and STATUS (O54, O56 to O59). -/

namespace Sys2Proof.Machine

/-! ### The tests of an ask (R170) -/

theorem onAsk_of_none (s : State) (p : Ask → Bool) (act : List Byte → State → State)
    (h : ∀ a, s.nextAsk = some a → p a = false) : s.onAsk p act = s := by
  unfold State.onAsk
  split
  · next a next =>
    rw [h a next]
    rfl
  · rfl

theorem isKind_eq_false {k : AskKind} {a : Ask} : isKind k a = false ↔ a.askKind ≠ some k := by simp [isKind]

theorem isOf_iff {k : AskKind} {id : TableId} {a : Ask} :
    isOf k id a = true ↔ a.askKind = some k ∧ namedTable a.params = some id := by simp [isOf, isKind]

/-- The first two tests, and an ask that is of another kind. -/
theorem ask_tests {α : Type} (s : State) (p : List Byte) (k : AskKind) (form : List Byte → Option α)
    (act : α → State → State) :
    (s.ready = false → Asked s k p → (.next (s.ask k form act) : Result) = .next (s.answer 4 [])) ∧
    (Taken s k p → (form p).isNone = true → (.next (s.ask k form act) : Result) = .next (s.answer 5 [])) ∧
    ((∀ a, s.nextAsk = some a → a.askKind ≠ some k) → (.next (s.ask k form act) : Result) = .next s) :=
  ⟨fun early asked => congrArg _ (ask_of_notReady s k p form act asked early),
    fun taken bad => congrArg _ (ask_of_badForm s k p form act taken (Option.isNone_iff_eq_none.mp bad)),
    fun none => congrArg _ (onAsk_of_none s _ _ fun a next => isKind_eq_false.mpr (none a next))⟩

theorem isNone_noParams (p : List Byte) : (noParams p).isNone = decide (p ≠ []) := by
  by_cases h : p = [] <;> simp [noParams, h]

theorem ask_tests_noParams (s : State) (p : List Byte) (k : AskKind) (act : Unit → State → State) :
    (s.ready = false → Asked s k p → (.next (s.ask k noParams act) : Result) = .next (s.answer 4 [])) ∧
    (Taken s k p → decide (p ≠ []) = true → (.next (s.ask k noParams act) : Result) = .next (s.answer 5 [])) ∧
    ((∀ a, s.nextAsk = some a → a.askKind ≠ some k) → (.next (s.ask k noParams act) : Result) = .next s) := by
  rw [← isNone_noParams]
  exact ask_tests s p k noParams act

/-! ### The tests of a WRITE-TABLE -/

section
variable {α : Type} {s : State} {id : TableId} {p : List Byte} (w : Writer α)

theorem onAsk_of_table {k : AskKind} (asked : Asked s k p) (named : namedTable p = some id)
    (act : List Byte → State → State) : s.onAsk (isOf k id) act = act p s := by
  obtain ⟨a, next, kind, rfl⟩ := asked
  exact onAsk_of_next s a _ _ next (isOf_iff.mpr ⟨kind, named⟩)

theorem write_of_notReady (early : s.ready = false) (asked : Asked s .writeTable p) (named : namedTable p = some id) :
    s.write id w = s.answer 4 [] := by
  rw [State.write, onAsk_of_table asked named, whenReady, early]
  rfl

theorem write_of_badForm (taken : Taken s .writeTable p) (named : namedTable p = some id)
    (bad : writeParams w.codec id p = none) : s.write id w = s.answer 5 [] := by
  rw [State.write, onAsk_of_table taken.2 named, whenReady, if_pos taken.1, withParams, bad]
  rfl

/-- A WRITE-TABLE of good form meets its table's check, protection, and a STORE in flight, in this order. -/
theorem write_of_form {i : Nat} {l : List α} (taken : Taken s .writeTable p) (named : namedTable p = some id)
    (form : writeParams w.codec id p = some (i, l)) : s.write id w =
      if w.check s i l = false then s.answer 5 []
      else if w.locked s i l = true then s.answer 2 []
      else if s.storing = true then s.answer 1 [] else settle (w.put i l s).done := by
  rw [State.write, onAsk_of_table taken.2 named, whenReady, if_pos taken.1, withParams, form]
  simp only [Bool.not_eq_true']
  rfl

theorem write_of_unfit {i : Nat} {l : List α} (taken : Taken s .writeTable p) (named : namedTable p = some id)
    (form : writeParams w.codec id p = some (i, l)) (unfit : w.check s i l = false) : s.write id w = s.answer 5 [] :=
  (write_of_form w taken named form).trans (if_pos unfit)

theorem write_of_locked {i : Nat} {l : List α} (taken : Taken s .writeTable p) (named : namedTable p = some id)
    (form : writeParams w.codec id p = some (i, l)) (fit : w.check s i l = true) (locked : w.locked s i l = true) :
    s.write id w = s.answer 2 [] := by
  rw [write_of_form w taken named form, if_neg (by simp [fit]), if_pos locked]

theorem write_of_storing {i : Nat} {l : List α} (taken : Taken s .writeTable p) (named : namedTable p = some id)
    (form : writeParams w.codec id p = some (i, l)) (fit : w.check s i l = true) (open_ : w.locked s i l = false)
    (storing : s.storing = true) : s.write id w = s.answer 1 [] := by
  rw [write_of_form w taken named form, if_neg (by simp [fit]), if_neg (by simp [open_]), if_pos storing]

theorem write_of_none (none : ∀ a, s.nextAsk = some a → a.askKind ≠ some .writeTable ∨ namedTable a.params ≠ some id) :
    s.write id w = s :=
  onAsk_of_none s _ _ fun a next => Bool.eq_false_iff.mpr fun h =>
    (none a next).elim (· (isOf_iff.mp h).1) (· (isOf_iff.mp h).2)

/-- A WRITE-TABLE to a table whose check and protection let it through, on the condition `when`. -/
theorem write_tests {when : Prop} (named : namedTable p = some id)
    (lets : when → ∀ i l, (∀ slot, s.tables.protect.slot slot = false) → (∀ i, protectedStep s.tables i = false) →
      w.check s i l = true ∧ w.locked s i l = false) :
    (s.ready = false → Asked s .writeTable p → (.next (s.write id w) : Result) = .next (s.answer 4 [])) ∧
    (Taken s .writeTable p → (writeParams w.codec id p).isNone = true →
      (.next (s.write id w) : Result) = .next (s.answer 5 [])) ∧
    (Taken s .writeTable p → (writeParams w.codec id p).isNone = false → s.storing = true →
      (∀ slot, s.tables.protect.slot slot = false) → (∀ i, protectedStep s.tables i = false) → when →
      (.next (s.write id w) : Result) = .next (s.answer 1 [])) ∧
    ((∀ a, s.nextAsk = some a → a.askKind ≠ some .writeTable ∨ namedTable a.params ≠ some id) →
      (.next (s.write id w) : Result) = .next s) := by
  refine ⟨fun early asked => congrArg _ (write_of_notReady w early asked named),
    fun taken bad => congrArg _ (write_of_badForm w taken named (Option.isNone_iff_eq_none.mp bad)),
    fun taken good storing slots steps when_ => ?_, fun none => congrArg _ (write_of_none w none)⟩
  match form : writeParams w.codec id p with
  | none =>
    rw [form] at good
    exact Bool.noConfusion good
  | some (i, l) =>
    obtain ⟨check, locked⟩ := lets when_ i l slots steps
    rw [write_of_storing w taken named form check locked storing]

end

theorem any_named {n i count : Nat} {f : Fin n → Bool} :
    (named n i count).any f = true ↔ ∃ j, i ≤ j.val ∧ j.val < i + count ∧ f j = true := by
  simp [named, and_assoc]

theorem all_named {n i count : Nat} {f : Fin n → Bool} :
    (named n i count).all f = true ↔ ∀ j, i ≤ j.val → j.val < i + count → f j = true := by
  simp only [named, List.all_eq_true, List.mem_filter, List.mem_finRange, true_and, Bool.and_eq_true, decide_eq_true_eq,
    and_imp]

theorem any_protectedStep {t : Tables} {i n : Nat} (h : ∃ j, j < n ∧ protectedStep t (i + j) = true) :
    (List.range n).any (fun j => protectedStep t (i + j)) = true := by
  simpa using h

theorem not_any_protectedStep {t : Tables} {i n : Nat} (h : ∀ j, j < n → protectedStep t (i + j) = false) :
    (List.range n).any (fun j => protectedStep t (i + j)) = false := by
  simpa using h

theorem not_any_slot {r : Protect} {i n : Nat} (h : ∀ slot : Fin 32, i ≤ slot.val → slot.val < i + n → r.slot slot = false) :
    (named 32 i n).any r.slot = false := by
  simpa [named] using h

theorem axesFit_iff (s : State) (i : Nat) (l : List AxisCfg) : axesFit s i l = true ↔
    ∀ a : Fin 4, i ≤ a.val → a.val < i + l.length →
      axisFits ((putEntries i l s.tables.axis).get a) (s.bay.axisRec a) = true := all_named

theorem axesFit_eq_false {s : State} {i : Nat} {l : List AxisCfg} (h : ∃ a : Fin 4, i ≤ a.val ∧ a.val < i + l.length ∧
    axisFits ((putEntries i l s.tables.axis).get a) (s.bay.axisRec a) = false) : axesFit s i l = false := by
  obtain ⟨a, low, high, unfit⟩ := h
  refine Bool.eq_false_iff.mpr fun fit => ?_
  rw [(axesFit_iff s i l).mp fit a low high] at unfit
  exact Bool.noConfusion unfit

/-- Settles O58. -/
theorem asksAreTestedInOrder : Obligations.AsksAreTestedInOrder := by
  refine ⟨fun s p key home q which => ?_, fun s p q which => ?_, fun s p answers eq => ⟨?_, ?_, ?_, ?_, ?_, ?_, ?_⟩⟩
  · simp only [List.mem_cons, List.not_mem_nil, or_false] at which
    rcases which with rfl | rfl | rfl | rfl | rfl | rfl | rfl | rfl | rfl | rfl | rfl | rfl | rfl | rfl | rfl | rfl |
      rfl | rfl
    iterate 10 exact ask_tests s p _ _ _
    iterate 3 exact ask_tests_noParams s p _ _
    iterate 5 exact ask_tests s p _ _ _
  · intro table
    simp only [List.mem_cons, List.not_mem_nil, or_false] at which
    rcases which with rfl | rfl | rfl | rfl | rfl | rfl | rfl | rfl | rfl | rfl | rfl | rfl | rfl | rfl | rfl | rfl
    iterate 9 exact write_tests _ table fun _ _ _ _ _ => ⟨rfl, rfl⟩
    · exact write_tests _ table fun other => absurd rfl other
    · exact write_tests _ table fun _ _ _ _ _ => ⟨rfl, rfl⟩
    · exact write_tests _ table fun _ _ _ slots _ => ⟨rfl, not_any_slot fun slot _ _ => slots slot⟩
    · exact write_tests _ table fun _ _ _ _ steps => ⟨rfl, not_any_protectedStep fun j _ => steps _⟩
    iterate 3 exact write_tests _ table fun _ _ _ _ _ => ⟨rfl, rfl⟩
  · rintro ⟨a, next, unknown⟩
    refine (eq _ _).mpr (congrArg Host.Outcome.next ?_)
    rw [onAsk_of_next s a isUnknown _ next (decide_eq_true unknown), whenReady]
    split <;> rfl
  · intro stray
    have stray : ((namedTable p).map TableId.working).getD false = false := by
      match named : namedTable p with
      | none => rfl
      | some id => exact stray id named
    have takes {a : Ask} (kind : a.askKind = some .writeTable) (params : a.params = p) : isStrayWrite a = true := by
      simp [isStrayWrite, isKind, kind, params, stray]
    refine ⟨fun early asked => (eq _ _).mpr (congrArg Host.Outcome.next ?_),
      fun taken => (eq _ _).mpr (congrArg Host.Outcome.next ?_)⟩
    · obtain ⟨a, next, kind, params⟩ := asked
      rw [onAsk_of_next s a _ _ next (takes kind params), whenReady, early]
      rfl
    · obtain ⟨ready, a, next, kind, params⟩ := taken
      rw [onAsk_of_next s a _ _ next (takes kind params), whenReady, ready]
      rfl
  · rintro c (⟨plain, rfl⟩ | ⟨voice, rfl⟩)
    · have takes {a : Ask} (kind : a.askKind = some .readTable) (params : a.params = p) : isPlainRead a = true := by
        simp [isPlainRead, isKind, kind, params, plain]
      refine ⟨fun early asked => (eq _ _).mpr (congrArg Host.Outcome.next ?_),
        fun taken bad => (eq _ _).mpr (congrArg Host.Outcome.next ?_)⟩
      · obtain ⟨a, next, kind, params⟩ := asked
        rw [onAsk_of_next s a _ _ next (takes kind params), whenReady, early]
        rfl
      · obtain ⟨ready, a, next, kind, params⟩ := taken
        rw [onAsk_of_next s a _ _ next (takes kind params), whenReady, ready, params, if_pos rfl, withParams, bad]
        rfl
    · refine ⟨fun early asked => (eq _ _).mpr (congrArg Host.Outcome.next ?_),
        fun taken bad => (eq _ _).mpr (congrArg Host.Outcome.next ?_)⟩
      · rw [onAsk_of_table asked voice, whenReady, early]
        rfl
      · rw [onAsk_of_table taken.2 voice, whenReady, taken.1, if_pos rfl, withParams, bad]
        rfl
  · intro i l taken table form
    refine ⟨fun unfit => (eq _ _).mpr (congrArg Host.Outcome.next ?_),
      fun fit storing => (eq _ _).mpr (congrArg Host.Outcome.next ?_)⟩
    · exact write_of_unfit _ taken table form (axesFit_eq_false unfit)
    · exact write_of_storing _ taken table form ((axesFit_iff s i l).mpr fit) rfl storing
  · intro i l taken table form
    refine ⟨fun locked => (eq _ _).mpr (congrArg Host.Outcome.next ?_),
      fun lets storing => (eq _ _).mpr (congrArg Host.Outcome.next ?_)⟩
    · exact write_of_locked _ taken table form rfl (any_named.mpr locked)
    · exact write_of_storing _ taken table form rfl (not_any_slot lets) storing
  · intro i l taken table form
    refine ⟨fun locked => (eq _ _).mpr (congrArg Host.Outcome.next ?_),
      fun lets storing => (eq _ _).mpr (congrArg Host.Outcome.next ?_)⟩
    · exact write_of_locked _ taken table form rfl (any_protectedStep locked)
    · exact write_of_storing _ taken table form rfl (not_any_protectedStep lets) storing
  · intro storing
    refine ⟨fun taken good => ?_, fun taken good => ?_, fun taken good => ?_⟩
    all_goals
      obtain ⟨x, form⟩ := Option.ne_none_iff_exists'.mp good
      exact (taken_ask _ _ taken form).trans (congrArg Host.Outcome.next (if_pos storing))

/-! ### Protection (R182 to R184) -/

theorem Edge.holds_iff (e : Edge) (count total x : Nat) : e.holds count total x = true ↔
    e = .low ∧ x < count ∨ e = .high ∧ total - count ≤ x := by
  cases e <;> simp [Edge.holds]

/-- A range, or all but it. -/
theorem bne_complement {holds complement : Bool} {p : Prop} (h : holds = true ↔ p) :
    (holds != complement) = true ↔ (p ↔ complement = false) := by
  rw [← h]
  cases holds <;> cases complement <;> decide

theorem protectedStep_iff (t : Tables) (i : Nat) : protectedStep t i = true ↔ ∃ slot, t.protect.slot slot = true ∧
    (t.scene.get slot).firstStep.val ≤ i ∧ i < (t.scene.get slot).firstStep.val + (t.scene.get slot).stepCount.toNat := by
  simp [protectedStep, and_assoc]

theorem protectLocked_iff (s : State) : protectLocked s = true ↔
    s.mgmt.protectState = .frozen ∨ (s.tables.protect.mode = .keyed ∧ s.pins.key = false) := by
  simp [protectLocked]

theorem contains_protect {c : Instr} (reset : isReset c = false) (freeze : ∀ key, c ≠ .freeze key) :
    (changes c).contains .protect = false := by
  cases c
  case freeze key => exact absurd rfl (freeze key)
  all_goals first | rfl | exact Bool.noConfusion reset

theorem contains_record {c : Instr} (reset : isReset c = false) (start : ∀ x p, c ≠ .startUp x p)
    (set : ∀ key, c ≠ .setProtect key) : (changes c).contains .record = false := by
  cases c
  case startUp x p => exact absurd rfl (start x p)
  case setProtect key => exact absurd rfl (set key)
  all_goals first | rfl | exact Bool.noConfusion reset

theorem restartNow_protectState (s : State) : (restartNow s).mgmt.protectState = s.mgmt.protectState := by
  unfold restartNow
  split <;> rfl

theorem freezeAsk_protectState (s : State) : (freezeAsk s).mgmt.protectState = s.mgmt.protectState ∨
    (freezeAsk s).mgmt.protectState = .frozen := by
  unfold freezeAsk
  split
  · exact .inl rfl
  · exact .inr rfl

/-- The protect state changes only by FREEZE and a power-on reset. -/
theorem exec_protectState {c : Instr} {s t : State} (h : exec c s = .next t) (power : c ≠ .powerOnReset)
    (freeze : ∀ key, c ≠ .freeze key) : t.mgmt.protectState = s.mgmt.protectState := by
  by_cases restart : c = .restartTakesEffect
  · subst restart
    obtain rfl := Host.Outcome.next.inj h
    exact restartNow_protectState s
  · refine same_of_exec (p := .protect) h (contains_protect ?_ freeze)
    cases c
    case powerOnReset => exact absurd rfl power
    case restartTakesEffect => exact absurd rfl restart
    all_goals rfl

theorem exec_freeze_protectState {key : Bool} {s t : State} (h : exec (.freeze key) s = .next t) :
    t.mgmt.protectState = s.mgmt.protectState ∨ t.mgmt.protectState = .frozen := by
  obtain rfl := Host.Outcome.next.inj h
  rcases ask_cases s .freeze noParams (fun _ s => freezeAsk (s.withKey key)) with same | ⟨code, answered⟩ | ⟨_, _, _, _, act⟩
  · rw [same]
    exact .inl rfl
  · rw [answered]
    exact .inl rfl
  · rw [act]
    exact freezeAsk_protectState (s.withKey key)

theorem setProtectAsk_of_frozen (r : Protect) {s : State} (frozen : s.mgmt.protectState = .frozen) :
    setProtectAsk r s = s.answer codeProtected [] := if_pos ((protectLocked_iff s).mpr (.inl frozen))

theorem exec_setProtect_of_frozen {key : Bool} {s t : State} (h : exec (.setProtect key) s = .next t)
    (frozen : s.mgmt.protectState = .frozen) : t.tables = s.tables := by
  obtain rfl := Host.Outcome.next.inj h
  rcases ask_cases s .setProtect protectParam (fun r s => setProtectAsk r (s.withKey key)) with
    same | ⟨code, answered⟩ | ⟨_, r, _, _, act⟩
  · rw [same]
  · rw [answered]
    rfl
  · rw [act, setProtectAsk_of_frozen r (s := s.withKey key) frozen]
    rfl

/-- Settles O59. -/
theorem protectionAndFreeze : Obligations.ProtectionAndFreeze := by
  refine ⟨fun r slot b small => ⟨?_, ?_, rfl⟩, protectedStep_iff, fun s i => ⟨?_, ?_⟩,
    fun s u key locked p r hu hlocked => ⟨fun taken form => ?_, fun taken => ?_⟩,
    fun c s t h power => ⟨fun frozen => ?_, exec_protectState h power, fun frozen reset start => ?_⟩⟩
  · exact bne_complement (Edge.holds_iff _ _ _ _)
  · have inRange : b < 255 := by omega
    simp only [Protect.block, inRange, decide_true, Bool.true_and]
    exact bne_complement (Edge.holds_iff _ _ _ _)
  · rintro l ⟨_, params, taken, named, form⟩ locked
    exact congrArg Host.Outcome.next (write_of_locked _ taken named form rfl (any_named.mpr locked))
  · rintro l ⟨_, params, taken, named, form⟩ locked
    exact congrArg Host.Outcome.next (write_of_locked _ taken named form rfl (any_protectedStep locked))
  · have eq : protectLocked u = locked := Bool.eq_iff_iff.mpr (by rw [protectLocked_iff, hlocked, hu])
    refine (taken_ask protectParam _ taken form).trans (congrArg Host.Outcome.next ?_)
    have keyed : s.withKey key = u := hu.symm
    rw [keyed, setProtectAsk, eq]
    subst hu
    rfl
  · have eq : protectLocked u = locked := Bool.eq_iff_iff.mpr (by rw [protectLocked_iff, hlocked, hu])
    refine (taken_ask noParams _ taken rfl).trans (congrArg Host.Outcome.next ?_)
    have keyed : s.withKey key = u := hu.symm
    rw [keyed, freezeAsk, eq]
    subst hu
    rfl
  · by_cases freeze : ∃ key, c = .freeze key
    · obtain ⟨key, rfl⟩ := freeze
      exact (exec_freeze_protectState h).elim (·.trans frozen) id
    · exact (exec_protectState h power (not_exists.mp freeze)).trans frozen
  · by_cases set : ∃ key, c = .setProtect key
    · obtain ⟨key, rfl⟩ := set
      rw [exec_setProtect_of_frozen h frozen]
    · exact same_of_exec (p := .record) h (contains_record reset start (not_exists.mp set))

/-! ### STATUS (R178) -/

theorem getLsbD_liveBit (on : Bool) (e : ErrItem) (i : Fin 8) :
    (liveBit on e).getLsbD i.val = true ↔ i.val = e.bit ∧ on = true := by
  cases on
  · simp [liveBit]
  · revert i
    cases e <;> decide

theorem runSummary_eq (b : Bay) (k : Fin 6) : runSummary b k =
    match (b.run k).state with
    | .free => ([0, 0, 0] : List Byte)
    | x => [if x = .running then 1 else 2, BitVec.ofNat 8 (((b.run k).slot.map (·.val)).getD 0),
        (if (b.run k).gate.isSome then 1 else 0) ||| (if (b.run k).held then 2 else 0)] := by
  unfold runSummary RunRec.stallSet
  dsimp only
  generalize (b.run k).state = state
  cases state <;> rfl

theorem length_runSummary (b : Bay) (k : Fin 6) : (runSummary b k).length = 3 := by
  rw [runSummary_eq]
  cases (b.run k).state <;> rfl

theorem length_statusData (s : State) : (statusData s).length = 37 := by
  have summaries : ((List.finRange 6).flatMap (runSummary s.bay)).length = 18 := by
    simp [List.length_flatMap, length_runSummary]
  have mode : (modeC.enc s.bay.trigger.mode).length = 1 := modeC_total.len _
  simp [statusData, summaries, mode, flag, num, length_bytesOf, wordOf, protectStateOf, State.errorSummary]

theorem liveHalf_bits (s : State) (i : Fin 8) : s.liveHalf.getLsbD i.val = true ↔
    (i = 0 ∧ ∃ v, (s.bay.voiceRec v).underrun = true) ∨ (i = 1 ∧ ∃ a, (s.bay.axisRec a).state = .faulted) ∨
      (i = 2 ∧ s.mgmt.imageInvalid = true) ∨ (i = 3 ∧ s.line.state = .lost) := by
  have underrun : anyUnderrun s.bay = true ↔ ∃ v, (s.bay.voiceRec v).underrun = true := by simp [anyUnderrun]
  have faulted : anyFaulted s.bay = true ↔ ∃ a, (s.bay.axisRec a).state = .faulted := by simp [anyFaulted]
  simp only [State.liveHalf, BitVec.getLsbD_or, Bool.or_eq_true, getLsbD_liveBit, decide_eq_true_eq, underrun, faulted,
    Fin.ext_iff, or_assoc]
  rfl

/-- Settles O54. -/
theorem statusReportsAndClears : Obligations.StatusReportsAndClears := by
  rintro s u key hu
  have keyed : s.withKey key = u := hu.symm
  refine ⟨fun p some asked => ?_, fun asked live data hlive hdata => ?_⟩
  · obtain ⟨a, next, kind, rfl⟩ := asked
    refine congrArg Host.Outcome.next ((onAsk_of_next s a _ _ next (decide_eq_true kind)).trans ?_)
    rw [keyed, takeStatus, if_neg some]
    rfl
  · have same : live = s.liveHalf := by
      refine BitVec.eq_of_getLsbD_eq fun i small => Bool.eq_iff_iff.mpr ?_
      exact (hlive ⟨i, small⟩).trans (liveHalf_bits s ⟨i, small⟩).symm
    have status : data = statusData u := by
      have summaries : runSummary s.bay = _ := funext (runSummary_eq s.bay)
      have mode : modeC.enc s.bay.trigger.mode = [if s.bay.trigger.mode = .showMode then 0 else 1] := by
        cases s.bay.trigger.mode <;> rfl
      have ready : flag (!s.ready) = [if s.ready then 0 else 1] := by cases s.ready <;> rfl
      have line : wordOf [LineState.up, .lost] s.line.state = [if s.line.state = .up then 0 else 1] := by
        cases s.line.state <;> rfl
      have port : wordOf [StoreState.idle, .busy, .failed] s.port.state =
          [match s.port.state with | .idle => 0 | .busy => 1 | .failed => 2] := by
        cases s.port.state <;> rfl
      have protect : protectStateOf s.mgmt.protectState = [if s.mgmt.protectState = .normal then 0 else 1] := by
        cases s.mgmt.protectState <;> rfl
      rw [hdata, same]
      subst hu
      show _ = modeC.enc s.bay.trigger.mode ++ flag (!s.ready) ++ _ ++ _ ++ wordOf _ s.line.state ++
        wordOf _ s.port.state ++ _ ++ protectStateOf s.mgmt.protectState ++ _ ++
        (List.finRange 6).flatMap (runSummary s.bay) ++ _ ++ _ ++ _
      rw [mode, ready, line, port, protect, summaries]
      simp only [List.append_assoc, List.cons_append, List.nil_append]
      rfl
    refine ⟨status ▸ length_statusData u, ?_⟩
    obtain ⟨a, next, kind, params⟩ := asked
    refine congrArg Host.Outcome.next ((onAsk_of_next s a _ _ next (decide_eq_true kind)).trans ?_)
    rw [params, keyed, takeStatus, if_pos rfl, ← status]
    subst hu
    rfl

end Sys2Proof.Machine
end

section
/-! PROOFS. Writes to the working tables, and what their blocks do at once (O21, O22, O56, O57). -/

namespace Sys2Proof.Machine

/-! ### Entries put at consecutive numbers -/

theorem get_putEntries {α : Type} {n : Nat} (j : Fin n) : ∀ (l : List α) (i : Nat) (t : Tab α n),
    (putEntries i l t).get j = if i ≤ j.val then (l[j.val - i]?).getD (t.get j) else t.get j
  | [], i, t => by simp [putEntries]
  | x :: l, i, t => by
    rw [putEntries, get_putEntries j l (i + 1)]
    have old : (if h : i < n then t.set ⟨i, h⟩ x else t).get j = if i = j.val then x else t.get j := by
      by_cases h : i < n
      · simp [h, Tab.get_set, Fin.ext_iff]
      · have apart : i ≠ j.val := by omega
        simp [h, apart]
    rw [old]
    rcases Nat.lt_trichotomy i j.val with low | here | high
    · have next : j.val - i = j.val - (i + 1) + 1 := by omega
      simp [low.le, Nat.succ_le_of_lt low, low.ne, next]
    · subst here
      simp
    · have far : ¬ i + 1 ≤ j.val := by omega
      simp [far, not_le.mpr high, high.ne']

theorem mem_named {n i count : Nat} {j : Fin n} : j ∈ named n i count ↔ i ≤ j.val ∧ j.val < i + count := by
  simp [named]

theorem nodup_named (n i count : Nat) : (named n i count).Nodup := (List.nodup_finRange n).filter _

/-! ### Accepted writes -/

section
variable {α : Type} {s : State} {id : TableId} {i : Nat} {l : List α}

/-- A write to a table without check or protection. -/
theorem write_plain {c : Codec α} {put : Nat → List α → State → State} (h : Writes s id c i l) :
    s.write id (.plain c put) = settle (put i l s).done := write_of_writes s id _ i l h rfl rfl

end

theorem bankParam_two (mask base : Byte) : bankParam [mask, base] = some ⟨mask, base⟩ := by
  have bytes : bankC.enc ⟨mask, base⟩ = [mask, base] := by
    simp [bankC, Codec.via, Codec.pair, Codec.bits, Codec.number, bytesOf]
  have read := bankC_total.rt ⟨mask, base⟩ [] trivial
  rw [bytes, List.append_nil] at read
  simp [bankParam, Codec.whole, read]

theorem numberParam_append (own : BitVec 48) {serial : List Byte} {b : Byte} {n : Fin 251} (len : serial.length = 6)
    (same : numberOf serial = own.toNat) (number : b.toNat = n.val) : numberParam own (serial ++ [b]) = some n := by
  have first : field (serial ++ [b]) 0 6 = numberOf serial := by
    simp [field, ← len]
  have last : field (serial ++ [b]) 6 1 = n.val := by
    simp [field, ← len, numberOf, number]
  simp [numberParam, first, last, same, len, toFin]

/-- Settles O56. -/
theorem writesReplaceTheNamedEntries : Obligations.WritesReplaceTheNamedEntries := by
  refine ⟨fun α n i l t j fits => ?_, fun s i next hnext => ?_, fun s idle => ⟨?_, ?_⟩⟩
  · rw [get_putEntries]
    by_cases low : i ≤ j.val
    · by_cases high : j.val < i + l.length
      · have inside : j.val - i < l.length := by omega
        simp [low, high, inside]
      · have outside : l.length ≤ j.val - i := by omega
        simp [low, high, outside]
    · simp [low]
  · simp only [hnext]
    refine ⟨fun x h => ?_, fun l h => ?_, fun l h => ?_, fun x h => ?_, fun x h => ?_, fun l h => ?_, fun l h => ?_,
      fun l h steps => ?_, fun l h => ?_, fun l h => ?_⟩
    case refine_8 =>
      exact congrArg Host.Outcome.next (write_of_writes s .step _ i l h rfl (not_any_protectedStep steps))
    all_goals
      show Host.Outcome.next (s.write _ (.plain _ _)) = _
      rw [write_plain h]
      rfl
  · intro mask base taken
    exact (taken_ask bankParam _ taken (bankParam_two mask base)).trans
      (congrArg Host.Outcome.next (if_neg (Bool.eq_false_iff.mp idle)))
  · intro serial b n taken len same number
    exact (taken_ask (numberParam s.serial) _ taken (numberParam_append _ len same number)).trans
      (congrArg Host.Outcome.next (if_neg (Bool.eq_false_iff.mp idle)))

/-! ### Line lanes (R25, R26) -/

theorem Quad.get_mapC {α β : Type} (q : Quad α) (f : Comp → α → β) (c : Comp) : (q.mapC f).get c = f c (q.get c) := by
  cases c <;> rfl

/-- All but the records of the fixtures stands as it was. -/
def FixturesOnly (b b' : Bay) : Prop := b' = { b with fixture := { b.fixture with run := b'.fixture.run } }

theorem FixturesOnly.updFixture {b b' : Bay} (h : FixturesOnly b b') (i : Fin 16) (f : FixtureRun → FixtureRun) :
    FixturesOnly b (b'.updFixture i f) := by
  unfold FixturesOnly Bay.updFixture
  rw [h]

theorem FixturesOnly.retarget {b b' : Bay} (h : FixturesOnly b b') (t : Tables) (c : Comp) (target : Target) (d : Nat)
    (curve : Curve) (src : TimeSource) (l : Lane) :
    retarget t b' c target d curve src l = retarget t b c target d curve src l := by
  rw [h]
  exact retarget_congr t rfl rfl c target d curve src l

theorem clearLine_fixtureRec (e : Fin 64) (t : Tables) (b : Bay) (f : Fin 16) :
    ((clearLine e t b).fixtureRec f).scene = (b.fixtureRec f).scene ∧
    ((clearLine e t b).fixtureRec f).intensity = (b.fixtureRec f).intensity ∧
    ((clearLine e t b).fixtureRec f).highlight = (b.fixtureRec f).highlight ∧
    ∀ c, ((clearLine e t b).fixtureRec f).line.get c =
      if e = patchIdx f c then retarget t b c (.level 0) 0 .linear .node ((b.fixtureRec f).line.get c)
      else (b.fixtureRec f).line.get c := by
  rw [clearLine, Bay.updFixture_fixtureRec]
  by_cases here : (⟨e.val / 4, by omega⟩ : Fin 16) = f
  · subst here
    refine ⟨by rw [if_pos rfl], by rw [if_pos rfl], by rw [if_pos rfl], fun c => ?_⟩
    have place : c.idx.val = e.val % 4 ↔ e = patchIdx ⟨e.val / 4, by omega⟩ c := by
      rw [Fin.ext_iff]
      show _ ↔ e.val = e.val / 4 * 4 + c.idx.val
      omega
    rw [if_pos rfl]
    simp only [Quad.get_mapC, place]
  · refine ⟨by rw [if_neg here], by rw [if_neg here], by rw [if_neg here], fun c => ?_⟩
    have apart : e ≠ patchIdx f c := by
      rintro rfl
      refine here (Fin.ext ?_)
      show (f.val * 4 + c.idx.val) / 4 = f.val
      omega
    rw [if_neg here, if_neg apart]

theorem fixturesOnly_clearLines (t : Tables) (l : List (Fin 64)) (b : Bay) :
    FixturesOnly b (eachOf l (fun e b => clearLine e t b) b) :=
  eachOf_keeps (P := FixturesOnly b) (fun _ _ h => h.updFixture _ _) l b rfl

theorem clearLines_line (t : Tables) (l : List (Fin 64)) (b : Bay) (nodup : l.Nodup) (f : Fin 16) (c : Comp) :
    ((eachOf l (fun e b => clearLine e t b) b).fixtureRec f).line.get c =
      if patchIdx f c ∈ l then retarget t b c (.level 0) 0 .linear .node ((b.fixtureRec f).line.get c)
      else (b.fixtureRec f).line.get c := by
  refine eachOf_at (g := fun b : Bay => (b.fixtureRec f).line.get c) (FixturesOnly b) (patchIdx f c)
    (retarget t b c (.level 0) 0 .linear .node) (fun _ _ h => h.updFixture _ _) (fun e b' ne _ => ?_) (fun b' h => ?_)
    l b nodup rfl
  · exact ((clearLine_fixtureRec e t b' f).2.2.2 c).trans (if_neg ne)
  · refine ((clearLine_fixtureRec _ t b' f).2.2.2 c).trans ((if_pos rfl).trans ?_)
    exact h.retarget t c _ _ _ _ _

/-- What a LEVEL frame does to one fixture. -/
def FixtureRun.takeLevels (t : Tables) (b : Bay) (univ channel fade : Nat) (levels : List Byte) (i : Fin 16)
    (x : FixtureRun) : FixtureRun :=
  { x with line := x.line.mapC fun c l =>
      match t.patch.get (patchIdx i c) with
      | none => l
      | some p =>
        if p.univ.val = univ && channel ≤ p.channel.val then
          match levels[p.channel.val - channel]? with
          | some v => retarget t b c (.level (widen v)) fade .linear .node l
          | none => l
        else l }

theorem takeLevels_frame (t : Tables) (b : Bay) (unit : FixtureUnit) (univ channel fade : Nat) (levels : List Byte)
    (i : Fin 16) : (fun x : FixtureRun => x.takeLevels t { b with fixture := unit } univ channel fade levels i) =
      fun x => x.takeLevels t b univ channel fade levels i := by
  have same := retarget_congr t (b := b) (b' := { b with fixture := unit }) rfl rfl
  simp only [FixtureRun.takeLevels, same]

theorem takeLevels_eq (univ channel fade : Nat) (levels : List Byte) (t : Tables) (b : Bay) :
    takeLevels univ channel fade levels t b =
      each 16 (fun i b => b.updFixture i (fun x => x.takeLevels t b univ channel fade levels i)) b := rfl

theorem takeLevels_parts (univ channel fade : Nat) (levels : List Byte) (t : Tables) (b : Bay) :
    FixturesOnly b (takeLevels univ channel fade levels t b) ∧ ∀ i, (takeLevels univ channel fade levels t b).fixtureRec i =
      (b.fixtureRec i).takeLevels t b univ channel fade levels i := by
  obtain ⟨rest, records⟩ := eachOf_updFixture
    (fun i b => b.updFixture i (fun x => x.takeLevels t b univ channel fade levels i))
    (fun i b x => x.takeLevels t b univ channel fade levels i)
    (fun i b x => takeLevels_frame t b x univ channel fade levels i) (fun _ _ => rfl) (List.finRange 16)
    (List.nodup_finRange 16) b
  rw [takeLevels_eq]
  exact ⟨rest, fun i => (records i).trans (if_pos (List.mem_finRange i))⟩

/-- Settles O22. -/
theorem levelFrameRetargetsPatchedLines : Obligations.LevelFrameRetargetsPatchedLines := by
  intro s c own f h
  obtain ⟨rest, records⟩ := takeLevels_parts (field f.body 0 1) (field f.body 1 2) (field f.body 3 4) (f.body.drop 7)
    s.tables s.bay
  generalize levels : takeLevels (field f.body 0 1) (field f.body 1 2) (field f.body 3 4) (f.body.drop 7) s.tables s.bay = b
    at rest records
  have takes : exec (.levelFrame c) s = .next { (s.rxTake c).enterFrame f with bay := b } := by
    subst levels
    exact congrArg Host.Outcome.next (onFrame_of_completes s c .level _ own f h)
  refine ⟨_, takes, ?_, fun i comp level hlevel => ?_⟩
  · exact congrArg (fun b => { (s.rxTake c).enterFrame f with bay := b }) rest
  · show (b.fixtureRec i).scene = _ ∧ (b.fixtureRec i).intensity = _ ∧ (b.fixtureRec i).highlight = _ ∧
      (b.fixtureRec i).line.get comp = _
    rw [records]
    refine ⟨rfl, rfl, rfl, ?_⟩
    rw [FixtureRun.takeLevels, Quad.get_mapC, hlevel]
    cases s.tables.patch.get (patchIdx i comp) with
    | none => rfl
    | some p =>
      simp only [Option.bind_some, Bool.and_eq_true, decide_eq_true_eq]
      split
      · rfl
      · rfl

/-! ### Writes that act on their blocks -/

theorem axisWritten_axisRec (old new : AxisCfg) (a j : Fin 4) (b : Bay) : (axisWritten old new a b).axisRec j =
    if a = j ∧ new.feedback = .none ∧ old.feedback ≠ .none then { b.axisRec a with measured := (b.axisRec a).stepped }
    else b.axisRec j := by
  unfold axisWritten
  by_cases off : new.feedback = .none ∧ old.feedback ≠ .none
  · by_cases here : a = j <;> simp [off, here, Bay.updAxis_axisRec]
  · have off' : ¬ (new.feedback = .none && old.feedback != .none) = true := by simpa using off
    rw [if_neg off', if_neg fun h => off h.2]

/-- All but the records of the axes stands as it was. -/
def AxesOnly (b b' : Bay) : Prop := b' = { b with axis := { b.axis with axis := b'.axis.axis } }

theorem axesOnly_axisWritten {b b' : Bay} (h : AxesOnly b b') (old new : AxisCfg) (a : Fin 4) :
    AxesOnly b (axisWritten old new a b') := by
  unfold AxesOnly axisWritten Bay.updAxis
  rw [h]
  split <;> rfl

theorem axesWritten_parts (old new : Fin 4 → AxisCfg) (l : List (Fin 4)) (b : Bay) (nodup : l.Nodup) :
    AxesOnly b (eachOf l (fun a b => axisWritten (old a) (new a) a b) b) ∧
    ∀ a, (eachOf l (fun a b => axisWritten (old a) (new a) a b) b).axisRec a =
      if a ∈ l ∧ (new a).feedback = .none ∧ (old a).feedback ≠ .none
      then { b.axisRec a with measured := (b.axisRec a).stepped } else b.axisRec a := by
  refine ⟨eachOf_keeps (P := AxesOnly b) (fun a b' h => axesOnly_axisWritten h _ _ a) l b rfl, fun a => ?_⟩
  have written := eachOf_at (f := fun a b => axisWritten (old a) (new a) a b) (g := fun b : Bay => b.axisRec a)
    (fun _ => True) a
    (fun x => if (new a).feedback = .none ∧ (old a).feedback ≠ .none then { x with measured := x.stepped } else x)
    (fun _ _ _ => trivial) (fun j b' ne _ => (axisWritten_axisRec _ _ j a b').trans (if_neg fun h => ne h.1))
    (fun b' _ => (axisWritten_axisRec _ _ a a b').trans (by simp)) l b nodup trivial
  refine written.trans ?_
  by_cases mem : a ∈ l <;> simp [mem]

/-- All but the records of the triggers stands as it was. -/
def TriggersOnly (b b' : Bay) : Prop := b' = { b with trigger := { b.trigger with trigger := b'.trigger.trigger } }

theorem triggersOnly_updTrigger {b b' : Bay} (h : TriggersOnly b b') (n : Fin 12) (f : Trigger → Trigger) :
    TriggersOnly b (b'.updTrigger n f) := by
  unfold TriggersOnly Bay.updTrigger
  rw [h]

theorem Bay.updTrigger_triggerRec (b : Bay) (n m : Fin 12) (f : Trigger → Trigger) :
    (b.updTrigger n f).triggerRec m = if n = m then f (b.triggerRec n) else b.triggerRec m := Tab.get_upd _ n m f

theorem disarmDisabled_triggerRec (t : Tables) (n m : Fin 12) (b : Bay) : (disarmDisabled t n b).triggerRec m =
    if n = m ∧ (t.trigger.get n).enabled = false then { b.triggerRec n with state := .disarmed, lockout := 0 }
    else b.triggerRec m := by
  unfold disarmDisabled disarm
  cases enabled : (t.trigger.get n).enabled <;> simp [Bay.updTrigger_triggerRec]

theorem disarmDisabled_parts (t : Tables) (l : List (Fin 12)) (b : Bay) (nodup : l.Nodup) :
    TriggersOnly b (eachOf l (disarmDisabled t) b) ∧ ∀ n, (eachOf l (disarmDisabled t) b).triggerRec n =
      if n ∈ l ∧ (t.trigger.get n).enabled = false then { b.triggerRec n with state := .disarmed, lockout := 0 }
      else b.triggerRec n := by
  refine ⟨eachOf_keeps (P := TriggersOnly b) (fun n b' h => ?_) l b rfl, fun n => ?_⟩
  · unfold disarmDisabled
    split
    · exact h
    · exact triggersOnly_updTrigger h n _
  · refine (eachOf_at (g := fun b : Bay => b.triggerRec n) (fun _ => True) n
      (fun x => if (t.trigger.get n).enabled = false then { x with state := .disarmed, lockout := 0 } else x)
      (fun _ _ _ => trivial) (fun j b' ne _ => (disarmDisabled_triggerRec t j n b').trans (if_neg fun h => ne h.1))
      (fun b' _ => (disarmDisabled_triggerRec t n n b').trans (by simp)) l b nodup trivial).trans ?_
    by_cases mem : n ∈ l <;> simp [mem]

theorem proxWritten_eq (p : Fin 4) (old new : BitVec 4) (t : Tables) (b : Bay) : proxWritten p old new t b =
    if (b.axis.prox.get p).state = .clear then b
    else [0, 1, 2, 3].foldl (fun b (a : Fin 4) =>
      if new.getLsbD a.val = true ∧ old.getLsbD a.val = false then holdBy p a t b
      else if old.getLsbD a.val = true ∧ new.getLsbD a.val = false then unholdBy p a t b
      else b) b := by
  have four : List.finRange 4 = [0, 1, 2, 3] := rfl
  simp only [proxWritten, each, eachOf, four, Bool.and_eq_true, Bool.not_eq_true']

/-- Settles O57. -/
theorem writesActOnTheirBlocks : Obligations.WritesActOnTheirBlocks := by
  intro s i next hnext
  simp only [hnext]
  refine ⟨fun l t h ht => ?_, fun l t h ht => ?_, fun l t h ht => ⟨fun fit => ?_, fun unfit => ?_⟩,
    fun l t records h ht hrecords => ?_, fun l t h ht unlocked => ?_, fun l t h ht => ?_⟩
  · subst ht
    let t : Tables := { s.tables with patch := putEntries i l s.tables.patch }
    let lines := eachOf (named 64 i l.length) (fun e b => clearLine e t b) s.bay
    have rest : FixturesOnly s.bay lines := fixturesOnly_clearLines t _ s.bay
    refine ⟨lines.fixture.run, ?_, fun f x hx => ?_⟩
    · rw [← rest]
      show Host.Outcome.next (s.write _ (.plain _ _)) = _
      rw [write_plain h]
      rfl
    · subst hx
      have same {γ : Type} (g : FixtureRun → γ) (keep : ∀ e b, g ((clearLine e t b).fixtureRec f) = g (b.fixtureRec f)) :
          g (lines.fixtureRec f) = g (s.bay.fixtureRec f) :=
        eachOf_same (g := fun b : Bay => g (b.fixtureRec f)) keep _ s.bay
      refine ⟨same (·.scene) fun e b => (clearLine_fixtureRec e t b f).1,
        same (·.intensity) fun e b => (clearLine_fixtureRec e t b f).2.1,
        same (·.highlight) fun e b => (clearLine_fixtureRec e t b f).2.2.1, fun c => ?_⟩
      refine (clearLines_line t _ s.bay (nodup_named 64 i l.length) f c).trans ?_
      simp only [mem_named]
      rfl
  · subst ht
    show Host.Outcome.next (s.write _ (.plain _ _)) = _
    rw [write_plain h]
    rfl
  · subst ht
    obtain ⟨rest, records⟩ := axesWritten_parts s.tables.axis.get (putEntries i l s.tables.axis).get (named 4 i l.length)
      s.bay (nodup_named 4 i l.length)
    refine ⟨(eachOf (named 4 i l.length)
      (fun a b => axisWritten (s.tables.axis.get a) ((putEntries i l s.tables.axis).get a) a b) s.bay).axis.axis, ?_,
      fun a => (records a).trans (by simp only [mem_named, and_assoc])⟩
    rw [← rest]
    exact congrArg Host.Outcome.next (write_of_writes s .axis _ i l h ((axesFit_iff s i l).mpr fit) rfl)
  · subst ht
    obtain ⟨_, params, taken, table, form⟩ := h
    exact congrArg Host.Outcome.next (write_of_unfit _ taken table form (axesFit_eq_false unfit))
  · subst ht
    have same : records = named 4 i l.length := by
      rw [hrecords]
      exact List.filter_congr fun p _ => by simp
    subst same
    show Host.Outcome.next (s.write _ (.plain _ _)) = _
    rw [write_plain h]
    simp only [← proxWritten_eq]
    rfl
  · subst ht
    exact congrArg Host.Outcome.next (write_of_writes s .scene _ i l h rfl (not_any_slot unlocked))
  · subst ht
    let t : Tables := { s.tables with trigger := putEntries i l s.tables.trigger }
    obtain ⟨rest, records⟩ := disarmDisabled_parts t (named 12 i l.length) s.bay (nodup_named 12 i l.length)
    refine ⟨(eachOf (named 12 i l.length) (disarmDisabled t) s.bay).trigger.trigger, ?_,
      fun n => (records n).trans (by simp only [mem_named, and_assoc]; rfl)⟩
    rw [← rest]
    show Host.Outcome.next (s.write _ (.plain _ _)) = _
    rw [write_plain h]
    rfl

/-! ### Palette streaming (R21, R22) -/

theorem streamByte_of_short (p : Byte) {staged : List Byte} (palette : Tab Colour 256) (x : Byte)
    (short : staged.length < 3) : streamByte (⟨p, staged⟩, palette) x = (⟨p, staged ++ [x]⟩, palette) := by
  match staged with
  | [] | [_] | [_, _] => rfl
  | _ :: _ :: _ :: _ => simp at short; omega

theorem streamByte_of_three (p r g b x : Byte) (palette : Tab Colour 256) :
    streamByte (⟨p, [r, g, b]⟩, palette) x = (⟨p + 1, []⟩, palette.set p.toFin ⟨r, g, b, x⟩) := rfl

/-- A stream commits every four bytes of what was staged and what it brings, and stages the rest. -/
theorem foldl_streamByte (i : Fin 256) : ∀ (bytes : List Byte) (p : Byte) (staged : List Byte) (palette : Tab Colour 256)
    (l : List Byte), staged.length ≤ 3 → l = staged ++ bytes → l.length < 1024 →
    (bytes.foldl streamByte (⟨p, staged⟩, palette)).1 = ⟨p + BitVec.ofNat 8 (l.length / 4), l.drop (l.length / 4 * 4)⟩ ∧
    (bytes.foldl streamByte (⟨p, staged⟩, palette)).2.get i =
      if (BitVec.ofFin i - p).toNat < l.length / 4 then
        ⟨l.getD (4 * (BitVec.ofFin i - p).toNat) 0, l.getD (4 * (BitVec.ofFin i - p).toNat + 1) 0,
          l.getD (4 * (BitVec.ofFin i - p).toNat + 2) 0, l.getD (4 * (BitVec.ofFin i - p).toNat + 3) 0⟩
      else palette.get i
  | [], p, staged, palette, l, short, hl, _ => by
    rw [List.append_nil] at hl
    subst hl
    have none : l.length / 4 = 0 := by omega
    simp [none]
  | x :: bytes, p, staged, palette, l, short, hl, small => by
    rw [List.foldl_cons]
    by_cases full : staged.length < 3
    · rw [streamByte_of_short p palette x full]
      exact foldl_streamByte i bytes p (staged ++ [x]) palette l (by simp; omega) (by simpa using hl) small
    · match staged with
      | [r, g, b] =>
        rw [streamByte_of_three]
        obtain ⟨staging, entry⟩ := foldl_streamByte i bytes (p + 1) [] (palette.set p.toFin ⟨r, g, b, x⟩) bytes
          (Nat.zero_le _) rfl (by simp [hl] at small; omega)
        subst hl
        have count : ([r, g, b] ++ x :: bytes).length / 4 = bytes.length / 4 + 1 := by simp; omega
        have few : bytes.length / 4 < 255 := by simp at small; omega
        rw [staging, entry, count]
        refine ⟨?_, ?_⟩
        · have pointer : p + 1 + BitVec.ofNat 8 (bytes.length / 4) = p + BitVec.ofNat 8 (bytes.length / 4 + 1) := by
            rw [BitVec.add_assoc, BitVec.ofNat_add, BitVec.add_comm 1]
            rfl
          rw [pointer, Nat.add_mul]
          rfl
        · rw [Tab.get_set]
          by_cases here : p.toFin = i
          · have zero : (BitVec.ofFin i - p).toNat = 0 := by rw [← here]; simp
            have last : (BitVec.ofFin i - (p + 1)).toNat = 255 := by
              have eq : BitVec.ofFin i = p := by rw [← here]
              rw [eq]
              bv_omega
            rw [zero, last, if_neg (by omega), if_pos here, if_pos (by omega)]
            rfl
          · have apart : BitVec.ofFin i ≠ p := fun eq => here (by rw [← eq])
            have next : (BitVec.ofFin i - p).toNat = (BitVec.ofFin i - (p + 1)).toNat + 1 := by
              generalize (BitVec.ofFin i : Byte) = q at apart ⊢
              bv_omega
            rw [next, if_neg here]
            generalize ((BitVec.ofFin i : Byte) - (p + 1)).toNat = n
            have four : 4 * (n + 1) = 4 * n + 1 + 1 + 1 + 1 := by omega
            simp [four]
      | [] | [_] | [_, _] => simp at full
      | _ :: _ :: _ :: _ :: _ => simp at short; omega

theorem streamParams_eq (continues : Bool) (start : Byte) {bytes : List Byte} (short : bytes.length ≤ 196) :
    streamParams ((if continues then 1 else 0) :: start :: bytes) = some (continues, start, bytes) := by
  have fits : ¬ 196 < bytes.length := by omega
  cases continues <;> simp [streamParams, fits]

/-- Settles O21. -/
theorem paletteStreamCommitsWholeEntries : Obligations.PaletteStreamCommitsWholeEntries := by
  intro s continues start bytes taken idle short few
  have takes : exec .paletteStream s = .next (streamPalette continues start bytes s).done :=
    (taken_ask streamParams (fun p => unlessStoring (fun s => (streamPalette p.1 p.2.1 p.2.2 s).done)) taken
      (streamParams_eq continues start few)).trans (congrArg Host.Outcome.next (if_neg (Bool.eq_false_iff.mp idle)))
  refine ⟨_, takes, rfl, fun first l hfirst hl => ?_⟩
  have begins : (if continues then s.staging else ⟨start, []⟩) =
      (⟨first, if continues then s.staging.staged else []⟩ : Staging) := by
    subst hfirst
    cases continues <;> rfl
  have room : (if continues then s.staging.staged else []).length ≤ 3 := by
    cases continues
    · exact Nat.zero_le _
    · exact short
  have small : l.length < 1024 := by
    rw [hl, List.length_append]
    omega
  have committed (i : Fin 256) := foldl_streamByte i bytes first _ s.tables.palette l room hl small
  rw [← begins] at committed
  exact ⟨(committed 0).1, fun i => (committed i).2⟩

end Sys2Proof.Machine
end

section
/-! PROOFS. Triggers, cues, notices, the schedule and the queue's scan (O43 to O46, O48). -/

namespace Sys2Proof.Machine

/-! ### Tables searched for their first match -/

theorem Tab.mem_list {α : Type} {n : Nat} {t : Tab α n} {x : α} : x ∈ t.list ↔ ∃ i, t.get i = x := by
  constructor
  · intro mem
    obtain ⟨i, rfl⟩ := List.get_of_mem mem
    exact ⟨i.cast t.len, rfl⟩
  · rintro ⟨i, rfl⟩
    exact t.get_mem i

theorem Tab.findSome?_of_none {α β : Type} {n : Nat} (t : Tab α n) (f : α → Option β) (h : ∀ i, f (t.get i) = none) :
    t.list.findSome? f = none := by
  refine List.findSome?_eq_none_iff.mpr fun x mem => ?_
  obtain ⟨i, rfl⟩ := Tab.mem_list.mp mem
  exact h i

theorem Tab.findSome?_of_first {α β : Type} {n : Nat} (t : Tab α n) (f : α → Option β) {y : β} (i : Fin n)
    (here : f (t.get i) = some y) (before : ∀ j, j < i → f (t.get j) = none) : t.list.findSome? f = some y := by
  have inside : i.val < t.list.length := by rw [t.len]; exact i.isLt
  refine List.findSome?_eq_some_iff.mpr ⟨t.list.take i.val, t.get i, t.list.drop (i.val + 1), ?_, here, fun x mem => ?_⟩
  · have split := List.take_append_drop i.val t.list
    rw [List.drop_eq_getElem_cons inside] at split
    exact split.symm
  · obtain ⟨j, small, rfl⟩ := List.mem_take_iff_getElem.mp mem
    have first : j < i.val := by omega
    exact before ⟨j, by omega⟩ first

/-! ### GO cues (R145, R146) -/

theorem placeEntry_place (now : ShowTime) (e : ScheduleEntry) : ∀ l : List ScheduleEntry, ∃ front back, l = front ++ back ∧
    (∀ x ∈ front, timeDiff now x.time ≤ timeDiff now e.time) ∧
    (∀ x, back.head? = some x → timeDiff now e.time < timeDiff now x.time) ∧ placeEntry now e l = front ++ e :: back
  | [] => ⟨[], [], rfl, by simp, by simp, rfl⟩
  | x :: l => by
    unfold placeEntry
    split
    · next further => exact ⟨[], x :: l, rfl, by simp, by simpa using further, rfl⟩
    · next near =>
      obtain ⟨front, back, split, le, lt, placed⟩ := placeEntry_place now e l
      refine ⟨x :: front, back, by rw [split]; rfl, fun y mem => ?_, lt, by rw [placed]; rfl⟩
      rcases List.mem_cons.mp mem with rfl | mem
      · exact not_lt.mp near
      · exact le y mem

theorem cueSlot_of_none {t : Tables} {cue : BitVec 16}
    (h : ∀ (i : Fin 64) (e : CueMap), t.cue.get i = some e → e.cue ≠ cue) : cueSlot t cue = none := by
  rw [cueSlot, Tab.findSome?_of_none]
  · rfl
  · intro i
    match entry : t.cue.get i with
    | none => rfl
    | some e => simpa [Option.filter] using h i e entry

theorem cueSlot_of_first {t : Tables} {cue : BitVec 16} {i : Fin 64} {e : CueMap} (entry : t.cue.get i = some e)
    (same : e.cue = cue) (before : ∀ (j : Fin 64) (e' : CueMap), j < i → t.cue.get j = some e' → e'.cue ≠ cue) :
    cueSlot t cue = some e.slot := by
  rw [cueSlot, Tab.findSome?_of_first t.cue _ (y := e) i]
  · rfl
  · simp [entry, same]
  · intro j lt
    match entry' : t.cue.get j with
    | none => rfl
    | some e' => simpa [Option.filter] using before j e' lt entry'

theorem takeGo_of_slot {t : Tables} {b : Bay} {cue : BitVec 16} {slot : Fin 32} (time : Option ShowTime)
    (mode : b.trigger.mode = .showMode) (mapped : cueSlot t cue = some slot) : takeGo cue time t b =
      match time.filter (fun u => !reached b.time u) with
      | some u => scheduleGo slot u b
      | none => (b.setSchedule (b.trigger.schedule.filter (fun e => e.slot != slot))).request ⟨slot, .cue⟩ := by
  rw [takeGo, mode, mapped] <;> rfl

theorem takeGo_of_not {t : Tables} {b : Bay} {cue : BitVec 16} (time : Option ShowTime)
    (h : b.trigger.mode = .darkMode ∨ cueSlot t cue = none) : takeGo cue time t b = b := by
  unfold takeGo
  split
  · next mode slot => exact (h.elim (fun dark => nomatch mode.symm.trans dark) (fun none => nomatch slot.symm.trans none))
  · rfl

theorem takeNotice_of_none {t : Tables} {origin : Nat} {kind : NoticeKind} {number : Byte} (b : Bay)
    (h : ∀ (i : Fin 16) (e : Remote), t.remote.get i = some e →
      ¬ (e.origin.val = origin ∧ e.kind = kind ∧ e.number = number)) : takeNotice origin kind number t b = b := by
  rw [takeNotice, Tab.findSome?_of_none]
  intro i
  match entry : t.remote.get i with
  | none => rfl
  | some e =>
    have other : ¬ (e.origin.val = origin && e.kind = kind && e.number = number) = true := by
      simpa [and_assoc] using h i e entry
    simp [Option.filter, Bool.eq_false_iff.mpr other]

theorem takeNotice_of_first {t : Tables} {origin : Nat} {kind : NoticeKind} {number : Byte} (b : Bay) {i : Fin 16}
    {e : Remote} (entry : t.remote.get i = some e) (same : e.origin.val = origin ∧ e.kind = kind ∧ e.number = number)
    (before : ∀ (j : Fin 16) (e' : Remote), j < i → t.remote.get j = some e' →
      ¬ (e'.origin.val = origin ∧ e'.kind = kind ∧ e'.number = number)) :
    takeNotice origin kind number t b = b.request ⟨e.slot, .remote⟩ := by
  rw [takeNotice, Tab.findSome?_of_first t.remote _ (y := e) i]
  · simp [entry, same]
  · intro j lt
    match entry' : t.remote.get j with
    | none => rfl
    | some e' =>
      have other : ¬ (e'.origin.val = origin && e'.kind = kind && e'.number = number) = true := by
        simpa [and_assoc] using before j e' lt entry'
      simp [Option.filter, Bool.eq_false_iff.mpr other]

theorem contains_schedule {c : Instr} (reset : isReset c = false) (go : ∀ x, c ≠ .cueGo x) :
    (changes c).contains .schedule = false := by
  cases c
  case cueGo x => exact absurd rfl (go x)
  all_goals first | rfl | exact Bool.noConfusion reset

/-- Settles O46. -/
theorem goCuesAndNoticesAskForScenes : Obligations.GoCuesAndNoticesAskForScenes := by
  refine ⟨fun t b cue time => ⟨fun h => ?_, fun i e mode entry same before others hothers due hdue => ?_⟩,
    fun t b origin kind number => ⟨takeNotice_of_none b, fun i e entry h1 h2 h3 before => ?_⟩,
    fun s c own f => ⟨fun h => ?_, fun h => ?_⟩, fun c s t h reset go => ?_⟩
  · exact takeGo_of_not time (h.imp_right cueSlot_of_none)
  · have takes := takeGo_of_slot time mode (cueSlot_of_first entry same before)
    have kept : others = b.trigger.schedule.filter (fun x => x.slot != e.slot) := by
      rw [hothers]
      exact List.filter_congr fun x _ => Bool.eq_iff_iff.mpr (by simp)
    refine ⟨fun now => ?_, fun later u htime => ?_⟩
    · have none : time.filter (fun u => !reached b.time u) = none := by
        match time with
        | none => rfl
        | some u => simp [Option.filter, hdue.mp now u rfl]
      rw [takes, none, kept]
      rfl
    · have ahead : reached b.time u = false := by
        refine Bool.eq_false_iff.mpr fun now => Bool.noConfusion (later.symm.trans (hdue.mpr fun u' eq => ?_))
        obtain rfl := Option.some.inj (htime.symm.trans eq)
        exact now
      have some : time.filter (fun u => !reached b.time u) = some u := by simp [htime, Option.filter, ahead]
      have schedules : takeGo cue time t b = scheduleGo e.slot u b := by rw [takes, some]
      rw [schedules, scheduleGo, ← kept]
      refine ⟨fun full => ?_, fun room => ?_⟩
      · rw [if_neg (by omega)]
        rfl
      · rw [if_pos room]
        obtain ⟨front, back, split, le, lt, placed⟩ := placeEntry_place b.time ⟨e.slot, u⟩ others
        exact ⟨front, back, split, le, lt, by rw [placed]; rfl⟩
  · exact takeNotice_of_first b entry ⟨h1, h2, h3⟩ before
  · exact congrArg Host.Outcome.next (onFrame_of_completes s c .go _ own f h)
  · exact congrArg Host.Outcome.next (onFrame_of_completes s c .notice _ own f h)
  · exact same_of_exec (p := .schedule) h (contains_schedule reset go)

/-! ### The mode (R150, R151) -/

theorem each_updTrigger_triggerRec (f : Fin 12 → Trigger → Trigger) (b : Bay) (n : Fin 12) :
    (each 12 (fun m b => b.updTrigger m (f m)) b).triggerRec n = f n (b.triggerRec n) := by
  have turn := eachOf_at (f := fun m (b : Bay) => b.updTrigger m (f m)) (g := fun b : Bay => b.triggerRec n)
    (fun _ => True) n (f n) (fun _ _ _ => trivial) (fun j b ne _ => (b.updTrigger_triggerRec j n _).trans (if_neg ne))
    (fun b _ => (b.updTrigger_triggerRec n n _).trans (if_pos rfl)) (List.finRange 12) b (List.nodup_finRange 12) trivial
  rw [if_pos (List.mem_finRange n)] at turn
  exact turn

theorem Bay.updTrigger_self (b : Bay) (n : Fin 12) (f : Trigger → Trigger) (h : f (b.triggerRec n) = b.triggerRec n) :
    b.updTrigger n f = b := by
  have same : b.trigger.trigger.upd n f = b.trigger.trigger := by
    refine Tab.ext_get fun m => ?_
    rw [Tab.get_upd]
    split
    · next here => subst here; exact h
    · rfl
  rw [Bay.updTrigger, same]

theorem Bay.updTrigger_congr (b : Bay) (n : Fin 12) {f g : Trigger → Trigger} (h : f (b.triggerRec n) = g (b.triggerRec n)) :
    b.updTrigger n f = b.updTrigger n g :=
  congrArg (fun t => { b with trigger := { b.trigger with trigger := b.trigger.trigger.set n t } }) h

theorem armEnabled_eq (t : Tables) (b : Bay) : armEnabled t b = each 12 (fun n b => b.updTrigger n fun x =>
    if (t.trigger.get n).enabled then { x with state := .armed, lockout := 0 } else x) b := by
  unfold armEnabled
  congr 1
  funext n b
  split
  · rfl
  · exact (b.updTrigger_self n _ rfl).symm

theorem armEnabled_parts (t : Tables) (b : Bay) : TriggersOnly b (armEnabled t b) ∧ ∀ n, (armEnabled t b).triggerRec n =
    if (t.trigger.get n).enabled = true then { b.triggerRec n with state := .armed, lockout := 0 } else b.triggerRec n := by
  rw [armEnabled_eq]
  exact ⟨each_keeps (P := TriggersOnly b) (fun n b' h => triggersOnly_updTrigger h n _) b rfl,
    each_updTrigger_triggerRec _ b⟩

theorem haltAll_of_dark {b : Bay} (t : Tables) (dark : b.trigger.mode = .darkMode) : haltAll t b = b := by
  rw [haltAll, dark]

theorem enterDark_of_dark {b : Bay} (t : Tables) (dark : b.trigger.mode = .darkMode) : enterDark t b = b := by
  rw [enterDark, dark]

theorem enterShow_of_dark {b : Bay} (t : Tables) (dark : b.trigger.mode = .darkMode) :
    enterShow t b = armEnabled t (b.setMode .showMode) := by
  rw [enterShow, dark]

theorem enterShow_of_show {b : Bay} (t : Tables) (showing : b.trigger.mode = .showMode) : enterShow t b = b := by
  rw [enterShow, showing]

/-- Settles O48. -/
theorem modeChangesByCueAndAsk : Obligations.ModeChangesByCueAndAsk := by
  refine ⟨fun t b => ⟨fun dark => ?_, enterShow_of_show t⟩, fun s c own f => ⟨fun h => ?_, fun h => ?_, fun h => ?_⟩,
    fun s => ⟨fun taken => ?_, fun taken => ?_⟩⟩
  · obtain ⟨rest, records⟩ := armEnabled_parts t (b.setMode .showMode)
    rw [enterShow_of_dark t dark]
    exact ⟨haltAll_of_dark t dark, enterDark_of_dark t dark, rest, records⟩
  · exact congrArg Host.Outcome.next (onFrame_of_completes s c .haltAll _ own f h)
  · exact congrArg Host.Outcome.next (onFrame_of_completes s c .houseDark _ own f h)
  · exact congrArg Host.Outcome.next (onFrame_of_completes s c .houseShow _ own f h)
  · exact taken_ask modeParam (fun m s => settle (s.onBay (changeMode m)).done) taken (x := .showMode) rfl
  · exact taken_ask modeParam (fun m s => settle (s.onBay (changeMode m)).done) taken (x := .darkMode) rfl

/-! ### Presses (R138, R139) -/

theorem getLsbD_setBit {n : Nat} (m : BitVec n) (on : Bool) {i j : Nat} (hj : j < n) :
    (setBit m i on).getLsbD j = if j = i then on else m.getLsbD j := by
  have bit : (BitVec.ofNat n (2 ^ i)).getLsbD j = decide (j = i) := by
    rw [BitVec.getLsbD_ofNat, Nat.testBit_two_pow, decide_eq_true hj, Bool.true_and, decide_eq_decide]
    exact eq_comm
  unfold setBit
  cases on
  · rw [if_neg Bool.false_ne_true, BitVec.getLsbD_and, BitVec.getLsbD_not, bit, decide_eq_true hj]
    by_cases here : j = i <;> simp [here]
  · rw [if_pos rfl, BitVec.getLsbD_or, bit]
    by_cases here : j = i <;> simp [here]

theorem notify_of_room {b : Bay} (n : Notice) (room : b.notices.length < 4) :
    b.notify n = { b with notices := b.notices ++ [n] } := if_pos room

theorem notify_of_full {b : Bay} (n : Notice) (full : 4 ≤ b.notices.length) :
    b.notify n = { b with latched := b.latched ||| 0x80 } := if_neg (not_lt.mpr full)

/-- All but what a press may change: triggers, pins, requests in flight, notices and the error summary. -/
def PressOnly (b b' : Bay) : Prop := b' = { b with
  trigger := { b.trigger with trigger := b'.trigger.trigger, pins := b'.trigger.pins }
  claim := { b.claim with inFlight := b'.claim.inFlight }, notices := b'.notices, latched := b'.latched }

theorem pressRequest_parts (n : Fin 12) (slot : Option (Fin 32)) (b : Bay) :
    PressOnly b (pressRequest n slot b) ∧ (pressRequest n slot b).notices = b.notices ∧
    (pressRequest n slot b).latched = b.latched ∧ (∀ m, m ≠ n → (pressRequest n slot b).triggerRec m = b.triggerRec m) ∧
    (∀ x, slot = some x → (pressRequest n slot b).triggerRec n = { b.triggerRec n with pending := true } ∧
      (pressRequest n slot b).claim.inFlight = b.claim.inFlight ++ [⟨x, .trigger n⟩]) ∧
    (slot = none → pressRequest n slot b = b) := by
  cases slot with
  | none => exact ⟨rfl, rfl, rfl, fun _ _ => rfl, fun _ eq => (nomatch eq), fun _ => rfl⟩
  | some x =>
    refine ⟨rfl, rfl, rfl, fun m ne => ?_, fun y eq => ?_, fun eq => (nomatch eq)⟩
    · exact (b.updTrigger_triggerRec n m _).trans (if_neg ne.symm)
    · obtain rfl := Option.some.inj eq
      exact ⟨(b.updTrigger_triggerRec n n _).trans (if_pos rfl), rfl⟩

theorem notify_parts (b : Bay) (x : Notice) : (b.notify x).trigger = b.trigger ∧ (b.notify x).claim = b.claim ∧
    PressOnly b (b.notify x) := by
  unfold Bay.notify
  split <;> exact ⟨rfl, rfl, rfl⟩

theorem PressOnly.trans {a b c : Bay} (h : PressOnly a b) (g : PressOnly b c) : PressOnly a c := by
  unfold PressOnly at h g ⊢
  rw [g, h]

/-- What a press that the trigger's state and the mode let through does. -/
theorem press_parts (n : Fin 12) (t : Tables) (b : Bay) (mode : b.trigger.mode = .showMode)
    (armed : (b.triggerRec n).state = .armed) (free : (b.triggerRec n).pending = false) :
    PressOnly b (press n t b) ∧ (∀ m, m ≠ n → (press n t b).triggerRec m = b.triggerRec m) ∧
    (∀ slot, (t.trigger.get n).slot = some slot → (press n t b).triggerRec n = { b.triggerRec n with pending := true } ∧
      (press n t b).claim.inFlight = b.claim.inFlight ++ [⟨slot, .trigger n⟩]) ∧
    ((t.trigger.get n).slot = none → (press n t b).triggerRec n = b.triggerRec n ∧
      (press n t b).claim.inFlight = b.claim.inFlight) ∧
    ((t.trigger.get n).broadcast = true → b.notices.length < 4 →
      (press n t b).notices = b.notices ++ [⟨.trigger, BitVec.ofNat 8 n.val⟩] ∧ (press n t b).latched = b.latched) ∧
    ((t.trigger.get n).broadcast = true → 4 ≤ b.notices.length →
      (press n t b).notices = b.notices ∧ (press n t b).latched = b.latched ||| 0x80) ∧
    ((t.trigger.get n).broadcast = false → (press n t b).notices = b.notices ∧ (press n t b).latched = b.latched) := by
  rw [press_of_ready n t b mode armed free]
  obtain ⟨only, notices, latched, others, asks, none⟩ := pressRequest_parts n (t.trigger.get n).slot b
  have silent (h : (t.trigger.get n).slot = Option.none) :
      (pressRequest n (t.trigger.get n).slot b).triggerRec n = b.triggerRec n ∧
        (pressRequest n (t.trigger.get n).slot b).claim.inFlight = b.claim.inFlight := by
    rw [none h]
    exact ⟨rfl, rfl⟩
  cases broadcast : (t.trigger.get n).broadcast
  · exact ⟨only, others, asks, silent, fun h => (nomatch h), fun h => (nomatch h), fun _ => ⟨notices, latched⟩⟩
  · rw [if_pos rfl]
    obtain ⟨trigger, claim, notified⟩ := notify_parts (pressRequest n (t.trigger.get n).slot b)
      ⟨.trigger, BitVec.ofNat 8 n.val⟩
    have record (m : Fin 12) : ((pressRequest n (t.trigger.get n).slot b).notify
        ⟨.trigger, BitVec.ofNat 8 n.val⟩).triggerRec m = (pressRequest n (t.trigger.get n).slot b).triggerRec m :=
      congrArg (fun u : TriggerUnit => u.trigger.get m) trigger
    refine ⟨only.trans notified, fun m ne => (record m).trans (others m ne), fun slot eq => ?_, fun eq => ?_,
      fun _ room => ?_, fun _ full => ?_, fun h => nomatch h⟩
    · rw [record, claim]
      exact asks slot eq
    · rw [record, claim]
      exact silent eq
    · rw [← notices] at room
      rw [notify_of_room _ room]
      exact ⟨congrArg (· ++ _) notices, latched⟩
    · rw [← notices] at full
      rw [notify_of_full _ full]
      exact ⟨notices, congrArg (· ||| _) latched⟩

theorem pressed_pressPin (n : Fin 12) (t : Tables) (b : Bay) : pressed (pressPin n t b) t b n =
    (b.trigger.pins.getLsbD n.val != (t.trigger.get n).polarity.active) := by
  have at_active : (pressPin n t b).getLsbD n.val = (t.trigger.get n).polarity.active :=
    (getLsbD_setBit _ _ n.isLt).trans (if_pos rfl)
  rw [pressed, at_active, decide_eq_true rfl, Bool.true_and]

/-- Settles O44. -/
theorem pressesAreTakenByStateAndMode : Obligations.PressesAreTakenByStateAndMode := by
  intro s n late high cfg x hcfg hx hhigh
  subst hcfg hx
  have active : (s.tables.trigger.get n).polarity.active = high := by
    refine Bool.eq_iff_iff.mpr (Iff.trans ?_ hhigh.symm)
    cases (s.tables.trigger.get n).polarity <;> decide
  refine ⟨fun quiet => ?_, fun ready changed => ?_⟩
  · show execTriggerPress n late s = _
    rw [execTriggerPress, pressed_pressPin, active]
    refine if_neg ?_
    rcases quiet with early | same
    · simp [early]
    · rw [same, bne_self_eq_false, Bool.and_false]
      exact Bool.false_ne_true
  · have takes : exec (.triggerPress n late) s =
        .next (if late then s.onBay (takePress n) else settle (s.onBay (takePress n))) := by
      show execTriggerPress n late s = _
      rw [execTriggerPress, pressed_pressPin, active]
      exact if_pos (Bool.and_eq_true_iff.mpr ⟨ready, bne_iff_ne.mpr changed⟩)
    have pins (m : Fin 12) : (pressPin n s.tables s.bay).getLsbD m.val =
        if m = n then high else s.bay.trigger.pins.getLsbD m.val := by
      rw [pressPin, getLsbD_setBit _ _ m.isLt, active]
      simp only [Fin.ext_iff]
    by_cases ready : s.bay.trigger.mode = .showMode ∧ (s.bay.triggerRec n).state = .armed ∧
        (s.bay.triggerRec n).pending = false
    · obtain ⟨mode, armed, free⟩ := ready
      obtain ⟨only, others, asks, silent, room, full, quiet⟩ := press_parts n s.tables s.bay mode armed free
      refine ⟨takePress n s.tables s.bay, takes, ?_, pins, others, fun no => ?_,
        fun _ _ _ => ⟨asks, silent, room, full, quiet⟩⟩
      · exact only.trans rfl
      · rcases no with dark | other | pending
        · exact nomatch mode.symm.trans dark
        · exact absurd armed other
        · exact nomatch free.symm.trans pending
    · have none : takePress n s.tables s.bay = keepPins (pressPin n s.tables s.bay) s.bay := by
        rw [takePress, press_of_not n s.tables s.bay ready]
      refine ⟨takePress n s.tables s.bay, takes, ?_⟩
      rw [none]
      exact ⟨rfl, pins, fun _ _ => rfl, fun _ => ⟨rfl, rfl, rfl, rfl⟩,
        fun mode armed free => absurd ⟨mode, armed, free⟩ ready⟩

/-! ### Outcomes, lockouts and asks (R140 to R143) -/

/-- A parameter that is one number below `n`. -/
theorem finParam_one {n : Nat} (small : n ≤ 256) {p : Byte} {i : Fin n} (h : p.toNat = i.val) :
    (Codec.fin 1 n).whole [p] = some i := by
  have bytes : (Codec.fin 1 n).enc i = [p] := by
    simp [Codec.fin, Codec.via, Codec.number, bytesOf, ← h]
  have read := (Codec.fin_lawful (w := 1) (by simpa using small)).rt i [] trivial
  rw [bytes, List.append_nil] at read
  simp [Codec.whole, read]

theorem firstOutcome_triggerRec (n m : Fin 12) (o : ReqOutcome) (b : Bay) : (firstOutcome n o b).triggerRec m =
    if n = m then
      (if (b.triggerRec n).state = .armed then ({ b.triggerRec n with pending := false } : Trigger).outcome o
       else { b.triggerRec n with pending := false })
    else b.triggerRec m := b.updTrigger_triggerRec n m _

theorem secondOutcome_triggerRec (n m : Fin 12) (admitted : Bool) (b : Bay) :
    (secondOutcome n admitted b).triggerRec m =
      if n = m then
        (if (b.triggerRec n).state = .waiting then { b.triggerRec n with state := if admitted then .busy else .armed }
         else b.triggerRec n)
      else b.triggerRec m := b.updTrigger_triggerRec n m _

theorem Trigger.count_of_lockout {x : Trigger} (h : x.state = .lockout) : x.count =
    if x.lockout ≤ 1 then { x with state := .armed, lockout := 0 } else { x with lockout := x.lockout - 1 } := by
  have zero : x.lockout - 1 = 0 ↔ x.lockout ≤ 1 := by omega
  simp only [Trigger.count, h, Trigger.expire, decide_true, Bool.true_and, decide_eq_true_eq, zero]
  split
  · next last => rw [zero.mpr last]
  · rfl

theorem Trigger.count_of_waiting {x : Trigger} (h : x.state = .waiting) : x.count =
    if 500 ≤ x.flash + 1 then { x with flash := 0, flashLit := !x.flashLit } else { x with flash := x.flash + 1 } := by
  simp only [Trigger.count, h, Trigger.flashOver, decide_true, Bool.true_and, decide_eq_true_eq]

theorem Trigger.count_of_other {x : Trigger} (h : x.state ≠ .lockout) (h' : x.state ≠ .waiting) : x.count = x := by
  unfold Trigger.count
  split
  · next e => exact absurd e h
  · next e => exact absurd e h'
  all_goals rfl

/-- Settles O45. -/
theorem triggersFollowOutcomesLockoutsAndAsks : Obligations.TriggersFollowOutcomesLockoutsAndAsks := by
  refine ⟨fun b n m x hx => ⟨fun other => ⟨fun o => ?_, fun a => ?_⟩, fun busy o => ?_, fun armed => ?_, fun waiting => ?_,
    fun other a => ?_, ?_, ?_⟩, fun s n x hx => ⟨fun lockout ended => ?_, fun waiting long => ?_⟩,
    fun s p n hp => ⟨fun taken => ?_, fun taken => ?_⟩⟩
  · exact (firstOutcome_triggerRec n m o b).trans (if_neg other.symm)
  · exact (secondOutcome_triggerRec n m a b).trans (if_neg other.symm)
  · subst hx
    exact (firstOutcome_triggerRec n n o b).trans ((if_pos rfl).trans (if_neg busy))
  · subst hx
    have outcome (o : ReqOutcome) := (firstOutcome_triggerRec n n o b).trans ((if_pos rfl).trans (if_pos armed))
    exact ⟨outcome _, outcome _, outcome _, outcome _, outcome _⟩
  · subst hx
    have outcome (a : Bool) := (secondOutcome_triggerRec n n a b).trans ((if_pos rfl).trans (if_pos waiting))
    exact ⟨outcome true, outcome false⟩
  · subst hx
    exact (secondOutcome_triggerRec n n a b).trans ((if_pos rfl).trans (if_neg other))
  · subst hx
    refine (each_updTrigger_triggerRec (fun _ => Trigger.count) b n).trans ?_
    by_cases lockout : (b.triggerRec n).state = .lockout
    · rw [if_pos lockout, Trigger.count_of_lockout lockout]
    · by_cases waiting : (b.triggerRec n).state = .waiting
      · rw [if_neg lockout, if_pos waiting, Trigger.count_of_waiting waiting]
      · rw [if_neg lockout, if_neg waiting, Trigger.count_of_other lockout waiting]
  · subst hx
    simp [indicator]
  · subst hx
    refine congrArg (fun b => Host.Outcome.next { s with bay := b }) (s.bay.updTrigger_congr n ?_)
    simp [Trigger.expire, lockout, ended]
  · subst hx
    refine congrArg (fun b => Host.Outcome.next { s with bay := b }) (s.bay.updTrigger_congr n ?_)
    simp [Trigger.flashOver, waiting, long]
  · exact taken_ask triggerParam (fun n s => (s.onBay (fun _ b => disarm n b)).done) taken (finParam_one (by decide) hp)
  · refine (taken_ask triggerParam (fun n s => (s.onBay (arm n)).done) taken (finParam_one (by decide) hp)).trans ?_
    have arms : arm n s.tables s.bay = if (s.tables.trigger.get n).enabled = true ∧
        ((s.bay.triggerRec n).state = .disarmed ∨ (s.bay.triggerRec n).state = .lockout)
        then s.bay.updTrigger n (fun x => { x with state := .armed, lockout := 0 }) else s.bay := by
      unfold arm
      by_cases enabled : (s.tables.trigger.get n).enabled = true
      · by_cases down : (s.bay.triggerRec n).state = .disarmed ∨ (s.bay.triggerRec n).state = .lockout
        · rw [if_pos enabled, if_pos ⟨enabled, down⟩]
          exact s.bay.updTrigger_congr n (if_pos (by simpa using down))
        · rw [if_pos enabled, if_neg fun h => down h.2]
          exact s.bay.updTrigger_self n _ (if_neg (by simpa using down))
      · rw [if_neg enabled, if_neg fun h => enabled h.1]
    show Host.Outcome.next ({ s with bay := arm n s.tables s.bay } : State).done = _
    rw [arms]
    split <;> rfl

/-! ### Expiry, the schedule and the scan (R127, R130, R131, R147) -/

theorem triggersOnly_reportSecond {b b' : Bay} (h : TriggersOnly b b') (o : Origin) (admitted : Bool) :
    TriggersOnly b (reportSecond o admitted b') := by
  unfold reportSecond
  split
  · exact triggersOnly_updTrigger h _ _
  all_goals exact h

theorem reportSecond_false_triggerRec (o : Origin) (n : Fin 12) (b : Bay) : (reportSecond o false b).triggerRec n =
    if o = .trigger n ∧ (b.triggerRec n).state = .waiting then { b.triggerRec n with state := .armed }
    else b.triggerRec n := by
  cases o with
  | trigger m =>
    refine (secondOutcome_triggerRec m n false b).trans ?_
    by_cases here : m = n
    · subst here
      simp
    · simp [here]
  | remote | cue | control | scene => simp [reportSecond]

/-- Each WAITING trigger that made one of the requests becomes ARMED. -/
theorem eachOf_reportSecond_triggerRec (n : Fin 12) : ∀ (l : List QueueEntry) (b : Bay),
    (eachOf l (fun e b => reportSecond e.origin false b) b).triggerRec n =
      if (∃ e ∈ l, e.origin = .trigger n) ∧ (b.triggerRec n).state = .waiting then { b.triggerRec n with state := .armed }
      else b.triggerRec n
  | [], b => by simp
  | e :: l, b => by
    rw [eachOf_cons, eachOf_reportSecond_triggerRec n l, reportSecond_false_triggerRec]
    by_cases here : e.origin = .trigger n
    · by_cases waiting : (b.triggerRec n).state = .waiting <;> simp [here, waiting]
    · simp [here]

theorem expiryCheck_eq (b : Bay) {late : QueueEntry → Bool}
    (h : ∀ e, late e = true ↔ ∃ d, e.deadline = some d ∧ passed b.time d = true) : expiryCheck b =
      eachOf (b.claim.queue.filter late) (fun e b => reportSecond e.origin false b)
        (b.setQueue (b.claim.queue.filter fun e => !late e)) := by
  obtain rfl : (fun e : QueueEntry => (e.deadline.map (passed b.time)).getD false) = late := by
    funext e
    refine Bool.eq_iff_iff.mpr (Iff.trans ?_ (h e).symm)
    cases e.deadline <;> simp
  rfl

theorem eachOf_request (b : Bay) : ∀ (l : List ScheduleEntry) (asked : List Request),
    eachOf l (fun e b => b.request ⟨e.slot, .cue⟩) { b with claim := { b.claim with inFlight := asked } } =
      { b with claim := { b.claim with inFlight := asked ++ l.map (fun e => ⟨e.slot, .cue⟩) } }
  | [], asked => by simp
  | e :: l, asked => by
    rw [eachOf_cons]
    refine (eachOf_request b l (asked ++ [⟨e.slot, .cue⟩])).trans ?_
    rw [List.append_assoc]
    rfl

theorem checkSchedule_eq (b : Bay) : checkSchedule b = { b with
    trigger := { b.trigger with schedule := b.trigger.schedule.filter (fun e => !reached b.time e.time) }
    claim := { b.claim with inFlight :=
      b.claim.inFlight ++ (b.trigger.schedule.filter fun e => reached b.time e.time).map fun e => ⟨e.slot, .cue⟩ } } :=
  eachOf_request (b.setSchedule (b.trigger.schedule.filter fun e => !reached b.time e.time)) _ b.claim.inFlight

theorem withdraw_of_queued {b : Bay} {e : QueueEntry} (h : queued b e.slot = some e) :
    withdraw e.slot b = reportSecond e.origin false (unqueue e.slot b) := by
  rw [withdraw, h]

theorem not_discards {t : Tables} {b : Bay} {slot : Fin 32} (mode : b.trigger.mode = .showMode)
    (enabled : (t.scene.get slot).enabled = true) (steps : (t.scene.get slot).stepCount ≠ 0)
    (duration : (t.scene.get slot).duration.val ≠ 0) : discards t b slot = false := by
  refine Bool.eq_false_iff.mpr fun h => ?_
  rcases (discards_iff t b slot).mp h with dark | off | none | zero
  · exact nomatch mode.symm.trans dark
  · exact nomatch enabled.symm.trans off
  · exact steps none
  · exact duration zero

/-- Settles O43. -/
theorem expiryScheduleAndScan : Obligations.ExpiryScheduleAndScan := by
  refine ⟨fun s late hlate => ?_, fun s due hdue => ?_, fun s k live zero => ?_, fun _ _ _ => rfl, fun endK t b e none => ?_,
    fun endK t b e h hh here => ⟨fun out => ?_, fun mode enabled steps duration carried => ?_,
      fun mode enabled steps duration idle => ⟨fun k admits => ?_, fun blocked => ?_⟩⟩⟩
  · let left := s.bay.setQueue (s.bay.claim.queue.filter fun e => !late e)
    have checked := expiryCheck_eq s.bay hlate
    have rest : TriggersOnly left (expiryCheck s.bay) := by
      rw [checked]
      exact eachOf_keeps (P := TriggersOnly left) (fun e _ h => triggersOnly_reportSecond h e.origin false) _ left rfl
    refine ⟨_, rfl, congrArg (fun b => { s with bay := b }) rest, fun n => ?_⟩
    have asked : (∃ e ∈ s.bay.claim.queue.filter late, e.origin = .trigger n) ↔
        ∃ e ∈ s.bay.claim.queue, late e = true ∧ e.origin = .trigger n := by
      simp only [List.mem_filter, and_assoc]
    have record : (expiryCheck s.bay).triggerRec n = _ :=
      (congrArg (fun b : Bay => b.triggerRec n) checked).trans (eachOf_reportSecond_triggerRec n _ left)
    simp only [asked] at record
    exact record
  · obtain rfl : (fun e : ScheduleEntry => reached s.bay.time e.time) = due := funext fun e => (hdue e).symm
    exact congrArg (fun b => Host.Outcome.next (settle { s with bay := b })) (checkSchedule_eq s.bay)
  · have scans : guardExpiry k s.tables s.bay = scan endRun s.tables s.bay := by simp [guardExpiry, live, zero]
    exact congrArg (fun b => Host.Outcome.next (settle { s with bay := b })) scans
  · have absent : queued b e.slot = Option.none := none
    rw [scanEntry, absent]
    rfl
  · have found : queued b e.slot = some e := here
    have out : discards t b e.slot = true := (discards_iff t b e.slot).mpr (hh ▸ out)
    have withdrawn : scanEntry endK t e b = withdraw e.slot b := by
      rw [scanEntry, found, out]
      rfl
    rw [withdrawn]
    refine ⟨(withdraw_parts e.slot b).2.2, fun n origin waiting => ?_⟩
    rw [withdraw_of_queued found, reportSecond_false_triggerRec, if_pos ⟨origin, waiting⟩]
  · have found : queued b e.slot = some e := here
    subst hh
    rw [scanEntry, found, not_discards mode enabled steps duration, Option.isSome_iff_ne_none.mpr carried]
    rfl
  · have found : queued b e.slot = some e := here
    subst hh
    rw [scanEntry, found, not_discards mode enabled steps duration, idle, admits]
    have left : unqueue e.slot b =
        { b with claim := { b.claim with queue := b.claim.queue.filter (fun x => x.slot ≠ e.slot) } } := by
      refine congrArg (fun q => { b with claim := { b.claim with queue := q } }) ?_
      exact List.filter_congr fun x _ => Bool.eq_iff_iff.mpr (by simp)
    rw [← left]
    rfl
  · have found : queued b e.slot = some e := here
    subst hh
    rw [scanEntry, found, not_discards mode enabled steps duration, idle, blocked]
    rfl

end Sys2Proof.Machine
end

section
/-! PROOFS. The image pages read back, the millisecond and the PWM period, READ-TABLE and the resets. -/

namespace Sys2Proof.Machine

/-! ### The pages of the image (R186) -/

theorem flatMap_pages (t : Tables) : (List.range 80).flatMap t.page = t.image :=
  flatMap_chunks 80 t.image (length_image t)

theorem crc16From_append (crc : BitVec 16) (l m : List Byte) :
    crc16From crc (l ++ m) = crc16From (crc16From crc l) m := List.foldl_append

/-- The check taken page by page is the check of the pages in one. -/
theorem foldl_crc16From (page : Nat → List Byte) (l : List Nat) (crc : BitVec 16) :
    l.foldl (fun crc i => crc16From crc (page i)) crc = crc16From crc (l.flatMap page) := by
  induction l generalizing crc with
  | nil => rfl
  | cons i l ih => rw [List.foldl_cons, ih, List.flatMap_cons, crc16From_append]

theorem imageValid_trailerPage (body : List Byte) : imageValid (trailerPage (crc16 body)) body = true := by
  have check : ((trailerPage (crc16 body)).drop 5).take 2 = bytesOf 2 (crc16 body).toNat := rfl
  have number := numberOf_bytesOf 2 (crc16 body).toNat (crc16 body).isLt
  rw [imageValid, check, decide_eq_true number]
  rfl

/-- Settles O5. -/
theorem storedImageReadsBack : Obligations.StoredImageReadsBack := by
  intro t fits
  refine ⟨?_, foldl_crc16From _ _ _⟩
  have tables : tablesOf t.image = some (t, _) := tablesOf_body t fits _
  rw [flatMap_pages, imageTables, if_pos (imageValid_trailerPage _), tables]
  rfl

/-! ### The PWM period (R28 to R31) -/

/-- No turn but the fixture unit's changes a duty. -/
theorem blockTurn_duty_of_ne (inp : MsInputs) {x : Block} (h : x ≠ .fixture) (s : State) :
    (blockTurn inp x s).bay.fixture.duty = s.bay.fixture.duty := by
  refine keeps_blockTurn inp x s .duty ?_
  cases x
  case fixture => exact absurd rfl h
  all_goals decide

theorem eachOf_turns_duty (inp : MsInputs) : ∀ (l : List Block) (s : State), .fixture ∉ l →
    (eachOf l (blockTurn inp) s).bay.fixture.duty = s.bay.fixture.duty
  | [], _, _ => rfl
  | x :: l, s, h => by
    obtain ⟨ne, rest⟩ := List.ne_and_not_mem_of_not_mem_cons h
    rw [eachOf_cons, eachOf_turns_duty inp l _ rest, blockTurn_duty_of_ne inp ne.symm]

/-- A table written entry by entry holds at each place what was written there. -/
theorem get_eachOf_set {α : Type} {n : Nat} (value : Fin n → α) (i : Fin n) (l : List (Fin n)) (once : l.Nodup)
    (d : Tab α n) : (eachOf l (fun i d => d.set i (value i)) d).get i = if i ∈ l then value i else d.get i :=
  eachOf_at (f := fun i (d : Tab α n) => d.set i (value i)) (g := fun d : Tab α n => d.get i) (fun _ => True) i
    (fun _ => value i) (fun _ _ _ => trivial) (fun _ d ne _ => Tab.get_set_of_ne d _ ne)
    (fun d _ => Tab.get_set_same d i _) l d once trivial

theorem pwmPeriod_duty (started : Bool) (t : Tables) (b : Bay) (i : Fin 16) :
    (pwmPeriod started t b).fixture.duty.get i = if started then fixtureDuty t b i else ⟨0, 0, 0, 0⟩ :=
  (get_eachOf_set (fun i => if started then fixtureDuty t b i else ⟨0, 0, 0, 0⟩) i _ (List.nodup_finRange 16) _).trans
    (if_pos (List.mem_finRange i))

theorem fixtureDuty_get (t : Tables) (b : Bay) (i : Fin 16) (c : Comp) :
    (fixtureDuty t b i).get c = componentDuty t b i c := by
  cases c <;> rfl

theorem componentDuty_of_dark {t : Tables} {b : Bay} (h : b.trigger.mode = .darkMode) (i : Fin 16) (c : Comp) :
    componentDuty t b i c = 0 := by
  rw [componentDuty, h]

theorem componentDuty_of_show {t : Tables} {b : Bay} (h : b.trigger.mode = .showMode) (i : Fin 16) (c : Comp) :
    componentDuty t b i c = (t.fixture.get i).dimming.duty
      ((t.fixture.get i).mode.merge (sceneValue t b i c) (lineValue t b i c)) := by
  rw [componentDuty, h]

theorem sceneValue_of_free {t : Tables} {b : Bay} {i : Fin 16} (h : b.owner (fixtureRes i) = none) (c : Comp) :
    sceneValue t b i c = (laneValue t b c ((b.fixtureRec i).scene.get c)).toNat := by
  rw [sceneValue, h]

/-- The scene value of an owned fixture that shows no highlight. -/
theorem sceneValue_of_plain {t : Tables} {b : Bay} {i : Fin 16} {k : Fin 6} (h : b.owner (fixtureRes i) = some k)
    (plain : (b.fixtureRec i).highlight = 0) (c : Comp) : sceneValue t b i c =
      (laneValue t b c ((b.fixtureRec i).scene.get c)).toNat * (b.fixtureRec i).intensity.toNat / 255 := by
  rw [sceneValue, h]
  exact dif_pos (congrArg Fin.val plain)

theorem sceneValue_of_highlight {t : Tables} {b : Bay} {i : Fin 16} {k : Fin 6} {n : Fin 3}
    (h : b.owner (fixtureRes i) = some k) (shows : (b.fixtureRec i).highlight.val = n.val + 1) (c : Comp) :
    sceneValue t b i c = widen ((t.highlight.get n).get c) := by
  rw [sceneValue, h]
  refine (dif_neg (by omega)).trans ?_
  have which : (⟨(b.fixtureRec i).highlight.val - 1, by omega⟩ : Fin 3) = n := Fin.ext (by simp [shows])
  rw [which]

/-- Settles O20: the fixture unit's one turn forms the duties, and no later turn of the event changes them. -/
theorem pwmPeriodFormsTheDuties : Obligations.PwmPeriodFormsTheDuties := by
  intro inp s before after order
  refine ⟨_, rfl, fun u isU i c => ?_⟩
  have alone : .fixture ∉ after := by
    have once := nodup_turns inp
    rw [order, List.nodup_append] at once
    exact (List.nodup_cons.mp once.2.1).1
  have formed : (eachOf (turns inp) (blockTurn inp) s).bay.fixture.duty = (pwmPeriod u.ready u.tables u.bay).fixture.duty := by
    rw [order, eachOf_append, eachOf_cons, ← isU]
    exact eachOf_turns_duty inp after _ alone
  rw [formed, pwmPeriod_duty]
  refine ⟨fun off => ?_, fun dark => ?_, fun on mode => ?_⟩
  · rw [off]
    cases c <;> rfl
  · split
    · rw [fixtureDuty_get, componentDuty_of_dark dark]
    · cases c <;> rfl
  · rw [if_pos on, fixtureDuty_get, componentDuty_of_show mode]
    refine ⟨fun free => ?_, fun k owned => ⟨fun plain => ?_, fun n shows => ?_⟩⟩
    · rw [sceneValue_of_free free]
    · rw [sceneValue_of_plain owned plain]
    · rw [sceneValue_of_highlight owned shows]
      rfl

/-! ### The counts of the records (R103, R108, R110) -/

theorem Bay.updRun_congr (b : Bay) (k : Fin 6) {f g : RunRec → RunRec} (h : f (b.run k) = g (b.run k)) :
    b.updRun k f = b.updRun k g :=
  congrArg (fun r => { b with scene := { b.scene with run := b.scene.run.set k r } }) h

theorem Tab.upd_self {α : Type} {n : Nat} (t : Tab α n) (i : Fin n) (f : α → α) (h : f (t.get i) = t.get i) :
    t.upd i f = t := by
  refine Tab.ext_get fun j => ?_
  rw [Tab.get_upd]
  split
  · next here => subst here; exact h
  · rfl

theorem Bay.updRun_self (b : Bay) (k : Fin 6) (f : RunRec → RunRec) (h : f (b.run k) = b.run k) : b.updRun k f = b :=
  congrArg (fun run => { b with scene := { b.scene with run := run } }) (Tab.upd_self b.scene.run k f h)

theorem Bay.updProx_congr (b : Bay) (p : Fin 4) {f g : Prox → Prox} (h : f (b.axis.prox.get p) = g (b.axis.prox.get p)) :
    b.updProx p f = b.updProx p g :=
  congrArg (fun x => { b with axis := { b.axis with prox := b.axis.prox.set p x } }) h

theorem Bay.updProx_self (b : Bay) (p : Fin 4) (f : Prox → Prox) (h : f (b.axis.prox.get p) = b.axis.prox.get p) :
    b.updProx p f = b :=
  congrArg (fun prox => { b with axis := { b.axis with prox := prox } }) (Tab.upd_self b.axis.prox p f h)

theorem tick_eq (n : Nat) : tick n = if n < 4294967295 then n + 1 else 4294967295 := by
  unfold tick clockMax
  split <;> omega

theorem RunRec.count_of_idle {r : RunRec} (h : r.state = .free ∨ r.state = .suspended ∧ r.held = false) : r.count = r := by
  rcases h with free | ⟨suspended, unheld⟩
  · simp [RunRec.count, free]
  · simp [RunRec.count, suspended, unheld]

theorem RunRec.count_of_running {r : RunRec} (running : r.state = .running) (unheld : r.held = false) :
    r.count = { r with
      clock := tick r.clock, gateDelay := if r.gate.isSome then tick r.gateDelay else r.gateDelay
      gate := r.gate.map fun g => { g with gated := tick g.gated } } := by
  simp [RunRec.count, running, unheld]

theorem RunRec.count_of_held {r : RunRec} (used : r.state ≠ .free) (held : r.held = true) :
    r.count = { r with holdTime := tick r.holdTime } := by
  simp [RunRec.count, used, held]

theorem endRun_of_free {t : Tables} {b : Bay} {k : Fin 6} (free : (b.run k).state = .free) (e : EndReason) :
    endRun k e t b = b := if_pos free

theorem gateLimit_of_none {endK : EndRun} {t : Tables} {b : Bay} {k : Fin 6} (h : (b.run k).gate = none) :
    gateLimit endK k t b = b := by
  rw [gateLimit, h]

theorem gateLimit_of_short {endK : EndRun} {t : Tables} {b : Bay} {k : Fin 6} {g : Gate} (h : (b.run k).gate = some g)
    (short : g.limit = 0 ∨ g.gated < g.limit) : gateLimit endK k t b = b := by
  rw [gateLimit, h]
  refine if_neg ?_
  simp only [Bool.and_eq_true, decide_eq_true_eq]
  omega

theorem gateLimit_of_full {endK : EndRun} {t : Tables} {b : Bay} {k : Fin 6} {g : Gate} {slot : Fin 32}
    (h : (b.run k).gate = some g) (running : (b.run k).state = .running) (limited : 0 < g.limit) (full : g.limit ≤ g.gated)
    (runs : (b.run k).slot = some slot) : gateLimit endK k t b =
      examineIfFires endK true k t (openGate k (b.updStatus slot fun s => { s with gateTimeout := true })) := by
  simp [gateLimit, h, running, limited, full, runs]

theorem gateLimit_of_idle {endK : EndRun} {t : Tables} {b : Bay} {k : Fin 6} (h : (b.run k).state ≠ .running) :
    gateLimit endK k t b = b := by
  match gate : (b.run k).gate with
  | none => exact gateLimit_of_none gate
  | some g =>
    rw [gateLimit, gate]
    exact if_neg (by simp [h])

theorem holdLimit_of_some {endK : EndRun} {t : Tables} {b : Bay} {k : Fin 6} {x : Snapshot}
    (held : (b.run k).held = true) (h : (b.run k).snap = some x) : holdLimit endK k t b =
      if 0 < x.holdLimit ∧ x.holdLimit ≤ (b.run k).holdTime then endK k .holdTimeout t b else b := by
  simp only [holdLimit, h, held, Bool.true_and, Bool.and_eq_true, decide_eq_true_eq]

theorem holdLimit_of_free {t : Tables} {b : Bay} {k : Fin 6} (free : (b.run k).state = .free) :
    holdLimit endRun k t b = b := by
  match snap : (b.run k).snap with
  | none => simp only [holdLimit, snap]
  | some x => simp only [holdLimit, snap, endRun_of_free free, ite_self]

theorem countRun_eq {t : Tables} {b c : Bay} {k : Fin 6} (h : c = b.updRun k fun _ => (b.run k).count) :
    countRun endRun t k b = if (b.run k).held then holdLimit endRun k t c else gateLimit endRun k t c := by
  subst h
  rfl

theorem countRun_of_idle (t : Tables) {b : Bay} {k : Fin 6}
    (h : (b.run k).state = .free ∨ (b.run k).state = .suspended ∧ (b.run k).held = false) : countRun endRun t k b = b := by
  rw [countRun_eq (c := b) (b.updRun_self k _ (RunRec.count_of_idle h)).symm]
  rcases h with free | ⟨suspended, unheld⟩
  · rw [holdLimit_of_free free, gateLimit_of_idle (by simp [free]), ite_self]
  · rw [unheld]
    exact gateLimit_of_idle (by simp [suspended])

/-- A running record that no hold stops: its gate, once counted, is open, below its limit or at it. -/
theorem countRun_of_running {t : Tables} {b c : Bay} {k : Fin 6} {u : RunRec} (running : (b.run k).state = .running)
    (unheld : (b.run k).held = false) (counted : u = (b.run k).count) (h : c = b.updRun k fun _ => u) :
    ((∀ g, u.gate = some g → g.limit = 0 ∨ g.gated < g.limit) → countRun endRun t k b = c) ∧
    (∀ g slot, u.gate = some g → 0 < g.limit → g.limit ≤ g.gated → (b.run k).slot = some slot →
      countRun endRun t k b = examine endRun true k t
        ((c.updRun k (fun r => { r with gate := none })).updStatus slot (fun x => { x with gateTimeout := true }))) := by
  have turn : countRun endRun t k b = gateLimit endRun k t c := by
    rw [countRun_eq (h.trans (by rw [counted])), unheld]
    rfl
  have record : c.run k = u := by rw [h, Bay.run_updRun_same]
  have same := counted.trans (RunRec.count_of_running running unheld)
  have state : u.state = .running := by rw [same, running]
  have free : u.held = false := by rw [same, unheld]
  have slots : u.slot = (b.run k).slot := by rw [same]
  refine ⟨fun below => ?_, fun g slot gate limited full runs => ?_⟩
  · match gate : u.gate with
    | none => rw [turn, gateLimit_of_none (by rw [record, gate])]
    | some g =>
      rw [turn, gateLimit_of_short (by rw [record, gate]) (below g gate)]
  · rw [turn, gateLimit_of_full (by rw [record, gate]) (by rw [record, state]) limited full (by rw [record, slots, runs])]
    have fires : ((openGate k (c.updStatus slot fun x => { x with gateTimeout := true })).run k).canFire = true := by
      have opened : (openGate k (c.updStatus slot fun x => { x with gateTimeout := true })).run k =
          { c.run k with gate := none } := Bay.run_updRun_same _ _ _
      simp [opened, record, RunRec.canFire, state, free]
    exact if_pos fires

theorem countRun_of_held {t : Tables} {b c : Bay} {k : Fin 6} {u : RunRec} {x : Snapshot} (held : (b.run k).held = true)
    (counted : u = (b.run k).count) (kept : u.held = true) (snap : u.snap = some x) (h : c = b.updRun k fun _ => u) :
    countRun endRun t k b =
      if 0 < x.holdLimit ∧ x.holdLimit ≤ u.holdTime then endRun k .holdTimeout t c else c := by
  have record : c.run k = u := by rw [h, Bay.run_updRun_same]
  rw [countRun_eq (h.trans (by rw [counted])), if_pos held,
    holdLimit_of_some (by rw [record, kept]) (by rw [record, snap]), record]

/-! ### The clear delays (R91) -/

theorem countDelay_of_other (t : Tables) {b : Bay} {p : Fin 4} (h : (b.axis.prox.get p).state ≠ .clearing) :
    countDelay p t b = b := by
  have kept : b.updProx p (fun x => if x.state = .clearing then { x with delay := x.delay - 1 } else x) = b :=
    b.updProx_self p _ (if_neg h)
  rw [countDelay, kept, clearDelayEnd]
  simp [h]

theorem countDelay_of_clearing (t : Tables) {b : Bay} {p : Fin 4} (h : (b.axis.prox.get p).state = .clearing) :
    countDelay p t b = clearDelayEnd p t (b.updProx p fun _ => ⟨.clearing, (b.axis.prox.get p).delay - 1⟩) := by
  rw [countDelay, b.updProx_congr p (g := fun _ => ⟨.clearing, (b.axis.prox.get p).delay - 1⟩)]
  rw [if_pos h, h]

theorem Bay.updProx_updProx (b : Bay) (p : Fin 4) (x y : Prox) :
    (b.updProx p fun _ => x).updProx p (fun _ => y) = b.updProx p fun _ => y := by
  simp only [Bay.updProx, Tab.upd, Tab.set_set]

theorem clearDelayEnd_clearing (t : Tables) (b : Bay) (p : Fin 4) (n : Nat) :
    clearDelayEnd p t (b.updProx p fun _ => ⟨.clearing, n⟩) =
      if n = 0 then proxClear p t b else b.updProx p fun _ => ⟨.clearing, n⟩ := by
  have record : (b.updProx p fun _ => ⟨.clearing, n⟩).axis.prox.get p = ⟨.clearing, n⟩ := Tab.get_set_same _ _ _
  rw [clearDelayEnd]
  simp only [record, decide_true, Bool.true_and, decide_eq_true_eq]
  split
  · rw [proxClear, Bay.updProx_updProx]
    rfl
  · rfl

/-! ### The blocks' turns (R1) -/

theorem noPulses_parts (b : Bay) : noPulses b = { b with axis := { b.axis with axis := (noPulses b).axis.axis } } ∧
    ∀ a, (noPulses b).axisRec a = { b.axisRec a with pulses := 0 } := by
  obtain ⟨only, records⟩ := eachOf_updAxis (fun a b => b.updAxis a fun x => { x with pulses := 0 })
    (fun _ _ x => { x with pulses := 0 }) (fun _ _ _ => rfl) (fun _ _ => rfl) (List.finRange 4) (List.nodup_finRange 4) b
  exact ⟨only, fun a => (records a).trans (if_pos (List.mem_finRange a))⟩

theorem countGuards_parts (b : Bay) :
    countGuards b = { b with scene := { b.scene with run := (countGuards b).scene.run } } ∧
    ∀ k, (countGuards b).run k = { b.run k with guard := (b.run k).guard - 1 } := by
  refine ⟨each_keeps (P := fun c : Bay => c = { b with scene := { b.scene with run := c.scene.run } })
    (fun k c h => ?_) b rfl, fun k => ?_⟩
  · exact congrArg (fun x : Bay => x.updRun k fun r => { r with guard := r.guard - 1 }) h
  · exact each_at (f := fun k b => b.updRun k fun r => { r with guard := r.guard - 1 }) (g := fun b : Bay => b.run k)
      (fun _ => True) k (fun r => { r with guard := r.guard - 1 }) (fun _ _ _ => trivial)
      (fun _ b ne _ => Bay.run_updRun_of_ne b _ ne) (fun b _ => Bay.run_updRun_same b k _) b trivial

theorem Polarity.active_eq (p : Polarity) : p.active = decide (p = .activeHigh) := by
  cases p <;> rfl

theorem pressed_eq (levels : BitVec 12) (t : Tables) (b : Bay) (n : Fin 12) : pressed levels t b n =
    (levels.getLsbD n.val = decide ((t.trigger.get n).polarity = .activeHigh) &&
      b.trigger.pins.getLsbD n.val != decide ((t.trigger.get n).polarity = .activeHigh)) := by
  rw [pressed, Polarity.active_eq]

theorem triggerTurn_eq (inp : MsInputs) (s : State) (count read : State → State)
    (counts : ∀ v, count v = { v with bay := countTriggers v.bay }) (reads : ∀ v, read v = readTriggers inp.trigPins v) :
    triggerTurn inp s = if inp.pressFirst then count (read (fireSchedule s)) else read (count (fireSchedule s)) := by
  rw [counts, counts, reads, reads]
  rfl

theorem portMillisecond_of_waiting {s : State}
    (h : ∀ o, (countReadyWait s).port.op = some o → o.phase = .gap ∨ o.phase = .suspended) :
    portMillisecond s = countReadyWait s := by
  refine if_neg (Bool.eq_false_iff.mp ?_)
  match op : (countReadyWait s).port.op with
  | none => simp [StorePort.working, StorePort.phase, op]
  | some o => rcases h o op with phase | phase <;> simp [StorePort.working, StorePort.phase_of_op op, phase]

theorem portMillisecond_of_working {s : State} {o : Operation} (op : (countReadyWait s).port.op = some o)
    (h : o.phase = .working ∨ o.phase = .suspending) : portMillisecond s =
      stepLimit { countReadyWait s with port := { (countReadyWait s).port with
        op := some { o with stepCount := o.stepCount + 1, runCount := o.runCount + 1 } } } := by
  refine (if_pos (StorePort.working_of_op op h)).trans ?_
  rw [State.updOp_of_op op]

theorem countReadyWait_of_flashWait {s : State} {n : Nat} (h : s.mgmt.startUp = .flashWait n) :
    countReadyWait s = readyTimeout { s with mgmt := { s.mgmt with startUp := .flashWait (n + 1) } } := by
  simp only [countReadyWait, h]

theorem countReadyWait_of_other {s : State} (h : ∀ n, s.mgmt.startUp ≠ .flashWait n) : countReadyWait s = s := by
  unfold countReadyWait
  split
  · next n wait => exact absurd wait (h n)
  · rfl

/-- Settles O19: each block's turn read off its definition, and the counts of a record and of a clear delay. -/
theorem millisecondReachesEveryBlockOnce : Obligations.MillisecondReachesEveryBlockOnce := by
  refine ⟨fun inp s => ⟨rfl, fun x => ?_, fun wf => if_pos wf⟩, fun inp s => ⟨rfl, rfl, rfl, ?_, rfl, ?_, ?_, ?_⟩, ?_, ?_⟩
  · exact List.count_eq_one_of_mem (nodup_turns inp) (mem_turns inp x)
  · obtain ⟨only, records⟩ := noPulses_parts s.bay
    exact ⟨noPulses s.bay, only, records, rfl⟩
  · obtain ⟨only, records⟩ := countGuards_parts s.bay
    exact ⟨countGuards s.bay, expireRequests { s with bay := countGuards s.bay }, only, records, rfl, rfl⟩
  · refine ⟨fireSchedule s, rfl, fun count read counts reads => triggerTurn_eq inp s count read counts fun v => ?_⟩
    rw [reads, readTriggers, funext (pressed_eq inp.trigPins v.tables v.bay)]
    rfl
  · refine ⟨countReadyWait s, ?_, portMillisecond_of_waiting, fun o op phase =>
      (congrArg Host.Outcome.next (portMillisecond_of_working op phase)).symm⟩
    split
    · next n wait => exact (congrArg Host.Outcome.next (countReadyWait_of_flashWait wait)).symm
    · next other => exact countReadyWait_of_other other
  · rintro t b c k r u up rfl ups rfl
    have counter : up = tick := funext fun n => (ups n).trans (tick_eq n).symm
    subst counter
    refine ⟨countRun_of_idle t, fun running unheld counted => ?_, fun used held counted x snap => ?_⟩
    · refine countRun_of_running running unheld (counted.trans ?_) rfl
      rw [RunRec.count_of_running running unheld]
      cases (b.run k).gate <;> rfl
    · have same : u = (b.run k).count := counted.trans (RunRec.count_of_held used held).symm
      exact countRun_of_held held same (by rw [counted, held]) (by rw [counted, snap]) rfl
  · rintro t b p x rfl
    refine ⟨countDelay_of_other t, fun clearing long => ?_, fun clearing short => ?_⟩
    · rw [countDelay_of_clearing t clearing, clearDelayEnd_clearing, if_neg (by omega)]
    · rw [countDelay_of_clearing t clearing, clearDelayEnd_clearing, if_pos (by omega)]
      rfl

/-! ### What start-up reads (R186 to R189) -/

/-- A trailer that passes the test begins with the identity, the page count and the check of the body. -/
theorem trailer_of_imageValid {trailer body : List Byte} (long : trailer.length = 256)
    (valid : imageValid trailer body = true) :
    ∃ high low, trailer.take 7 = [0x5A, 0x4E, 0x31, 0x36, 80, high, low] ∧
      crc16 body = BitVec.ofNat 16 (high.toNat * 256 + low.toNat) := by
  match trailer, long with
  | a :: b :: c :: d :: pages :: high :: low :: rest, _ =>
    simp only [imageValid, imageIdentity, Bool.and_eq_true, decide_eq_true_eq] at valid
    obtain ⟨⟨identity, count⟩, check⟩ := valid
    have head : [a, b, c, d] = [0x5A, 0x4E, 0x31, 0x36] :=
      of_decide_eq_true identity
    have paged : pages = 80 := Option.some.inj count
    have number : high.toNat * 256 + low.toNat = (crc16 body).toNat := by
      have spelled : numberOf [high, low] = (crc16 body).toNat := check
      simpa [numberOf] using spelled
    refine ⟨high, low, ?_, ?_⟩
    · rw [paged]
      exact congrArg (· ++ [80, high, low]) head
    · rw [number, BitVec.ofNat_toNat, BitVec.setWidth_eq]

theorem imageValid_of_imageTables {trailer body : List Byte} (h : imageTables trailer body ≠ none) :
    imageValid trailer body = true := by
  by_contra invalid
  exact h (if_neg invalid)

theorem imageFound_append {s : State} {trailer body : List Byte} (long : trailer.length = 256) :
    s.imageFound (trailer ++ body) = if s.storeCut then none else imageTables trailer body := by
  rw [State.imageFound, List.take_left' long, List.drop_left' long]

theorem startUp_of_imageRead {home : BitVec 4} {pins : BitVec 12} {s : State} {bytes : List Byte}
    (h : s.mgmt.startUp = .imageRead bytes) : startUp home pins s = { s with
      tables := (s.imageFound bytes).getD Tables.factory, pins := { s.pins with home := home }
      mgmt := { s.mgmt with startUp := .ready, imageInvalid := (s.imageFound bytes).isNone }
      bay := startBay home s.pins.prox pins ((s.imageFound bytes).getD Tables.factory)
        { s.bay with latched := if s.imageFound bytes = none then s.bay.latched ||| 0x4 else s.bay.latched } } := by
  simp only [startUp, h]
  cases s.imageFound bytes <;> rfl

/-- What the axes hold and where they go as start-up watches the inputs and sends home those that start at home. -/
theorem startAxes_parts (home active : BitVec 4) {t : Tables} {b c : Bay} (rest : Unhomed b)
    (clear : ∀ p, (b.axis.prox.get p).state = .clear)
    (hc : c = homeAtStart home t (watchProximity active t (captureAll t b))) :
    c = { b with axis := c.axis } ∧
    (∀ p, c.axis.prox.get p = if active.getLsbD p.val = true then ⟨.active, 0⟩ else b.axis.prox.get p) ∧
    ∀ (a : Fin 4) (x : Axis), x = { captureHoming (t.axis.get a) (b.axisRec a) with held := (c.axisRec a).held } →
      (∀ p : Fin 4, (c.axisRec a).held.getLsbD p.val =
        ((b.axisRec a).held.getLsbD p.val || (active.getLsbD p.val && (t.prox.get p).axes.getLsbD a.val))) ∧
      c.axisRec a = if (t.axis.get a).homeAtStart = true then { x with
          state := .homing, travel := 0, phase := if home.getLsbD a.val then .offSwitch else .seek
          move := holdPosition t b (some .node) (b.axisRec a).move }
        else x := by
  obtain ⟨taken, prox, homing⟩ := captureAll_parts t b
  have still : Unhomed (captureAll t b) := by
    refine ⟨fun a => ?_, fun a => ?_, fun k => ?_⟩
    · rw [taken]; exact rest.owner a
    · rw [homing]; exact rest.state a
    · rw [taken]; exact rest.gate k
  obtain ⟨more, watched⟩ := eachOf_proxActive t (members active) (captureAll t b) (List.Nodup.filter _ (List.nodup_finRange 4))
    still fun p _ => by rw [prox]; exact clear p
  change HeldMore _ (watchProximity active t (captureAll t b)) _ at more
  change ∀ q, (watchProximity active t (captureAll t b)).axis.prox.get q = _ at watched
  generalize watchProximity active t (captureAll t b) = d at *
  have held := more.unhomed still
  obtain ⟨only, axes⟩ := eachOf_enterHoming t home (List.finRange 4) d (List.nodup_finRange 4) held.owner held.gate
  change homeAtStart home t d = _ at only
  change ∀ a, (homeAtStart home t d).axisRec a = _ at axes
  rw [← hc] at only axes
  have others : d = { b with axis := d.axis } := by rw [more.rest, taken]
  refine ⟨by rw [only, others], fun p => ?_, fun a x isX => ?_⟩
  · rw [only]
    refine (watched p).trans ?_
    rw [prox]
    simp [members]
  · obtain ⟨bits, record, added⟩ := more.axis a
    rw [homing] at record added
    have same : (c.axisRec a).held = bits := by
      rw [axes, record]
      split <;> rfl
    refine ⟨fun p => ?_, ?_⟩
    · rw [same, added]
      simp [members, captureHoming]
    · have now : holdPosition t d (some .node) (b.axisRec a).move = holdPosition t b (some .node) (b.axisRec a).move :=
        (SameClock.of_rest (by rw [others]) (by rw [others])).holdPosition ..
      rw [isX, same, axes, record]
      by_cases goes : (t.axis.get a).homeAtStart = true
      · rw [if_pos goes, if_pos ⟨List.mem_finRange a, goes⟩]
        exact congrArg (fun move => { captureHoming (t.axis.get a) (b.axisRec a) with
          held := bits, state := .homing, travel := 0, phase := if home.getLsbD a.val then .offSwitch else .seek, move := move }) now
      · rw [if_neg goes, if_neg fun both => goes both.2]

/-- The axes and the triggers as start-up leaves them, before the start mode. -/
theorem startBay_parts (home active : BitVec 4) (pins : BitVec 12) {t : Tables} {b : Bay} (rest : Unhomed b)
    (clear : ∀ p, (b.axis.prox.get p).state = .clear) :
    ∃ c v, startBay home active pins t b = (if t.config.startMode = .darkMode then enterDark t v else v) ∧
      c = homeAtStart home t (watchProximity active t (captureAll t b)) ∧ v.axis = c.axis ∧
      v = { b with axis := v.axis, trigger := { b.trigger with trigger := v.trigger.trigger, pins := pins } } ∧
      ∀ n, v.triggerRec n =
        if (t.trigger.get n).enabled = true then { b.triggerRec n with state := .armed, lockout := 0 } else b.triggerRec n := by
  obtain ⟨only, -⟩ := startAxes_parts home active rest clear rfl
  refine ⟨_, armEnabled t (keepPins pins (homeAtStart home t (watchProximity active t (captureAll t b)))), ?_, rfl, ?_⟩
  · show startMode t _ = _
    unfold startMode
    split
    · next mode => rw [if_neg (by simp [mode])]
    · next mode => rw [if_pos mode]
  · generalize homeAtStart home t (watchProximity active t (captureAll t b)) = c at *
    obtain ⟨kept, records⟩ := armEnabled_parts t (keepPins pins c)
    refine ⟨by rw [kept]; rfl, by rw [kept, only]; rfl, fun n => (records n).trans ?_⟩
    rw [only]
    rfl

/-! ### Resets (R62, R190) -/

/-- What a cut leaves of the flash: free values at the step under way, and the rest as it was. -/
theorem cutStep_of_waiting {s : State} (h : s.port.op = none ∨ s.port.phase = some .gap) : cutStep s = s.flash := by
  match op : s.port.op with
  | none => simp only [cutStep, op]
  | some o =>
    have gap : o.phase = .gap := by
      rcases h with none | phase
      · exact nomatch op.symm.trans none
      · exact Option.some.inj ((StorePort.phase_of_op op).symm.trans phase)
    simp only [cutStep, op, gap]

theorem read_cutStep_eq {s : State} {o : Operation} {st : FlashStep} {rest : List FlashStep} (op : s.port.op = some o)
    (begun : o.phase ≠ .gap) (steps : o.steps = st :: rest) (wf : s.flash.wf = true) (a : Nat) : (cutStep s).read a =
      if st.range.1 ≤ a ∧ a < st.range.1 + st.range.2 then Config.flashByte s.draws a else s.flash.read a := by
  have cut : cutStep s = st.spoil s.draws s.flash := by
    unfold cutStep
    rw [op]
    dsimp only
    rw [steps]
    match phase : o.phase with
    | .gap => exact absurd phase begun
    | .working | .suspending | .suspended => rfl
  rw [cut]
  exact FlashStep.read_spoil_eq st s.draws a wf

theorem flashReady_of_flashWait {s : State} {n : Nat} (h : s.mgmt.startUp = .flashWait n) :
    flashReady s = beginImageReads s := by
  simp only [flashReady, h]

theorem readyTimeout_of_flashWait {s : State} {n : Nat} (h : s.mgmt.startUp = .flashWait n) :
    readyTimeout s = if 500 ≤ n then beginImageReads (s.latch .storeFault) else s := by
  simp only [readyTimeout, h]

/-- Settles O60: each reset, the ready wait, the tables start-up takes and the restart, one after another. -/
theorem resetsAndStartUp : Obligations.ResetsAndStartUp := by
  refine ⟨fun s => rfl, fun s => ⟨cutStep_of_waiting, ?_⟩, ?_, ?_, ?_, ?_, fun s taken => ⟨fun first => ?_, fun again => ?_⟩,
    fun s => ⟨fun answered idle => ?_, fun other => ?_⟩⟩
  · intro o st rest op begun steps wf first size a place
    have range : st.range = (first, size) := by
      rw [place]
      cases st <;> rfl
    have read := read_cutStep_eq op begun steps wf a
    rwa [range] at read
  · exact ⟨rfl, fun k => Tab.get_const .., fun r => Tab.get_const .., rfl, rfl, rfl,
      fun n => congrArg Trigger.state (Tab.get_const ..), fun v => congrArg Voice.state (Tab.get_const ..),
      fun a => congrArg Axis.state (Tab.get_const ..), fun i => Tab.get_const .., rfl, rfl, rfl, rfl, rfl, rfl, fun i => Tab.get_const .., rfl, rfl⟩
  · rintro s u n wait rfl
    exact ⟨congrArg Host.Outcome.next (flashReady_of_flashWait wait),
      congrArg Host.Outcome.next (readyTimeout_of_flashWait wait)⟩
  · intro s home pins trailer body image t read long found tables
    have image_eq : s.imageFound (trailer ++ body) = image := (imageFound_append long).trans found.symm
    refine ⟨fun some => ?_, ?_⟩
    · refine trailer_of_imageValid long (imageValid_of_imageTables ?_)
      intro none
      exact some (by rw [found, none, ite_self])
    · refine congrArg Host.Outcome.next ((startUp_of_imageRead read).trans ?_)
      rw [image_eq, ← tables]
  · intro home active pins t b axes clear gate
    have rest : Unhomed b := ⟨fun a => (axes a).2, fun a => (axes a).1, gate⟩
    obtain ⟨c, v, starts, hc, axis, only, triggers⟩ := startBay_parts home active pins rest clear
    obtain ⟨-, prox, records⟩ := startAxes_parts home active rest clear hc
    have same : ∀ a, v.axisRec a = c.axisRec a := fun a => congrArg (fun x : AxisUnit => x.axis.get a) axis
    refine ⟨v, starts, only, fun p => by rw [axis, prox], ?_, triggers⟩
    rintro a g x rfl isX
    rw [same] at isX ⊢
    exact records a x isX
  · refine (taken_ask noParams (fun _ => restartAsk) taken rfl).trans (congrArg Host.Outcome.next ?_)
    exact if_pos first
  · exact (taken_ask noParams (fun _ => restartAsk) taken rfl).trans (congrArg Host.Outcome.next (if_neg again))
  · refine congrArg Host.Outcome.next ((if_pos ?_).trans rfl)
    simp [answered, idle]
  · refine congrArg Host.Outcome.next (if_neg ?_)
    rcases other with early | busy
    · simp [early]
    · simp [Option.isNone_iff_eq_none, busy]

end Sys2Proof.Machine
end

section
/-! PROOFS. READ-TABLE: the entries that fit in an answer, and each run-time table's entry byte by byte. -/

namespace Sys2Proof.Machine

/-! ### The entries an answer carries (R174) -/

/-- The entries that fit are the first ones, up to the first that leaves no room. -/
theorem fitEntries_eq : ∀ (room : Nat) (l : List (List Byte)), ∃ k, k ≤ l.length ∧ fitEntries room l = l.take k ∧
    (l.take k).flatten.length ≤ room ∧ (k < l.length → room < (l.take (k + 1)).flatten.length)
  | _, [] => ⟨0, Nat.le_refl 0, rfl, Nat.zero_le _, fun h => absurd h (Nat.lt_irrefl 0)⟩
  | room, e :: rest => by
    by_cases fits : e.length ≤ room
    · obtain ⟨k, within, eq, some, more⟩ := fitEntries_eq (room - e.length) rest
      refine ⟨k + 1, Nat.succ_le_succ within, ?_, ?_, fun short => ?_⟩
      · rw [fitEntries, if_pos fits, eq, List.take_succ_cons]
      · simp only [List.take_succ_cons, List.flatten_cons, List.length_append]
        omega
      · have next := more (Nat.lt_of_succ_lt_succ short)
        simp only [List.take_succ_cons, List.flatten_cons, List.length_append] at next ⊢
        omega
    · refine ⟨0, Nat.zero_le _, by rw [fitEntries, if_neg fits, List.take_zero], Nat.zero_le _, fun _ => ?_⟩
      simp only [Nat.zero_add, List.take_succ_cons, List.take_zero, List.flatten_cons, List.flatten_nil, List.append_nil]
      omega

theorem take_map_range {α : Type} (f : Nat → α) {k n : Nat} (h : k ≤ n) :
    ((List.range n).map f).take k = (List.range k).map f := by
  rw [← List.map_take, List.take_range, Nat.min_eq_left h]

theorem readParams_eq {code hi lo n : Byte} {id : TableId} {i : Nat} (table : tableOf code.toNat = some id)
    (first : hi.toNat * 256 + lo.toNat = id.base + i) (within : i < id.entries) (some : n ≠ 0) :
    readParams [code, hi, lo, n] = Option.some (id, i, n.toNat) := by
  have count : field [code, hi, lo, n] 3 1 = n.toNat := field_one n []
  have place : field [code, hi, lo, n] 1 2 = hi.toNat * 256 + lo.toNat := field_two hi lo [n]
  have kind : field [code, hi, lo, n] 0 1 = code.toNat := field_one code _
  have nonzero : n.toNat ≠ 0 := fun zero => some (BitVec.eq_of_toNat_eq zero)
  rw [readParams, count, kind, place, table, first]
  simp [nonzero, within]

/-- The zones whose clip flags a read clears. -/
theorem clearReadClips_parts (i n : Nat) (b : Bay) :
    clearReadClips i n b = { b with voice := { b.voice with zone := (clearReadClips i n b).voice.zone } } ∧
    ∀ z : Fin 2, (clearReadClips i n b).voice.zone.get z =
      if i ≤ 6 + z.val ∧ 6 + z.val < i + n then { b.voice.zone.get z with clipFlag := false } else b.voice.zone.get z := by
  have each_eq : clearReadClips i n b = eachOf (List.finRange 2) (fun z b => b.updZone z fun y =>
      if i ≤ 6 + z.val ∧ 6 + z.val < i + n then { y with clipFlag := false } else y) b := by
    refine congrArg (fun f => each 2 f b) (funext fun z => funext fun b => ?_)
    by_cases carried : i ≤ 6 + z.val ∧ 6 + z.val < i + n
    · simp [carried, clearClip]
    · refine (if_neg (by simpa using carried)).trans ?_
      exact (congrArg (fun zone => { b with voice := { b.voice with zone := zone } })
        (Tab.upd_self b.voice.zone z _ (if_neg carried))).symm
  rw [each_eq]
  refine ⟨eachOf_keeps (P := fun c : Bay => c = { b with voice := { b.voice with zone := c.voice.zone } })
    (fun z c h => ?_) _ b rfl, fun z => ?_⟩
  · exact congrArg (fun x : Bay => x.updZone z fun y =>
      if i ≤ 6 + z.val ∧ 6 + z.val < i + n then { y with clipFlag := false } else y) h
  · refine (eachOf_at (g := fun b : Bay => b.voice.zone.get z) (fun _ => True) z
      (fun y => if i ≤ 6 + z.val ∧ 6 + z.val < i + n then { y with clipFlag := false } else y) (fun _ _ _ => trivial)
      (fun _ b ne _ => Tab.get_upd_of_ne _ _ ne) (fun b _ => Tab.get_upd_same _ _ _) _ b (List.nodup_finRange 2)
      trivial).trans (if_pos (List.mem_finRange z))

theorem exec_readTable {s : State} {p : List Byte} {x : TableId × Nat × Nat} (taken : Taken s .readTable p)
    (plain : namedTable p ≠ some .voice) (form : readParams p = some x) :
    exec .readTable s = .next (answerRead x s) := by
  obtain ⟨ready, a, next, kind, rfl⟩ := taken
  have takes : isPlainRead a = true := by simp [isPlainRead, isKind, kind, plain]
  refine congrArg Host.Outcome.next ((onAsk_of_next s a _ _ next takes).trans ?_)
  rw [whenReady, if_pos ready, withParams, form]

theorem exec_readTableVoice {s : State} {p : List Byte} {x : TableId × Nat × Nat} (taken : Taken s .readTable p)
    (voice : namedTable p = some .voice) (form : readParams p = some x) :
    exec .readTableVoice s = .next ((answerRead x s).onBay fun _ b =>
      clearReadClips x.2.1 (readEntries s x.1 x.2.1 x.2.2).length b) := by
  refine congrArg Host.Outcome.next ((onAsk_of_table taken.2 voice _).trans ?_)
  rw [whenReady, if_pos taken.1, withParams, form]

/-! ### Sets as masks -/

/-- The mask of the resources of an ascending list, on top of a mask of lower ones. -/
theorem testBit_foldl_two_pow : ∀ (l : List (Fin 22)) (m x : Nat), l.Pairwise (· < ·) → (∀ r ∈ l, m < 2 ^ r.val) →
    ((l.foldl (fun m r => m + 2 ^ r.val) m).testBit x = true ↔ m.testBit x = true ∨ ∃ r ∈ l, r.val = x)
  | [], _, _, _, _ => by simp
  | r :: l, m, x, ascending, below => by
    obtain ⟨first, ascending⟩ := List.pairwise_cons.mp ascending
    have small : m < 2 ^ r.val := below r (List.mem_cons_self ..)
    have both : m + 2 ^ r.val = 2 ^ r.val ||| m := by
      simpa [Nat.add_comm] using Nat.two_pow_add_eq_or_of_lt small 1
    have next : ∀ q ∈ l, m + 2 ^ r.val < 2 ^ q.val := fun q inl => by
      have up : 2 ^ (r.val + 1) ≤ 2 ^ q.val := Nat.pow_le_pow_right (by decide) (first q inl)
      rw [Nat.pow_succ] at up
      omega
    rw [List.foldl_cons, testBit_foldl_two_pow l _ x ascending next, both, Nat.testBit_or, Nat.testBit_two_pow]
    simp only [Bool.or_eq_true, decide_eq_true_eq, List.mem_cons, exists_eq_or_imp]
    tauto

theorem foldl_two_pow_lt : ∀ (l : List (Fin 22)) (m : Nat), l.Pairwise (· < ·) → (∀ r ∈ l, m < 2 ^ r.val) → m < 2 ^ 22 →
    l.foldl (fun m r => m + 2 ^ r.val) m < 2 ^ 22
  | [], _, _, _, h => h
  | r :: l, m, ascending, below, _ => by
    obtain ⟨first, ascending⟩ := List.pairwise_cons.mp ascending
    have small : m < 2 ^ r.val := below r (List.mem_cons_self ..)
    have up {q : Nat} (h : r.val < q) : m + 2 ^ r.val < 2 ^ q := by
      have up : 2 ^ (r.val + 1) ≤ 2 ^ q := Nat.pow_le_pow_right (by decide) h
      rw [Nat.pow_succ] at up
      omega
    exact foldl_two_pow_lt l _ ascending (fun q inl => up (first q inl)) (up r.isLt)

theorem resourceMask_eq {b : Bay} {k : Fin 6} {held : Nat} (small : held < 2 ^ 22)
    (bits : ∀ x : Fin 22, held.testBit x.val = true ↔ b.owner x = some k) : resourceMask b k = held := by
  have ascending : (b.owned k).Pairwise (· < ·) := (List.pairwise_lt_finRange 22).filter _
  have below : ∀ r ∈ b.owned k, 0 < 2 ^ r.val := fun r _ => Nat.two_pow_pos r.val
  refine Nat.eq_of_testBit_eq fun x => ?_
  by_cases inside : x < 22
  · refine Bool.eq_iff_iff.mpr ?_
    rw [resourceMask, testBit_foldl_two_pow _ _ _ ascending below, bits ⟨x, inside⟩]
    simp [Bay.owned, Fin.exists_iff, inside]
  · have high : 2 ^ 22 ≤ 2 ^ x := Nat.pow_le_pow_right (by decide) (Nat.le_of_not_lt inside)
    have low : resourceMask b k < 2 ^ 22 := foldl_two_pow_lt _ 0 ascending below (by decide)
    rw [Nat.testBit_lt_two_pow (Nat.lt_of_lt_of_le small high), Nat.testBit_lt_two_pow (Nat.lt_of_lt_of_le low high)]

/-! ### The fields of the run-time entries (R173) -/

theorem bytesOf_byte (n : Nat) (x : Byte) : bytesOf (n + 1) x.toNat = zeros n ++ [x] := by
  have zero : ∀ m, bytesOf m 0 = zeros m := by
    intro m
    induction m with
    | zero => rfl
    | succ m ih => simp [bytesOf, ih, zeros, List.replicate_succ']
  have high : x.toNat / 256 = 0 := Nat.div_eq_of_lt x.isLt
  rw [bytesOf, high, zero, BitVec.ofNat_toNat, BitVec.setWidth_eq]

theorem num_one (x : Byte) : num 1 x.toNat = [x] := bytesOf_byte 0 x

theorem ofNat_toNat_eq_setWidth {n : Nat} (x : BitVec n) : num 1 x.toNat = [x.setWidth 8] := by
  rw [← BitVec.ofNat_toNat]
  rfl

theorem colourC_enc (q : Colour) : colourC.enc q = [q.red, q.green, q.blue, q.white] := by
  have spelled : colourC.enc q = (num 1 q.red.toNat ++ num 1 q.green.toNat) ++ (num 1 q.blue.toNat ++ num 1 q.white.toNat) := rfl
  simp only [spelled, num_one]
  rfl

theorem claimSetC_enc (x : ClaimSet) :
    claimSetC.enc x = bytesOf 2 x.fixtures.toNat ++ [x.lanes.setWidth 8, x.axes.setWidth 8] := by
  have spelled : claimSetC.enc x = bytesOf 2 x.fixtures.toNat ++ (num 1 x.lanes.toNat ++ num 1 x.axes.toNat) := rfl
  simp only [spelled, ofNat_toNat_eq_setWidth]
  rfl

theorem triggerC_enc (g : TriggerCfg) : triggerC.enc g = flag g.enabled ++ optOf 1 (fun m : Fin 32 => num 1 m.val) g.slot ++
    [if g.polarity = .activeLow then 0 else 1] ++ bytesOf 2 g.lockout.val ++ flag g.broadcast := by
  have word {x : Bool} : Codec.bool.enc x = flag x := by cases x <;> rfl
  have level {x : Polarity} : (Codec.word [Polarity.activeLow, .activeHigh]).enc x = [if x = .activeLow then 0 else 1] := by
    cases x <;> rfl
  have slot {x : Option (Fin 32)} : (Codec.fin 1 32).opt.enc x = optOf 1 (fun m : Fin 32 => num 1 m.val) x := by
    cases x <;> rfl
  have spelled : triggerC.enc g = (Codec.bool.enc g.enabled ++ (Codec.fin 1 32).opt.enc g.slot) ++
    ((Codec.word [Polarity.activeLow, .activeHigh]).enc g.polarity ++ (bytesOf 2 g.lockout.val ++ Codec.bool.enc g.broadcast)) := rfl
  simp only [spelled, word, level, slot, List.append_assoc]

theorem flatMap_num_one (l : List (Fin 6)) : l.flatMap (fun k => num 1 k.val) = l.map fun k => BitVec.ofNat 8 k.val :=
  List.flatMap_pure_eq_map ..

/-! ### The entries (R60, R97, R117, R135, R137) -/

theorem ofNat_val {n : Nat} [NeZero n] (x : Fin n) : Fin.ofNat n x.val = x := Fin.ext (Nat.mod_eq_of_lt x.isLt)

theorem entryOf_run (s : State) (k : Fin 6) : entryOf s .run k.val = runEntry s.bay k :=
  congrArg (runEntry s.bay) (ofNat_val k)

theorem entryOf_voice (s : State) (v : Fin 6) : entryOf s .voice v.val = voiceEntry s.tables s.bay v :=
  (if_pos v.isLt).trans (congrArg (voiceEntry s.tables s.bay) (ofNat_val v))

theorem entryOf_zone (s : State) (z : Fin 2) : entryOf s .voice (6 + z.val) = zoneEntry s.tables s.bay z := by
  refine (if_neg (by omega)).trans (congrArg (zoneEntry s.tables s.bay) ?_)
  rw [Nat.add_sub_cancel_left]
  exact ofNat_val z

theorem entryOf_axis (s : State) (a : Fin 4) : entryOf s .axisState a.val = axisEntry s.tables s.bay a :=
  (if_pos a.isLt).trans (congrArg (axisEntry s.tables s.bay) (ofNat_val a))

theorem entryOf_prox (s : State) (p : Fin 4) : entryOf s .axisState (4 + p.val) = proxEntry s.bay p := by
  refine (if_neg (by omega)).trans (congrArg (proxEntry s.bay) ?_)
  rw [Nat.add_sub_cancel_left]
  exact ofNat_val p

theorem entryOf_resource (s : State) (r : Fin 22) : entryOf s .queue r.val = resourceEntry s.bay r :=
  (if_pos r.isLt).trans (congrArg (resourceEntry s.bay) (ofNat_val r))

theorem entryOf_place (s : State) (i : Nat) : entryOf s .queue (22 + i) = placeEntryOf s.bay.claim.queue[i]? := by
  refine (if_neg (by omega)).trans ?_
  rw [Nat.add_sub_cancel_left]

theorem entryOf_status (s : State) (slot : Fin 32) :
    entryOf s .sceneStatus slot.val = statusEntry (s.bay.scene.status.get slot) :=
  congrArg (fun x => statusEntry (s.bay.scene.status.get x)) (ofNat_val slot)

theorem entryOf_trigger (s : State) (n : Fin 12) : entryOf s .trigger n.val = triggerEntry s.tables s.bay n :=
  congrArg (triggerEntry s.tables s.bay) (ofNat_val n)

theorem claims_of_snap {b : Bay} {k : Fin 6} {x : Snapshot} (h : (b.run k).snap = some x) : b.claims k = x.claims := by
  simp [Bay.claims, h]

theorem claims_of_none {b : Bay} {k : Fin 6} (h : (b.run k).snap = none) : b.claims k = ⟨0, 0, 0⟩ := by
  simp [Bay.claims, h]

theorem lookTargetOf_level (q : Colour) : lookTargetOf (.level q) = [1, q.red, q.green, q.blue, q.white] :=
  congrArg (1 :: ·) (colourC_enc q)

theorem lookTargetOf_index (i : Byte) : lookTargetOf (.index i) = [0, 0, 0, 0, i] := congrArg (0 :: ·) (bytesOf_byte 3 i)

theorem readTable_carries {s : State} {code hi lo n : Byte} {id : TableId} {i want : Nat}
    (taken : Taken s .readTable [code, hi, lo, n]) (table : tableOf code.toNat = some id)
    (first : hi.toNat * 256 + lo.toNat = id.base + i) (within : i < id.entries) (some : n ≠ 0)
    (hwant : want = min n.toNat (id.entries - i)) :
    ∃ k, k ≤ want ∧ ∀ l : Nat → List (List Byte), (∀ m, l m = (List.range m).map (fun j => entryOf s id (i + j))) →
      (l k).flatten.length ≤ 196 ∧ (k < want → 196 < (l (k + 1)).flatten.length) ∧
      (id ≠ .voice → exec .readTable s = .next (s.answer 0 (BitVec.ofNat 8 k :: (l k).flatten))) ∧
      (id = .voice → ∃ t, exec .readTableVoice s = .next t ∧
        t = { s.answer 0 (BitVec.ofNat 8 k :: (l k).flatten) with
              bay := { s.bay with voice := { s.bay.voice with zone := t.bay.voice.zone } } } ∧
        ∀ z : Fin 2, t.bay.voice.zone.get z =
          if i ≤ 6 + z.val ∧ 6 + z.val < i + k then { s.bay.voice.zone.get z with clipFlag := false }
          else s.bay.voice.zone.get z) := by
  obtain ⟨k, fits, eq, room, more⟩ := fitEntries_eq 196 ((List.range want).map fun j => entryOf s id (i + j))
  rw [List.length_map, List.length_range] at fits more
  refine ⟨k, fits, fun l hl => ?_⟩
  rw [take_map_range _ fits] at eq room
  rw [← hl] at room
  have form := readParams_eq table first within some
  have named : namedTable [code, hi, lo, n] = Option.some id := table
  have carried : readEntries s id i n.toNat = l k := by rw [readEntries, ← hwant, eq, hl]
  have count : (l k).length = k := by rw [hl, List.length_map, List.length_range]
  have answers : answerRead (id, i, n.toNat) s = s.answer 0 (BitVec.ofNat 8 k :: (l k).flatten) := by
    show s.answer codeDone (readData (readEntries s id i n.toNat)) = _
    rw [carried, readData, count]
    rfl
  refine ⟨room, fun short => ?_, fun plain => ?_, fun voice => ?_⟩
  · have next := more short
    rwa [take_map_range _ short, ← hl] at next
  · rw [exec_readTable taken (by rw [named]; exact fun same => plain (Option.some.inj same)) form, answers]
  · obtain ⟨only, flags⟩ := clearReadClips_parts i k s.bay
    refine ⟨_, exec_readTableVoice taken (by rw [named, voice]) form, ?_⟩
    simp only [answers, carried, count]
    exact ⟨congrArg (fun b => { s.answer 0 (BitVec.ofNat 8 k :: (l k).flatten) with bay := b }) only, flags⟩

/-- Settles O55: the entries an answer carries, then each run-time table's entry, field by field. -/
theorem readTableCarriesWholeEntries : Obligations.ReadTableCarriesWholeEntries := by
  refine ⟨fun s code hi lo n id i want taken table first within some hwant =>
    readTable_carries taken table first within some hwant, ?_⟩
  intro s owner flag' origin target howner hflag horigin htarget
  have owners : owner = ownerOf := funext fun x => by
    cases x
    · exact howner.1
    · exact howner.2 _
  have flags : flag' = flag := funext hflag
  have origins : origin = originOf := funext fun x => (horigin x).trans (by cases x <;> rfl)
  have targets : target = targetOf := funext fun x => (htarget x).trans (by
    cases x
    case index i => exact (congrArg (0 :: ·) (bytesOf_byte 2 i)).symm
    all_goals rfl)
  subst owners flags origins targets
  refine ⟨?_, ?_, ?_, ?_, ?_, ?_, ?_, ?_, ?_, ?_⟩
  · rintro k r held rfl small bits
    have states : runStateOf (s.bay.run k).state =
        [match (s.bay.run k).state with | .free => 0 | .running => 1 | .suspended => 2] := by
      cases (s.bay.run k).state <;> rfl
    have slots : optOf 1 (fun x : Fin 32 => num 1 x.val) (s.bay.run k).slot =
        match (s.bay.run k).slot with
        | none => [0, 0]
        | some x => [1, BitVec.ofNat 8 x.val] := by
      cases (s.bay.run k).slot <;> rfl
    have snaps : optOf 20 snapshotOf (s.bay.run k).snap =
        match (s.bay.run k).snap with
        | none => List.replicate 21 0
        | some x => 1 :: BitVec.ofNat 8 x.priority :: (bytesOf 2 x.claims.fixtures.toNat ++
            [x.claims.lanes.setWidth 8, x.claims.axes.setWidth 8] ++ bytesOf 2 x.firstStep ++ [BitVec.ofNat 8 x.stepCount] ++
            bytesOf 3 x.duration ++ bytesOf 2 x.releaseFade ++ bytesOf 2 x.resumeFade ++ bytesOf 2 x.rewind ++
            bytesOf 3 x.holdLimit) := by
      match (s.bay.run k).snap with
      | none => rfl
      | some x =>
        show 1 :: snapshotOf x = _
        rw [snapshotOf, claimSetC_enc]
        rfl
    have gates : optOf 8 gateOf (s.bay.run k).gate =
        match (s.bay.run k).gate with
        | none => List.replicate 9 0
        | some g => [1, g.axes.setWidth 8] ++ bytesOf 4 g.gated ++ bytesOf 3 g.limit := by
      match (s.bay.run k).gate with
      | none => rfl
      | some g =>
        show 1 :: gateOf g = _
        rw [gateOf, ofNat_toNat_eq_setWidth]
        rfl
    rw [entryOf_run, runEntry]
    simp only [states, slots, snaps, gates, resourceMask_eq small bits]
    refine congrArg₂ _ (congrArg₂ _ ?_ ?_) ?_
    · cases (s.bay.run k).origin <;> rfl
    · refine congrArg (fun f => (List.finRange 16).flatMap f) (funext fun i => ?_)
      match (s.bay.run k).look, snap : (s.bay.run k).snap with
      | none, _ => rfl
      | some l, none =>
        simp only [claims_of_none snap]
        exact if_neg (by simp)
      | some l, some x =>
        simp only [claims_of_snap snap, num_one]
        split
        · match (l.fixture.get i).target with
          | .index j => rw [lookTargetOf_index] <;> rfl
          | .level q => rw [lookTargetOf_level] <;> rfl
          | .none => rfl
        · rfl
    · refine congrArg (fun f => (List.finRange 4).flatMap f) (funext fun a => ?_)
      match (s.bay.run k).look, snap : (s.bay.run k).snap with
      | none, _ => rfl
      | some l, none =>
        simp only [claims_of_none snap]
        exact if_neg (by simp)
      | some l, some x =>
        simp only [claims_of_snap snap]
        match l.axis.get a with
        | none => exact ite_self _
        | some p => rfl
  · rintro v x rfl
    rw [entryOf_voice, voiceEntry]
    have states : wordOf [VoiceState.idle, .priming, .playing, .paused, .stopping] (s.bay.voiceRec v).state =
        [match (s.bay.voiceRec v).state with | .idle => 0 | .priming => 1 | .playing => 2 | .paused => 3 | .stopping => 4] := by
      cases (s.bay.voiceRec v).state <;> rfl
    have zones : zoneIdC.enc (s.bay.voiceRec v).zone = [if (s.bay.voiceRec v).zone = .a then 0 else 1] := by
      cases (s.bay.voiceRec v).zone <;> rfl
    have kinds : laneKindC.enc (s.bay.voiceRec v).kind = [if (s.bay.voiceRec v).kind = .narration then 0 else 1] := by
      cases (s.bay.voiceRec v).kind <;> rfl
    simp only [states, zones, kinds]
    cases (s.bay.voiceRec v).refill <;> rfl
  · rintro z y rfl
    rw [entryOf_zone]
    rfl
  · rintro a x rfl
    rw [entryOf_axis, axisEntry]
    have held : num 1 (s.bay.axisRec a).held.toNat = [(s.bay.axisRec a).held.setWidth 8] := ofNat_toNat_eq_setWidth _
    have states : wordOf [AxisState.unhomed, .homing, .ready, .moving, .held, .faulted] (s.bay.axisRec a).state =
        [match (s.bay.axisRec a).state with
          | .unhomed => 0 | .homing => 1 | .ready => 2 | .moving => 3 | .held => 4 | .faulted => 5] := by
      cases (s.bay.axisRec a).state <;> rfl
    have faults : wordOf [AxisFault.none, .stall, .homeNotFound] (s.bay.axisRec a).fault =
        [match (s.bay.axisRec a).fault with | .none => 0 | .stall => 1 | .homeNotFound => 2] := by
      cases (s.bay.axisRec a).fault <;> rfl
    have phases : wordOf [HomingPhase.none, .offSwitch, .seek] (s.bay.axisRec a).phase =
        [match (s.bay.axisRec a).phase with | .none => 0 | .offSwitch => 1 | .seek => 2] := by
      cases (s.bay.axisRec a).phase <;> rfl
    simp only [states, faults, phases, held, List.append_assoc, List.cons_append, List.nil_append]
    rfl
  · rintro p x rfl
    rw [entryOf_prox, proxEntry]
    cases (s.bay.axis.prox.get p).state <;> rfl
  · rintro r x rfl
    rw [entryOf_resource, resourceEntry, flatMap_num_one]
    rfl
  · intro i
    refine ⟨?_, ?_⟩
    · rw [entryOf_place]
      match s.bay.claim.queue[i.val]? with
      | none => rfl
      | some ⟨_, _, _, _, none⟩ => rfl
      | some ⟨_, _, _, _, some _⟩ => rfl
    · show scheduleEntryOf s.bay.trigger.schedule[i.val]? = _
      cases s.bay.trigger.schedule[i.val]? <;> rfl
  · rintro slot x rfl
    rw [entryOf_status, statusEntry]
    cases (s.bay.scene.status.get slot).lastEnd <;> rfl
  · rintro n g x rfl rfl
    rw [entryOf_trigger, triggerEntry, triggerC_enc]
    cases (s.bay.triggerRec n).state <;> cases (s.tables.trigger.get n).slot <;> rfl
  · show protectC.enc s.tables.protect ++ protectStateOf s.mgmt.protectState = _
    cases s.mgmt.protectState <;> rfl

end Sys2Proof.Machine
end

section
/-! PROOFS. The voice unit: voices following their record, refills, the audio sample event, PLAY and VOICE-FADE. -/

namespace Sys2Proof.Machine

/-! ### Voices and their record (R52, R56 to R59) -/

theorem VoiceState.active_iff {x : VoiceState} : x.active = true ↔ x = .priming ∨ x = .playing := by
  cases x <;> simp [VoiceState.active]

theorem VoiceState.paused_not_active {x : VoiceState} (h : x = .paused) : x.active = false := by rw [h]; rfl

/-- The duck target where a narration of the zone primes or plays. -/
theorem duckTarget_of_some {t : Tables} {b : Bay} {z : Zone}
    (h : ∃ v, (b.voiceRec v).kind = .narration ∧ (b.voiceRec v).zone = z ∧
      ((b.voiceRec v).state = .priming ∨ (b.voiceRec v).state = .playing)) :
    duckTarget t b z = (t.zone.get z.idx).duckDepth.toNat := by
  obtain ⟨v, kind, zone, plays⟩ := h
  refine if_pos (List.any_eq_true.mpr ⟨v, List.mem_finRange v, ?_⟩)
  simp [kind, zone, VoiceState.active_iff.mpr plays]

theorem duckTarget_of_none {t : Tables} {b : Bay} {z : Zone}
    (h : ∀ v, (b.voiceRec v).kind = .narration → (b.voiceRec v).zone = z →
      (b.voiceRec v).state ≠ .priming ∧ (b.voiceRec v).state ≠ .playing) : duckTarget t b z = 65535 := by
  refine if_neg fun any => ?_
  obtain ⟨v, -, sounds⟩ := List.any_eq_true.mp any
  simp only [Bool.and_eq_true, decide_eq_true_eq, VoiceState.active_iff] at sounds
  obtain ⟨⟨kind, zone⟩, plays⟩ := sounds
  obtain ⟨notPriming, notPlaying⟩ := h v kind zone
  exact plays.elim notPriming notPlaying

/-- Settles O28: each case read off the laws of the four loops over a record's voices, and of the duck examination. -/
theorem voicesFollowTheirRecord : Obligations.VoicesFollowTheirRecord := by
  refine ⟨?_, ?_⟩
  · rintro k fade t b v x idle rfl rfl
    refine ⟨fun other => ?_, fun owned => ⟨?_, fun plays => ?_, fun paused => ?_⟩⟩
    · rw [pauseVoices_voiceRec, resumeVoices_voiceRec, endVoices_voiceRec, idleVoices_voiceRec]
      simp [other]
    · rw [idleVoices_voiceRec, if_pos owned]
      rfl
    · have active := VoiceState.active_iff.mpr plays
      have going : (b.voiceRec v).state ≠ .paused := by rcases plays with h | h <;> simp [h]
      rw [pauseVoices_voiceRec, resumeVoices_voiceRec, endVoices_voiceRec]
      simp [owned, active, going]
    · have still := VoiceState.paused_not_active paused
      rw [pauseVoices_voiceRec, endVoices_voiceRec, resumeVoices_voiceRec]
      refine ⟨by simp [still], ?_, fun snap pos hsnap hpos => ?_⟩
      · rw [if_neg (by simp [still]), if_pos (by simp [owned, paused])]
        rfl
      · rw [if_pos (by simp [owned, paused]), hpos, hsnap]
        rfl
  · rintro t b r z target rfl some none
    have same : duckTarget t b z = target := by
      by_cases h : ∃ v, (b.voiceRec v).kind = .narration ∧ (b.voiceRec v).zone = z ∧
          ((b.voiceRec v).state = .priming ∨ (b.voiceRec v).state = .playing)
      · rw [duckTarget_of_some h, some h]
      · have silent : ∀ v, (b.voiceRec v).kind = .narration → (b.voiceRec v).zone = z →
            (b.voiceRec v).state ≠ .priming ∧ (b.voiceRec v).state ≠ .playing := fun v kind zone =>
          ⟨fun priming => h ⟨v, kind, zone, .inl priming⟩, fun playing => h ⟨v, kind, zone, .inr playing⟩⟩
        rw [duckTarget_of_none silent, none silent]
    rw [duckExamine_duck, same]

theorem Bay.updVoice_congr (b : Bay) (v : Fin 6) {f g : Voice → Voice} (h : f (b.voiceRec v) = g (b.voiceRec v)) :
    b.updVoice v f = b.updVoice v g :=
  congrArg (fun x => { b with voice := { b.voice with voice := b.voice.voice.set v x } }) h

/-! ### Refills (R44, R45, R64) -/

/-- A voice takes the place of the best one so far if it wants a refill and has fewer samples. -/
def betterVoice (b : Bay) (best : Option (Fin 6)) (v : Fin 6) : Option (Fin 6) :=
  if (b.voiceRec v).wants then
    match best with
    | none => some v
    | some w => if (b.voiceRec v).fifo.length < (b.voiceRec w).fifo.length then some v else some w
  else best

theorem chooseVoice_eq (b : Bay) : chooseVoice b = (List.finRange 6).foldl (betterVoice b) none := rfl

theorem betterVoice_of_wants {b : Bay} {v : Fin 6} (wants : (b.voiceRec v).wants = true) (best : Option (Fin 6))
    (fewer : ∀ w, best = some w → (b.voiceRec v).fifo.length < (b.voiceRec w).fifo.length) :
    betterVoice b best v = some v := by
  unfold betterVoice
  rw [if_pos wants]
  cases best with
  | none => rfl
  | some w => exact if_pos (fewer w rfl)

/-- The best of a list's voices wants a refill and comes from the list. -/
theorem foldl_betterVoice_mem (b : Bay) : ∀ (l : List (Fin 6)) (best : Option (Fin 6)) (w : Fin 6),
    l.foldl (betterVoice b) best = some w → best = some w ∨ w ∈ l ∧ (b.voiceRec w).wants = true
  | [], _, _, h => .inl h
  | v :: l, best, w, h => by
    rcases foldl_betterVoice_mem b l _ w h with found | ⟨inl, wants⟩
    · unfold betterVoice at found
      split at found
      · next wants =>
        split at found
        · exact .inr ⟨Option.some.inj found ▸ List.mem_cons_self .., Option.some.inj found ▸ wants⟩
        · split at found
          · exact .inr ⟨Option.some.inj found ▸ List.mem_cons_self .., Option.some.inj found ▸ wants⟩
          · exact .inl found
      · exact .inl found
    · exact .inr ⟨List.mem_cons_of_mem v inl, wants⟩

theorem foldl_betterVoice_keeps {b : Bay} {v : Fin 6} : ∀ (l : List (Fin 6)),
    (∀ w ∈ l, (b.voiceRec w).wants = true → (b.voiceRec v).fifo.length ≤ (b.voiceRec w).fifo.length) →
    l.foldl (betterVoice b) (some v) = some v
  | [], _ => rfl
  | w :: l, h => by
    have stays : betterVoice b (some v) w = some v := by
      unfold betterVoice
      split
      · next wants => exact if_neg (Nat.not_lt.mpr (h w (List.mem_cons_self ..) wants))
      · rfl
    rw [List.foldl_cons, stays]
    exact foldl_betterVoice_keeps l fun x inl => h x (List.mem_cons_of_mem w inl)

/-- The voice with the fewest samples, the lowest-numbered of equals, is chosen. -/
theorem chooseVoice_of_fewest {b : Bay} {v : Fin 6} (wants : (b.voiceRec v).wants = true)
    (fewest : ∀ w : Fin 6, (b.voiceRec w).wants = true → (b.voiceRec v).fifo.length ≤ (b.voiceRec w).fifo.length ∧
      ((b.voiceRec w).fifo.length = (b.voiceRec v).fifo.length → v ≤ w)) : chooseVoice b = some v := by
  obtain ⟨before, after, split⟩ := List.append_of_mem (List.mem_finRange v)
  have ascending := List.pairwise_lt_finRange 6
  rw [split, List.pairwise_append] at ascending
  obtain ⟨-, -, lower⟩ := ascending
  rw [chooseVoice_eq, split, List.foldl_append, List.foldl_cons, betterVoice_of_wants wants]
  · exact foldl_betterVoice_keeps after fun w _ wants => (fewest w wants).1
  · intro w best
    rcases foldl_betterVoice_mem b before none w best with none | ⟨inl, wants'⟩
    · exact nomatch none
    · obtain ⟨few, first⟩ := fewest w wants'
      have below : w < v := lower w inl v (List.mem_cons_self ..)
      have apart : (b.voiceRec w).fifo.length ≠ (b.voiceRec v).fifo.length := fun same => absurd (first same) (by omega)
      omega

theorem getElem?_samplesOf : ∀ (j : Nat) (l : List Byte) (low high : Byte), l[2 * j]? = some low → l[2 * j + 1]? = some high →
    (samplesOf l)[j]? = some (high ++ low)
  | 0, lo :: hi :: rest, _, _, low, high => by
    rw [← Option.some.inj low, ← Option.some.inj high]
    rfl
  | j + 1, lo :: hi :: rest, low, high, hlow, hhigh => getElem?_samplesOf j rest low high hlow hhigh

theorem refillDone_of_none {t : Tables} {b : Bay} {v : Fin 6} (samples : List Sample) (h : (b.voiceRec v).refill = none) :
    refillDone v samples t b = b := by
  rw [refillDone, h]

theorem refillDone_of_some {t : Tables} {b : Bay} {v : Fin 6} {n : Nat} (samples : List Sample)
    (h : (b.voiceRec v).refill = some n) : refillDone v samples t b = duckExamine t (b.updVoice v fun x =>
      ({ x with fifo := x.fifo ++ samples, fetchPos := x.fetchPos + n, refill := none } : Voice).wrapFetch.prime) := by
  rw [refillDone, h]

/-- A refill changes the voice unit alone: the voice it fills, and the duck lanes. -/
theorem refillDone_parts (v : Fin 6) (samples : List Sample) (t : Tables) (b : Bay) :
    refillDone v samples t b = { b with voice := (refillDone v samples t b).voice } ∧
    (refillDone v samples t b).voice.startList = b.voice.startList ∧
    ∀ w, w ≠ v → (refillDone v samples t b).voiceRec w = b.voiceRec w := by
  match refill : (b.voiceRec v).refill with
  | none =>
    rw [refillDone_of_none samples refill]
    exact ⟨rfl, rfl, fun _ _ => rfl⟩
  | some n =>
    rw [refillDone_of_some samples refill]
    refine ⟨?_, duckExamine_startList t _, fun w ne => ?_⟩
    · obtain ⟨zone, only, -⟩ := duckExamine_eq t (b.updVoice v fun x =>
        ({ x with fifo := x.fifo ++ samples, fetchPos := x.fetchPos + n, refill := none } : Voice).wrapFetch.prime)
      rw [only]
      rfl
    · rw [duckExamine_voiceRec, Bay.updVoice_voiceRec, if_neg (Ne.symm ne)]

/-- What a refill makes of its voice: the fetch position may wrap, and the voice may begin to play. -/
theorem refilled_eq (x : Voice) (samples : List Sample) (n : Nat) :
    ({ x with fifo := x.fifo ++ samples, fetchPos := x.fetchPos + n, refill := none } : Voice).wrapFetch.prime =
      { x with
        fifo := x.fifo ++ samples, refill := none
        fetchPos := if x.loop = true ∧ x.fetchPos + n = x.count then 0 else x.fetchPos + n
        state := if x.state = .priming ∧ (256 ≤ (x.fifo ++ samples).length ∨
            x.loop = false ∧ (x.fifo ++ samples).length = x.count - x.readPos) then .playing else x.state } := by
  have wrap : ({ x with fifo := x.fifo ++ samples, fetchPos := x.fetchPos + n, refill := none } : Voice).wrapFetch =
      { x with
        fifo := x.fifo ++ samples, refill := none
        fetchPos := if x.loop = true ∧ x.fetchPos + n = x.count then 0 else x.fetchPos + n } := by
    simp only [Voice.wrapFetch, Bool.and_eq_true, decide_eq_true_eq]
    split <;> rfl
  rw [wrap, Voice.prime]
  simp only [Bool.and_eq_true, Bool.or_eq_true, Bool.not_eq_true', decide_eq_true_eq]
  split <;> rfl

/-- Settles O26: the choice of the voice, then what the samples read make of it. -/
theorem refillReadsTheClipIntoTheFifo : Obligations.RefillReadsTheClipIntoTheFifo := by
  refine ⟨?_, ?_⟩
  · rintro s v x pos count free waiting rfl wants fewest rfl rfl
    have chosen := chooseVoice_of_fewest wants fewest
    have begins : beginRefill s = { s.setPort (fun p => { p with link := .refill v (s.bay.voiceRec v).refillRead }) with
        bay := refillBegun v s.bay } := by
      simp only [beginRefill, free, waiting, chosen]
    have begun : refillBegun v s.bay =
        s.bay.updVoice v fun x => { x with refill := some (s.bay.voiceRec v).refillCount } := s.bay.updVoice_congr v rfl
    refine congrArg Host.Outcome.next (begins.trans ?_)
    rw [begun]
    rfl
  · rintro s v req x l link rfl rfl
    have ends : endRefill s = { s with
        port := { s.port with link := .free }, draws := s.draws + 1
        bay := refillDone v (samplesOf (s.flashBytes req)) s.tables s.bay } := by
      simp only [endRefill, link]
      rfl
    obtain ⟨only, starts, others⟩ := refillDone_parts v (samplesOf (s.flashBytes req)) s.tables s.bay
    refine ⟨_, congrArg Host.Outcome.next ends, ?_, starts, others, fun cancelled => ?_, fun n refill fifo hfifo => ?_,
      fun j inside clear fits => ?_⟩
    · exact congrArg (fun bay => { s with port := { s.port with link := .free }, draws := s.draws + 1, bay := bay }) only
    · exact refillDone_of_none _ cancelled
    · show (refillDone v _ s.tables s.bay).voiceRec v = _
      rw [refillDone_of_some _ refill, duckExamine_voiceRec, Bay.updVoice_same, refilled_eq, hfifo]
    · have byte (i : Nat) (h : i < req.count) : (s.flashBytes req)[i]? = some (s.flash.read (req.address + i)) := by
        have low : (req.address + i) % 16777216 = req.address + i := Nat.mod_eq_of_lt (by omega)
        rw [s.flashBytes_of_clear req clear, List.getElem?_map, List.getElem?_range h, Option.map_some, low]
      exact getElem?_samplesOf j _ _ _ (byte _ (by omega)) (byte _ inside)

/-! ### The audio sample event (R46, R53 to R55) -/

/-- The voice unit and the latched half of the error summary alone change. -/
def VoicesOnly (b c : Bay) : Prop := c = { b with voice := c.voice, latched := c.latched }

theorem voicesOnly_voice {b c : Bay} (h : VoicesOnly b c) (v : VoiceUnit) : VoicesOnly b { c with voice := v } := by
  show { c with voice := v } = { b with voice := v, latched := c.latched }
  exact congrArg (fun x : Bay => { x with voice := v }) h

theorem voicesOnly_latch {b c : Bay} (h : VoicesOnly b c) (e : ErrItem) : VoicesOnly b (c.latch e) := by
  show c.latch e = { b with voice := c.voice, latched := (c.latch e).latched }
  exact congrArg (fun x : Bay => { x with latched := (c.latch e).latched }) h

theorem voicesOnly_eachOf {ι : Type} {b c : Bay} {f : ι → Bay → Bay} (h : ∀ i x, VoicesOnly b x → VoicesOnly b (f i x))
    (l : List ι) (hc : VoicesOnly b c) : VoicesOnly b (eachOf l f c) := eachOf_keeps h l c hc

/-- Every voice that sounds draws. -/
def drawEach (b : Bay) : Bay :=
  eachOf (List.finRange 6) (fun v b => if (b.voiceRec v).sounds then b.updVoice v Voice.draw else b) b

theorem drawVoices_eq (b : Bay) :
    drawVoices b = if anyUnderrun (drawEach b) && !anyUnderrun b then (drawEach b).latch .underrun else drawEach b := rfl

theorem drawVoices_voice (b : Bay) : (drawVoices b).voice = (drawEach b).voice := by
  rw [drawVoices_eq]
  generalize drawEach b = c
  split <;> rfl

theorem voicesOnly_drawVoices (b : Bay) : VoicesOnly b (drawVoices b) := by
  have drawn : VoicesOnly b (drawEach b) := by
    refine voicesOnly_eachOf (fun v x h => ?_) _ rfl
    split
    · exact voicesOnly_voice h _
    · exact h
  rw [drawVoices_eq]
  split
  · exact voicesOnly_latch drawn .underrun
  · exact drawn

theorem drawEach_voiceRec (b : Bay) (v : Fin 6) :
    (drawEach b).voiceRec v = if (b.voiceRec v).sounds then (b.voiceRec v).draw else b.voiceRec v := by
  refine (eachOf_at (f := fun v (b : Bay) => if (b.voiceRec v).sounds then b.updVoice v Voice.draw else b)
    (g := fun b : Bay => b.voiceRec v) (fun _ => True) v (fun x => if x.sounds then x.draw else x) (fun _ _ _ => trivial)
    (fun w c ne _ => ?_) (fun c _ => ?_) (List.finRange 6) b (List.nodup_finRange 6) trivial).trans
    (if_pos (List.mem_finRange v))
  · split
    · exact (Bay.updVoice_voiceRec c w v _).trans (if_neg ne)
    · rfl
  · split
    · exact Bay.updVoice_same c v _
    · rfl

theorem drawVoices_voiceRec (b : Bay) (v : Fin 6) :
    (drawVoices b).voiceRec v = if (b.voiceRec v).sounds then (b.voiceRec v).draw else b.voiceRec v :=
  (congrArg (fun x : VoiceUnit => x.voice.get v) (drawVoices_voice b)).trans (drawEach_voiceRec b v)

/-- What a mix makes of the voice unit. -/
theorem mixZone_voice (r : Int) (z : Zone) (b : Bay) : (mixZone r z b).voice = (b.updZone z.idx fun y =>
    { y with sent := y.formed, formed := saturate r, clipFlag := y.clipFlag || saturate r != r }).voice := by
  unfold mixZone
  dsimp only
  split <;> rfl

theorem voicesOnly_mixZone {b c : Bay} (h : VoicesOnly b c) (r : Int) (z : Zone) : VoicesOnly b (mixZone r z c) := by
  unfold mixZone
  dsimp only
  split
  · exact voicesOnly_voice h _
  · exact voicesOnly_latch (voicesOnly_voice h _) .zoneClip

theorem voicesOnly_duckExamine {b c : Bay} (h : VoicesOnly b c) (t : Tables) : VoicesOnly b (duckExamine t c) := by
  obtain ⟨zone, only, -⟩ := duckExamine_eq t c
  rw [only]
  exact voicesOnly_voice h _

theorem voicesOnly_audioEvent (started : Bool) (t : Tables) (b : Bay) : VoicesOnly b (audioEvent started t b) := by
  obtain ⟨ra, rb, ending, eq⟩ := audioEvent_eq started t b
  rw [eq]
  refine voicesOnly_duckExamine (voicesOnly_eachOf (fun v x h => voicesOnly_voice h _) ending ?_) t
  exact voicesOnly_mixZone (voicesOnly_mixZone (voicesOnly_drawVoices b) ra .a) rb .b

theorem mixZone_voiceRec (r : Int) (z : Zone) (b : Bay) (v : Fin 6) : (mixZone r z b).voiceRec v = b.voiceRec v :=
  congrArg (fun x : VoiceUnit => x.voice.get v) (mixZone_voice r z b) |>.trans rfl

theorem Voice.idle_idle (x : Voice) : x.idle.idle = x.idle := rfl

theorem eachOf_voiceIdle (v : Fin 6) : ∀ (l : List (Fin 6)) (b : Bay),
    (eachOf l voiceIdle b).voiceRec v = (if v ∈ l then (b.voiceRec v).idle else b.voiceRec v) ∧
    (eachOf l voiceIdle b).voice.startList = b.voice.startList.filter (fun w => !l.contains w) ∧
    (eachOf l voiceIdle b).voice.zone = b.voice.zone
  | [], b => ⟨rfl, by simp, rfl⟩
  | w :: l, b => by
    obtain ⟨record, starts, zone⟩ := eachOf_voiceIdle v l (voiceIdle w b)
    rw [eachOf_cons]
    refine ⟨?_, ?_, zone⟩
    · rw [record, voiceIdle_voiceRec]
      by_cases here : w = v
      · subst here
        simp [Voice.idle_idle]
      · simp [here, Ne.symm here]
    · rw [starts, voiceIdle_startList, List.filter_filter]
      refine List.filter_congr fun x _ => Bool.eq_iff_iff.mpr ?_
      simp [and_comm]

/-- What the event makes of a voice: it draws if it sounds, and falls silent at its end. -/
theorem audioEvent_voiceRec (started : Bool) (t : Tables) (b : Bay) (v : Fin 6) : (audioEvent started t b).voiceRec v =
    if endsNow b (b.voiceRec v) then (b.voiceRec v).draw.idle
    else if (b.voiceRec v).sounds then (b.voiceRec v).draw else b.voiceRec v := by
  unfold audioEvent
  dsimp only
  rw [duckExamine_voiceRec, (eachOf_voiceIdle v _ _).1, mixZone_voiceRec, mixZone_voiceRec, drawVoices_voiceRec]
  by_cases ends : endsNow b (b.voiceRec v) = true
  · have sounds : (b.voiceRec v).sounds = true := (Bool.and_eq_true_iff.mp ends).1
    simp [ends, sounds]
  · simp [ends]

theorem not_mem_startList_audioEvent {started : Bool} {t : Tables} {b : Bay} {v : Fin 6}
    (ends : endsNow b (b.voiceRec v) = true) : v ∉ (audioEvent started t b).voice.startList := by
  unfold audioEvent
  dsimp only
  rw [duckExamine_startList, (eachOf_voiceIdle v _ _).2.1]
  simp [ends]

theorem formed_mixZone_self (r : Int) (z : Zone) (b : Bay) :
    ((mixZone r z b).voice.zone.get z.idx).formed = saturate r := by
  rw [mixZone_voice, Bay.updZone_voice, Tab.get_upd_same]

theorem formed_mixZone_other (r : Int) {z w : Zone} (ne : z.idx ≠ w.idx) (b : Bay) :
    (mixZone r z b).voice.zone.get w.idx = b.voice.zone.get w.idx := by
  rw [mixZone_voice, Bay.updZone_voice, Tab.get_upd_of_ne _ _ ne]

theorem formed_mixZone_zero (b : Bay) : ∀ z : Fin 2, ((mixZone 0 .b (mixZone 0 .a b)).voice.zone.get z).formed = 0
  | 0 => (congrArg ZoneRun.formed (formed_mixZone_other 0 (z := .b) (w := .a) (by decide) _)).trans
    (formed_mixZone_self 0 .a b)
  | 1 => formed_mixZone_self 0 .b _

/-- Until start-up has taken the tables a zone's sample is 0. -/
theorem formed_audioEvent_of_stopped (t : Tables) (b : Bay) (z : Fin 2) :
    ((audioEvent false t b).voice.zone.get z).formed = 0 := by
  have eq : audioEvent false t b = duckExamine t (eachOf ((List.finRange 6).filter fun v => endsNow b (b.voiceRec v)) voiceIdle
    (mixZone 0 .b (mixZone 0 .a (drawVoices b)))) := rfl
  obtain ⟨zone, only, kept⟩ := duckExamine_eq t (eachOf ((List.finRange 6).filter fun v => endsNow b (b.voiceRec v)) voiceIdle
    (mixZone 0 .b (mixZone 0 .a (drawVoices b))))
  have formed : (zone.get z).formed = ((mixZone 0 .b (mixZone 0 .a (drawVoices b))).voice.zone.get z).formed := by
    rw [kept, (eachOf_voiceIdle 0 _ _).2.2]
  rw [eq, only]
  exact formed.trans (formed_mixZone_zero _ z)

theorem sounds_iff {x : Voice} : x.sounds = true ↔ x.state = .playing ∨ x.state = .stopping := by
  simp [Voice.sounds]

theorem endsNow_of_atEnd {b : Bay} {x : Voice} (sounds : x.sounds = true) (atEnd : x.atEnd = true) : endsNow b x = true := by
  simp [endsNow, sounds, atEnd]

theorem endsNow_of_faded {b : Bay} {x : Voice} (stopping : x.state = .stopping) (faded : laneDone b x.gain = true) :
    endsNow b x = true := by
  simp [endsNow, sounds_iff.mpr (.inr stopping), stopping, faded]

/-- A voice that is not at the end of its clip, nor at the end of its fade, goes on. -/
theorem endsNow_of_goesOn {b : Bay} {x : Voice} (atEnd : x.atEnd = false)
    (goes : x.state = .playing ∨ laneDone b x.gain = false) : endsNow b x = false := by
  rcases goes with playing | fading
  · simp [endsNow, atEnd, playing]
  · simp [endsNow, atEnd, fading]

theorem Voice.draw_of_empty {x : Voice} (h : x.fifo = []) : x.draw = { x with underrun := true } := by
  rw [Voice.draw, h]

/-- A draw steps on, but from the last sample of a looping clip. -/
theorem Voice.draw_of_cons {x : Voice} {y : Sample} {rest : List Sample} (h : x.fifo = y :: rest)
    (on : x.readPos + 1 ≠ x.count ∨ x.loop = false) :
    x.draw = { x with fifo := rest, underrun := false, readPos := x.readPos + 1 } := by
  rw [Voice.draw, h]
  rcases on with more | once
  · simp [more]
  · simp [once]

theorem Voice.draw_of_wrap {x : Voice} {y : Sample} {rest : List Sample} (h : x.fifo = y :: rest)
    (last : x.readPos + 1 = x.count) (loop : x.loop = true) :
    x.draw = { x with fifo := rest, underrun := false, readPos := 0 } := by
  rw [Voice.draw, h]
  simp [last, loop]

/-- Settles O25: a voice that sounds draws, and becomes IDLE at the end of its clip or of its fade. -/
theorem audioSampleEventDrawsFromVoices : Obligations.AudioSampleEventDrawsFromVoices := by
  intro s
  refine ⟨_, rfl, congrArg (fun b => { s with bay := b }) (voicesOnly_audioEvent s.ready s.tables s.bay), fun off z => ?_, ?_⟩
  · show ((audioEvent s.ready s.tables s.bay).voice.zone.get z).formed = 0
    rw [off]
    exact formed_audioEvent_of_stopped _ _ z
  · rintro v x isX
    have record := audioEvent_voiceRec s.ready s.tables s.bay v
    rw [← isX] at record
    have draws (sounding : x.state = .playing ∨ x.state = .stopping) (on : endsNow s.bay x = false) :
        (audioEvent s.ready s.tables s.bay).voiceRec v = x.draw :=
      record.trans ((if_neg (Bool.eq_false_iff.mp on)).trans (if_pos (sounds_iff.mpr sounding)))
    refine ⟨fun notPlaying notStopping => ?_, fun sounding => ⟨fun empty goes => ?_, fun y rest some => ?_,
      fun stopping faded => ?_⟩⟩
    · have silent : x.sounds = false := Bool.eq_false_iff.mpr fun h => (sounds_iff.mp h).elim notPlaying notStopping
      exact record.trans (by simp [endsNow, silent])
    · exact (draws sounding (endsNow_of_goesOn (by simp [Voice.atEnd, empty]) goes)).trans (Voice.draw_of_empty empty)
    · refine ⟨fun more goes => ?_, fun last loop goes => ?_, fun last once => ?_⟩
      · exact (draws sounding (endsNow_of_goesOn (by simp [Voice.atEnd, more]) goes)).trans (Voice.draw_of_cons some (.inl more))
      · exact (draws sounding (endsNow_of_goesOn (by simp [Voice.atEnd, loop]) goes)).trans (Voice.draw_of_wrap some last loop)
      · have ends := endsNow_of_atEnd (b := s.bay) (sounds_iff.mpr sounding) (by simp [Voice.atEnd, some, last, once])
        refine record.trans ?_
        rw [if_pos ends, Voice.draw_of_cons some (.inr once)]
        rfl
    · have ends := endsNow_of_faded stopping faded
      have idle : (audioEvent s.ready s.tables s.bay).voiceRec v = x.draw.idle := record.trans (if_pos ends)
      exact ⟨congrArg Voice.state idle, congrArg Voice.fifo idle, congrArg Voice.owner idle,
        not_mem_startList_audioEvent (isX ▸ ends)⟩

/-! ### PLAY (R47, R48) -/

theorem idleVoice_of_first {b : Bay} {v : Fin 6} (idle : (b.voiceRec v).state = .idle)
    (first : ∀ w, w < v → (b.voiceRec w).state ≠ .idle) : idleVoice b = some v :=
  find_first v (by simp [idle]) fun w below => by simp [first w below]

theorem idleVoice_of_none {b : Bay} (h : ∀ w, (b.voiceRec w).state ≠ .idle) : idleVoice b = none :=
  List.find?_eq_none.mpr fun w _ => by simp [h w]

theorem stealable_eq (b : Bay) : stealable b = b.voice.startList.find? (fun w => (b.voiceRec w).kind = .ambient &&
    (b.voiceRec w).state != .idle && (b.voiceRec w).state != .paused) := by
  refine congrArg (fun p => b.voice.startList.find? p) (funext fun w => ?_)
  dsimp only
  generalize (b.voiceRec w).state = state
  generalize (b.voiceRec w).kind = kind
  cases state <;> cases kind <;> rfl

/-- An IDLE voice as it is, or a stolen one made IDLE. -/
theorem allocate_of_chosen {b : Bay} {v : Fin 6}
    (h : ((b.voiceRec v).state = .idle ∧ (∀ w, w < v → (b.voiceRec w).state ≠ .idle)) ∨
      ((∀ w, (b.voiceRec w).state ≠ .idle) ∧ b.voice.startList.find? (fun w => (b.voiceRec w).kind = .ambient &&
        (b.voiceRec w).state != .idle && (b.voiceRec w).state != .paused) = some v)) :
    ∃ c, allocate b = some (v, c) ∧ (c.voiceRec v).state = .idle ∧ (∀ w, w ≠ v → c.voiceRec w = b.voiceRec w) ∧
      c.time = b.time ∧ c.scene = b.scene := by
  rcases h with ⟨idle, first⟩ | ⟨busy, stolen⟩
  · refine ⟨b, ?_, idle, fun _ _ => rfl, rfl, rfl⟩
    rw [allocate, idleVoice_of_first idle first]
  · refine ⟨voiceIdle v b, ?_, ?_, fun w ne => ?_, rfl, rfl⟩
    · rw [allocate, idleVoice_of_none busy, stealable_eq, stolen]
      rfl
    · rw [voiceIdle_voiceRec, if_pos rfl]
      rfl
    · rw [voiceIdle_voiceRec, if_neg (Ne.symm ne)]

theorem allocate_of_none {b : Bay}
    (h : ∀ w, (b.voiceRec w).state ≠ .idle ∧ ((b.voiceRec w).kind = .narration ∨ (b.voiceRec w).state = .paused)) :
    allocate b = none := by
  have steal : stealable b = none := by
    rw [stealable_eq]
    refine List.find?_eq_none.mpr fun w _ => ?_
    rcases (h w).2 with kind | paused
    · simp [kind]
    · simp [paused]
  rw [allocate, idleVoice_of_none fun w => (h w).1, steal]
  rfl

/-- What a PLAY does first with the record's own narration in the zone. -/
def makeRoom (k : Fin 6) (z : Zone) (kind : LaneKind) (t : Tables) (b : Bay) : Bay :=
  match kind with
  | .narration => replaceNarration k z t b
  | .ambient => b

/-- The gain lane of a voice that begins: silent, fading in on its record's clock. -/
def fadeInLane (b : Bay) (k : Fin 6) (gain fadeIn : Nat) : Lane :=
  { start := 0, target := .level gain, startTime := (b.run k).clock, duration := min fadeIn maxDuration, curve := .linear,
    source := .run k }

theorem retarget_silent (t : Tables) (b : Bay) (k : Fin 6) (gain fadeIn : Nat) (l : Lane) :
    retarget t b .red (.level gain) fadeIn .linear (.run k) (retarget t b .red (.level 0) 0 .linear (.run k) l) =
      fadeInLane b k gain fadeIn := by
  have silent : laneValue t b .red (retarget t b .red (.level 0) 0 .linear (.run k) l) = 0 := by
    rw [laneValue, if_pos (by simp [laneDone, retarget])]
    rfl
  rw [retarget, silent]
  rfl

theorem setUpVoice_parts (v k : Fin 6) (clip : Fin 128) (z : Zone) (kind : LaneKind) (gain : Option (BitVec 16))
    (fadeIn : Nat) (loop : Bool) {t : Tables} {b c r : Bay} (hc : c = makeRoom k z kind t b)
    (time : c.time = b.time) (scene : c.scene = b.scene) (hr : r = setUpVoice v k clip z kind gain fadeIn loop t b) :
    r.voiceRec v =
      { state := .priming, clip := clip, firstPage := (t.clip.get clip).firstPage.toNat
        count := (t.clip.get clip).count.toNat, zone := z, kind := kind, owner := some k, readPos := 0, fetchPos := 0
        fifo := [], refill := none, loop := loop, underrun := false
        gain := fadeInLane b k (gain.getD (t.clip.get clip).gain).toNat fadeIn } ∧
    r.voice.startList = c.voice.startList ++ [v] ∧ ∀ w, w ≠ v → r.voiceRec w = c.voiceRec w := by
  have chain : r = ((({ c with voice := { c.voice with startList := c.voice.startList ++ [v] } }.updVoice v fun x => { x with
      state := .priming, clip := clip, zone := z, kind := kind, loop := loop
      firstPage := (t.clip.get clip).firstPage.toNat, count := (t.clip.get clip).count.toNat, owner := some k
      readPos := 0, fetchPos := 0, fifo := [], refill := none, underrun := false }).updVoice v fun x =>
        { x with gain := retarget t b .red (.level 0) 0 .linear (.run k) x.gain }).updVoice v fun x =>
        { x with gain := retarget t b .red (.level (gain.getD (t.clip.get clip).gain).toNat) fadeIn .linear (.run k) x.gain }) := by
    have first (l : Lane) : retarget t c .red (.level 0) 0 .linear (.run k) l =
        retarget t b .red (.level 0) 0 .linear (.run k) l := retarget_congr t time scene ..
    have second (l : Lane) : retarget t c .red (.level (gain.getD (t.clip.get clip).gain).toNat) fadeIn .linear (.run k) l =
        retarget t b .red (.level (gain.getD (t.clip.get clip).gain).toNat) fadeIn .linear (.run k) l :=
      retarget_congr t time scene ..
    simp only [← first, ← second, hr, hc]
    rfl
  subst chain
  refine ⟨?_, rfl, fun w ne => ?_⟩
  · rw [Bay.updVoice_same, Bay.updVoice_same, Bay.updVoice_same]
    simp only [retarget_silent]
  · rw [Bay.updVoice_voiceRec, if_neg (Ne.symm ne), Bay.updVoice_voiceRec, if_neg (Ne.symm ne), Bay.updVoice_voiceRec,
      if_neg (Ne.symm ne)]
    rfl

theorem Voice.plays_of_idle {x : Voice} (h : x.state = .idle) (k : Fin 6) (z : Zone) (kind : LaneKind) :
    x.plays k z kind = false := by
  simp [Voice.plays, h]

/-- The record's own narration in the zone stops, and no other voice changes. -/
theorem replaceNarration_parts (k : Fin 6) (z : Zone) (t : Tables) (b : Bay) :
    (∃ voice, replaceNarration k z t b = { b with voice := { b.voice with voice := voice } }) ∧
    (∀ w, (b.voiceRec w).plays k z .narration = false → (replaceNarration k z t b).voiceRec w = b.voiceRec w) ∧
    ∀ w, (b.voiceRec w).plays k z .narration = true → (∀ u, u < w → (b.voiceRec u).plays k z .narration = false) →
      (replaceNarration k z t b).voiceRec w = { b.voiceRec w with
        state := .stopping, owner := none, gain := retarget t b .red (.level 0) 50 .linear .node (b.voiceRec w).gain } := by
  match found : (List.finRange 6).find? (fun v => (b.voiceRec v).plays k z .narration) with
  | none =>
    have same : replaceNarration k z t b = b := by rw [replaceNarration, found]
    rw [same]
    refine ⟨⟨_, rfl⟩, fun _ _ => rfl, fun w plays => ?_⟩
    exact absurd plays (List.find?_eq_none.mp found w (List.mem_finRange w))
  | some v =>
    have stops : replaceNarration k z t b = voiceStop 0 50 t v b := by rw [replaceNarration, found]
    rw [stops]
    have plays := List.find?_some found
    refine ⟨⟨_, rfl⟩, fun w silent => ?_, fun w own first => ?_⟩
    · refine (Bay.updVoice_voiceRec b v w _).trans (if_neg ?_)
      rintro rfl
      exact Bool.false_ne_true (silent.symm.trans plays)
    · have same : v = w := Option.some.inj (found.symm.trans (find_first w own first))
      subst same
      exact Bay.updVoice_same b v _

theorem makeRoom_frame (k : Fin 6) (z : Zone) (kind : LaneKind) (t : Tables) (b : Bay) :
    (makeRoom k z kind t b).time = b.time ∧ (makeRoom k z kind t b).scene = b.scene ∧
    ∀ w, (b.voiceRec w).plays k z .narration = false ∨ kind = .ambient → (makeRoom k z kind t b).voiceRec w = b.voiceRec w := by
  cases kind with
  | ambient => exact ⟨rfl, rfl, fun _ _ => rfl⟩
  | narration =>
    obtain ⟨⟨voice, only⟩, silent, -⟩ := replaceNarration_parts k z t b
    have same : makeRoom k z .narration t b = replaceNarration k z t b := rfl
    rw [same]
    exact ⟨by rw [only], by rw [only], fun w h => silent w (h.resolve_right (nomatch ·))⟩

/-- The state of the bay after a PLAY that finds voice `v`. -/
theorem playStep_of_chosen {k : Fin 6} {clip : Fin 128} (z : Zone) (kind : LaneKind) (gain : Option (BitVec 16))
    (fadeIn : Nat) (loop : Bool) {t : Tables} {b r : Bay} {v : Fin 6} (valid : (t.clip.get clip).valid = true)
    (chosen : ((b.voiceRec v).state = .idle ∧ (∀ w, w < v → (b.voiceRec w).state ≠ .idle)) ∨
      ((∀ w, (b.voiceRec w).state ≠ .idle) ∧ b.voice.startList.find? (fun w => (b.voiceRec w).kind = .ambient &&
        (b.voiceRec w).state != .idle && (b.voiceRec w).state != .paused) = some v))
    (hr : r = playStep k clip z kind gain fadeIn loop t b) :
    r.voiceRec v =
      { state := .priming, clip := clip, firstPage := (t.clip.get clip).firstPage.toNat
        count := (t.clip.get clip).count.toNat, zone := z, kind := kind, owner := some k, readPos := 0, fetchPos := 0
        fifo := [], refill := none, loop := loop, underrun := false
        gain := fadeInLane b k (gain.getD (t.clip.get clip).gain).toNat fadeIn } ∧
    r.voice.startList.getLast? = some v ∧
    (∀ w, w ≠ v → (b.voiceRec w).plays k z .narration = false ∨ kind = .ambient → r.voiceRec w = b.voiceRec w) ∧
    (∀ w, w ≠ v → kind = .narration → (b.voiceRec w).plays k z .narration = true →
      (∀ u, u < w → (b.voiceRec u).plays k z .narration = false) →
      r.voiceRec w = { b.voiceRec w with
        state := .stopping, owner := none
        gain := retarget t b .red (.level 0) 50 .linear .node (b.voiceRec w).gain }) := by
  obtain ⟨c, allocated, idle, others, time, scene⟩ := allocate_of_chosen chosen
  have sets : r = setUpVoice v k clip z kind gain fadeIn loop t c := by
    rw [hr, playStep, if_pos valid, allocated]
  obtain ⟨roomTime, roomScene, quiet⟩ := makeRoom_frame k z kind t c
  obtain ⟨record, starts, rest⟩ := setUpVoice_parts v k clip z kind gain fadeIn loop rfl roomTime roomScene sets
  have lane (g f : Nat) : fadeInLane c k g f = fadeInLane b k g f := by rw [fadeInLane, fadeInLane, Bay.run, Bay.run, scene]
  refine ⟨by rw [record, lane], by rw [starts, List.getLast?_concat], fun w ne silent => ?_, fun w ne narration plays first => ?_⟩
  · rw [rest w ne, quiet w (by rwa [others w ne]), others w ne]
  · subst narration
    obtain ⟨-, -, stops⟩ := replaceNarration_parts k z t c
    have before : ∀ u, u < w → (c.voiceRec u).plays k z .narration = false := fun u below => by
      by_cases here : u = v
      · subst here
        exact Voice.plays_of_idle idle k z _
      · rw [others u here]
        exact first u below
    rw [rest w ne]
    refine (stops w (by rwa [others w ne]) before).trans ?_
    rw [others w ne, retarget_congr t time scene]

theorem duckIf_parts (own : Bool) (t : Tables) (b : Bay) : (∃ voice, duckIf own t b = { b with voice := voice }) ∧
    (duckIf own t b).voice.voice = b.voice.voice ∧ (duckIf own t b).voice.startList = b.voice.startList := by
  unfold duckIf
  split
  · obtain ⟨zone, only, -⟩ := duckExamine_eq t b
    rw [only]
    exact ⟨⟨_, rfl⟩, rfl, rfl⟩
  · exact ⟨⟨_, rfl⟩, rfl, rfl⟩

theorem skip_of_slot {b : Bay} {k : Fin 6} {slot : Fin 32} (h : (b.run k).slot = some slot) :
    b.skip k = b.updStatus slot fun x => { x with skipped := true } := by
  rw [Bay.skip, h]

/-- A skip changes the scene status alone. -/
theorem skip_parts (b : Bay) (k : Fin 6) :
    (∃ status, b.skip k = { b with scene := { b.scene with status := status } }) ∧
    ∀ slot, (b.run k).slot = some slot → ((b.skip k).scene.status.get slot).skipped = true := by
  refine ⟨?_, fun slot runs => ?_⟩
  · match runs : (b.run k).slot with
    | none => exact ⟨b.scene.status, by rw [Bay.skip, runs]⟩
    | some slot => exact ⟨_, skip_of_slot runs⟩
  · rw [skip_of_slot runs]
    exact congrArg SceneStatus.skipped (Tab.get_upd_same b.scene.status slot _)

theorem laneOutside_of_claimed {b : Bay} {k : Fin 6} {z : Zone} {kind : LaneKind}
    (h : kind = .narration → (b.claims k).lanes.getLsbD z.idx.val = true) : laneOutside b k z kind = false := by
  cases kind with
  | narration => simp [laneOutside, h rfl]
  | ambient => rfl

theorem fireStep_play {own : Bool} {k : Fin 6} {b : Bay} {z : Zone} {kind : LaneKind} (t : Tables) (clip : Fin 128)
    (gain : Option (BitVec 16)) (fadeIn : Fin 600001) (loop : Bool)
    (h : kind = .narration → (b.claims k).lanes.getLsbD z.idx.val = true) :
    fireStep own k (.play clip z kind gain fadeIn loop) t b =
      duckIf own t (playStep k clip z kind gain fadeIn.val loop t b) :=
  if_neg (Bool.eq_false_iff.mp (laneOutside_of_claimed h))

theorem fireStep_voiceFade {own : Bool} {k : Fin 6} {b : Bay} {z : Zone} {kind : LaneKind} (t : Tables)
    (gain : BitVec 16) (fade : Fin 600001) (stop : Bool)
    (h : kind = .narration → (b.claims k).lanes.getLsbD z.idx.val = true) :
    fireStep own k (.voiceFade z kind gain fade stop) t b =
      duckIf own t (voiceFadeStep k z kind gain.toNat fade.val stop t b) :=
  if_neg (Bool.eq_false_iff.mp (laneOutside_of_claimed h))

/-! ### VOICE-FADE (R49) -/

/-- What a VOICE-FADE makes of a voice it picks. -/
def Voice.faded (k : Fin 6) (gain fade : Nat) (stop : Bool) (t : Tables) (b : Bay) (x : Voice) : Voice :=
  if stop then
    { x with state := .stopping, owner := none, gain := retarget t b .red (.level gain) fade .linear .node x.gain }
  else { x with gain := retarget t b .red (.level gain) fade .linear (.run k) x.gain }

theorem voiceFadeStep_eq (k : Fin 6) (z : Zone) (kind : LaneKind) (gain fade : Nat) (stop : Bool) (t : Tables) (b : Bay) :
    voiceFadeStep k z kind gain fade stop t b = eachOf (List.finRange 6) (fun v b =>
      if (b.voiceRec v).plays k z kind then b.updVoice v (Voice.faded k gain fade stop t b) else b) b := by
  unfold voiceFadeStep each
  congr 1
  funext v b
  cases stop <;> rfl

theorem Voice.faded_congr (k : Fin 6) (gain fade : Nat) (stop : Bool) (t : Tables) {b c : Bay} (time : c.time = b.time)
    (scene : c.scene = b.scene) (x : Voice) : x.faded k gain fade stop t c = x.faded k gain fade stop t b := by
  simp only [Voice.faded, retarget_congr t time scene]

theorem voiceFadeStep_parts (k : Fin 6) (z : Zone) (kind : LaneKind) (gain fade : Nat) (stop : Bool) (t : Tables) (b : Bay) :
    (∃ voice, voiceFadeStep k z kind gain fade stop t b = { b with voice := { b.voice with voice := voice } }) ∧
    ∀ v, (voiceFadeStep k z kind gain fade stop t b).voiceRec v =
      if (b.voiceRec v).plays k z kind then (b.voiceRec v).faded k gain fade stop t b else b.voiceRec v := by
  have keeps (v : Fin 6) (c : Bay) (h : ∃ voice, c = { b with voice := { b.voice with voice := voice } }) :
      ∃ voice, (if (c.voiceRec v).plays k z kind then c.updVoice v (Voice.faded k gain fade stop t c) else c) =
        { b with voice := { b.voice with voice := voice } } := by
    obtain ⟨voice, rfl⟩ := h
    split
    · exact ⟨_, rfl⟩
    · exact ⟨voice, rfl⟩
  rw [voiceFadeStep_eq]
  refine ⟨eachOf_keeps keeps _ b ⟨b.voice.voice, rfl⟩, fun v => ?_⟩
  refine (eachOf_at (f := fun v (b : Bay) =>
      if (b.voiceRec v).plays k z kind then b.updVoice v (Voice.faded k gain fade stop t b) else b)
    (g := fun b : Bay => b.voiceRec v) (fun c => ∃ voice, c = { b with voice := { b.voice with voice := voice } }) v
    (fun x => if x.plays k z kind then x.faded k gain fade stop t b else x) keeps
    (fun w c ne _ => ?_) (fun c only => ?_) (List.finRange 6) b (List.nodup_finRange 6) ⟨_, rfl⟩).trans
    (if_pos (List.mem_finRange v))
  · split
    · exact (Bay.updVoice_voiceRec c w v _).trans (if_neg ne)
    · rfl
  · have same (x : Voice) : x.faded k gain fade stop t c = x.faded k gain fade stop t b := by
      obtain ⟨voice, rfl⟩ := only
      exact x.faded_congr k gain fade stop t rfl rfl
    split
    · exact (Bay.updVoice_same c v _).trans (same _)
    · rfl

/-- Settles O27: the choice of a voice and its set-up for PLAY, the loop over the record's voices for VOICE-FADE. -/
theorem playTakesAndFillsAVoice : Obligations.PlayTakesAndFillsAVoice := by
  refine ⟨?_, ?_, ?_⟩
  · intro own k t b r clip z kind gain fadeIn loop hr claimed
    rw [fireStep_play t clip gain fadeIn loop claimed] at hr
    obtain ⟨⟨voice, only⟩, voices, starts⟩ := duckIf_parts own t (playStep k clip z kind gain fadeIn.val loop t b)
    rw [← hr] at only voices starts
    have latched : r.latched = (playStep k clip z kind gain fadeIn.val loop t b).latched := by rw [only]
    have status : r.scene = (playStep k clip z kind gain fadeIn.val loop t b).scene := by rw [only]
    obtain ⟨⟨marks, skips⟩, flagged⟩ := skip_parts b k
    refine ⟨fun invalid => ?_, fun valid => ⟨fun v chosen => ?_, fun none => ?_⟩⟩
    · have skipped : playStep k clip z kind gain fadeIn.val loop t b = b.skip k :=
        if_neg (Bool.eq_false_iff.mp invalid)
      rw [voices, starts, latched, status, skipped]
      refine ⟨by rw [skips], by rw [skips], by rw [skips], flagged⟩
    · obtain ⟨record, last, quiet, stops⟩ := playStep_of_chosen z kind gain fadeIn.val loop valid chosen rfl
      have same (w : Fin 6) : r.voiceRec w = (playStep k clip z kind gain fadeIn.val loop t b).voiceRec w :=
        congrArg (fun x : Tab Voice 6 => x.get w) voices
      have short : min fadeIn.val maxDuration = fadeIn.val := Nat.min_eq_left (Nat.le_of_lt_succ fadeIn.isLt)
      refine ⟨?_, by rw [starts, last], fun w => (same w).symm ▸ quiet w, fun w => (same w).symm ▸ stops w⟩
      rw [same, record, fadeInLane, short]
    · have skipped : playStep k clip z kind gain fadeIn.val loop t b = (b.skip k).latch .voiceShort := by
        rw [playStep, if_pos valid, allocate_of_none none]
      rw [voices, starts, latched, status, skipped]
      refine ⟨by rw [Bay.latch_voice, skips], by rw [Bay.latch_voice, skips], ?_, flagged⟩
      simp [Bay.latch, ErrItem.bit]
  · intro own k t b r z kind gain fade stop hr claimed
    rw [fireStep_voiceFade t gain fade stop claimed] at hr
    obtain ⟨⟨voice, only⟩, voices, starts⟩ := duckIf_parts own t (voiceFadeStep k z kind gain.toNat fade.val stop t b)
    rw [← hr] at only voices starts
    obtain ⟨⟨faded, fades⟩, records⟩ := voiceFadeStep_parts k z kind gain.toNat fade.val stop t b
    refine ⟨?_, starts.trans (by rw [fades]), ?_⟩
    · rw [only, fades]
    · rintro v x rfl
      have same : r.voiceRec v = (voiceFadeStep k z kind gain.toNat fade.val stop t b).voiceRec v :=
        congrArg (fun x : Tab Voice 6 => x.get v) voices
      rw [same, records]
      simp only [Voice.plays, Bool.and_eq_true, Bool.or_eq_true, decide_eq_true_eq, and_assoc]
      rfl
  · intro own k t b z act slot h unclaimed runs
    have outside : laneOutside b k z .narration = true := by simp [laneOutside, unclaimed]
    rw [← skip_of_slot runs]
    rcases h with ⟨clip, gain, fadeIn, loop, rfl⟩ | ⟨gain, fade, stop, rfl⟩
    · exact if_pos outside
    · exact if_pos outside

end Sys2Proof.Machine
end

section
/-! PROOFS. The steps on fixtures, the axis unit's updates, and the scene runner's examinations and ends. -/

namespace Sys2Proof.Machine

/-! ### Steps on fixtures (R32 to R35, R106) -/

/-- A step on one fixture: its lanes or its look, by `G` of the bay's clocks, and its look memory, by `L`. -/
structure FixtureStep (k : Fin 6) (f : Fin 16 → Bay → Bay) (G : Bay → FixtureRun → FixtureRun)
    (L : FixtureLook → FixtureLook) : Prop where
  step : ∀ i b, f i b = (b.updFixture i (G b)).updFixtureLook k i L
  clocks : ∀ b c, SameClock b c → G c = G b

/-- What a fixture step comes to for the fixtures that `p` picks. -/
structure FixturesStepped (k : Fin 6) (G : FixtureRun → FixtureRun) (L : FixtureLook → FixtureLook) (p : Fin 16 → Prop)
    [DecidablePred p] (b c : Bay) : Prop where
  fixture : ∀ i, c.fixtureRec i = if p i then G (b.fixtureRec i) else b.fixtureRec i
  look : ∀ m, (b.run k).look = some m → ∃ m', (c.run k).look = some m' ∧ m'.axis = m.axis ∧
    ∀ i, m'.fixture.get i = if p i then L (m.fixture.get i) else m.fixture.get i
  status : c.scene.status = b.scene.status
  clocks : SameClock b c

theorem sameClock_updFixtureLook (b : Bay) (k : Fin 6) (i : Fin 16) (f : FixtureRun → FixtureRun)
    (L : FixtureLook → FixtureLook) : SameClock b ((b.updFixture i f).updFixtureLook k i L) := by
  have kept (j : Fin 6) : (((b.updFixture i f).updFixtureLook k i L).run j).clock = (b.run j).clock ∧
      (((b.updFixture i f).updFixtureLook k i L).run j).state = (b.run j).state := by
    rw [Bay.updFixtureLook, Bay.updLook, Bay.run_updRun]
    split
    · next here => subst here; exact ⟨rfl, rfl⟩
    · exact ⟨rfl, rfl⟩
  exact ⟨rfl, fun j => (kept j).1, fun j => by rw [(kept j).2]⟩

theorem fixturesStepped_one {k : Fin 6} {f : Fin 16 → Bay → Bay} {G : Bay → FixtureRun → FixtureRun}
    {L : FixtureLook → FixtureLook} (h : FixtureStep k f G L) (i : Fin 16) (b : Bay) :
    FixturesStepped k (G b) L (· = i) b (f i b) := by
  rw [h.step]
  refine ⟨fun j => ?_, fun m look => ?_, rfl, sameClock_updFixtureLook b k i _ L⟩
  · refine (Bay.updFixture_fixtureRec b i j (G b)).trans ?_
    by_cases here : i = j
    · subst here
      simp
    · rw [if_neg here, if_neg (Ne.symm here)]
  · refine ⟨{ m with fixture := m.fixture.upd i L }, ?_, rfl, fun j => ?_⟩
    · have record : ((b.updFixture i (G b)).updFixtureLook k i L).run k = _ := Bay.run_updRun_same _ _ _
      rw [record]
      exact congrArg (Option.map _) look
    · refine (Tab.get_upd m.fixture i j L).trans ?_
      by_cases here : i = j
      · subst here
        simp
      · rw [if_neg here, if_neg (Ne.symm here)]

theorem fixturesStepped_eachOf {k : Fin 6} {f : Fin 16 → Bay → Bay} {G : Bay → FixtureRun → FixtureRun}
    {L : FixtureLook → FixtureLook} (h : FixtureStep k f G L) : ∀ (l : List (Fin 16)) (b : Bay), l.Nodup →
    FixturesStepped k (G b) L (· ∈ l) b (eachOf l f b)
  | [], b, _ => ⟨fun i => by simp, fun m look => ⟨m, look, rfl, fun i => by simp⟩, rfl, SameClock.of_rest rfl rfl⟩
  | i :: l, b, once => by
    obtain ⟨new, once⟩ := List.nodup_cons.mp once
    obtain ⟨fixture, look, status, clocks⟩ := fixturesStepped_one h i b
    obtain ⟨fixture', look', status', clocks'⟩ := fixturesStepped_eachOf h l (f i b) once
    rw [eachOf_cons]
    refine ⟨fun j => ?_, fun m looks => ?_, status'.trans status, clocks.trans clocks'⟩
    · rw [fixture', fixture, h.clocks b _ clocks]
      by_cases here : j = i
      · subst here
        simp [new]
      · simp [here]
    · obtain ⟨m', looks, axis, one⟩ := look m looks
      obtain ⟨m'', looks, axis', rest⟩ := look' m' looks
      refine ⟨m'', looks, axis'.trans axis, fun j => ?_⟩
      rw [rest, one]
      by_cases here : j = i
      · subst here
        simp [new]
      · simp [here]

theorem fixtureStep_colour (k : Fin 6) (index : Byte) (fade : Nat) (curve : Curve) (t : Tables) :
    FixtureStep k (colourStep k index fade curve t)
      (fun b x => { x with scene := x.scene.mapC fun c l => retarget t b c (.index index) fade curve (.run k) l })
      (fun m => { m with target := .index index }) :=
  ⟨fun _ _ => rfl, fun b c same => by simp only [same.retarget]⟩

theorem fixtureStep_colourDirect (k : Fin 6) (levels : Colour) (fade : Nat) (curve : Curve) (t : Tables) :
    FixtureStep k (colourDirectStep k levels fade curve t)
      (fun b x => { x with
        scene := x.scene.mapC fun c l => retarget t b c (.level ((levels.get c).toNat * 257)) fade curve (.run k) l })
      (fun m => { m with target := .level levels }) :=
  ⟨fun _ _ => rfl, fun b c same => by simp only [same.retarget]⟩

theorem fixtureStep_intensity (k : Fin 6) (v : Byte) :
    FixtureStep k (intensityStep k v) (fun _ x => { x with intensity := v }) (fun m => { m with intensity := v }) :=
  ⟨fun _ _ => rfl, fun _ _ _ => rfl⟩

theorem fixtureStep_highlight (k : Fin 6) (code : Fin 4) :
    FixtureStep k (highlightStep k code) (fun _ x => { x with highlight := code }) (fun m => { m with highlight := code }) :=
  ⟨fun _ _ => rfl, fun _ _ _ => rfl⟩

/-- The claimed fixtures of a set step; a set that goes beyond the claims marks the slot. -/
theorem onFixtures_parts {k : Fin 6} {f : Fin 16 → Bay → Bay} {G : Bay → FixtureRun → FixtureRun}
    {L : FixtureLook → FixtureLook} (h : FixtureStep k f G L) {set : BitVec 16} {b : Bay} {slot : Fin 32} {m : Look}
    (runs : (b.run k).slot = some slot) (look : (b.run k).look = some m) :
    (∀ i : Fin 16, (onFixtures k set f b).fixtureRec i =
      if (set &&& (b.claims k).fixtures).getLsbD i.val then G b (b.fixtureRec i) else b.fixtureRec i) ∧
    (∃ m', ((onFixtures k set f b).run k).look = some m' ∧ m'.axis = m.axis ∧ ∀ i : Fin 16, m'.fixture.get i =
      if (set &&& (b.claims k).fixtures).getLsbD i.val then L (m.fixture.get i) else m.fixture.get i) ∧
    ∀ x : Fin 32, (onFixtures k set f b).scene.status.get x =
      if x = slot ∧ set &&& ~~~(b.claims k).fixtures ≠ 0 then { b.scene.status.get x with skipped := true }
      else b.scene.status.get x := by
  have mem (i : Fin 16) : i ∈ members (set &&& (b.claims k).fixtures) ↔
      (set &&& (b.claims k).fixtures).getLsbD i.val = true :=
    List.mem_filter.trans (and_iff_right (List.mem_finRange i))
  have once : (members (set &&& (b.claims k).fixtures)).Nodup := List.Nodup.filter _ (List.nodup_finRange 16)
  have starts : ∃ c, onFixtures k set f b = eachOf (members (set &&& (b.claims k).fixtures)) f c ∧ SameClock b c ∧
      c.fixture = b.fixture ∧ c.run k = b.run k ∧ ∀ x, c.scene.status.get x =
        if x = slot ∧ set &&& ~~~(b.claims k).fixtures ≠ 0 then { b.scene.status.get x with skipped := true }
        else b.scene.status.get x := by
    by_cases inside : set &&& ~~~(b.claims k).fixtures = 0
    · refine ⟨b, ?_, SameClock.of_rest rfl rfl, rfl, rfl, fun x => by simp [inside]⟩
      rw [onFixtures, if_pos inside]
    · refine ⟨b.skip k, ?_, ?_⟩
      · rw [onFixtures, if_neg inside]
      · rw [skip_of_slot runs]
        refine ⟨SameClock.of_rest rfl rfl, rfl, rfl, fun x => (Tab.get_upd _ _ _ _).trans ?_⟩
        by_cases here : slot = x
        · subst here
          rw [if_pos rfl, if_pos ⟨rfl, inside⟩]
        · rw [if_neg here, if_neg fun both => here both.1.symm]
  obtain ⟨c, eq, clocks, fixtures, record, marks⟩ := starts
  obtain ⟨fixture, looks, status, -⟩ := fixturesStepped_eachOf h (members (set &&& (b.claims k).fixtures)) c once
  rw [eq]
  refine ⟨fun i => ?_, ?_, fun x => by rw [status, marks]⟩
  · rw [fixture, h.clocks b c clocks, Bay.fixtureRec, fixtures, if_congr (mem i) rfl rfl]
    rfl
  · obtain ⟨m', look', axis, each⟩ := looks m (by rw [record, look])
    exact ⟨m', look', axis, fun i => by rw [each, if_congr (mem i) rfl rfl]⟩

/-- Settles O23: each of the four steps is a step on the claimed fixtures of its set. -/
theorem fixtureStepsActOnClaimedFixtures : Obligations.FixtureStepsActOnClaimedFixtures := by
  intro own k t b act set slot m names runs look
  cases act
  case colour s index fade curve =>
    obtain rfl : s = set := names
    exact onFixtures_parts (fixtureStep_colour k index fade.val curve t) runs look
  case colourDirect s levels fade curve =>
    obtain rfl : s = set := names
    exact onFixtures_parts (fixtureStep_colourDirect k levels fade.val curve t) runs look
  case intensity s v =>
    obtain rfl : s = set := names
    exact onFixtures_parts (fixtureStep_intensity k v) runs look
  case highlight s code =>
    obtain rfl : s = set := names
    exact onFixtures_parts (fixtureStep_highlight k code) runs look
  all_goals exact names.elim

/-! ### Quadrature, HOME-AXIS and CLEAR-FAULT (R78, R84, R88) -/

theorem quadCount_eq (oldA oldB newA newB : Bool) (forward : List ((Bool × Bool) × Bool × Bool))
    (h : forward = [((false, false), true, false), ((true, false), true, true), ((true, true), false, true),
      ((false, true), false, false)]) : quadCount oldA oldB newA newB =
      if ((oldA, oldB), newA, newB) ∈ forward then 1 else if ((newA, newB), oldA, oldB) ∈ forward then -1 else 0 := by
  subst h
  revert oldA oldB newA newB
  decide

theorem countQuad_of_none {t : Tables} {a : Fin 4} (h : (t.axis.get a).feedback = .none) (n : Int) (b : Bay) :
    countQuad n a t b = b := if_neg (by simp [h])

theorem countQuad_of_encoder {t : Tables} {a : Fin 4} (h : (t.axis.get a).feedback = .encoder) (n : Int) (b : Bay) :
    countQuad n a t b = b.updAxis a fun x => { x with measured := position (x.measured + n) } := if_pos h

/-- An axis that no run owns and no gate waits on enters HOMING, and nobody is told. -/
theorem enterHoming_of_noGate {home : Bool} {a : Fin 4} {t : Tables} {b : Bay} (free : b.owner (axisRes a) = none)
    (noGate : ∀ k g, (b.run k).gate = some g → g.axes.getLsbD a.val = false) :
    enterHoming home a t b = b.updAxis a fun x => { x with
      state := .homing, travel := 0, phase := if home then .offSwitch else .seek
      capDir := (t.axis.get a).homeDir, capRate := (t.axis.get a).homeRate.val
      capTravel := (t.axis.get a).homeTravel.toNat
      move := holdPosition t b (some .node) x.move } := by
  unfold enterHoming holdAxis
  rw [Bay.updAxis_updAxis]
  exact report_of_unowned a b t _ free noGate

theorem homeAxisAsk_of_free {s : State} {home : Bool} {a : Fin 4} (free : s.bay.owner (axisRes a) = none)
    (faulted : (s.bay.axisRec a).state ≠ .faulted) (homing : (s.bay.axisRec a).state ≠ .homing) :
    homeAxisAsk home a s = settle ((s.withHome a home).onBay (enterHoming home a)).done := by
  rw [homeAxisAsk, if_neg (by simp [free])]
  split
  · next state => exact absurd state faulted
  · next state => exact absurd state homing
  all_goals rfl

/-- Settles O35. -/
theorem quadratureHomeAndClearFault : Obligations.QuadratureHomeAndClearFault := by
  refine ⟨?_, ?_, ?_⟩
  · rintro s a pinA pinB n old new forward rfl rfl hforward rfl
    rw [← quadCount_eq _ _ _ _ forward hforward]
    refine ⟨_, rfl, rfl, fun i => ⟨?_, ?_⟩, fun none => countQuad_of_none none _ _,
      fun encoder => (countQuad_of_encoder encoder _ _).trans rfl⟩
    · exact (getLsbD_setBit s.pins.quadA pinA i.isLt).trans (by simp only [Fin.ext_iff])
    · exact (getLsbD_setBit s.pins.quadB pinB i.isLt).trans (by simp only [Fin.ext_iff])
  · rintro s home p a x cfg taken hp rfl rfl
    have takes : exec (.homeAxis home) s = .next (homeAxisAsk home a s) :=
      taken_ask axisParam (homeAxisAsk home) taken (finParam_one (by decide) hp)
    rw [takes]
    refine ⟨fun used => ?_, fun free faulted => ?_, fun free homing => ?_, fun free faulted homing settled noGate => ?_⟩
    · refine congrArg Host.Outcome.next (if_pos ?_)
      rwa [Option.isSome_iff_ne_none]
    · refine congrArg Host.Outcome.next ((if_neg (by simp [free])).trans ?_)
      rw [faulted]
      rfl
    · refine congrArg Host.Outcome.next ((if_neg (by simp [free])).trans ?_)
      rw [homing]
      rfl
    · refine ⟨setBit s.pins.home a.val home, fun i => ?_, congrArg Host.Outcome.next ?_⟩
      · exact (getLsbD_setBit s.pins.home home i.isLt).trans (by simp only [Fin.ext_iff])
      · have enters : ((s.withHome a home).onBay (enterHoming home a)).done = _ :=
          congrArg (fun b => ({ s.withHome a home with bay := b } : State).done) (enterHoming_of_noGate free noGate)
        rw [homeAxisAsk_of_free free faulted homing, enters]
        exact settle_of_settled _ settled
  · intro s p a taken hp
    refine (taken_ask axisParam (fun a s => (s.onBay fun _ b => clearAxisFault a b).done) taken
      (finParam_one (by decide) hp)).trans rfl

/-! ### MOVE (R83) -/

/-- The quotient rounded up is the least factor that reaches. -/
theorem eq_ceilDiv {n d least : Nat} (pos : 1 ≤ d) (reaches : n ≤ d * least) (first : ∀ m, n ≤ d * m → least ≤ m) :
    least = ceilDiv n d := by
  unfold ceilDiv
  refine Nat.le_antisymm (first _ ?_) ?_
  · have split := Nat.div_add_mod (n + d - 1) d
    have small := Nat.mod_lt (n + d - 1) pos
    omega
  · refine Nat.le_of_lt_succ ((Nat.div_lt_iff_lt_mul pos).mpr ?_)
    rw [Nat.succ_mul, Nat.mul_comm]
    omega

theorem leastDuration_eq {curve : Curve} {dist r least : Nat} (pos : 1 ≤ r)
    (linear : curve = .linear → dist ≤ r * least ∧ (∀ m, dist ≤ r * m → least ≤ m))
    (ease : curve = .ease → 3 * dist ≤ 2 * r * least ∧ (∀ m, 3 * dist ≤ 2 * r * m → least ≤ m))
    (snap : curve = .snap → least = 0) : leastDuration curve dist r = least := by
  cases curve with
  | linear => exact (eq_ceilDiv pos (linear rfl).1 (linear rfl).2).symm
  | ease => exact (eq_ceilDiv (by omega) (ease rfl).1 (ease rfl).2).symm
  | snap => exact (snap rfl).symm

/-- Settles O39. -/
theorem moveIsClampedAndStretched : Obligations.MoveIsClampedAndStretched := by
  rintro own k t b a target travel curve x cfg r dist least goal p rfl rfl rfl pos rfl hgoal rfl linear ease snap
  have shortest := leastDuration_eq pos linear ease snap
  refine ⟨fun h => ?_, fun claimed moves => ?_⟩
  · by_cases claimed : (b.claims k).axes.getLsbD a.val = true
    · refine (if_pos claimed).trans (if_neg ?_)
      obtain ⟨notReady, notMoving⟩ := h.resolve_left (by simp [claimed])
      simp [notReady, notMoving]
    · exact if_neg claimed
  · have clamped : (t.axis.get a).clamp target.toInt = goal := hgoal.symm
    refine (if_pos claimed).trans ((if_pos (by simpa using moves)).trans ?_)
    rw [clamped, shortest]
    exact congrArg (fun c : Bay => c.setAxisLook k a goal) (Bay.updAxis_congr _ _ _ _ rfl)

/-! ### Faults and motion updates (R80, R81) -/

/-- The bay of a faulted axis, before its owner is told. -/
def faulted (reason : AxisFault) (a : Fin 4) (t : Tables) (b : Bay) : Bay :=
  { b.updAxis a (fun x => { x with
      state := .faulted, fault := reason, phase := .none, move := holdPosition t b none x.move }) with
    latched := if ∃ a', (b.axisRec a').state = .faulted then b.latched else b.latched ||| 2 }

theorem anyFaulted_iff {b : Bay} : anyFaulted b = true ↔ ∃ a, (b.axisRec a).state = .faulted := by
  simp [anyFaulted]

theorem faultAxis_bay (reason : AxisFault) (a : Fin 4) (t : Tables) (b : Bay) :
    (if anyFaulted b then holdAxis none t a (b.updAxis a fun x => { x with state := .faulted, fault := reason, phase := .none })
      else (holdAxis none t a (b.updAxis a fun x => { x with state := .faulted, fault := reason, phase := .none })).latch
        .axisFault) = faulted reason a t b := by
  have held : holdAxis none t a (b.updAxis a fun x => { x with state := .faulted, fault := reason, phase := .none }) =
      b.updAxis a fun x => { x with
        state := .faulted, fault := reason, phase := .none, move := holdPosition t b none x.move } := by
    rw [holdAxis, Bay.updAxis_updAxis]
    exact Bay.updAxis_congr _ _ _ _ rfl
  rw [held]
  by_cases live : anyFaulted b = true
  · rw [if_pos live, faulted, if_pos (anyFaulted_iff.mp live)]
    rfl
  · rw [if_neg live, faulted, if_neg (mt anyFaulted_iff.mpr live)]
    rfl

theorem faultAxis_of_unowned {reason : AxisFault} {a : Fin 4} {t : Tables} {b : Bay} (h : b.owner (axisRes a) = none) :
    faultAxis reason a t b = faulted reason a t b := by
  have free : (faulted reason a t b).owner (axisRes a) = none := h
  rw [faultAxis]
  rw [faultAxis_bay, free]

theorem faultAxis_of_owned {reason : AxisFault} {a : Fin 4} {t : Tables} {b : Bay} {k : Fin 6}
    (h : b.owner (axisRes a) = some k) : faultAxis reason a t b = endRun k .axisFault t (faulted reason a t b) := by
  have own : (faulted reason a t b).owner (axisRes a) = some k := h
  rw [faultAxis]
  rw [faultAxis_bay, own]

/-- An axis that neither enters nor leaves HELD is reported only when it becomes settled. -/
theorem report_of_moving {a : Fin 4} {before : Bay} {t : Tables} {b : Bay} (was : (before.axisRec a).state ≠ .held)
    (now : (b.axisRec a).state ≠ .held) : report a before t b =
      if settled t b a = true ∧ settled t before a = false then reportSettled a t b else b := by
  have quiet : reportHeld a (before.axisRec a).state t b = b := by
    cases own : b.owner (axisRes a) with
    | none => exact reportHeld_of_unowned own _ t
    | some k => rw [reportHeld_of_owned own, if_neg fun h => now h.1, if_neg fun h => was h.2]
  rw [report_eq, quiet]

/-- An axis as it was gives nothing to report. -/
theorem report_self (a : Fin 4) (t : Tables) (b : Bay) : report a b t b = b := by
  have quiet : reportHeld a (b.axisRec a).state t b = b := by
    cases own : b.owner (axisRes a) with
    | none => exact reportHeld_of_unowned own _ t
    | some k => rw [reportHeld_of_owned own, if_neg fun h => h.2 h.1, if_neg fun h => h.1 h.2]
  rw [report_eq, quiet, if_neg fun both => Bool.false_ne_true (both.2.symm.trans both.1)]

theorem settled_of_ready {t : Tables} {b : Bay} {a : Fin 4} (h : (b.axisRec a).state = .ready) : settled t b a = true := by
  rw [settled, h]

theorem settled_of_moving {t : Tables} {b : Bay} {a : Fin 4} (h : (b.axisRec a).state = .moving) : settled t b a = false := by
  rw [settled, h]

theorem stalled_iff {t : Tables} {b : Bay} {a : Fin 4} : stalled t b a = true ↔ (t.axis.get a).feedback = .encoder ∧
    (t.axis.get a).stallLimit.toNat < ((b.axisRec a).stepped - (b.axisRec a).measured).natAbs := by
  simp [stalled]

/-- An axis after the steps of a motion update. -/
structure Stepped (t : Tables) (b : Bay) (a : Fin 4) (c n stepped measured : Int) (y : Axis) : Prop where
  count : n = max (-((t.axis.get a).rate.val : Int)) (min ((t.axis.get a).rate.val : Int) (c - (b.axisRec a).stepped))
  place : stepped = (b.axisRec a).stepped + n
  low : -8388608 ≤ stepped
  high : stepped ≤ 8388607
  reads : measured = if (t.axis.get a).feedback = .none ∧ stepped ≠ (b.axisRec a).stepped then stepped
    else (b.axisRec a).measured
  record : y = { b.axisRec a with
    stepped := stepped, measured := measured, pulses := n.natAbs
    direction := if 0 < n then true else if n < 0 then false else (b.axisRec a).direction }

section
variable {t : Tables} {b : Bay} {a : Fin 4} {c n stepped measured : Int} {y : Axis}

theorem stepToward_eq (h : Stepped t b a c n stepped measured y)
    (moves : (b.axisRec a).state = .ready ∨ (b.axisRec a).state = .moving) :
    stepToward c t a b = b.updAxis a fun _ => y := by
  refine (if_pos (by simpa using moves)).trans ?_
  have steps : clampTo (-((t.axis.get a).rate.val : Int)) (t.axis.get a).rate.val (c - (b.axisRec a).stepped) = n := h.count.symm
  rw [steps, issue_of_inRange n t a b stepped h.place h.low h.high]
  refine Bay.updAxis_congr _ _ _ _ ?_
  rw [h.record, h.reads]

theorem arrive_eq {arrived : Bool} (arrives : arrived = true ↔ y.state = .moving ∧ laneDone b y.move = true ∧ y.stepped = c) :
    arrive c a (b.updAxis a fun _ => y) =
      b.updAxis a fun _ => { y with state := if arrived then .ready else y.state } := by
  have record : (b.updAxis a fun _ => y).axisRec a = y := Bay.updAxis_same ..
  have done : laneDone (b.updAxis a fun _ => y) y.move = laneDone b y.move := rfl
  rw [arrive]
  simp only [record, done]
  cases arrived with
  | true =>
    obtain ⟨state, finished, place⟩ := arrives.mp rfl
    rw [if_pos (by simp [state, finished, place]), Bay.updAxis_updAxis]
    rfl
  | false =>
    refine (if_neg fun all => ?_).trans rfl
    simp only [Bool.and_eq_true, decide_eq_true_eq, and_assoc] at all
    exact Bool.false_ne_true (arrives.mpr all)

/-- A motion update that meets no stall. -/
theorem motionUpdate_of_free (h : Stepped t b a (commanded t b a) n stepped measured y)
    (moves : (b.axisRec a).state = .ready ∨ (b.axisRec a).state = .moving)
    (free : (t.axis.get a).feedback = .none ∨ (stepped - measured).natAbs ≤ (t.axis.get a).stallLimit.toNat)
    {arrived : Bool} (arrives : arrived = true ↔ (b.axisRec a).state = .moving ∧ laneDone b (b.axisRec a).move = true ∧
      stepped = commanded t b a) {moved : Bay}
    (hmoved : moved = b.updAxis a fun _ => { y with state := if arrived then .ready else (b.axisRec a).state }) :
    motionUpdate a t b = if arrived then reportSettled a t moved else moved := by
  have record : (b.updAxis a fun _ => y).axisRec a = y := Bay.updAxis_same ..
  have stands : stalled t (b.updAxis a fun _ => y) a = false := by
    rw [← Bool.not_eq_true, stalled_iff, record, h.record]
    rintro ⟨encoder, far⟩
    rcases free with none | near
    · exact nomatch none.symm.trans encoder
    · exact absurd near (Nat.not_le.mpr far)
  have state : y.state = (b.axisRec a).state := by rw [h.record]
  have ends : arrive (commanded t b a) a (b.updAxis a fun _ => y) = moved := by
    rw [hmoved, ← state]
    refine arrive_eq ?_
    rw [h.record]
    exact arrives
  have after : (moved.axisRec a).state = if arrived then .ready else (b.axisRec a).state := by
    rw [hmoved, Bay.updAxis_same]
  have was : (b.axisRec a).state ≠ .held := by rcases moves with h | h <;> simp [h]
  have now : (moved.axisRec a).state ≠ .held := by
    rw [after]
    split
    · simp
    · exact was
  rw [motionUpdate, stepToward_eq h moves]
  simp only [stands, ends]
  refine (report_of_moving was now).trans ?_
  cases arrived with
  | true =>
    have before : settled t b a = false := settled_of_moving (arrives.mp rfl).1
    exact if_pos ⟨settled_of_ready after, before⟩
  | false =>
    refine if_neg fun both => ?_
    rcases moves with ready | moving
    · exact Bool.false_ne_true (both.2.symm.trans (settled_of_ready ready))
    · exact Bool.false_ne_true ((settled_of_moving (after.trans moving)).symm.trans both.1)

/-- The fault of an axis just stepped is the fault of the axis with its steps taken. -/
theorem faulted_updAxis {reason : AxisFault} (record : y = { b.axisRec a with
      stepped := y.stepped, measured := y.measured, pulses := y.pulses, direction := y.direction }) :
    faulted reason a t (b.updAxis a fun _ => y) = ({ b.updAxis a (fun _ => { y with
        state := .faulted, fault := reason, phase := .none, move := holdPosition t b none (b.axisRec a).move }) with
      latched := if ∃ a', (b.axisRec a').state = .faulted then b.latched else b.latched ||| 2 } : Bay) := by
  have states (a' : Fin 4) : ((b.updAxis a fun _ => y).axisRec a').state = (b.axisRec a').state := by
    rw [Bay.updAxis_axisRec]
    split
    · next here => subst here; rw [record]
    · rfl
  have move : y.move = (b.axisRec a).move := by rw [record]
  rw [faulted, Bay.updAxis_updAxis]
  simp only [states, ← move]
  rfl

end

/-- Settles O37: the steps, then the stall test, then the arrival. -/
theorem motionUpdateStepsTowardCommanded : Obligations.MotionUpdateStepsTowardCommanded := by
  refine ⟨?_, ?_⟩
  · rintro t b a x cfg c n stepped measured rfl rfl rfl count place low high reads
    refine ⟨by omega, by omega, by omega, fun moves y hy => ?_⟩
    have h : Stepped t b a (commanded t b a) n stepped measured y := ⟨count, place, low, high, reads, hy⟩
    refine ⟨fun free arrived arrives moved hmoved => ?_, fun encoder far f hf => ?_⟩
    · have update := motionUpdate_of_free h moves free arrives hmoved
      refine ⟨update, fun noGate => ?_⟩
      rw [update, reportSettled_of_noGate a t moved (by rw [hmoved]; exact noGate), ite_self]
    · have record : (b.updAxis a fun _ => y).axisRec a = y := Bay.updAxis_same ..
      have stall : stalled t (b.updAxis a fun _ => y) a = true := by
        rw [stalled_iff, record, hy]
        exact ⟨encoder, far⟩
      have fault : faulted .stall a t (b.updAxis a fun _ => y) = f := by
        rw [hf, faulted_updAxis (by rw [hy])]
      have update : motionUpdate a t b = faultAxis .stall a t (b.updAxis a fun _ => y) := by
        rw [motionUpdate, stepToward_eq h moves]
        simp only [stall]
        rfl
      rw [update]
      match own : b.owner (axisRes a) with
      | none => exact (faultAxis_of_unowned (b := b.updAxis a fun _ => y) own).trans fault
      | some k => exact (faultAxis_of_owned (b := b.updAxis a fun _ => y) own).trans (congrArg _ fault)
  · rintro t b f a x cfg stall rfl rfl held stalls hf
    have still : stepToward (commanded t b a) t a b = b := if_neg (by simp [held])
    rw [motionUpdate, still]
    cases stall with
    | true =>
      have test : stalled t b a = true := stalled_iff.mpr (stalls.mp rfl)
      have fault : faulted .stall a t b = f := hf.symm
      simp only [test, if_true]
      match own : b.owner (axisRes a) with
      | none => exact (faultAxis_of_unowned own).trans fault
      | some k => exact (faultAxis_of_owned own).trans (congrArg _ fault)
    | false =>
      have test : stalled t b a = false := by
        rw [← Bool.not_eq_true, stalled_iff]
        exact fun both => Bool.false_ne_true (stalls.mpr both)
      have waits : arrive (commanded t b a) a b = b := if_neg (by simp [held])
      simp only [test, waits]
      exact report_self a t b

/-! ### Homing updates (R85, R86) -/

/-- The direction of a homing update: off the home switch first, then toward it. -/
def homingSign (x : Axis) : Int := if x.phase = .offSwitch then -x.capDir.sign else x.capDir.sign

theorem homingUpdate_of_offSwitch {home : Bool} {a : Fin 4} {t : Tables} {b : Bay}
    (h : (b.axisRec a).phase = .offSwitch) : homingUpdate home a t b =
      if !home then b.updAxis a (fun x => { x with phase := .seek, travel := 0 })
      else if (b.axisRec a).travel = (b.axisRec a).capTravel then faultAxis .homeNotFound a t b
      else homingSteps (-(b.axisRec a).capDir.sign) a t b := by
  simp only [homingUpdate, h]

theorem homingUpdate_of_seek {home : Bool} {a : Fin 4} {t : Tables} {b : Bay}
    (h : (b.axisRec a).phase = .seek) : homingUpdate home a t b =
      if home then homeFound a t b
      else if (b.axisRec a).travel = (b.axisRec a).capTravel then faultAxis .homeNotFound a t b
      else homingSteps (b.axisRec a).capDir.sign a t b := by
  simp only [homingUpdate, h]

/-- An update that finds the switch as its phase expects it goes on, or gives up at the end of the travel. -/
theorem homingUpdate_of_expected {home : Bool} {a : Fin 4} {t : Tables} {b : Bay} (runs : (b.axisRec a).phase ≠ .none)
    (expected : home = decide ((b.axisRec a).phase = .offSwitch)) : homingUpdate home a t b =
      if (b.axisRec a).travel = (b.axisRec a).capTravel then faultAxis .homeNotFound a t b
      else homingSteps (homingSign (b.axisRec a)) a t b := by
  match phase : (b.axisRec a).phase with
  | .none => exact absurd phase runs
  | .offSwitch =>
    have on : home = true := by rw [expected, phase]; rfl
    rw [homingUpdate_of_offSwitch phase, on, homingSign, if_pos phase]
    rfl
  | .seek =>
    have off : home = false := by rw [expected, phase]; rfl
    have toward : ¬ (b.axisRec a).phase = .offSwitch := by rw [phase]; exact fun h => nomatch h
    rw [homingUpdate_of_seek phase, off, homingSign, if_neg toward]
    rfl

theorem homingSign_eq (x : Axis) : homingSign x =
    if x.capDir = .negative then (if decide (x.phase = .offSwitch) then 1 else -1)
    else (if decide (x.phase = .offSwitch) then -1 else 1) := by
  simp only [homingSign, decide_eq_true_eq]
  cases x.capDir <;> by_cases off : x.phase = .offSwitch <;> simp [off, HomeDir.sign]

theorem homingSteps_eq {sign stepped : Int} {n : Nat} {a : Fin 4} {t : Tables} {b : Bay}
    (count : n = min (b.axisRec a).capRate ((b.axisRec a).capTravel - (b.axisRec a).travel))
    (place : stepped = (b.axisRec a).stepped + sign * n) (low : -8388608 ≤ stepped) (high : stepped ≤ 8388607) :
    homingSteps sign a t b = b.updAxis a fun x => { x with
      stepped := stepped
      measured := if (t.axis.get a).feedback = .none ∧ stepped ≠ x.stepped then stepped else x.measured
      travel := x.travel + n, pulses := (sign * n).natAbs
      direction := if 0 < sign * n then true else if sign * n < 0 then false else x.direction } := by
  rw [homingSteps]
  simp only [← count]
  rw [issue_of_inRange _ t a b stepped place low high, Bay.updAxis_updAxis]

/-- Settles O38. -/
theorem homingUpdateSeeksHome : Obligations.HomingUpdateSeeksHome := by
  rintro t b a home x n sign stepped away rfl free rfl rfl count place low high
  rw [← homingSign_eq] at place
  refine ⟨fun off clear => ?_, fun seek found => ?_, fun runs expected more => ?_, fun runs expected last => ?_⟩
  · rw [homingUpdate_of_offSwitch off, clear]
    rfl
  · rw [homingUpdate_of_seek seek, found]
    rfl
  · rw [homingUpdate_of_expected runs expected, if_neg more, homingSteps_eq count place low high, homingSign_eq]
  · rw [homingUpdate_of_expected runs expected, if_pos last, faultAxis_of_unowned free]
    rfl

end Sys2Proof.Machine
end

section
/-! PROOFS. The scene runner and the claim unit: examinations, the end of a run, requests, and the end of every run. -/

namespace Sys2Proof.Machine

/-! ### Gates and holds that time out (R108, R110) -/

theorem examineIfFires_openGate {endK : EndRun} {own : Bool} {k : Fin 6} {t : Tables} {b : Bay}
    (running : (b.run k).state = .running) (shut : (b.run k).gate = none) :
    examineIfFires endK own k t b = if (b.run k).held = true then b else examine endK own k t b := by
  have fires : (b.run k).canFire = !(b.run k).held := by simp [RunRec.canFire, running, shut]
  rw [examineIfFires, fires]
  cases (b.run k).held <;> rfl

theorem gateLimit_eq {k : Fin 6} {t : Tables} {b c : Bay} {g : Gate} {slot : Fin 32}
    (running : (b.run k).state = .running) (gate : (b.run k).gate = some g) (runs : (b.run k).slot = some slot)
    (limited : 0 < g.limit) (full : g.limit ≤ g.gated)
    (hc : c = (b.updRun k fun r => { r with gate := none }).updStatus slot fun x => { x with gateTimeout := true }) :
    gateLimit endRun k t b = if (b.run k).held = true then c else examine endRun true k t c := by
  have opened : c = openGate k (b.updStatus slot fun x => { x with gateTimeout := true }) := hc
  have record : c.run k = { b.run k with gate := none } := by rw [opened]; exact Bay.run_updRun_same _ _ _
  rw [gateLimit_of_full gate running limited full runs, ← opened,
    examineIfFires_openGate (by rw [record]; exact running) (by rw [record]), record]

/-! ### The examination (R104) -/

/-- The present step of record `k` does not fire now. -/
theorem examineSteps_of_waiting {own : Bool} {k : Fin 6} {t : Tables} {b : Bay} {x : Snapshot}
    (snap : (b.run k).snap = some x) (n : Nat)
    (waits : (b.run k).gate ≠ none ∨ (b.run k).held = true ∨ x.stepCount ≤ (b.run k).next ∨ (b.run k).stepTime <
      (t.step.get (Fin.ofNat 1024 (x.firstStep + (b.run k).next))).offset.val) : examineSteps own k t n b = b := by
  refine examineSteps_none own k t x n b snap fun fires more => ?_
  simp only [RunRec.canFire, Bool.and_eq_true, Bool.not_eq_true', Option.isNone_iff_eq_none, decide_eq_true_eq] at fires
  obtain ⟨⟨-, shut⟩, unheld⟩ := fires
  rcases waits with gate | held | last | early
  · exact absurd shut gate
  · exact absurd (held.symm.trans unheld) Bool.false_ne_true.symm
  · exact absurd more (Nat.not_lt.mpr last)
  · exact early

/-- The step that is due fires, and the examination goes on from it. -/
theorem examineSteps_of_due {own : Bool} {k : Fin 6} {t : Tables} {b : Bay} {x : Snapshot}
    (snap : (b.run k).snap = some x) (running : (b.run k).state = .running) (shut : (b.run k).gate = none)
    (unheld : (b.run k).held = false) (short : x.stepCount ≤ 255) (more : (b.run k).next < x.stepCount)
    {step : SceneStep} (hstep : step = t.step.get (Fin.ofNat 1024 (x.firstStep + (b.run k).next)))
    (due : step.offset.val ≤ (b.run k).stepTime) : examineSteps own k t 256 b =
      examineSteps own k t 256 (fireStep own k step.act t (b.updRun k fun r => { r with next := r.next + 1 })) := by
  have fires : (b.run k).canFire = true := by simp [RunRec.canFire, running, shut, unheld]
  have once : examineSteps own k t 256 b =
      examineSteps own k t 255 (fireStep own k step.act t (b.updRun k fun r => { r with next := r.next + 1 })) := by
    rw [examineSteps]
    simp only [snap, fires, more, ← hstep, due]
    rfl
  have own' := (fires_fireStep own k step.act t (b.updRun k fun r => { r with next := r.next + 1 })).own
  rw [Bay.run_updRun_same] at own'
  rw [once]
  exact (examineSteps_fuel own k t x 255 _ (own'.snap.trans snap) (by omega)).symm

theorem examine_of_waiting {endK : EndRun} {own : Bool} {k : Fin 6} {t : Tables} {b : Bay} {x : Snapshot}
    (snap : (b.run k).snap = some x) (running : (b.run k).state = .running) (still : examineSteps own k t 256 b = b) :
    examine endK own k t b = if x.duration ≤ (b.run k).stepTime then endK k .complete t b else b := by
  rw [examine, still]
  simp only [snap, running, decide_true, Bool.true_and, decide_eq_true_eq]

theorem examine_congr {endK : EndRun} {own : Bool} {k : Fin 6} {t : Tables} {b c : Bay}
    (h : examineSteps own k t 256 b = examineSteps own k t 256 c) : examine endK own k t b = examine endK own k t c := by
  rw [examine, h, ← examine]

/-! ### Steps that reach no fixture, voice or axis (R107, R128) -/

theorem allSettled_iff {t : Tables} {b : Bay} {axes : BitVec 4} :
    allSettled t b axes = true ↔ ∀ a : Fin 4, axes.getLsbD a.val = true → settled t b a = true := by
  simp only [allSettled, List.all_eq_true, mem_members]

theorem settled_updStatus (t : Tables) (b : Bay) (slot : Fin 32) (f : SceneStatus → SceneStatus) (a : Fin 4) :
    settled t (b.updStatus slot f) a = settled t b a := rfl

theorem settled_iff {t : Tables} {b : Bay} {a : Fin 4} : settled t b a = true ↔ (b.axisRec a).state ≠ .moving ∧
    ((b.axisRec a).state = .held → (b.axisRec a).stepped = commanded t b a) := by
  unfold settled
  cases (b.axisRec a).state <;> simp

theorem testGate_of_some {k : Fin 6} {t : Tables} {b : Bay} {g : Gate} (gate : (b.run k).gate = some g) :
    testGate endRun k t b =
      if (b.run k).state = .running ∧ ∀ a : Fin 4, g.axes.getLsbD a.val = true → settled t b a = true then
        (if (b.run k).held = true then b.updRun k (fun r => { r with gate := none })
         else examine endRun true k t (b.updRun k fun r => { r with gate := none }))
      else b := by
  have ready : gateReady t b k = true ↔
      (b.run k).state = .running ∧ ∀ a : Fin 4, g.axes.getLsbD a.val = true → settled t b a = true := by
    simp only [gateReady, gate, Bool.and_eq_true, decide_eq_true_eq, allSettled_iff]
  have record : (openGate k b).run k = { b.run k with gate := none } := Bay.run_updRun_same _ _ _
  by_cases opens : (b.run k).state = .running ∧ ∀ a : Fin 4, g.axes.getLsbD a.val = true → settled t b a = true
  · rw [testGate, if_pos (ready.mpr opens), if_pos opens,
      examineIfFires_openGate (by rw [record]; exact opens.1) (by rw [record]), record]
    rfl
  · rw [testGate, if_neg (mt ready.mp opens), if_neg opens]

/-- Settles O40: the limits, one turn of the examination, the steps of the scene runner alone, and the test of the gates. -/
theorem gateTimeoutHoldTimeoutExamination : Obligations.GateTimeoutHoldTimeoutExamination := by
  refine ⟨?_, ?_, ?_, ?_, ?_⟩
  · rintro s k r g slot b rfl running gate runs limited full hb
    exact congrArg (fun b => Host.Outcome.next (settle { s with bay := b }))
      (gateLimit_eq running gate runs limited full hb)
  · rintro s k r x rfl snap held limited full
    refine congrArg (fun b => Host.Outcome.next (settle { s with bay := b })) ?_
    rw [holdLimit_of_some held snap, if_pos ⟨limited, full⟩]
  · rintro own k t b r x step rfl snap running hstep short
    have due (shut : (b.run k).gate = none) (unheld : (b.run k).held = false) (more : (b.run k).next < x.stepCount)
        (due : step.offset.val ≤ (b.run k).clock - (b.run k).gateDelay) :=
      examineSteps_of_due (own := own) snap running shut unheld short more hstep due
    have waiting (waits : (b.run k).gate ≠ none ∨ (b.run k).held = true ∨ x.stepCount ≤ (b.run k).next ∨
        (b.run k).clock - (b.run k).gateDelay < step.offset.val) : examineSteps own k t 256 b = b :=
      examineSteps_of_waiting snap 256 (by rwa [← hstep])
    exact ⟨fun waits => examine_of_waiting snap running (waiting waits),
      fun shut unheld more now => examine_congr (due shut unheld more now), waiting, due⟩
  · rintro own k t b slot runs skipped hskipped
    have skips : b.skip k = skipped := (skip_of_slot runs).trans hskipped.symm
    refine ⟨?_, fun code => rfl, fun other => ?_⟩
    · rintro axes mine limit c rfl hc
      have marked : (if axes &&& ~~~(b.claims k).axes = 0 then b else b.skip k) = c := by rw [skips, hc]
      have settles (a : Fin 4) : settled t c a = settled t b a := by
        rw [hc, hskipped]
        split
        · rfl
        · exact settled_updStatus t b slot _ a
      show waitAxisStep k axes limit.val t b = _
      rw [waitAxisStep, marked]
      simp only [allSettled_iff, settles]
    · show (if (b.run k).slot = some other then b.skip k else b.request ⟨other, .scene⟩) = _
      rw [skips, runs]
      simp only [Option.some.injEq, eq_comm (a := slot)]
      rfl
  · intro t b a
    refine ⟨settled_iff, ?_⟩
    unfold reportSettled each
    congr 1
    funext k b
    match gate : (b.run k).gate with
    | none => rfl
    | some g =>
      show (if g.axes.getLsbD a.val then testGate endRun k t b else b) = _
      rw [testGate_of_some gate]
      by_cases waits : g.axes.getLsbD a.val = true
      · simp only [waits, true_and, if_true]
      · exact (if_neg waits).trans (if_neg fun all => waits all.2.1).symm

/-! ### The effects of an end (R39, R58, R96, R113) -/

theorem Bay.updFixture_updFixture (b : Bay) (i : Fin 16) (f g : FixtureRun → FixtureRun) :
    (b.updFixture i f).updFixture i g = b.updFixture i fun x => g (f x) := by
  simp only [Bay.updFixture, Tab.upd, Tab.get_set_same, Tab.set_set]

/-- A fixture whose owner has ended. -/
def FixtureRun.released (t : Tables) (b : Bay) (fade : Nat) (x : FixtureRun) : FixtureRun :=
  { x with
    scene := x.scene.mapC (fun c l => retarget t b c .house fade .linear .node l), intensity := 255, highlight := 0 }

/-- An axis whose move lane is held on a time source. -/
def Axis.stopped (t : Tables) (b : Bay) (src : TimeSource) (x : Axis) : Axis :=
  { x with move := holdPosition t b (some src) x.move }

/-- The fixtures, the axes and the voices of an ended record; nothing else changes. -/
structure EndsEffects (k : Fin 6) (fade voiceFade : Nat) (t : Tables) (b c : Bay) : Prop where
  rest : c = { b with
    fixture := { b.fixture with run := c.fixture.run }, axis := { b.axis with axis := c.axis.axis }, voice := c.voice }
  fixture : ∀ i, c.fixtureRec i =
    if b.owner (fixtureRes i) = some k then (b.fixtureRec i).released t b fade else b.fixtureRec i
  axis : ∀ a, c.axisRec a = if b.owner (axisRes a) = some k then (b.axisRec a).stopped t b .node else b.axisRec a
  voice : c.voice = (endVoices k voiceFade t b).voice

theorem eachOf_releaseFixture_rest (t : Tables) (fade : Nat) (l : List (Fin 16)) (b : Bay) :
    eachOf l (releaseFixture fade t) b =
      { b with fixture := { b.fixture with run := (eachOf l (releaseFixture fade t) b).fixture.run } } :=
  eachOf_keeps (P := fun c : Bay => c = { b with fixture := { b.fixture with run := c.fixture.run } })
    (fun i c h => by
      exact congrArg (fun x : Bay => { x with fixture := { x.fixture with run := (releaseFixture fade t i c).fixture.run } }) h)
    l b rfl

theorem eachOf_endAxis_rest (t : Tables) (l : List (Fin 4)) (b : Bay) :
    eachOf l (endAxis t) b = { b with axis := { b.axis with axis := (eachOf l (endAxis t) b).axis.axis } } :=
  eachOf_keeps (P := fun c : Bay => c = { b with axis := { b.axis with axis := c.axis.axis } })
    (fun a c h => by
      exact congrArg (fun x : Bay => { x with axis := { x.axis with axis := (endAxis t a c).axis.axis } }) h)
    l b rfl

theorem endEffects_parts (k : Fin 6) (fade voiceFade : Nat) (t : Tables) (b : Bay) :
    EndsEffects k fade voiceFade t b (endEffects k fade voiceFade t b) := by
  have fixtures := eachOf_releaseFixture_rest t fade (b.ownedFixtures k) b
  obtain ⟨time, scene, claim, -, voice, axis, lights⟩ :=
    eachOf_releaseFixture_parts t fade (b.ownedFixtures k) b (ownedFixtures_nodup b k)
  generalize hc : eachOf (b.ownedFixtures k) (releaseFixture fade t) b = c at *
  obtain ⟨unit, voices⟩ := endVoices_parts k voiceFade t c
  have sounds : unit = (endVoices k voiceFade t b).voice := by
    rw [← endVoices_congr k voiceFade t b c voice time scene, voices]
  have effects : endEffects k fade voiceFade t b =
      eachOf ({ c with voice := unit }.ownedAxes k) (endAxis t) { c with voice := unit } := by
    rw [endEffects]
    simp only [hc, voices]
    rfl
  have axes := eachOf_endAxis_rest t ({ c with voice := unit }.ownedAxes k) { c with voice := unit }
  obtain ⟨-, -, -, -, voice', fixture', stops⟩ :=
    eachOf_endAxis_parts t ({ c with voice := unit }.ownedAxes k) { c with voice := unit } (ownedAxes_nodup _ k)
  rw [← effects] at axes voice' fixture' stops
  generalize endEffects k fade voiceFade t b = d at *
  refine ⟨?_, fun i => ?_, fun a => ?_, by rw [voice', sounds]⟩
  · rw [axes, fixtures]
  · rw [Bay.fixtureRec, fixture']
    refine (lights i).trans ?_
    simp only [mem_ownedFixtures]
    rfl
  · have owner : { c with voice := unit }.owner (axisRes a) = b.owner (axisRes a) := by
      rw [Bay.owner, Bay.owner, ← claim]
    have record : { c with voice := unit }.axisRec a = b.axisRec a := by rw [Bay.axisRec, Bay.axisRec, ← axis]
    have lane : holdPosition t { c with voice := unit } (some .node) (b.axisRec a).move =
        holdPosition t b (some .node) (b.axisRec a).move :=
      holdPosition_congr t (b' := { c with voice := unit }) time scene _ _
    rw [stops, record, lane]
    simp only [mem_ownedAxes, owner]
    rfl

/-! ### The end of one run (R113, R126) -/

theorem recordEnd_of_slot {b : Bay} {k : Fin 6} {slot : Fin 32} (h : (b.run k).slot = some slot) (e : EndReason) :
    b.recordEnd k e = b.updStatus slot fun y => { y with lastEnd := e } := by
  rw [Bay.recordEnd, h]

theorem tellTrigger_of_other {o : Option Origin} (h : ∀ m, o ≠ some (.trigger m)) (t : Tables) (b : Bay) :
    tellTrigger o t b = b := by
  unfold tellTrigger
  split
  · next m => exact absurd rfl (h m)
  · rfl

theorem endRunFuel_of_free {k : Fin 6} {b : Bay} (free : (b.run k).state = .free) (e : EndReason) (t : Tables) :
    ∀ n, endRunFuel n k e t b = b
  | 0 => rfl
  | n + 1 => by rw [endRunFuel, if_pos free]

/-- A record's end, once what it does to its resources has been done. -/
theorem endRunFuel_of_used {n : Nat} {k : Fin 6} {e : EndReason} {t : Tables} {b c : Bay} (used : (b.run k).state ≠ .free)
    (hc : c = (endEffects k (releaseFade b k) (releaseFade b k) t b).recordEnd k e) :
    endRunFuel (n + 1) k e t b = eachOf (madeWhole k t c) (endOverdue (endRunFuel n) t)
      (duckExamine t (tellTrigger (b.run k).origin t (release (endRunFuel n) k t c))) := by
  rw [endRunFuel, if_neg used, hc]

/-- The bay after the effects of an end and its entry in the scene status. -/
theorem endEffects_recordEnd_parts {k : Fin 6} {slot : Fin 32} {x : Snapshot} (e : EndReason) (t : Tables) {b c : Bay}
    (runs : (b.run k).slot = some slot) (snap : (b.run k).snap = some x)
    (hc : c = (endEffects k (releaseFade b k) (releaseFade b k) t b).recordEnd k e) :
    c = { b with
      fixture := { b.fixture with run := c.fixture.run }, axis := { b.axis with axis := c.axis.axis }, voice := c.voice
      scene := { b.scene with status := b.scene.status.upd slot (fun y => { y with lastEnd := e }) } } ∧
    (∀ i, c.fixtureRec i =
      if b.owner (fixtureRes i) = some k then (b.fixtureRec i).released t b x.releaseFade else b.fixtureRec i) ∧
    (∀ a, c.axisRec a = if b.owner (axisRes a) = some k then (b.axisRec a).stopped t b .node else b.axisRec a) ∧
    c.voice = (endVoices k x.releaseFade t b).voice := by
  have fade : releaseFade b k = x.releaseFade := by simp [releaseFade, snap]
  rw [fade] at hc
  obtain ⟨rest, fixture, axis, voice⟩ := endEffects_parts k x.releaseFade x.releaseFade t b
  generalize endEffects k x.releaseFade x.releaseFade t b = d at *
  have slot' : (d.run k).slot = some slot := by rw [rest]; exact runs
  rw [recordEnd_of_slot slot'] at hc
  subst hc
  refine ⟨?_, fixture, axis, voice⟩
  exact congrArg (fun y : Bay => y.updStatus slot fun z => { z with lastEnd := e }) rest

theorem popsTo_iff {b : Bay} {k j : Fin 6} : popsTo b k j = true ↔
    ∃ r, b.owner r = some k ∧ ((b.claim.claim.get r).stack.filter (· ≠ k)).head? = some j := by
  have same (l : List (Fin 6)) : l.filter (· != k) = l.filter (· ≠ k) := List.filter_congr fun x _ =>
    Bool.eq_iff_iff.mpr (by simp)
  simp [popsTo, Bay.owned, same]

/-- Where no other record waits for what a record owns, its release makes no record whole. -/
theorem madeWhole_of_alone {k : Fin 6} (t : Tables) {b : Bay}
    (alone : ∀ r, b.owner r = some k → (b.claim.claim.get r).stack = []) : madeWhole k t b = [] := by
  refine List.filter_eq_nil_iff.mpr fun j _ whole => ?_
  simp only [Bool.and_eq_true] at whole
  obtain ⟨⟨pops, -⟩, -⟩ := whole
  obtain ⟨r, own, top⟩ := popsTo_iff.mp pops
  simp [alone r own] at top

/-- Where no other record waits for what a record owns, what it owns becomes free. -/
theorem handOver_of_alone (k : Fin 6) (t : Tables) {b : Bay}
    (alone : ∀ r, b.owner r = some k → (b.claim.claim.get r).stack = []) :
    ∃ claims, handOver k t b = { b with claim := { b.claim with claim := claims } } ∧
      ∀ r, claims.get r = ⟨if b.owner r = some k then none else b.owner r, (b.claim.claim.get r).stack.filter (· ≠ k)⟩ := by
  obtain ⟨left, leaves, left_eq⟩ := leaveStacks_parts k b
  have owner (r : Fin 22) : (leaveStacks k b).owner r = b.owner r := by rw [Bay.owner, leaves, left_eq]
  obtain ⟨claims, hands, free⟩ := eachOf_handBack_parts t ((leaveStacks k b).owned k) (leaveStacks k b) fun r own => by
    have mine : b.owner r = some k := by simpa [Bay.owned, owner] using own
    rw [leaves, left_eq, alone r mine]
    rfl
  refine ⟨claims, ?_, fun r => ?_⟩
  · show eachOf ((leaveStacks k b).owned k) (handBack t) (leaveStacks k b) = _
    rw [hands, leaves]
  · have mem : r ∈ (leaveStacks k b).owned k ↔ b.owner r = some k := by simp [Bay.owned, owner]
    have stack : (leaveStacks k b).claim.claim.get r = ⟨b.owner r, (b.claim.claim.get r).stack.filter (· ≠ k)⟩ := by
      rw [leaves, left_eq]
    rw [free, stack]
    by_cases own : b.owner r = some k
    · rw [if_pos (mem.mpr own), if_pos own, alone r own]
      rfl
    · rw [if_neg (mt mem.mp own), if_neg own]

/-- The end of a record for whose resources no other waits, with nothing queued. -/
theorem endRunFuel_of_alone {n : Nat} {k : Fin 6} {e : EndReason} {t : Tables} {b c : Bay} (used : (b.run k).state ≠ .free)
    (hc : c = (endEffects k (releaseFade b k) (releaseFade b k) t b).recordEnd k e) (queue : c.claim.queue = [])
    (alone : ∀ r, c.owner r = some k → (c.claim.claim.get r).stack = []) :
    ∃ claims, endRunFuel (n + 1) k e t b = duckExamine t (tellTrigger (b.run k).origin t
        ({ c with claim := { c.claim with claim := claims } }.updRun k fun _ => RunRec.free)) ∧
      ∀ r, claims.get r = ⟨if c.owner r = some k then none else c.owner r, (c.claim.claim.get r).stack.filter (· ≠ k)⟩ := by
  obtain ⟨claims, hands, parts⟩ := handOver_of_alone k t alone
  have whole := madeWhole_of_alone t alone
  have released : release (endRunFuel n) k t c =
      { c with claim := { c.claim with claim := claims } }.updRun k fun _ => RunRec.free := by
    rw [release, whole, hands]
    have empty : ({ c with claim := { c.claim with claim := claims } }.updRun k fun _ => RunRec.free).claim.queue = [] := queue
    exact congrArg (fun l => eachOf l (scanEntry (endRunFuel n) t) _) empty
  refine ⟨claims, ?_, parts⟩
  rw [endRunFuel_of_used used hc, whole, released]
  rfl

/-- The trigger whose origin a record has. -/
theorem tellTrigger_triggerRec (o : Option Origin) (t : Tables) (b : Bay) (n : Fin 12) : (tellTrigger o t b).triggerRec n =
    if o = some (.trigger n) ∧ (b.triggerRec n).state = .busy then
      (b.triggerRec n).rest (t.trigger.get n).lockout.val
    else b.triggerRec n := by
  by_cases h : ∃ m, o = some (.trigger m)
  · obtain ⟨m, rfl⟩ := h
    refine (Bay.updTrigger_triggerRec b m n _).trans ?_
    by_cases here : m = n
    · subst here
      simp
    · simp [here]
  · rw [tellTrigger_of_other (fun m eq => h ⟨m, eq⟩), if_neg fun both => h ⟨n, both.1⟩]

theorem triggersOnly_tellTrigger {b c : Bay} (h : TriggersOnly b c) (o : Option Origin) (t : Tables) :
    TriggersOnly b (tellTrigger o t c) := by
  unfold tellTrigger
  split
  · exact triggersOnly_updTrigger h _ _
  · exact h

theorem overdue_iff {b : Bay} {j : Fin 6} : overdue b j = true ↔ (b.run j).state = .running ∧ (b.run j).held = false ∧
    ∃ x, (b.run j).snap = some x ∧ x.duration ≤ (b.run j).clock - (b.run j).gateDelay := by
  match snap : (b.run j).snap with
  | none => simp [overdue, snap]
  | some x =>
    simp only [overdue, snap, Bool.and_eq_true, Bool.not_eq_true', decide_eq_true_eq, and_assoc,
      Option.some.injEq, exists_eq_left']
    rfl

/-! ### The end of a run for whose resources nobody waits (R113) -/

/-- A bay after the end of the run of record `k`, in slot `slot`, for whose resources no other record waits. -/
structure EndedAlone (e : EndReason) (k : Fin 6) (slot : Fin 32) (fade : Nat) (t : Tables) (b u : Bay) : Prop where
  run : ∀ j, u.run j = if j = k then RunRec.free else b.run j
  status : ∀ y, u.scene.status.get y =
    if y = slot then { b.scene.status.get y with lastEnd := e } else b.scene.status.get y
  claim : ∀ res, u.claim.claim.get res =
    ⟨if b.owner res = some k then none else b.owner res, (b.claim.claim.get res).stack.filter (· ≠ k)⟩
  fixture : ∀ i, u.fixtureRec i =
    if b.owner (fixtureRes i) = some k then (b.fixtureRec i).released t b fade else b.fixtureRec i
  axis : ∀ a, u.axisRec a = if b.owner (axisRes a) = some k then (b.axisRec a).stopped t b .node else b.axisRec a
  voice : ∀ v, u.voiceRec v = (endVoices k fade t b).voiceRec v
  trigger : ∀ n, u.triggerRec n = if (b.run k).origin = some (.trigger n) ∧ (b.triggerRec n).state = .busy then
    (b.triggerRec n).rest (t.trigger.get n).lockout.val else b.triggerRec n

theorem endRun_of_alone {e : EndReason} {k : Fin 6} {t : Tables} {b : Bay} {slot : Fin 32} {x : Snapshot}
    (used : (b.run k).state ≠ .free) (runs : (b.run k).slot = some slot) (snap : (b.run k).snap = some x)
    (queue : b.claim.queue = []) (alone : ∀ res, b.owner res = some k → (b.claim.claim.get res).stack = []) :
    EndedAlone e k slot x.releaseFade t b (endRun k e t b) := by
  obtain ⟨rest, fixture, axis, voice⟩ := endEffects_recordEnd_parts e t runs snap rfl
  generalize hc : (endEffects k (releaseFade b k) (releaseFade b k) t b).recordEnd k e = c at *
  have sameClaim : c.claim = b.claim := by rw [rest]
  have owner (res : Fin 22) : c.owner res = b.owner res := by rw [Bay.owner, sameClaim, ← Bay.owner]
  obtain ⟨claims, ends, claim⟩ := endRunFuel_of_alone (n := 7) used hc.symm (by rw [sameClaim]; exact queue)
    (fun res own => by rw [sameClaim]; exact alone res (owner res ▸ own))
  generalize hm : ({ c with claim := { c.claim with claim := claims } }.updRun k fun _ => RunRec.free) = m at *
  have freed (j : Fin 6) : m.run j = if j = k then RunRec.free else b.run j := by
    rw [← hm, Bay.run_updRun]
    simp only [eq_comm (a := k)]
    exact congrArg (fun r => if j = k then RunRec.free else r) (by rw [rest]; rfl)
  have status : m.scene.status = b.scene.status.upd slot fun y => { y with lastEnd := e } := by rw [← hm, rest]; rfl
  have claimed : m.claim.claim = claims := by rw [← hm]; rfl
  have lights : m.fixture = c.fixture := by rw [← hm]; rfl
  have axes : m.axis = c.axis := by rw [← hm]; rfl
  have voices : m.voice = c.voice := by rw [← hm]; rfl
  have triggers : m.trigger = b.trigger := by rw [← hm, rest]; rfl
  have told := tellTrigger_triggerRec (b.run k).origin t m
  have only : tellTrigger (b.run k).origin t m = _ := triggersOnly_tellTrigger (show TriggersOnly m m from rfl) _ t
  generalize tellTrigger (b.run k).origin t m = d at *
  obtain ⟨duckClaim, duckScene, -, duckFixture, duckAxis, duckTrigger, -, -⟩ := duckExamine_parts t d
  have scene : (endRun k e t b).scene = m.scene := by rw [endRun, ends, duckScene, only]
  refine ⟨fun j => ?_, fun y => ?_, fun res => ?_, fun i => ?_, fun a => ?_, fun v => ?_, fun n => ?_⟩
  · rw [Bay.run, scene]
    exact freed j
  · rw [scene, status, Tab.get_upd]
    by_cases here : y = slot
    · subst here
      simp
    · rw [if_neg (Ne.symm here), if_neg here]
  · rw [endRun, ends, duckClaim, only]
    show m.claim.claim.get res = _
    rw [claimed, claim, owner, sameClaim]
  · rw [Bay.fixtureRec, endRun, ends, duckFixture, only, ← fixture]
    exact congrArg (fun x : FixtureUnit => x.run.get i) lights
  · rw [Bay.axisRec, endRun, ends, duckAxis, only, ← axis]
    exact congrArg (fun x : AxisUnit => x.axis.get a) axes
  · rw [endRun, ends, duckExamine_voiceRec, only, Bay.voiceRec, Bay.voiceRec, ← voice, ← voices]
  · have record : m.triggerRec n = b.triggerRec n := by rw [Bay.triggerRec, triggers]; rfl
    rw [Bay.triggerRec, endRun, ends, duckTrigger]
    exact (told n).trans (by rw [record])

/-! ### STOP-SCENE (R132, R179) -/

/-- What a WAITING trigger does when its queued request is discarded (R140). -/
def Trigger.disappointed (x : Trigger) : Trigger := if x.state = .waiting then { x with state := .armed } else x

theorem unqueue_eq (slot : Fin 32) (b : Bay) : unqueue slot b =
    { b with claim := { b.claim with queue := b.claim.queue.filter (fun e => e.slot ≠ slot) } } :=
  congrArg b.setQueue (List.filter_congr fun x _ => Bool.eq_iff_iff.mpr (by simp))

theorem slot_of_queued {b : Bay} {slot : Fin 32} {e : QueueEntry} (h : queued b slot = some e) : e.slot = slot :=
  of_decide_eq_true (List.find?_some (p := fun e : QueueEntry => e.slot = slot) h)

/-- A queued entry that a request withdraws: the entry leaves the queue, and the trigger that made it is told. -/
theorem withdraw_eq {b : Bay} {slot : Fin 32} {e : QueueEntry} {trig : Tab Trigger 12} (found : queued b slot = some e)
    (told : ∀ n, e.origin = .trigger n → trig = b.trigger.trigger.upd n Trigger.disappointed)
    (untold : (∀ n, e.origin ≠ .trigger n) → trig = b.trigger.trigger) :
    withdraw slot b = { b with
      claim := { b.claim with queue := b.claim.queue.filter (fun e => e.slot ≠ slot) }
      trigger := { b.trigger with trigger := trig } } := by
  obtain rfl := slot_of_queued found
  rw [withdraw_of_queued found, unqueue_eq]
  cases origin : e.origin with
  | trigger n => rw [told n origin]; rfl
  | remote | cue | control | scene => rw [untold fun n eq => by rw [origin] at eq; cases eq]; rfl

theorem queued_none_iff {b : Bay} {slot : Fin 32} : queued b slot = none ↔ ∀ e ∈ b.claim.queue, e.slot ≠ slot := by
  simp [queued]

theorem stopSceneAsk_of_carrier {s : State} {slot : Fin 32} {k : Fin 6} (h : s.bay.carrier slot = some k) :
    stopSceneAsk slot s = settle (({ s with bay := endRun k .stopped s.tables s.bay } : State).answer 0 [0]) := by
  rw [stopSceneAsk, State.onBay, stopScene, stopResult, h]
  rfl

theorem stopSceneAsk_of_queued {s : State} {slot : Fin 32} {e : QueueEntry} (free : s.bay.carrier slot = none)
    (found : queued s.bay slot = some e) :
    stopSceneAsk slot s = settle (({ s with bay := withdraw slot s.bay } : State).answer 0 [1]) := by
  rw [stopSceneAsk, State.onBay, stopScene, stopResult, free, found]
  rfl

theorem stopSceneAsk_of_absent {s : State} {slot : Fin 32} (free : s.bay.carrier slot = none)
    (absent : queued s.bay slot = none) : stopSceneAsk slot s = settle (s.answer 0 [2]) := by
  rw [stopSceneAsk, State.onBay, stopScene, stopResult, free, absent, withdraw, absent]
  rfl

theorem exec_stopScene {s : State} {p : Byte} {slot : Fin 32} (taken : Taken s .stopScene [p]) (hp : p.toNat = slot.val) :
    exec .stopScene s = .next (stopSceneAsk slot s) :=
  taken_ask slotParam stopSceneAsk taken (finParam_one (by decide) hp)

theorem stopScene_cases (s : State) (p : Byte) (slot : Fin 32) (taken : Taken s .stopScene [p]) (hp : p.toNat = slot.val) :
    (∀ k, s.bay.carrier slot = some k →
      exec .stopScene s = .next (settle (({ s with bay := endRun k .stopped s.tables s.bay } : State).answer 0 [0]))) ∧
    (s.bay.carrier slot = none → Settled s →
      (∀ e trig, queued s.bay slot = some e →
        (∀ n, e.origin = .trigger n → trig = s.bay.trigger.trigger.upd n Trigger.disappointed) →
        ((∀ n, e.origin ≠ .trigger n) → trig = s.bay.trigger.trigger) →
        exec .stopScene s = .next (({ s with bay := { s.bay with
          claim := { s.bay.claim with queue := s.bay.claim.queue.filter (fun e => e.slot ≠ slot) }
          trigger := { s.bay.trigger with trigger := trig } } } : State).answer 0 [1])) ∧
      ((∀ e ∈ s.bay.claim.queue, e.slot ≠ slot) → exec .stopScene s = .next (s.answer 0 [2]))) := by
  rw [exec_stopScene taken hp]
  refine ⟨fun k carries => congrArg _ (stopSceneAsk_of_carrier carries), fun free settled =>
    ⟨fun e trig found told untold => congrArg _ ?_, fun absent => congrArg _ ?_⟩⟩
  · rw [stopSceneAsk_of_queued free found, withdraw_eq found told untold]
    exact settle_of_settled _ settled
  · rw [stopSceneAsk_of_absent free (queued_none_iff.mpr absent)]
    exact settle_of_settled _ settled

/-! ### The parts of an end (R113, R126, R128) -/

/-- An end: the effects on what the record owns, and the bay from which its release goes on. -/
theorem endRunFuel_parts (n : Nat) (e : EndReason) (k : Fin 6) (t : Tables) (b : Bay) {slot : Fin 32} {x : Snapshot}
    (used : (b.run k).state ≠ .free) (runs : (b.run k).slot = some slot) (snap : (b.run k).snap = some x) :
    ∃ c, c = { b with
        fixture := { b.fixture with run := c.fixture.run }, axis := { b.axis with axis := c.axis.axis }, voice := c.voice
        scene := { b.scene with status := b.scene.status.upd slot (fun y => { y with lastEnd := e }) } } ∧
      (∀ i, c.fixtureRec i =
        if b.owner (fixtureRes i) = some k then (b.fixtureRec i).released t b x.releaseFade else b.fixtureRec i) ∧
      (∀ a, c.axisRec a = if b.owner (axisRes a) = some k then (b.axisRec a).stopped t b .node else b.axisRec a) ∧
      c.voice = (endVoices k x.releaseFade t b).voice ∧
      ∀ ended, (∀ m, (b.run k).origin = some (.trigger m) → ended = runEnded m t (release (endRunFuel n) k t c)) →
        ((∀ m, (b.run k).origin ≠ some (.trigger m)) → ended = release (endRunFuel n) k t c) →
        endRunFuel (n + 1) k e t b = eachOf (madeWhole k t c) (endOverdue (endRunFuel n) t) (duckExamine t ended) := by
  obtain ⟨rest, fixture, axis, voice⟩ := endEffects_recordEnd_parts e t runs snap rfl
  refine ⟨_, rest, fixture, axis, voice, fun ended told untold => ?_⟩
  rw [endRunFuel_of_used used rfl]
  refine congrArg (fun c => eachOf _ (endOverdue (endRunFuel n) t) (duckExamine t c)) ?_
  by_cases trigger : ∃ m, (b.run k).origin = some (.trigger m)
  · obtain ⟨m, origin⟩ := trigger
    rw [told m origin, origin]
    rfl
  · have other (m : Fin 12) (origin : (b.run k).origin = some (.trigger m)) : False := trigger ⟨m, origin⟩
    rw [untold other, tellTrigger_of_other other]

/-- The record that gets a resource of record `k` when that is released (R126). -/
def Bay.heir (b : Bay) (k : Fin 6) (r : Fin 22) : Option (Fin 6) :=
  if b.owner r = some k then ((b.claim.claim.get r).stack.filter (· ≠ k)).head? else none

theorem popsTo_iff_heir {b : Bay} {k j : Fin 6} : popsTo b k j = true ↔ ∃ r, b.heir k r = some j := by
  simp [popsTo_iff, Bay.heir]

/-- The resources of a release handed over (R126 parts 1 and 2). -/
structure HandsOver (k : Fin 6) (t : Tables) (b c : Bay) : Prop where
  rest : c = { b with
    fixture := { b.fixture with run := c.fixture.run }, axis := { b.axis with axis := c.axis.axis }
    scene := { b.scene with run := c.scene.run }, claim := { b.claim with claim := c.claim.claim } }
  fixture : ∀ i, c.fixtureRec i = match b.heir k (fixtureRes i) with
    | some j => { b.fixtureRec i with
        scene := (b.fixtureRec i).scene.mapC (fun comp l => holdLevel t b comp (some (.run j)) l)
        intensity := 255, highlight := 0 }
    | none => b.fixtureRec i
  axis : ∀ a, c.axisRec a = match b.heir k (axisRes a) with
    | some j => { b.axisRec a with move := holdPosition t b (some (.run j)) (b.axisRec a).move }
    | none => b.axisRec a
  run : ∀ j, c.run j =
    if (b.run j).held = false ∧ ∃ a, b.heir k (axisRes a) = some j ∧ (b.axisRec a).state = .held
    then { b.run j with held := true, holdTime := 0 } else b.run j

theorem handOver_records (k : Fin 6) (t : Tables) (b : Bay)
    (suspended : ∀ r j, j ∈ (b.claim.claim.get r).stack → (b.run j).state = .suspended) :
    HandsOver k t b (handOver k t b) := by
  obtain ⟨left, leaves, left_eq⟩ := leaveStacks_parts k b
  have owner (r : Fin 22) : (leaveStacks k b).owner r = b.owner r := by rw [Bay.owner, leaves, left_eq]
  have mem (r : Fin 22) : r ∈ (leaveStacks k b).owned k ↔ b.owner r = some k := by simp [Bay.owned, owner]
  have runs (j : Fin 6) : (leaveStacks k b).run j = b.run j := by rw [leaves]; rfl
  have lights (i : Fin 16) : (leaveStacks k b).fixtureRec i = b.fixtureRec i := by rw [leaves]; rfl
  have axes (a : Fin 4) : (leaveStacks k b).axisRec a = b.axisRec a := by rw [leaves]; rfl
  have parts : HandedBack t b (fun r => (b.claim.claim.get r).stack.filter (· ≠ k))
      (· ∈ (leaveStacks k b).owned k) (leaveStacks k b) (handOver k t b) :=
    eachOf_handBack t b _ (fun r j inside => suspended r j (List.mem_of_mem_filter inside)) ((leaveStacks k b).owned k)
      ((List.nodup_finRange 22).filter _) (leaveStacks k b) (fun r _ => by rw [leaves, left_eq])
      (SameClock.of_rest (by rw [leaves]) (by rw [leaves])) (fun j => by rw [runs])
  generalize handOver k t b = c at *
  generalize leaveStacks k b = d at *
  obtain ⟨rest, fixture, axis, run⟩ := parts
  refine ⟨by rw [rest, leaves], fun i => ?_, fun a => ?_, fun j => ?_⟩
  · rw [fixture, Bay.heir, lights]
    simp only [mem]
    by_cases own : b.owner (fixtureRes i) = some k
    · rw [if_pos own, if_pos own] <;> rfl
    · rw [if_neg own, if_neg own]
  · rw [axis, Bay.heir, axes]
    simp only [mem]
    by_cases own : b.owner (axisRes a) = some k
    · rw [if_pos own, if_pos own] <;> rfl
    · rw [if_neg own, if_neg own]
  · rw [run]
    simp only [Bay.heir, runs, axes, mem, ite_eq_iff, reduceCtorEq, and_false, or_false, and_assoc]

theorem handOver_claims {k : Fin 6} {t : Tables} {b : Bay} (r : Fin 22) : (handOver k t b).claim.claim.get r =
    if b.owner r = some k then ⟨b.heir k r, ((b.claim.claim.get r).stack.filter (· ≠ k)).tail⟩
    else ⟨b.owner r, (b.claim.claim.get r).stack.filter (· ≠ k)⟩ := by
  rw [(handOver_parts k t b).2, Bay.heir]
  by_cases own : b.owner r = some k
  · simp only [own, if_true]
  · simp only [own, if_false]

theorem HandsOver.state {k : Fin 6} {t : Tables} {b c : Bay} (h : HandsOver k t b c) (j : Fin 6) :
    (c.run j).state = (b.run j).state := by
  rw [h.run]
  split <;> rfl

theorem HandsOver.claims {k : Fin 6} {t : Tables} {b c : Bay} (h : HandsOver k t b c) (j : Fin 6) :
    c.claims j = b.claims j := by
  rw [Bay.claims, Bay.claims, h.run]
  split <;> rfl

theorem madeWhole_pairwise (k : Fin 6) (t : Tables) (b : Bay) : (madeWhole k t b).Pairwise (· < ·) :=
  List.Pairwise.filter (fun j => popsTo b k j && ((handOver k t b).run j).state = .suspended && whole (handOver k t b) j)
    (List.pairwise_lt_finRange 6)

theorem mem_madeWhole {k j : Fin 6} {t : Tables} {b : Bay} (h : HandsOver k t b (handOver k t b)) :
    j ∈ madeWhole k t b ↔ (∃ r, b.heir k r = some j) ∧ (b.run j).state = .suspended ∧
      ∀ r, (b.claims j).has r = true → (handOver k t b).owner r = some j := by
  simp only [madeWhole, List.mem_filter, List.mem_finRange, true_and, Bool.and_eq_true, decide_eq_true_eq,
    popsTo_iff_heir, whole_iff, h.state, h.claims, and_assoc]

/-! ### A record that resumes (R38, R94, R111, R127) -/

theorem Bay.updFixture_self (b : Bay) (i : Fin 16) (f : FixtureRun → FixtureRun) (h : f (b.fixtureRec i) = b.fixtureRec i) :
    b.updFixture i f = b :=
  congrArg (fun run => { b with fixture := { b.fixture with run := run } }) (Tab.upd_self b.fixture.run i f h)

/-- A fixture of record `k` when that resumes with a look memory of it. -/
def FixtureRun.resumed (k : Fin 6) (fade : Nat) (t : Tables) (b : Bay) (look : FixtureLook) (x : FixtureRun) : FixtureRun :=
  { x with
    scene := x.scene.mapC (fun c l => retarget t b c (look.target.lane c) fade .linear (.run k) l)
    intensity := look.intensity, highlight := look.highlight }

/-- An axis of record `k` when that resumes with a look memory of it. -/
def Axis.resumed (k : Fin 6) (t : Tables) (b : Bay) (cfg : AxisCfg) (look : Option Int) (x : Axis) : Axis :=
  if x.state = .ready ∨ x.state = .moving ∨ x.state = .held then
    match look with
    | none => x.stopped t b (.run k)
    | some target => { x with
        state := if x.state = .ready then .moving else x.state
        move := retarget t b .red (.position (cfg.clamp target))
          (ceilDiv (cfg.clamp target - laneValue t b .red x.move).natAbs cfg.resumeRate.val) .linear (.run k) x.move }
  else x

theorem SameClock.fixtureResumed {b c : Bay} (h : SameClock b c) (k : Fin 6) (fade : Nat) (t : Tables) (look : FixtureLook)
    (x : FixtureRun) : x.resumed k fade t c look = x.resumed k fade t b look := by
  simp only [FixtureRun.resumed, h.retarget]

theorem SameClock.axisStopped {b c : Bay} (h : SameClock b c) (t : Tables) (src : TimeSource) (x : Axis) :
    x.stopped t c src = x.stopped t b src := by
  simp only [Axis.stopped, h.holdPosition]

theorem SameClock.axisResumed {b c : Bay} (h : SameClock b c) (k : Fin 6) (t : Tables) (cfg : AxisCfg) (look : Option Int)
    (x : Axis) : x.resumed k t c cfg look = x.resumed k t b cfg look := by
  simp only [Axis.resumed, h.retarget, h.laneValue, h.axisStopped]

/-- What the resumption of record `k` does to its fixture `i`. -/
def resumeFixtureRec (k : Fin 6) (fade : Nat) (t : Tables) (i : Fin 16) (b : Bay) (x : FixtureRun) : FixtureRun :=
  match (b.run k).look with
  | none => x
  | some look => x.resumed k fade t b (look.fixture.get i)

theorem resumeFixture_eq (k : Fin 6) (fade : Nat) (t : Tables) (i : Fin 16) (b : Bay) :
    resumeFixture k fade t i b = b.updFixture i (resumeFixtureRec k fade t i b) := by
  unfold resumeFixture resumeFixtureRec
  cases (b.run k).look with
  | none => exact (b.updFixture_self i _ rfl).symm
  | some look => exact b.updFixture_updFixture i _ _

/-- What the resumption of record `k` does to its axis `a`. -/
def resumeAxisRec (k : Fin 6) (t : Tables) (a : Fin 4) (b : Bay) : Axis → Axis :=
  Axis.resumed k t b (t.axis.get a) ((b.run k).look.map (fun l => l.axis.get a)).join

theorem resumeAxis_eq (k : Fin 6) (t : Tables) (a : Fin 4) (b : Bay) :
    resumeAxis k t a b = b.updAxis a (resumeAxisRec k t a b) := by
  unfold resumeAxis resumeAxisRec Axis.resumed
  have moves : ((b.axisRec a).state = .ready || (b.axisRec a).state = .moving || (b.axisRec a).state = .held) = true ↔
      (b.axisRec a).state = .ready ∨ (b.axisRec a).state = .moving ∨ (b.axisRec a).state = .held := by
    simp [or_assoc]
  by_cases h : (b.axisRec a).state = .ready ∨ (b.axisRec a).state = .moving ∨ (b.axisRec a).state = .held
  · refine (if_pos (moves.mpr h)).trans ?_
    cases ((b.run k).look.map fun l => l.axis.get a).join with
    | none => exact Bay.updAxis_congr _ _ _ _ (if_pos h).symm
    | some target => exact Bay.updAxis_congr _ _ _ _ (if_pos h).symm
  · refine (if_neg (mt moves.mp h)).trans ?_
    exact (b.updAxis_self a _ (if_neg h)).symm

theorem eachOf_resumeFixture (k : Fin 6) (fade : Nat) (t : Tables) (b : Bay) {m : Look} (look : (b.run k).look = some m)
    (l : List (Fin 16)) (nodup : l.Nodup) :
    eachOf l (resumeFixture k fade t) b =
      { b with fixture := { b.fixture with run := (eachOf l (resumeFixture k fade t) b).fixture.run } } ∧
    ∀ i, (eachOf l (resumeFixture k fade t) b).fixtureRec i =
      if i ∈ l then (b.fixtureRec i).resumed k fade t b (m.fixture.get i) else b.fixtureRec i := by
  obtain ⟨rest, records⟩ := eachOf_updFixture (resumeFixture k fade t) (resumeFixtureRec k fade t)
    (fun i b x => funext fun y => by
      unfold resumeFixtureRec
      show (match (b.run k).look with
        | none => y
        | some look => y.resumed k fade t { b with fixture := x } (look.fixture.get i)) = _
      cases (b.run k).look with
      | none => rfl
      | some look => exact (SameClock.of_rest rfl rfl).fixtureResumed k fade t _ y)
    (resumeFixture_eq k fade t) l nodup b
  refine ⟨rest, fun i => ?_⟩
  rw [records, resumeFixtureRec, look]

theorem eachOf_resumeAxis (k : Fin 6) (t : Tables) (b : Bay) {m : Look} (look : (b.run k).look = some m)
    (l : List (Fin 4)) (nodup : l.Nodup) :
    eachOf l (resumeAxis k t) b = { b with axis := { b.axis with axis := (eachOf l (resumeAxis k t) b).axis.axis } } ∧
    ∀ a, (eachOf l (resumeAxis k t) b).axisRec a =
      if a ∈ l then (b.axisRec a).resumed k t b (t.axis.get a) (m.axis.get a) else b.axisRec a := by
  obtain ⟨rest, records⟩ := eachOf_updAxis (resumeAxis k t) (resumeAxisRec k t)
    (fun a b x => funext fun y => (SameClock.of_rest rfl rfl).axisResumed k t _ _ y) (resumeAxis_eq k t) l nodup b
  refine ⟨rest, fun a => ?_⟩
  rw [records, resumeAxisRec, look]
  rfl

/-- What is taken back by a record that resumes, before it is examined. -/
structure Resumes (k : Fin 6) (fade : Nat) (t : Tables) (m : Look) (b c : Bay) : Prop where
  rest : c = { b with
    fixture := { b.fixture with run := c.fixture.run }, axis := { b.axis with axis := c.axis.axis }
    voice := (if (b.run k).held = true then b.voice else (resumeVoices k b).voice)
    scene := { b.scene with run := c.scene.run } }
  other : ∀ j, j ≠ k → c.run j = b.run j
  run : c.run k = { b.run k with
    state := .running, guard := t.config.resumeGuard.val
    gate := if ∃ g, (b.run k).gate = some g ∧ ∀ a : Fin 4, g.axes.getLsbD a.val = true → settled t c a = true then none
      else (b.run k).gate }
  fixture : ∀ i, c.fixtureRec i =
    if b.owner (fixtureRes i) = some k then (b.fixtureRec i).resumed k fade t b (m.fixture.get i) else b.fixtureRec i
  axis : ∀ a, c.axisRec a =
    if b.owner (axisRes a) = some k then (b.axisRec a).resumed k t b (t.axis.get a) (m.axis.get a) else b.axisRec a

/-- A change of a record that leaves its clock alone and does not take or free it. -/
theorem sameClock_updRun {b : Bay} {k : Fin 6} {f : RunRec → RunRec} (clock : (f (b.run k)).clock = (b.run k).clock)
    (free : (f (b.run k)).state = .free ↔ (b.run k).state = .free) : SameClock b (b.updRun k f) := by
  refine ⟨rfl, fun j => ?_, fun j => ?_⟩
  · rw [Bay.run_updRun]
    split
    · next here => rw [clock, here]
    · rfl
  · rw [Bay.run_updRun]
    split
    · next here => rw [← here]; exact propext free
    · rfl

theorem settled_congr {t : Tables} {b c : Bay} (clock : SameClock b c) {a : Fin 4} (same : c.axisRec a = b.axisRec a) :
    settled t c a = settled t b a := by
  have value : commanded t c a = commanded t b a := by rw [commanded, same, clock.laneValue, ← commanded]
  rw [Bool.eq_iff_iff, settled_iff, settled_iff, same, value]

theorem gateReady_iff {t : Tables} {b : Bay} {k : Fin 6} (running : (b.run k).state = .running) : gateReady t b k = true ↔
    ∃ g, (b.run k).gate = some g ∧ ∀ a : Fin 4, g.axes.getLsbD a.val = true → settled t b a = true := by
  unfold gateReady
  cases (b.run k).gate with
  | none => simp
  | some g => simp [running, allSettled_iff]

/-- The gate of a running record that is ready opens. -/
theorem openGate_if_ready {k : Fin 6} {t : Tables} {b c : Bay} (running : (b.run k).state = .running)
    (hc : c = if gateReady t b k = true then openGate k b else b) :
    c = { b with scene := { b.scene with run := c.scene.run } } ∧ (∀ j, j ≠ k → c.run j = b.run j) ∧
    c.run k = { b.run k with
      gate := if ∃ g, (b.run k).gate = some g ∧ ∀ a : Fin 4, g.axes.getLsbD a.val = true → settled t c a = true then none
        else (b.run k).gate } := by
  have clock : SameClock b (openGate k b) := sameClock_updRun rfl Iff.rfl
  have same (a : Fin 4) : settled t c a = settled t b a := by
    rw [hc]
    split
    · exact settled_congr clock rfl
    · rfl
  simp only [same, ← gateReady_iff running]
  by_cases ready : gateReady t b k = true
  · rw [if_pos ready] at hc ⊢
    subst hc
    exact ⟨rfl, fun j ne => b.run_updRun_of_ne _ ne.symm, b.run_updRun_same k _⟩
  · rw [if_neg ready] at hc ⊢
    subst hc
    exact ⟨rfl, fun _ _ => rfl, rfl⟩

theorem resume_eq {k : Fin 6} {t : Tables} {b : Bay} {x : Snapshot} {m : Look} (suspended : (b.run k).state = .suspended)
    (snap : (b.run k).snap = some x) (look : (b.run k).look = some m) :
    ∃ c, resume k t b = examineSteps false k t 256 c ∧ Resumes k x.resumeFade t m b c := by
  let guarded := fun r : RunRec => { r with state := .running, guard := t.config.resumeGuard.val }
  have clock : SameClock b (b.updRun k guarded) := sameClock_updRun rfl (by simp [guarded, suspended])
  have guardedRun : (b.updRun k guarded).run k = guarded (b.run k) := b.run_updRun_same k _
  have rest₁ : b.updRun k guarded = { b with scene := { b.scene with run := (b.updRun k guarded).scene.run } } := rfl
  have other₁ (j : Fin 6) (ne : j ≠ k) : (b.updRun k guarded).run j = b.run j := b.run_updRun_of_ne _ ne.symm
  generalize h₁ : b.updRun k guarded = b₁ at *
  obtain ⟨rest₂, fixture⟩ := eachOf_resumeFixture k x.resumeFade t b₁ (by rw [guardedRun]; exact look)
    (b₁.ownedFixtures k) (ownedFixtures_nodup b₁ k)
  generalize h₂ : eachOf (b₁.ownedFixtures k) (resumeFixture k x.resumeFade t) b₁ = b₂ at *
  have run₂ (j : Fin 6) : b₂.run j = b₁.run j := by rw [rest₂]; rfl
  have clock₂ : SameClock b b₂ := clock.trans (SameClock.of_rest (by rw [rest₂]) (by rw [rest₂]))
  obtain ⟨rest₃, axis⟩ := eachOf_resumeAxis k t b₂ (by rw [run₂, guardedRun]; exact look)
    (b₂.ownedAxes k) (ownedAxes_nodup b₂ k)
  generalize h₃ : eachOf (b₂.ownedAxes k) (resumeAxis k t) b₂ = b₃ at *
  have run₃ (j : Fin 6) : b₃.run j = b₁.run j := by rw [rest₃]; exact run₂ j
  have voices : (if (b₃.run k).held = true then b₃ else resumeVoices k b₃) =
      { b₃ with voice := if (b.run k).held = true then b.voice else (resumeVoices k b).voice } := by
    obtain ⟨unit, voices, unit_eq⟩ := resumeVoices_congr k b b₃ (by rw [rest₃, rest₂, rest₁])
      (by rw [run₃, guardedRun])
    have held : (b₃.run k).held = (b.run k).held := by rw [run₃, guardedRun]
    rw [held, voices, unit_eq]
    by_cases h : (b.run k).held = true
    · rw [if_pos h, if_pos h, rest₃, rest₂, rest₁]
    · rw [if_neg h, if_neg h]
  have resumes : resume k t b = examineSteps false k t 256
      (if gateReady t (if (b₃.run k).held = true then b₃ else resumeVoices k b₃) k = true then
        openGate k (if (b₃.run k).held = true then b₃ else resumeVoices k b₃)
      else if (b₃.run k).held = true then b₃ else resumeVoices k b₃) := by
    rw [← h₃, ← h₂, ← h₁, resume, snap]
    rfl
  rw [voices] at resumes
  generalize h₄ : ({ b₃ with voice := if (b.run k).held = true then b.voice else (resumeVoices k b).voice } : Bay) = b₄ at *
  have run₄ (j : Fin 6) : b₄.run j = b₁.run j := by rw [← h₄]; exact run₃ j
  refine ⟨_, resumes, ?_⟩
  generalize hc : (if gateReady t b₄ k = true then openGate k b₄ else b₄) = c
  obtain ⟨rest, other, run⟩ := openGate_if_ready (by rw [run₄, guardedRun]) hc.symm
  refine ⟨?_, fun j ne => ?_, ?_, fun i => ?_, fun a => ?_⟩
  · rw [rest, ← h₄, rest₃, rest₂, rest₁]
  · rw [other j ne, run₄, other₁ j ne]
  · rw [run, run₄, guardedRun]
  · have same : c.fixtureRec i = b₂.fixtureRec i := by rw [rest, ← h₄, rest₃]; rfl
    have owner : b₁.owner (fixtureRes i) = b.owner (fixtureRes i) := by rw [rest₁]; rfl
    rw [same, fixture, clock.fixtureResumed]
    simp only [mem_ownedFixtures, owner, show b₁.fixtureRec i = b.fixtureRec i by rw [rest₁]; rfl]
  · have same : c.axisRec a = b₃.axisRec a := by rw [rest, ← h₄]; rfl
    have owner : b₂.owner (axisRes a) = b.owner (axisRes a) := by rw [rest₂, rest₁]; rfl
    rw [same, axis, clock₂.axisResumed]
    simp only [mem_ownedAxes, owner, show b₂.axisRec a = b.axisRec a by rw [rest₂, rest₁]; rfl]

/-- Settles O41: a simple end, STOP-SCENE, the parts of an end, the resources handed over, a resumption, and the records due. -/
theorem endOfRunReleasesItsResources : Obligations.EndOfRunReleasesItsResources := by
  refine ⟨?_, ?_, ⟨rfl, ?_, ?_⟩, ?_, ?_, fun b j => overdue_iff⟩
  · rintro e k t b u r slot x rfl used runs snap queue alone rfl
    obtain ⟨run, status, claim, fixture, axis, voice, trigger⟩ := endRun_of_alone used runs snap queue alone
    exact ⟨run, status, claim, fixture, axis, voice, trigger⟩
  · intro s p slot taken hp
    obtain ⟨carried, free⟩ := stopScene_cases s p slot taken hp
    refine ⟨carried, fun idle settled => ⟨fun e arm trig found harm told untold => ?_, (free idle settled).2⟩⟩
    subst harm
    exact (free idle settled).1 e trig found told untold
  · exact fun n e k t b free => endRunFuel_of_free free e t n
  · rintro n e k t b r slot x rfl used runs snap
    obtain ⟨c, rest, fixture, axis, voice, goesOn⟩ := endRunFuel_parts n e k t b used runs snap
    refine ⟨c, rest, fixture, axis, voice, ?_⟩
    intro whole after ended hwhole hafter told untold
    have released : after = release (endRunFuel n) k t c := by rw [hafter, hwhole, release]
    clear hafter
    subst hwhole
    refine goesOn ended (fun m origin => ?_) fun other => (untold other).trans released
    rw [← released]
    exact told m origin
  · intro k t b c top suspended hc htop
    obtain rfl : top = b.heir k := funext htop
    have hands := handOver_records k t b suspended
    have claims := fun r => handOver_claims (k := k) (t := t) (b := b) r
    have whole := fun j => mem_madeWhole (j := j) hands
    rw [← hc] at hands claims whole
    exact ⟨hands.rest, claims, hands.fixture, hands.axis, hands.run, madeWhole_pairwise k t b, whole⟩
  · rintro k t b r x m rfl suspended snap look
    obtain ⟨c, resumes, rest, other, run, fixture, axis⟩ := resume_eq suspended snap look
    refine ⟨c, resumes, rest, other, run, ?_, ?_⟩
    · rintro i l rfl
      refine (fixture i).trans ?_
      rw [FixtureRun.resumed]
      cases (m.fixture.get i).target <;> rfl
    · rintro a y cfg rfl rfl
      refine (axis a).trans ?_
      by_cases own : b.owner (axisRes a) = some k
      · simp only [own, true_and, if_true]
        rfl
      · simp only [own, false_and, if_false]

end Sys2Proof.Machine
end

section
/-! PROOFS. The end of every run, and the requests that the claim unit decides. -/

namespace Sys2Proof.Machine

/-! ### One record's turn in the end of every run (R114) -/

/-- A voice when record `k` ends. -/
def Voice.ended (k : Fin 6) (fade : Nat) (t : Tables) (b : Bay) (x : Voice) : Voice :=
  if x.owner = some k && x.state.active then
    { x with state := .stopping, owner := none, gain := retarget t b .red (.level 0) fade .linear .node x.gain }
  else if x.owner = some k && x.state = .paused then x.idle
  else x

theorem endVoices_ended (k : Fin 6) (fade : Nat) (t : Tables) (b : Bay) (v : Fin 6) :
    (endVoices k fade t b).voiceRec v = (b.voiceRec v).ended k fade t b := endVoices_voiceRec k fade t b v

theorem SameClock.voiceEnded {b c : Bay} (h : SameClock b c) (k : Fin 6) (fade : Nat) (t : Tables) (x : Voice) :
    x.ended k fade t c = x.ended k fade t b := by
  simp only [Voice.ended, h.retarget]

theorem SameClock.fixtureReleased {b c : Bay} (h : SameClock b c) (t : Tables) (fade : Nat) (x : FixtureRun) :
    x.released t c fade = x.released t b fade := by
  simp only [FixtureRun.released, h.retarget]

theorem Voice.ended_of_unowned {k : Fin 6} {x : Voice} (h : x.owner ≠ some k) (fade : Nat) (t : Tables) (b : Bay) :
    x.ended k fade t b = x := by
  simp [Voice.ended, h]

/-- The end of a record leaves a voice with its owner or with none. -/
theorem Voice.ended_owner {k j : Fin 6} {x : Voice} (h : x.owner ≠ some j) (fade : Nat) (t : Tables) (b : Bay) :
    (x.ended k fade t b).owner ≠ some j := by
  unfold Voice.ended
  split
  · exact fun eq => nomatch eq
  · split
    · exact fun eq => nomatch eq
    · exact h

/-- The clocks, the records, the claims and the triggers stand as they stood. -/
structure SameRuns (b c : Bay) : Prop where
  time : c.time = b.time
  run : c.scene.run = b.scene.run
  claim : c.claim = b.claim
  trigger : c.trigger = b.trigger

theorem SameRuns.refl (b : Bay) : SameRuns b b := ⟨rfl, rfl, rfl, rfl⟩

theorem SameRuns.trans {a b c : Bay} (h : SameRuns a b) (g : SameRuns b c) : SameRuns a c :=
  ⟨g.time.trans h.time, g.run.trans h.run, g.claim.trans h.claim, g.trigger.trans h.trigger⟩

theorem SameRuns.clock {b c : Bay} (h : SameRuns b c) : SameClock b c := SameClock.of_rest h.time h.run

theorem SameRuns.record {b c : Bay} (h : SameRuns b c) (k : Fin 6) : c.run k = b.run k := by
  rw [Bay.run, h.run, ← Bay.run]

theorem SameRuns.owner {b c : Bay} (h : SameRuns b c) (r : Fin 22) : c.owner r = b.owner r := by
  rw [Bay.owner, h.claim, ← Bay.owner]

theorem SameRuns.fade {b c : Bay} (h : SameRuns b c) (k : Fin 6) : releaseFade c k = releaseFade b k := by
  rw [releaseFade, h.record, ← releaseFade]

/-- The turn of record `k` in the end of every run. -/
def endTurn (e : EndReason) (t : Tables) (k : Fin 6) (b : Bay) : Bay :=
  (endEffects k (releaseFade b k) (voiceFadeOf e (releaseFade b k)) t b).recordEnd k e

/-- One record's turn, resource by resource. -/
structure TakesTurn (e : EndReason) (t : Tables) (k : Fin 6) (b c : Bay) : Prop where
  same : SameRuns b c
  fixture : ∀ i, c.fixtureRec i =
    if b.owner (fixtureRes i) = some k then (b.fixtureRec i).released t b (releaseFade b k) else b.fixtureRec i
  axis : ∀ a, c.axisRec a = if b.owner (axisRes a) = some k then (b.axisRec a).stopped t b .node else b.axisRec a
  voice : ∀ v, c.voiceRec v = (b.voiceRec v).ended k (voiceFadeOf e (releaseFade b k)) t b
  status : ∀ slot, c.scene.status.get slot =
    if (b.run k).slot = some slot then { b.scene.status.get slot with lastEnd := e } else b.scene.status.get slot

theorem endTurn_parts (e : EndReason) (t : Tables) (k : Fin 6) (b : Bay) : TakesTurn e t k b (endTurn e t k b) := by
  obtain ⟨rest, fixture, axis, voice⟩ := endEffects_parts k (releaseFade b k) (voiceFadeOf e (releaseFade b k)) t b
  have voices (v : Fin 6) : _ = (b.voiceRec v).ended k (voiceFadeOf e (releaseFade b k)) t b :=
    (congrArg (fun x : VoiceUnit => x.voice.get v) voice).trans (endVoices_ended k _ t b v)
  rw [endTurn]
  generalize endEffects k (releaseFade b k) (voiceFadeOf e (releaseFade b k)) t b = d at *
  have record : d.run k = b.run k := by rw [rest]; rfl
  have status : d.scene.status = b.scene.status := by rw [rest]
  have same : SameRuns b d := ⟨by rw [rest], by rw [rest], by rw [rest], by rw [rest]⟩
  cases slot : (b.run k).slot with
  | none =>
    have unmarked : d.recordEnd k e = d := by rw [Bay.recordEnd, record, slot]
    rw [unmarked]
    exact ⟨same, fixture, axis, voices, fun y => by rw [status, slot]; rfl⟩
  | some own =>
    have marked : d.recordEnd k e = d.updStatus own fun y => { y with lastEnd := e } :=
      recordEnd_of_slot (by rw [record, slot]) e
    rw [marked]
    refine ⟨same.trans ⟨rfl, rfl, rfl, rfl⟩, fixture, axis, voices, fun y => ?_⟩
    refine (Tab.get_upd d.scene.status own y _).trans ?_
    rw [status, slot]
    by_cases here : own = y
    · subst here
      simp
    · simp [here]

/-! ### The turns of all records (R114) -/

section
variable {e : EndReason} {t : Tables} {b : Bay}

theorem sameRuns_endTurn {c : Bay} (h : SameRuns b c) (k : Fin 6) : SameRuns b (endTurn e t k c) :=
  h.trans (endTurn_parts e t k c).same

theorem sameRuns_endTurns (l : List (Fin 6)) : SameRuns b (eachOf l (endTurn e t) b) :=
  eachOf_keeps (P := SameRuns b) (fun k _ h => sameRuns_endTurn h k) l b (.refl b)

theorem endTurns_fixtureRec {l : List (Fin 6)} (nodup : l.Nodup) {k : Fin 6} (turn : k ∈ l) {i : Fin 16}
    (own : b.owner (fixtureRes i) = some k) :
    (eachOf l (endTurn e t) b).fixtureRec i = (b.fixtureRec i).released t b (releaseFade b k) := by
  refine (eachOf_at (f := endTurn e t) (g := fun b : Bay => b.fixtureRec i) (SameRuns b) k
    (FixtureRun.released t b (releaseFade b k)) (fun j _ h => sameRuns_endTurn h j) (fun j c ne h => ?_) (fun c h => ?_)
    l b nodup (.refl b)).trans (if_pos turn)
  · refine ((endTurn_parts e t j c).fixture i).trans (if_neg ?_)
    rw [h.owner, own]
    exact fun eq => ne (Option.some.inj eq).symm
  · refine ((endTurn_parts e t k c).fixture i).trans ((if_pos (by rw [h.owner, own])).trans ?_)
    rw [h.clock.fixtureReleased, h.fade]

theorem endTurns_axisRec {l : List (Fin 6)} (nodup : l.Nodup) {k : Fin 6} (turn : k ∈ l) {a : Fin 4}
    (own : b.owner (axisRes a) = some k) :
    (eachOf l (endTurn e t) b).axisRec a = (b.axisRec a).stopped t b .node := by
  refine (eachOf_at (f := endTurn e t) (g := fun b : Bay => b.axisRec a) (SameRuns b) k
    (Axis.stopped t b .node) (fun j _ h => sameRuns_endTurn h j) (fun j c ne h => ?_) (fun c h => ?_)
    l b nodup (.refl b)).trans (if_pos turn)
  · refine ((endTurn_parts e t j c).axis a).trans (if_neg ?_)
    rw [h.owner, own]
    exact fun eq => ne (Option.some.inj eq).symm
  · refine ((endTurn_parts e t k c).axis a).trans ((if_pos (by rw [h.owner, own])).trans ?_)
    rw [h.clock.axisStopped]

theorem endTurns_voiceRec {l : List (Fin 6)} (nodup : l.Nodup) {k : Fin 6} (turn : k ∈ l) {v : Fin 6}
    (own : (b.voiceRec v).owner = some k) :
    (eachOf l (endTurn e t) b).voiceRec v = (b.voiceRec v).ended k (voiceFadeOf e (releaseFade b k)) t b := by
  refine (eachOf_at (f := endTurn e t) (g := fun b : Bay => b.voiceRec v)
    (fun c => SameRuns b c ∧ ∀ j, j ≠ k → (c.voiceRec v).owner ≠ some j) k
    (Voice.ended k (voiceFadeOf e (releaseFade b k)) t b) (fun j c h => ⟨sameRuns_endTurn h.1 j, fun m ne => ?_⟩)
    (fun j c ne h => ?_) (fun c h => ?_) l b nodup ⟨.refl b, fun j ne => ?_⟩).trans (if_pos turn)
  · rw [(endTurn_parts e t j c).voice]
    exact Voice.ended_owner (h.2 m ne) _ t c
  · exact ((endTurn_parts e t j c).voice v).trans (Voice.ended_of_unowned (h.2 j ne) _ t c)
  · rw [(endTurn_parts e t k c).voice, h.1.clock.voiceEnded, h.1.fade]
  · rw [own]
    exact fun eq => ne (Option.some.inj eq).symm

theorem endTurns_status (slot : Fin 32) : ∀ (l : List (Fin 6)) (b : Bay),
    (eachOf l (endTurn e t) b).scene.status.get slot = if ∃ k ∈ l, (b.run k).slot = some slot
      then { b.scene.status.get slot with lastEnd := e } else b.scene.status.get slot
  | [], b => by simp
  | k :: l, b => by
    have turn := endTurn_parts e t k b
    rw [eachOf_cons, endTurns_status slot l, turn.status]
    simp only [turn.same.record, List.exists_mem_cons_iff]
    by_cases here : (b.run k).slot = some slot
    · simp [here]
    · simp [here]

theorem tellTrigger_of_idle {c : Bay} (idle : ∀ n, (c.triggerRec n).state ≠ .busy) (o : Option Origin) :
    tellTrigger o t c = c := by
  by_cases h : ∃ m, o = some (.trigger m)
  · obtain ⟨m, rfl⟩ := h
    exact c.updTrigger_self m _ (if_neg (idle m))
  · exact tellTrigger_of_other (fun m eq => h ⟨m, eq⟩) t c

theorem eachOf_tellTrigger_of_idle {c : Bay} (idle : ∀ n, (c.triggerRec n).state ≠ .busy) (l : List (Option Origin)) :
    eachOf l (fun o b => tellTrigger o t b) c = c :=
  eachOf_keeps (P := (· = c)) (fun o _ h => by rw [h]; exact tellTrigger_of_idle idle o) l c rfl

/-- The records in use. -/
def Bay.used (b : Bay) : List (Fin 6) := (List.finRange 6).filter fun k => (b.run k).state != .free

theorem mem_used {k : Fin 6} : k ∈ b.used ↔ (b.run k).state ≠ .free := by simp [Bay.used]

theorem used_nodup : b.used.Nodup := (List.nodup_finRange 6).filter _

theorem exists_used_iff_carrier {slot : Fin 32} : (∃ k ∈ b.used, (b.run k).slot = some slot) ↔ b.carrier slot ≠ none := by
  simp [Bay.carrier, mem_used]

/-- A bay after the end of every run, where no trigger is BUSY. -/
structure EndsAll (e : EndReason) (t : Tables) (b u : Bay) : Prop where
  trigger : u.trigger = b.trigger
  claim : u.claim = { b.claim with claim := Tab.const 22 ⟨none, []⟩ }
  run : ∀ k, u.run k = if (b.run k).state = .free then b.run k else RunRec.free
  status : ∀ slot, u.scene.status.get slot =
    if b.carrier slot ≠ none then { b.scene.status.get slot with lastEnd := e } else b.scene.status.get slot
  fixture : ∀ (i : Fin 16) (k : Fin 6), b.owner (fixtureRes i) = some k → (b.run k).state ≠ .free →
    u.fixtureRec i = (b.fixtureRec i).released t b (releaseFade b k)
  axis : ∀ (a : Fin 4) (k : Fin 6), b.owner (axisRes a) = some k → (b.run k).state ≠ .free →
    u.axisRec a = (b.axisRec a).stopped t b .node
  voice : ∀ v k : Fin 6, (b.voiceRec v).owner = some k → (b.run k).state ≠ .free →
    u.voiceRec v = (b.voiceRec v).ended k (voiceFadeOf e (releaseFade b k)) t b

theorem eachOf_free_rest (l : List (Fin 6)) (b : Bay) : eachOf l (fun k b => b.updRun k fun _ => RunRec.free) b =
    { b with scene := { b.scene with run := (eachOf l (fun k b => b.updRun k fun _ => RunRec.free) b).scene.run } } :=
  eachOf_keeps (P := fun c : Bay => c = { b with scene := { b.scene with run := c.scene.run } })
    (fun k c h => by
      exact congrArg (fun x : Bay => { x with scene := { x.scene with run := (c.updRun k fun _ => RunRec.free).scene.run } }) h)
    l b rfl

theorem endAll_parts (idle : ∀ n, (b.triggerRec n).state ≠ .busy) : EndsAll e t b (endAll e t b) := by
  have same := sameRuns_endTurns (e := e) (t := t) (b := b) b.used
  have fixture (i k own) (used : (b.run k).state ≠ .free) :=
    endTurns_fixtureRec (e := e) (t := t) (b := b) used_nodup (mem_used.mpr used) (i := i) own
  have axis (a k own) (used : (b.run k).state ≠ .free) :=
    endTurns_axisRec (e := e) (t := t) (b := b) used_nodup (mem_used.mpr used) (a := a) own
  have voice (v k own) (used : (b.run k).state ≠ .free) :=
    endTurns_voiceRec (e := e) (t := t) (b := b) used_nodup (mem_used.mpr used) (v := v) own
  have status (slot : Fin 32) := endTurns_status (e := e) (t := t) slot b.used b
  have ends : endAll e t b = duckExamine t (eachOf (b.used.map fun k => (b.run k).origin) (fun o b => tellTrigger o t b)
      (eachOf b.used (fun k b => b.updRun k fun _ => RunRec.free)
        { eachOf b.used (endTurn e t) b with
          claim := { (eachOf b.used (endTurn e t) b).claim with claim := Tab.const 22 ⟨none, []⟩ } })) := rfl
  generalize eachOf b.used (endTurn e t) b = c at *
  have freed := fun j => eachOf_free_run j b.used { c with claim := { c.claim with claim := Tab.const 22 ⟨none, []⟩ } }
  have rest := eachOf_free_rest b.used { c with claim := { c.claim with claim := Tab.const 22 ⟨none, []⟩ } }
  generalize eachOf b.used (fun k b => b.updRun k fun _ => RunRec.free)
    { c with claim := { c.claim with claim := Tab.const 22 ⟨none, []⟩ } } = d at *
  have triggers : d.trigger = b.trigger := by rw [rest, ← same.trigger]
  rw [eachOf_tellTrigger_of_idle fun n => by rw [Bay.triggerRec, triggers]; exact idle n] at ends
  obtain ⟨duckClaim, duckScene, -, duckFixture, duckAxis, duckTrigger, -, -⟩ := duckExamine_parts t d
  rw [ends]
  refine ⟨by rw [duckTrigger, triggers], by rw [duckClaim, rest, same.claim], fun k => ?_, fun slot => ?_,
    fun i k own used => ?_, fun a k own used => ?_, fun v k own used => ?_⟩
  · rw [Bay.run, duckScene]
    refine (freed k).trans ?_
    simp only [mem_used]
    by_cases free : (b.run k).state = .free
    · rw [if_neg (not_not_intro free), if_pos free]
      exact same.record k
    · rw [if_pos free, if_neg free]
  · rw [duckScene, rest]
    refine (status slot).trans ?_
    simp only [exists_used_iff_carrier]
  · rw [Bay.fixtureRec, duckFixture, rest]
    exact fixture i k own used
  · rw [Bay.axisRec, duckAxis, rest]
    exact axis a k own used
  · rw [duckExamine_voiceRec, rest]
    exact voice v k own used

end

/-! ### HALT-ALL and the entry to DARK mode (R149, R150) -/

/-- The bay as HALT-ALL, or the entry to DARK mode, ends its runs: no queue, no schedule, every trigger at rest. -/
def rested (t : Tables) (m : Mode) (b : Bay) : Bay := restAll t (emptyQueues (b.setMode m))

theorem restAll_parts (t : Tables) (b : Bay) : TriggersOnly b (restAll t b) ∧ ∀ n, (restAll t b).triggerRec n =
    if (b.triggerRec n).state = .waiting ∨ (b.triggerRec n).state = .busy then
      (b.triggerRec n).rest (t.trigger.get n).lockout.val
    else b.triggerRec n := by
  refine ⟨each_keeps (P := TriggersOnly b) (fun n b' h => triggersOnly_updTrigger h n _) b rfl, fun n => ?_⟩
  refine (each_updTrigger_triggerRec _ b n).trans ?_
  simp only [Bool.or_eq_true, decide_eq_true_eq]

theorem Trigger.rest_state (seconds : Nat) (x : Trigger) : (x.rest seconds).state ≠ .busy := by
  unfold Trigger.rest
  split <;> exact fun eq => nomatch eq

theorem rested_rest (t : Tables) (m : Mode) (b : Bay) : rested t m b = { b with
    claim := { b.claim with queue := [] }
    trigger := { b.trigger with mode := m, schedule := [], trigger := (rested t m b).trigger.trigger } } :=
  (restAll_parts t (emptyQueues (b.setMode m))).1

theorem rested_triggerRec (t : Tables) (m : Mode) (b : Bay) (n : Fin 12) : (rested t m b).triggerRec n =
    if (b.triggerRec n).state = .waiting ∨ (b.triggerRec n).state = .busy then
      (b.triggerRec n).rest (t.trigger.get n).lockout.val
    else b.triggerRec n := (restAll_parts t (emptyQueues (b.setMode m))).2 n

theorem rested_idle (t : Tables) (m : Mode) (b : Bay) (n : Fin 12) : ((rested t m b).triggerRec n).state ≠ .busy := by
  rw [rested_triggerRec]
  split
  · exact Trigger.rest_state _ _
  · next h => exact fun busy => h (.inr busy)

theorem haltAll_of_show {b : Bay} (t : Tables) (showing : b.trigger.mode = .showMode) :
    haltAll t b = endAll .halted t (rested t .showMode b) := by
  have same : b.setMode .showMode = b := by rw [← showing]; rfl
  rw [haltAll, showing, rested, same]

theorem enterDark_of_show {b : Bay} (t : Tables) (showing : b.trigger.mode = .showMode) :
    enterDark t b = endAll .houseDark t (rested t .darkMode b) := by
  rw [enterDark, showing, rested]

/-- Settles O47: one turn after another in the records in use, each of which alone reaches what its record owns. -/
theorem haltAllAndDarkEntryEndEveryRun : Obligations.HaltAllAndDarkEntryEndEveryRun := by
  intro t b u e showing h
  have ends : u = endAll e t (rested t (if e = .houseDark then .darkMode else .showMode) b) := by
    rcases h with ⟨rfl, rfl⟩ | ⟨rfl, rfl⟩
    · exact haltAll_of_show t showing
    · exact enterDark_of_show t showing
  generalize (if e = .houseDark then Mode.darkMode else .showMode) = m at *
  have rest := rested_rest t m b
  have triggers := rested_triggerRec t m b
  obtain ⟨trigger, claim, run, status, fixture, axis, voice⟩ := endAll_parts (e := e) (t := t) (rested_idle t m b)
  rw [← ends] at trigger claim run status fixture axis voice
  generalize rested t m b = q at *
  have record (k : Fin 6) : q.run k = b.run k := by rw [rest]; rfl
  have owner (r : Fin 22) : q.owner r = b.owner r := by rw [rest]; rfl
  have voices (v : Fin 6) : q.voiceRec v = b.voiceRec v := by rw [rest]; rfl
  have clock : SameClock b q := SameClock.of_rest (by rw [rest]) (by rw [rest])
  have carrier (slot : Fin 32) : q.carrier slot = b.carrier slot := by simp only [Bay.carrier, record]
  have fade (k : Fin 6) (x : Snapshot) (snap : (b.run k).snap = some x) : releaseFade q k = x.releaseFade := by
    simp [releaseFade, record, snap]
  refine ⟨by rw [trigger, rest], by rw [trigger, rest], by rw [claim, rest], by rw [claim, rest], fun k => ?_, fun r => ?_,
    fun slot => ?_, fun n => ?_, fun i k x own used snap => ?_, fun a k own used => ?_, fun v k x own used snap => ?_⟩
  · rw [run, record]
  · rw [claim]
    exact Tab.get_const _ _
  · rw [status, carrier, rest]
  · rw [Bay.triggerRec, trigger]
    exact triggers n
  · rw [fixture i k (by rw [owner, own]) (by rw [record]; exact used), clock.fixtureReleased, fade k x snap, rest]
    rfl
  · rw [axis a k (by rw [owner, own]) (by rw [record]; exact used), clock.axisStopped, rest]
    rfl
  · rw [voice v k (by rw [voices, own]) (by rw [record]; exact used), clock.voiceEnded, fade k x snap, voices,
      endVoices_ended]
    rfl

end Sys2Proof.Machine
end

section
/-! PROOFS. The requests that the claim unit decides (R121 to R124), and a record that restarts (R115). -/

namespace Sys2Proof.Machine

/-! ### Deciding a request (R121 to R123) -/

theorem decideRequest_of_discards {q : Request} {t : Tables} {b : Bay} (h : discards t b q.slot = true) :
    decideRequest q t b = (.discarded, b) := by
  rw [decideRequest, if_pos h]

section
variable {q : Request} {t : Tables} {b : Bay} (taken : discards t b q.slot = false)
include taken

theorem decideRequest_of_carrier {k : Fin 6} (carries : b.carrier q.slot = some k) : decideRequest q t b =
    if (b.run k).state = .running ∧ (t.scene.get q.slot).retrigger = .restart
      then (.restarted, restart endRun k q.origin t b) else (.ignored, b) := by
  rw [decideRequest, if_neg (by simp [taken]), carries]
  simp only [Bool.and_eq_true, decide_eq_true_eq]

theorem decideRequest_of_admissible {k : Fin 6} (idle : b.carrier q.slot = none) (admits : admissible t b q.slot = some k) :
    decideRequest q t b = (.admitted, admitScene endRun k q.slot q.origin t b) := by
  rw [decideRequest, if_neg (by simp [taken]), idle, admits]

theorem decideRequest_of_inadmissible (idle : b.carrier q.slot = none) (blocked : admissible t b q.slot = none) :
    decideRequest q t b = waitOrNot q t b := by
  rw [decideRequest, if_neg (by simp [taken]), idle, blocked]

end

/-- Some resource that the slot's scene claims is owned by a record that does not give way. -/
def anyBlocks (t : Tables) (b : Bay) (slot : Fin 32) : Bool :=
  (t.scene.get slot).claims.resources.any (blocks b (t.scene.get slot).priority.val)

theorem anyBlocks_iff {t : Tables} {b : Bay} {slot : Fin 32} : anyBlocks t b slot = true ↔
    ∃ r k, (t.scene.get slot).claims.has r = true ∧ b.owner r = some k ∧
      ((t.scene.get slot).priority.val ≤ runPriority b k ∨ (b.run k).guard ≠ 0) := by
  simp only [anyBlocks, List.any_eq_true, mem_resources, blocks_iff, exists_and_left]

theorem admissible_of_first {t : Tables} {b : Bay} {slot : Fin 32} {k : Fin 6} (unblocked : anyBlocks t b slot = false)
    (free : (b.run k).state = .free) (first : ∀ j, j < k → (b.run j).state ≠ .free) : admissible t b slot = some k :=
  (if_neg (Bool.eq_false_iff.mp unblocked)).trans
    (find_first k (by simpa using free) fun j lower => by simpa using first j lower)

theorem admissible_none {t : Tables} {b : Bay} {slot : Fin 32}
    (h : anyBlocks t b slot = true ∨ ∀ k, (b.run k).state ≠ .free) : admissible t b slot = none := by
  rcases h with blocked | full
  · exact if_pos blocked
  · have none : freeRecord b = Option.none := by simp [freeRecord, full]
    show (if anyBlocks t b slot = true then Option.none else freeRecord b) = _
    rw [none, ite_self]

section
variable {q : Request} {t : Tables} {b : Bay}

theorem waitOrNot_of_discard (h : (t.scene.get q.slot).wait = .discard) : waitOrNot q t b = (.discarded, b) := by
  rw [waitOrNot, h]

variable (waits : (t.scene.get q.slot).wait = .queue)
include waits

theorem waitOrNot_of_queued (here : ∃ e ∈ b.claim.queue, e.slot = q.slot) : waitOrNot q t b = (.ignored, b) := by
  rw [waitOrNot, waits]
  exact if_pos ((queued_isSome_iff b q.slot).mpr here)

variable (absent : ∀ e ∈ b.claim.queue, e.slot ≠ q.slot)
include absent

theorem waitOrNot_of_full (full : 8 ≤ b.claim.queue.length) :
    waitOrNot q t b = (.discarded, { b with latched := b.latched ||| 0x200 }) := by
  rw [waitOrNot, waits]
  exact (if_neg (by rw [queued_none_iff.mpr absent]; exact Bool.false_ne_true)).trans (if_pos full)

theorem waitOrNot_of_room (room : b.claim.queue.length < 8) {new : QueueEntry}
    (hnew : new = ⟨q.slot, q.origin, (t.scene.get q.slot).priority.val, b.time,
      deadline b.time (t.scene.get q.slot).waitLimit.val⟩) :
    ∃ front back, b.claim.queue = front ++ back ∧ (∀ e ∈ front, (t.scene.get q.slot).priority.val ≤ e.priority) ∧
      (∀ e, back.head? = some e → e.priority < (t.scene.get q.slot).priority.val) ∧
      waitOrNot q t b = (.queued, { b with claim := { b.claim with queue := front ++ new :: back } }) := by
  obtain ⟨front, back, split, le, lt, placed⟩ := insertEntry_place new b.claim.queue
  have joins : waitOrNot q t b = (.queued, b.setQueue (insertEntry new b.claim.queue)) := by
    rw [waitOrNot, waits, hnew]
    exact (if_neg (by rw [queued_none_iff.mpr absent]; exact Bool.false_ne_true)).trans (if_neg (Nat.not_le.mpr room))
  rw [hnew] at le lt
  exact ⟨front, back, split, le, lt, by rw [joins, placed]; rfl⟩

end

/-! ### The records that an admission displaces (R111, R124) -/

theorem suspend_rest (k : Fin 6) (b : Bay) : suspend k b = { b with
    voice := { b.voice with voice := (suspend k b).voice.voice }
    scene := { b.scene with run := (b.updRun k fun r => { r with state := .suspended }).scene.run } } := by
  refine each_keeps (P := fun c : Bay => c = { b with
    voice := { b.voice with voice := c.voice.voice }
    scene := { b.scene with run := (b.updRun k fun r => { r with state := .suspended }).scene.run } }) (fun v c h => ?_) _ rfl
  split
  · exact congrArg (fun x : Bay => { x with voice := { x.voice with voice := (voicePause v c).voice.voice } }) h
  · exact h

/-- A bay where records have been suspended and claims pushed on their stacks. -/
def Displaces (b c : Bay) : Prop := c = { b with
  voice := { b.voice with voice := c.voice.voice }, scene := { b.scene with run := c.scene.run }
  claim := { b.claim with claim := c.claim.claim } }

theorem displaces_preempt {b c : Bay} (h : Displaces b c) (r : Fin 22) : Displaces b (preempt r c) := by
  unfold preempt
  split
  · exact h
  · next j _ =>
    have pushed : Displaces b (c.updClaim r fun x => { x with stack := j :: x.stack }) := by
      unfold Displaces Bay.updClaim
      rw [h]
    generalize (c.updClaim r fun x => { x with stack := j :: x.stack }) = d at pushed ⊢
    show Displaces b (if (d.run j).state = .running then suspend j d else d)
    split
    · unfold Displaces
      rw [suspend_rest j d, pushed]
    · exact pushed

theorem preempt_voiceRec (r : Fin 22) (b : Bay) (v : Fin 6) : (preempt r b).voiceRec v =
    if (∃ j, (b.voiceRec v).owner = some j ∧ (b.run j).state = .running ∧ b.owner r = some j) ∧
        (b.voiceRec v).state.active = true
      then { b.voiceRec v with state := .paused, refill := none, underrun := false } else b.voiceRec v := by
  unfold preempt
  split
  · next none => rw [if_neg (by simp [none])]
  · next j own =>
    have pushed (d : Bay) (voices : d.voiceRec v = b.voiceRec v) (record : d.run j = b.run j) :
        (if (d.run j).state = .running then suspend j d else d).voiceRec v =
          if (∃ j, (b.voiceRec v).owner = some j ∧ (b.run j).state = .running ∧ some j = b.owner r) ∧
              (b.voiceRec v).state.active = true
            then { b.voiceRec v with state := .paused, refill := none, underrun := false } else b.voiceRec v := by
      rw [own, record]
      by_cases runs : (b.run j).state = .running
      · have before : (d.updRun j fun r => { r with state := .suspended }).voiceRec v = b.voiceRec v := voices
        rw [if_pos runs, suspend, pauseVoices_voiceRec, before]
        refine if_congr ?_ rfl rfl
        simp only [Bool.and_eq_true, decide_eq_true_eq, Option.some.injEq]
        exact and_congr_left fun _ => ⟨fun o => ⟨j, o, runs, rfl⟩, fun ⟨_, o, _, e⟩ => e ▸ o⟩
      · rw [if_neg runs, voices, if_neg]
        rintro ⟨⟨i, -, running, same⟩, -⟩
        exact runs (Option.some.inj same ▸ running)
    simp only [eq_comm (b := b.owner r)] at pushed
    exact pushed _ rfl rfl

theorem eachOf_preempt_voiceRec (v : Fin 6) : ∀ (l : List (Fin 22)) (b : Bay), (eachOf l preempt b).voiceRec v =
    if (∃ j, (b.voiceRec v).owner = some j ∧ (b.run j).state = .running ∧ ∃ r ∈ l, b.owner r = some j) ∧
        (b.voiceRec v).state.active = true
      then { b.voiceRec v with state := .paused, refill := none, underrun := false } else b.voiceRec v
  | [], b => by simp
  | r :: l, b => by
    rw [eachOf_cons, eachOf_preempt_voiceRec v l]
    simp only [preempt_owner, preempt_run, List.exists_mem_cons_iff]
    have turn := preempt_voiceRec r b v
    by_cases active : (b.voiceRec v).state.active = true
    · by_cases first : ∃ j, (b.voiceRec v).owner = some j ∧ (b.run j).state = .running ∧ b.owner r = some j
      · have now : ∃ j, (b.voiceRec v).owner = some j ∧ (b.run j).state = .running ∧
            (b.owner r = some j ∨ ∃ r ∈ l, b.owner r = some j) := first.imp fun j h => ⟨h.1, h.2.1, .inl h.2.2⟩
        rw [turn.trans (if_pos ⟨first, active⟩)]
        exact (if_neg fun h => Bool.false_ne_true h.2).trans (if_pos ⟨now, active⟩).symm
      · rw [turn.trans (if_neg fun h => first h.1)]
        refine if_congr (and_congr_left fun _ => exists_congr fun j => and_congr_right fun own => ?_) rfl rfl
        have apart (runs : (b.run j).state = .running) : b.owner r ≠ some j := fun here => first ⟨j, own, runs, here⟩
        by_cases runs : (b.run j).state = .running
        · simp [runs, apart runs]
        · simp [runs]
    · rw [turn.trans (if_neg fun h => active h.2)]
      exact (if_neg fun h => active h.2).trans (if_neg fun h => active h.2).symm

/-! ### The resources that an admission takes (R36, R94, R124) -/

/-- A fixture given to record `k`. -/
def FixtureRun.given (k : Fin 6) (t : Tables) (b : Bay) (x : FixtureRun) : FixtureRun :=
  { x with
    scene := x.scene.mapC (fun comp l => holdLevel t b comp (some (.run k)) l), intensity := 255, highlight := 0 }

theorem SameClock.fixtureGiven {b c : Bay} (h : SameClock b c) (k : Fin 6) (t : Tables) (x : FixtureRun) :
    x.given k t c = x.given k t b := by
  simp only [FixtureRun.given, h.holdLevel]

theorem giveFixture_eq (k : Fin 6) (t : Tables) (i : Fin 16) (b : Bay) :
    giveFixture k t i b = b.updFixture i (FixtureRun.given k t b) := b.updFixture_updFixture i _ _

/-- A bay where resources have been taken. -/
def Takes (b c : Bay) : Prop := c = { b with
  fixture := { b.fixture with run := c.fixture.run }, axis := { b.axis with axis := c.axis.axis }
  claim := { b.claim with claim := c.claim.claim } }

theorem takes_take {b c : Bay} (h : Takes b c) (k : Fin 6) (t : Tables) (r : Fin 22) : Takes b (take k t r c) := by
  have taken : Takes b (c.updClaim r fun x => { x with owner := some k }) := by
    unfold Takes Bay.updClaim
    rw [h]
  unfold take
  generalize (c.updClaim r fun x => { x with owner := some k }) = d at taken ⊢
  show Takes b (match resource r with
    | .fixture i => giveFixture k t i d
    | .lane _ => d
    | .axis a => giveAxis k t a d)
  cases resource r with
  | fixture i =>
    show Takes b (giveFixture k t i d)
    rw [giveFixture_eq]
    unfold Takes Bay.updFixture
    rw [taken]
  | lane z => exact taken
  | axis a =>
    show Takes b (d.updAxis a _)
    unfold Takes Bay.updAxis
    rw [taken]

theorem Takes.clock {b c : Bay} (h : Takes b c) : SameClock b c := SameClock.of_rest (by rw [h]) (by rw [h])

theorem take_of_fixture (k : Fin 6) (t : Tables) (i : Fin 16) (b : Bay) : take k t (fixtureRes i) b =
    giveFixture k t i (b.updClaim (fixtureRes i) fun c => { c with owner := some k }) := by
  unfold take
  rw [resource_fixtureRes]

theorem take_of_axis (k : Fin 6) (t : Tables) (a : Fin 4) (b : Bay) : take k t (axisRes a) b =
    giveAxis k t a (b.updClaim (axisRes a) fun c => { c with owner := some k }) := by
  unfold take
  rw [resource_axisRes]

theorem take_fixtureRec_of_ne {k : Fin 6} {t : Tables} {r : Fin 22} {i : Fin 16} (ne : r ≠ fixtureRes i) (b : Bay) :
    (take k t r b).fixtureRec i = b.fixtureRec i := by
  match kind : resource r with
  | .fixture j =>
    obtain rfl := eq_of_resource_fixture r j kind
    rw [take_of_fixture, giveFixture_eq, Bay.updFixture_fixtureRec, if_neg fun same => ne (congrArg fixtureRes same)]
    rfl
  | .lane z => simp only [take, kind]; rfl
  | .axis a => simp only [take, kind]; rfl

theorem take_axisRec_of_ne {k : Fin 6} {t : Tables} {r : Fin 22} {a : Fin 4} (ne : r ≠ axisRes a) (b : Bay) :
    (take k t r b).axisRec a = b.axisRec a := by
  match kind : resource r with
  | .axis j =>
    obtain rfl := eq_of_resource_axis r j kind
    rw [take_of_axis]
    exact (Bay.updAxis_axisRec _ j a _).trans (if_neg fun same => ne (congrArg axisRes same))
  | .lane z => simp only [take, kind]; rfl
  | .fixture i => simp only [take, kind]; rfl

theorem eachOf_take_rest (k : Fin 6) (t : Tables) (l : List (Fin 22)) (b : Bay) : Takes b (eachOf l (take k t) b) :=
  eachOf_keeps (P := Takes b) (fun r _ h => takes_take h k t r) l b rfl

theorem eachOf_take_fixtureRec (k : Fin 6) (t : Tables) {l : List (Fin 22)} (nodup : l.Nodup) (b : Bay) (i : Fin 16) :
    (eachOf l (take k t) b).fixtureRec i =
      if fixtureRes i ∈ l then (b.fixtureRec i).given k t b else b.fixtureRec i := by
  refine eachOf_at (f := take k t) (g := fun b : Bay => b.fixtureRec i) (Takes b) (fixtureRes i)
    (FixtureRun.given k t b) (fun r _ h => takes_take h k t r) (fun r c ne _ => take_fixtureRec_of_ne ne c)
    (fun c h => ?_) l b nodup rfl
  have clock : SameClock b (c.updClaim (fixtureRes i) fun x => { x with owner := some k }) :=
    h.clock.trans (SameClock.of_rest rfl rfl)
  rw [take_of_fixture, giveFixture_eq, Bay.updFixture_fixtureRec, if_pos rfl, clock.fixtureGiven]
  rfl

theorem eachOf_take_axisRec (k : Fin 6) (t : Tables) {l : List (Fin 22)} (nodup : l.Nodup) (b : Bay) (a : Fin 4) :
    (eachOf l (take k t) b).axisRec a =
      if axisRes a ∈ l then (b.axisRec a).stopped t b (.run k) else b.axisRec a := by
  refine eachOf_at (f := take k t) (g := fun b : Bay => b.axisRec a) (Takes b) (axisRes a)
    (Axis.stopped t b (.run k)) (fun r _ h => takes_take h k t r) (fun r c ne _ => take_axisRec_of_ne ne c)
    (fun c h => ?_) l b nodup rfl
  have clock : SameClock b (c.updClaim (axisRes a) fun x => { x with owner := some k }) :=
    h.clock.trans (SameClock.of_rest rfl rfl)
  rw [take_of_axis]
  refine (Bay.updAxis_axisRec _ a a _).trans ((if_pos rfl).trans ?_)
  exact clock.axisStopped t (.run k) (c.axisRec a)

theorem has_fixtureRes (c : ClaimSet) (i : Fin 16) : c.has (fixtureRes i) = c.fixtures.getLsbD i.val := by
  rw [ClaimSet.has, resource_fixtureRes]

theorem has_axisRes (c : ClaimSet) (a : Fin 4) : c.has (axisRes a) = c.axes.getLsbD a.val := by
  rw [ClaimSet.has, resource_axisRes]

/-! ### Records that lose HELD, and the queued entry (R109, R124, R132) -/

/-- The turn of record `j` when records lose HELD. -/
def dropHeldOf (j : Fin 6) (b : Bay) : Bay :=
  if (b.run j).state = .suspended ∧ (b.run j).held = true ∧ ownsHeld b j = false
  then b.updRun j (fun r => { r with held := false }) else b

theorem dropHeld_eq (b : Bay) : dropHeld b = eachOf (List.finRange 6) dropHeldOf b := by
  unfold dropHeld each
  congr 1
  funext j b
  simp only [dropHeldOf, Bool.and_eq_true, decide_eq_true_eq, Bool.not_eq_true', and_assoc]

theorem dropHeld_rest (b : Bay) : dropHeld b = { b with scene := { b.scene with run := (dropHeld b).scene.run } } := by
  rw [dropHeld_eq]
  refine eachOf_keeps (P := fun c : Bay => c = { b with scene := { b.scene with run := c.scene.run } })
    (fun j c h => ?_) (List.finRange 6) b rfl
  show dropHeldOf j c = _
  unfold dropHeldOf
  split
  · exact congrArg (fun x : Bay => x.updRun j fun r => { r with held := false }) h
  · exact h

theorem dropHeld_run (b : Bay) (j : Fin 6) : (dropHeld b).run j =
    if (b.run j).state = .suspended ∧ (b.run j).held = true ∧ ownsHeld b j = false
      then { b.run j with held := false } else b.run j := by
  rw [dropHeld_eq]
  refine (eachOf_at (f := dropHeldOf) (g := fun b : Bay => b.run j) (fun c => ∀ i, ownsHeld c i = ownsHeld b i) j
    (fun r => if r.state = .suspended ∧ r.held = true ∧ ownsHeld b j = false then { r with held := false } else r)
    (fun i c h => ?_) (fun i c ne _ => ?_) (fun c h => ?_) (List.finRange 6) b (List.nodup_finRange 6)
    (fun _ => rfl)).trans (if_pos (List.mem_finRange j))
  · unfold dropHeldOf
    split
    · exact h
    · exact h
  · unfold dropHeldOf
    split
    · exact c.run_updRun_of_ne _ ne
    · rfl
  · simp only [dropHeldOf, h j]
    split
    · exact c.run_updRun_same j _
    · rfl

theorem withdraw_triggerRec (slot : Fin 32) (b : Bay) (n : Fin 12) : (withdraw slot b).triggerRec n =
    if (b.triggerRec n).state = .waiting ∧ (queued b slot).map (·.origin) = some (.trigger n)
      then { b.triggerRec n with state := .armed } else b.triggerRec n := by
  cases found : queued b slot with
  | none => simp [withdraw, found]
  | some e =>
    have withdrawn : withdraw slot b = reportSecond e.origin false (unqueue slot b) := by rw [withdraw, found]
    rw [withdrawn, reportSecond_false_triggerRec]
    refine if_congr ?_ rfl rfl
    rw [Option.map_some, Option.some.injEq]
    exact and_comm

theorem withdraw_rest (slot : Fin 32) (b : Bay) : withdraw slot b = { b with
    claim := { b.claim with queue := b.claim.queue.filter (fun e => e.slot ≠ slot) }
    trigger := { b.trigger with trigger := (withdraw slot b).trigger.trigger } } := by
  cases found : queued b slot with
  | none =>
    have same : withdraw slot b = b := by rw [withdraw, found]
    have queue := (withdraw_parts slot b).2.2
    rw [same] at queue ⊢
    rw [← queue]
  | some e =>
    have withdrawn : withdraw slot b = reportSecond e.origin false (unqueue slot b) := by rw [withdraw, found]
    have only : TriggersOnly (unqueue slot b) (withdraw slot b) := by
      rw [withdrawn]
      exact triggersOnly_reportSecond (show TriggersOnly (unqueue slot b) (unqueue slot b) from rfl) e.origin false
    rw [unqueue_eq] at only
    exact only

/-! ### A request that is admitted (R124) -/

/-- Record `j` is suspended by the admission of slot `slot`. -/
abbrev loses (t : Tables) (b : Bay) (slot : Fin 32) (j : Fin 6) : Prop :=
  (b.run j).state = .running ∧ ∃ r, (t.scene.get slot).claims.has r = true ∧ b.owner r = some j

/-- The bay of an admission before the new record is examined. -/
def admitted (k : Fin 6) (slot : Fin 32) (origin : Origin) (t : Tables) (b : Bay) : Bay :=
  withdraw slot (dropHeld (eachOf (t.scene.get slot).claims.resources (take k t)
    (fillRun k slot origin t (eachOf (t.scene.get slot).claims.resources preempt b))))

/-- What an admission does before the new record is examined. -/
structure Admits (k : Fin 6) (slot : Fin 32) (origin : Origin) (t : Tables) (b c : Bay) : Prop where
  rest : c = { b with
    fixture := { b.fixture with run := c.fixture.run }, axis := { b.axis with axis := c.axis.axis }
    voice := { b.voice with voice := c.voice.voice }, scene := { b.scene with run := c.scene.run }
    claim := { b.claim with claim := c.claim.claim, queue := b.claim.queue.filter (fun e => e.slot ≠ slot) }
    trigger := { b.trigger with trigger := c.trigger.trigger } }
  claim : ∀ r, c.claim.claim.get r = if (t.scene.get slot).claims.has r = true then
    ⟨some k, (b.owner r).toList ++ (b.claim.claim.get r).stack⟩ else b.claim.claim.get r
  run : c.run k =
    { state := .running
      held := decide (∃ a : Fin 4, (t.scene.get slot).claims.axes.getLsbD a.val = true ∧ (b.axisRec a).state = .held)
      slot := some slot, snap := some (t.scene.get slot).snapshot, origin := some origin, clock := 0, gateDelay := 0
      gate := none, next := 0, holdTime := 0, guard := 0, look := some Look.blank }
  other : ∀ j, j ≠ k → ∀ now, (loses t b slot j → now = .suspended) → (¬ loses t b slot j → now = (b.run j).state) →
    c.run j = { b.run j with
      state := now
      held := (b.run j).held && decide (now ≠ .suspended ∨ ∃ a : Fin 4,
        (t.scene.get slot).claims.axes.getLsbD a.val = false ∧ b.owner (axisRes a) = some j ∧
          (b.axisRec a).state = .held) }
  fixture : ∀ i : Fin 16, c.fixtureRec i =
    if (t.scene.get slot).claims.fixtures.getLsbD i.val = true then (b.fixtureRec i).given k t c else b.fixtureRec i
  axis : ∀ a : Fin 4, c.axisRec a =
    if (t.scene.get slot).claims.axes.getLsbD a.val = true then (b.axisRec a).stopped t c (.run k) else b.axisRec a
  voice : ∀ v, c.voiceRec v =
    if (∃ j, (b.voiceRec v).owner = some j ∧ loses t b slot j) ∧ (b.voiceRec v).state.active = true
      then { b.voiceRec v with state := .paused, refill := none, underrun := false } else b.voiceRec v
  trigger : ∀ n, c.triggerRec n =
    if (b.triggerRec n).state = .waiting ∧ (queued b slot).map (·.origin) = some (.trigger n)
      then { b.triggerRec n with state := .armed } else b.triggerRec n

theorem fillRun_run (k j : Fin 6) (slot : Fin 32) (origin : Origin) (t : Tables) (b : Bay) :
    (fillRun k slot origin t b).run j = if k = j then
      { state := .running
        held := decide (∃ a : Fin 4, (t.scene.get slot).claims.axes.getLsbD a.val = true ∧ (b.axisRec a).state = .held)
        slot := some slot, snap := some (t.scene.get slot).snapshot, origin := some origin, clock := 0, gateDelay := 0
        gate := none, next := 0, holdTime := 0, guard := 0, look := some Look.blank }
      else b.run j := by
  have held : ((members (t.scene.get slot).claims.axes).any fun a => (b.axisRec a).state = .held) =
      decide (∃ a : Fin 4, (t.scene.get slot).claims.axes.getLsbD a.val = true ∧ (b.axisRec a).state = .held) := by
    rw [Bool.eq_iff_iff]
    simp only [List.any_eq_true, mem_members, decide_eq_true_eq]
  rw [← held]
  exact Bay.run_updRun b k j _

/-- A record of state `now` after records have lost HELD. -/
theorem held_of_dropped {r : RunRec} {now : RunState} {owns : Bool} {Q : Prop} [Decidable Q] (h : owns = true ↔ Q) :
    (if now = .suspended ∧ r.held = true ∧ owns = false then { r with state := now, held := false }
      else { r with state := now }) =
    { r with state := now, held := r.held && decide (now ≠ .suspended ∨ Q) } := by
  by_cases drops : now = .suspended ∧ r.held = true ∧ owns = false
  · obtain ⟨suspended, held, none⟩ := drops
    have no : ¬ Q := fun q => Bool.false_ne_true (none.symm.trans (h.mpr q))
    simp [suspended, held, none, no]
  · rw [if_neg drops]
    refine congrArg (fun held => { r with state := now, held := held }) ?_
    cases held : r.held with
    | false => rfl
    | true =>
      have stays : now ≠ .suspended ∨ Q := by
        by_cases suspended : now = .suspended
        · exact .inr (h.mp (Bool.not_eq_false _ ▸ fun none => drops ⟨suspended, held, none⟩))
        · exact .inl suspended
      simp only [stays, decide_true, Bool.and_self]

theorem admitted_admits (k : Fin 6) (slot : Fin 32) (origin : Origin) (t : Tables) (b : Bay) :
    Admits k slot origin t b (admitted k slot origin t b) := by
  obtain ⟨claims, queue, -⟩ := admitted_parts k slot origin t b _ rfl
  have nodup := nodup_resources (t.scene.get slot).claims
  have displaced : Displaces b (eachOf (t.scene.get slot).claims.resources preempt b) :=
    eachOf_keeps (P := Displaces b) (fun r _ h => displaces_preempt h r) _ b rfl
  have voices := fun v => eachOf_preempt_voiceRec v (t.scene.get slot).claims.resources b
  have records := fun j => eachOf_preempt_run j (t.scene.get slot).claims.resources b
  rw [admitted]
  simp only [mem_resources] at voices records
  generalize eachOf (t.scene.get slot).claims.resources preempt b = b₁ at *
  have filled := fun j => fillRun_run k j slot origin t b₁
  have fills : fillRun k slot origin t b₁ =
    { b₁ with scene := { b₁.scene with run := (fillRun k slot origin t b₁).scene.run } } := rfl
  generalize fillRun k slot origin t b₁ = b₂ at *
  have taken := eachOf_take_rest k t (t.scene.get slot).claims.resources b₂
  have fixture := eachOf_take_fixtureRec k t nodup b₂
  have axis := eachOf_take_axisRec k t nodup b₂
  generalize eachOf (t.scene.get slot).claims.resources (take k t) b₂ = b₃ at *
  have dropped := dropHeld_rest b₃
  have unheld := dropHeld_run b₃
  generalize dropHeld b₃ = b₄ at *
  have withdrawn := withdraw_rest slot b₄
  have trigger := withdraw_triggerRec slot b₄
  generalize withdraw slot b₄ = c at *
  have run₄ (j : Fin 6) : c.run j = b₄.run j := by rw [withdrawn]; rfl
  have run₃ (j : Fin 6) : b₃.run j = b₂.run j := by rw [taken]; rfl
  have axes (a : Fin 4) : b₂.axisRec a = b.axisRec a := by rw [fills, displaced]; rfl
  have clock₄ : SameClock b₃ b₄ := by
    refine ⟨by rw [dropped], fun j => ?_, fun j => ?_⟩
    · rw [unheld]; split <;> rfl
    · rw [unheld]; split <;> rfl
  have clock : SameClock b₂ c := taken.clock.trans (clock₄.trans (SameClock.of_rest (by rw [withdrawn]) (by rw [withdrawn])))
  have state (a : Fin 4) : (b₃.axisRec a).state = (b.axisRec a).state := by
    rw [axis, ← axes]
    split <;> rfl
  have owner (r : Fin 22) : b₃.owner r = if (t.scene.get slot).claims.has r then some k else b.owner r := by
    rw [Bay.owner, claims]
    split <;> rfl
  refine ⟨?_, fun r => ?_, ?_, fun j ne now lost kept => ?_, fun i => ?_, fun a => ?_, fun v => ?_, fun n => ?_⟩
  · rw [withdrawn, dropped, taken, fills, displaced]
  · rw [withdrawn, dropped]
    exact claims r
  · rw [run₄, unheld, run₃, filled, if_pos rfl, if_neg fun h => nomatch h.1]
    have start (a : Fin 4) : b₁.axisRec a = b.axisRec a := by rw [displaced]; rfl
    simp only [start]
  · have record : b₃.run j = { b.run j with state := now } := by
      rw [run₃, filled, if_neg ne.symm, records]
      split
      · next h => rw [lost h]
      · next h => rw [kept h]
    have owns : ownsHeld b₃ j = true ↔ ∃ a : Fin 4, (t.scene.get slot).claims.axes.getLsbD a.val = false ∧
        b.owner (axisRes a) = some j ∧ (b.axisRec a).state = .held := by
      rw [ownsHeld_iff]
      refine exists_congr fun a => ?_
      rw [owner, state, has_axisRes, ← and_assoc]
      refine and_congr_left fun _ => ?_
      cases (t.scene.get slot).claims.axes.getLsbD a.val with
      | true => simp [ne.symm]
      | false => simp
    rw [run₄, unheld, record]
    exact held_of_dropped owns
  · have same : c.fixtureRec i = b₃.fixtureRec i := by rw [withdrawn, dropped]; rfl
    have before : b₂.fixtureRec i = b.fixtureRec i := by rw [fills, displaced]; rfl
    rw [same, fixture, before, clock.fixtureGiven]
    simp only [mem_resources, has_fixtureRes]
  · have same : c.axisRec a = b₃.axisRec a := by rw [withdrawn, dropped]; rfl
    rw [same, axis, axes, clock.axisStopped]
    simp only [mem_resources, has_axisRes]
  · have same : c.voiceRec v = b₁.voiceRec v := by rw [withdrawn, dropped, taken, fills]; rfl
    rw [same, voices]
  · have same : b₄.triggerRec n = b.triggerRec n := by rw [dropped, taken, fills, displaced]; rfl
    have waiting : queued b₄ slot = queued b slot := by
      rw [queued, queued, dropped]
      exact congrArg _ queue
    rw [trigger, same, waiting]

theorem admitScene_eq (endK : EndRun) (k : Fin 6) (slot : Fin 32) (origin : Origin) (t : Tables) (b : Bay) : admitScene endK k slot origin t b =
      duckExamine t (if ((admitted k slot origin t b).run k).held = true then admitted k slot origin t b
        else examine endK false k t (admitted k slot origin t b)) := by
  have h := admitted_admits k slot origin t b
  have fires := examineIfFires_openGate (endK := endK) (own := false) (k := k) (t := t) (b := admitted k slot origin t b)
    (by rw [h.run]) (by rw [h.run])
  rw [← fires]
  rfl

/-! ### The new record's examination (R104) -/

theorem examine_of_early {endK : EndRun} {own : Bool} {k : Fin 6} {t : Tables} {c : Bay} {x : Snapshot}
    (snap : (c.run k).snap = some x) (start : (c.run k).clock = 0) (long : 0 < x.duration) :
    examine endK own k t c = examineSteps own k t 256 c := by
  obtain ⟨-, -, -, -, -, -, clock, -, snap', -⟩ := examineSteps_run own k t 256 c
  have early : ((examineSteps own k t 256 c).run k).stepTime < x.duration := by
    rw [RunRec.stepTime, clock, start]
    omega
  rw [examine]
  simp only [snap'.trans snap, Bool.and_eq_true, decide_eq_true_eq]
  exact if_neg fun due => absurd due.2 (Nat.not_le.mpr early)

/-- What an admission with a duration leaves. -/
structure RunsOn (k : Fin 6) (c u : Bay) : Prop where
  claim : u.claim.claim = c.claim.claim
  queue : u.claim.queue = c.claim.queue
  other : ∀ j, j ≠ k → u.run j = c.run j
  state : (u.run k).state = (c.run k).state
  slot : (u.run k).slot = (c.run k).slot
  origin : (u.run k).origin = (c.run k).origin
  clock : (u.run k).clock = (c.run k).clock
  snap : (u.run k).snap = (c.run k).snap

theorem admitScene_runsOn {endK : EndRun} {k : Fin 6} {slot : Fin 32} (origin : Origin) {t : Tables} (b : Bay)
    (long : 0 < (t.scene.get slot).duration.val) :
    RunsOn k (admitted k slot origin t b) (admitScene endK k slot origin t b) := by
  have admits := admitted_admits k slot origin t b
  rw [admitScene_eq]
  generalize admitted k slot origin t b = c at *
  rw [examine_of_early (by rw [admits.run]) (by rw [admits.run]) long]
  have duck (d : Bay) (h : RunsOn k c d) : RunsOn k c (duckExamine t d) := by
    obtain ⟨claim, scene, -⟩ := duckExamine_parts t d
    have record (j : Fin 6) : (duckExamine t d).run j = d.run j := by rw [Bay.run, scene, ← Bay.run]
    exact ⟨by rw [claim, h.claim], by rw [claim, h.queue], fun j ne => by rw [record, h.other j ne],
      by rw [record, h.state], by rw [record, h.slot], by rw [record, h.origin], by rw [record, h.clock],
      by rw [record, h.snap]⟩
  refine duck _ ?_
  split
  · exact ⟨rfl, rfl, fun _ _ => rfl, rfl, rfl, rfl, rfl, rfl⟩
  · obtain ⟨claim, queue, other, state, slot', origin', clock, -, snap, -⟩ := examineSteps_run false k t 256 c
    exact ⟨claim, queue, other, state, slot', origin', clock, snap⟩

/-! ### A record that restarts (R39, R96, R115) -/

/-- A fixture whose scene lanes stand still. -/
def FixtureRun.still (k : Fin 6) (t : Tables) (b : Bay) (x : FixtureRun) : FixtureRun :=
  { x with scene := x.scene.mapC (fun comp l => holdLevel t b comp (some (.run k)) l) }

theorem SameClock.fixtureStill {b c : Bay} (h : SameClock b c) (k : Fin 6) (t : Tables) (x : FixtureRun) :
    x.still k t c = x.still k t b := by
  simp only [FixtureRun.still, h.holdLevel]

theorem eachOf_restartFixture (k : Fin 6) (t : Tables) (b : Bay) (l : List (Fin 16)) (nodup : l.Nodup) :
    eachOf l (restartFixture k t) b =
      { b with fixture := { b.fixture with run := (eachOf l (restartFixture k t) b).fixture.run } } ∧
    ∀ i, (eachOf l (restartFixture k t) b).fixtureRec i =
      if i ∈ l then (b.fixtureRec i).still k t b else b.fixtureRec i :=
  eachOf_updFixture (restartFixture k t) (fun _ b => FixtureRun.still k t b)
    (fun _ b x => funext fun y => (SameClock.of_rest (b' := { b with fixture := x }) rfl rfl).fixtureStill k t y)
    (fun _ _ => rfl) l nodup b

theorem eachOf_restartAxis (k : Fin 6) (t : Tables) (b : Bay) (l : List (Fin 4)) (nodup : l.Nodup) :
    eachOf l (restartAxis k t) b = { b with axis := { b.axis with axis := (eachOf l (restartAxis k t) b).axis.axis } } ∧
    ∀ a, (eachOf l (restartAxis k t) b).axisRec a =
      if a ∈ l then (b.axisRec a).stopped t b (.run k) else b.axisRec a :=
  eachOf_updAxis (restartAxis k t) (fun _ b => Axis.stopped t b (.run k))
    (fun _ b x => funext fun y => (SameClock.of_rest (b' := { b with axis := x }) rfl rfl).axisStopped t (.run k) y)
    (fun _ _ => rfl) l nodup b

/-- The voices that a restart leaves depend on the voices alone (R59). -/
theorem idleVoices_congr (k : Fin 6) (b c : Bay) (same : c.voice = b.voice) :
    idleVoices k c = { c with voice := (idleVoices k b).voice } := by
  unfold idleVoices eachOwnedVoice each
  generalize List.finRange 6 = l
  induction l generalizing b c with
  | nil =>
    show c = { c with voice := b.voice }
    rw [← same]
  | cons v l ih =>
    have record : c.voiceRec v = b.voiceRec v := by rw [Bay.voiceRec, same, ← Bay.voiceRec]
    rw [eachOf_cons, eachOf_cons, record]
    split
    · refine (ih (voiceIdle v b) (voiceIdle v c) ?_).trans ?_
      · simp only [voiceIdle, Bay.updVoice, same]
      · rfl
    · exact ih b c same

/-- What the restart of record `k` does before the record is examined. -/
structure Restarts (k : Fin 6) (slot : Fin 32) (origin : Origin) (t : Tables) (b c : Bay) : Prop where
  rest : c = { b with
    fixture := { b.fixture with run := c.fixture.run }, axis := { b.axis with axis := c.axis.axis }
    voice := (idleVoices k b).voice, trigger := { b.trigger with trigger := c.trigger.trigger }
    scene := {
      run := c.scene.run, status := b.scene.status.upd slot (fun y => { y with lastEnd := .restartTruncated }) } }
  run : ∀ j, c.run j = if j = k
    then { b.run k with clock := 0, gateDelay := 0, next := 0, gate := none, origin := some origin } else b.run j
  fixture : ∀ i, c.fixtureRec i =
    if b.owner (fixtureRes i) = some k then (b.fixtureRec i).still k t b else b.fixtureRec i
  axis : ∀ a, c.axisRec a = if b.owner (axisRes a) = some k then (b.axisRec a).stopped t b (.run k) else b.axisRec a
  trigger : ∀ n, c.triggerRec n =
    if (b.run k).origin = some (.trigger n) ∧ origin ≠ .trigger n ∧ (b.triggerRec n).state = .busy
      then (b.triggerRec n).rest (t.trigger.get n).lockout.val else b.triggerRec n

/-- The trigger of a run's old origin, when a request of another origin restarts it (R115). -/
theorem retold_triggerRec (old : Option Origin) (origin : Origin) (t : Tables) (b : Bay) (n : Fin 12) :
    (if old = some origin then b else tellTrigger old t b).triggerRec n =
      if old = some (.trigger n) ∧ origin ≠ .trigger n ∧ (b.triggerRec n).state = .busy
        then (b.triggerRec n).rest (t.trigger.get n).lockout.val else b.triggerRec n := by
  by_cases same : old = some origin
  · rw [if_pos same, if_neg]
    rintro ⟨here, other, -⟩
    exact other (Option.some.inj (same.symm.trans here))
  · rw [if_neg same, tellTrigger_triggerRec]
    refine if_congr (and_congr_right fun here => ?_) rfl rfl
    have other : origin ≠ .trigger n := fun eq => same (by rw [here, eq])
    simp [other]

/-- The lanes of record `k` stand still, and its voices are silent. -/
def standStill (k : Fin 6) (t : Tables) (b : Bay) : Bay :=
  idleVoices k (eachOf ((eachOf (b.ownedFixtures k) (restartFixture k t) b).ownedAxes k) (restartAxis k t)
    (eachOf (b.ownedFixtures k) (restartFixture k t) b))

/-- What `standStill` does. -/
structure StandsStill (k : Fin 6) (t : Tables) (b c : Bay) : Prop where
  rest : c = { b with
    fixture := { b.fixture with run := c.fixture.run }, axis := { b.axis with axis := c.axis.axis }
    voice := (idleVoices k b).voice }
  fixture : ∀ i, c.fixtureRec i =
    if b.owner (fixtureRes i) = some k then (b.fixtureRec i).still k t b else b.fixtureRec i
  axis : ∀ a, c.axisRec a = if b.owner (axisRes a) = some k then (b.axisRec a).stopped t b (.run k) else b.axisRec a

theorem standStill_parts (k : Fin 6) (t : Tables) (b : Bay) : StandsStill k t b (standStill k t b) := by
  obtain ⟨lights, fixture⟩ := eachOf_restartFixture k t b (b.ownedFixtures k) (ownedFixtures_nodup b k)
  rw [standStill]
  generalize eachOf (b.ownedFixtures k) (restartFixture k t) b = c at *
  have clock : SameClock b c := SameClock.of_rest (by rw [lights]) (by rw [lights])
  obtain ⟨axes, axis⟩ := eachOf_restartAxis k t c (c.ownedAxes k) (ownedAxes_nodup c k)
  generalize eachOf (c.ownedAxes k) (restartAxis k t) c = d at *
  have voices := idleVoices_congr k b d (by rw [axes, lights])
  generalize idleVoices k d = e at *
  generalize silent : (idleVoices k b).voice = unit at *
  refine ⟨?_, fun i => ?_, fun a => ?_⟩
  · rw [voices, axes, lights, silent]
  · have same : e.fixtureRec i = c.fixtureRec i := by rw [voices, axes]; rfl
    rw [same, fixture]
    simp only [mem_ownedFixtures]
  · have same : e.axisRec a = d.axisRec a := by rw [voices]; rfl
    have before : c.axisRec a = b.axisRec a := by rw [lights]; rfl
    have owner : c.owner (axisRes a) = b.owner (axisRes a) := by rw [lights]; rfl
    rw [same, axis, before, clock.axisStopped]
    simp only [mem_ownedAxes, owner]

/-- The record of a run that starts over at a request of an origin. -/
def RunRec.startedOver (origin : Origin) (r : RunRec) : RunRec :=
  { r with clock := 0, gateDelay := 0, next := 0, gate := none, origin := some origin }

/-- The record and the trigger of its old origin, when it starts over. -/
def startOver (k : Fin 6) (origin : Origin) (old : Option Origin) (t : Tables) (b : Bay) : Bay :=
  (if old = some origin then b.updRun k (fun r => { r with clock := 0, gateDelay := 0, next := 0, gate := none })
    else tellTrigger old t (b.updRun k (fun r => { r with clock := 0, gateDelay := 0, next := 0, gate := none }))).updRun k
    fun r => { r with origin := some origin }

theorem startOver_parts (k : Fin 6) (origin : Origin) (old : Option Origin) (t : Tables) (b : Bay) :
    startOver k origin old t b = { b with
      scene := { b.scene with run := (startOver k origin old t b).scene.run }
      trigger := { b.trigger with trigger := (startOver k origin old t b).trigger.trigger } } ∧
    (∀ j, (startOver k origin old t b).run j = if j = k then (b.run k).startedOver origin else b.run j) ∧
    ∀ n, (startOver k origin old t b).triggerRec n =
      if old = some (.trigger n) ∧ origin ≠ .trigger n ∧ (b.triggerRec n).state = .busy
        then (b.triggerRec n).rest (t.trigger.get n).lockout.val else b.triggerRec n := by
  rw [startOver]
  have cleared (j : Fin 6) := b.run_updRun k j fun r => { r with clock := 0, gateDelay := 0, next := 0, gate := none }
  have rest₁ : (b.updRun k fun r => { r with clock := 0, gateDelay := 0, next := 0, gate := none }) = { b with
      scene := { b.scene with run :=
        (b.updRun k fun r => { r with clock := 0, gateDelay := 0, next := 0, gate := none }).scene.run } } := rfl
  generalize (b.updRun k fun r => { r with clock := 0, gateDelay := 0, next := 0, gate := none }) = c at *
  have triggers := retold_triggerRec old origin t c
  have told : TriggersOnly c (if old = some origin then c else tellTrigger old t c) := by
    split
    · exact rfl
    · exact triggersOnly_tellTrigger (show TriggersOnly c c from rfl) _ t
  generalize (if old = some origin then c else tellTrigger old t c) = d at *
  have same (n : Fin 12) : c.triggerRec n = b.triggerRec n := by rw [rest₁]; rfl
  have record (j : Fin 6) : d.run j = c.run j := by rw [told]; rfl
  refine ⟨?_, fun j => ?_, fun n => ?_⟩
  · rw [told, rest₁]
    rfl
  · rw [Bay.run_updRun, record, record, cleared, cleared, if_pos rfl]
    by_cases here : k = j
    · rw [if_pos here, if_pos here.symm]
      rfl
    · rw [if_neg here, if_neg here, if_neg (Ne.symm here)]
  · exact (triggers n).trans (by rw [same])

theorem restart_eq (endK : EndRun) {k : Fin 6} {slot : Fin 32} (origin : Origin) (t : Tables) {b : Bay}
    (running : (b.run k).state = .running) (runs : (b.run k).slot = some slot) :
    ∃ c, restart endK k origin t b =
        duckExamine t (if (b.run k).held = true then c else examine endK false k t c) ∧
      Restarts k slot origin t b c := by
  have marks : b.recordEnd k .restartTruncated = b.updStatus slot fun y => { y with lastEnd := .restartTruncated } :=
    recordEnd_of_slot runs _
  have goes : restart endK k origin t b = duckExamine t (examineIfFires endK false k t
      (startOver k origin (b.run k).origin t (standStill k t (b.recordEnd k .restartTruncated)))) := rfl
  rw [marks] at goes
  have marked : b.updStatus slot (fun y => { y with lastEnd := .restartTruncated }) = { b with
    scene := { b.scene with status := b.scene.status.upd slot fun y => { y with lastEnd := .restartTruncated } } } := rfl
  generalize b.updStatus slot (fun y => { y with lastEnd := .restartTruncated }) = b₁ at *
  have clock : SameClock b b₁ := SameClock.of_rest (by rw [marked]) (by rw [marked])
  have silent : (idleVoices k b₁).voice = (idleVoices k b).voice := by rw [idleVoices_congr k b b₁ (by rw [marked])]
  obtain ⟨still, fixture, axis⟩ := standStill_parts k t b₁
  generalize standStill k t b₁ = b₂ at *
  obtain ⟨over', record, triggers⟩ := startOver_parts k origin (b.run k).origin t b₂
  generalize startOver k origin (b.run k).origin t b₂ = c at *
  have before (j : Fin 6) : b₂.run j = b.run j := by rw [still, marked]; rfl
  have own : c.run k = (b.run k).startedOver origin := by rw [record, if_pos rfl, before]
  refine ⟨c, ?_, ?_, fun j => ?_, fun i => ?_, fun a => ?_, fun n => ?_⟩
  · rw [goes, examineIfFires_openGate (by rw [own]; exact running) (by rw [own]; rfl), own]
    rfl
  · rw [over', still, silent, marked]
  · rw [record, before, before]
    rfl
  · have same : c.fixtureRec i = b₂.fixtureRec i := by rw [over']; rfl
    rw [same, fixture, clock.fixtureStill, marked]
    rfl
  · have same : c.axisRec a = b₂.axisRec a := by rw [over']; rfl
    rw [same, axis, clock.axisStopped, marked]
    rfl
  · have same : b₂.triggerRec n = b.triggerRec n := by rw [still, marked]; rfl
    rw [triggers, same]

/-! ### START-SCENE (R120, R125, R179) -/

/-- One request in flight, which makes no other: it is taken, and nothing is left. -/
theorem drain_of_one {t : Tables} {b : Bay} {q : Request} (one : b.claim.inFlight = [q])
    (last : (takeRequest q t { b with claim := { b.claim with inFlight := [] } }).claim.inFlight = []) :
    drain t b = takeRequest q t { b with claim := { b.claim with inFlight := [] } } := by
  rw [drain, drainFuel_succ t 4095, one]
  exact drainFuel_empty t 4095 _ last

theorem waiting_of_asked {s : State} {k : AskKind} {params : List Byte} (h : Asked s k params) : s.mgmt.waiting = .none := by
  obtain ⟨a, next, -⟩ := h
  by_contra busy
  exact nomatch (if_neg busy).symm.trans next

/-- The bay once the management unit has heard the outcome of its request. -/
def Bay.heard (b : Bay) : Bay := { b with claim := { b.claim with control := none } }

theorem startSceneAsk_eq {s : State} {slot : Fin 32} {d : ReqOutcome × Bay} (idle : s.mgmt.waiting = .none)
    (settled : Settled s) (decides : d = decideRequest ⟨slot, .control⟩ s.tables s.bay) (last : d.2.claim.inFlight = []) :
    startSceneAsk slot s = ({ s with bay := d.2.heard } : State).answer 0 [d.1.code] := by
  have one : (s.bay.request ⟨slot, .control⟩).claim.inFlight = [⟨slot, .control⟩] := by
    rw [Bay.request, settled.1]
    rfl
  have start : ({ s.bay.request ⟨slot, .control⟩ with
      claim := { (s.bay.request ⟨slot, .control⟩).claim with inFlight := [] } } : Bay) = s.bay := by
    rw [← settled.1]
    rfl
  have takes : takeRequest ⟨slot, .control⟩ s.tables s.bay = { d.2 with claim := { d.2.claim with control := some d.1 } } := by
    rw [takeRequest, ← decides]
    rfl
  have drained : drain s.tables (s.bay.request ⟨slot, .control⟩) =
      { d.2 with claim := { d.2.claim with control := some d.1 } } := by
    refine (drain_of_one one ?_).trans ?_
    · rw [start, takes]
      exact last
    · rw [start, takes]
  have waits : ({ s.mgmt with waiting := .none } : Management) = s.mgmt := by rw [← idle]
  show answerOutcome { s with
    bay := drain s.tables (s.bay.request ⟨slot, .control⟩), mgmt := { s.mgmt with waiting := .startScene } } = _
  rw [drained, answerOutcome]
  show ({ s with bay := d.2.heard, mgmt := { s.mgmt with waiting := .none } } : State).answer codeDone [d.1.code] = _
  rw [waits]
  rfl

theorem admitScene_outcome {endK : EndRun} {t : Tables} {b u : Bay} {k : Fin 6} {slot : Fin 32} {origin : Origin}
    (long : 0 < (t.scene.get slot).duration.val) (hu : u = admitScene endK k slot origin t b) :
    (u.run k).state = .running ∧ (u.run k).slot = some slot ∧ (u.run k).origin = some origin ∧ (u.run k).clock = 0 ∧
    (u.run k).snap = some (t.scene.get slot).snapshot ∧
    (∀ j, j ≠ k → (u.run j).slot = (b.run j).slot ∧
      (u.run j).state = if loses t b slot j then .suspended else (b.run j).state) ∧
    (∀ r, u.claim.claim.get r = if (t.scene.get slot).claims.has r = true
      then ⟨some k, (match b.owner r with | some j => [j] | none => []) ++ (b.claim.claim.get r).stack⟩
      else b.claim.claim.get r) ∧
    u.claim.queue = b.claim.queue.filter (fun e => e.slot ≠ slot) := by
  have admits := admitted_admits k slot origin t b
  obtain ⟨claim, queue, other, state, slot', origin', clock, snap⟩ := admitScene_runsOn (endK := endK) (k := k) origin b long
  rw [← hu] at claim queue other state slot' origin' clock snap
  generalize admitted k slot origin t b = c at *
  have record (j : Fin 6) (ne : j ≠ k) : (c.run j).slot = (b.run j).slot ∧
      (c.run j).state = if loses t b slot j then .suspended else (b.run j).state := by
    rw [admits.other j ne _ (fun lost => if_pos lost) (fun kept => if_neg kept)]
    exact ⟨rfl, rfl⟩
  refine ⟨by rw [state, admits.run], by rw [slot', admits.run], by rw [origin', admits.run], by rw [clock, admits.run],
    by rw [snap, admits.run], fun j ne => by rw [other j ne]; exact record j ne, fun r => ?_, ?_⟩
  · rw [claim, admits.claim]
    cases b.owner r <;> rfl
  · rw [queue, admits.rest]

theorem Admits.voice_of_lost {k : Fin 6} {slot : Fin 32} {origin : Origin} {t : Tables} {b c : Bay}
    (h : Admits k slot origin t b c) {v : Fin 6} (lost : ∃ j, (b.voiceRec v).owner = some j ∧ loses t b slot j)
    (sounds : (b.voiceRec v).state = .priming ∨ (b.voiceRec v).state = .playing) :
    c.voiceRec v = { b.voiceRec v with state := .paused, refill := none, underrun := false } :=
  (h.voice v).trans (if_pos ⟨lost, by simpa [VoiceState.active] using sounds⟩)

theorem Admits.voice_of_kept {k : Fin 6} {slot : Fin 32} {origin : Origin} {t : Tables} {b c : Bay}
    (h : Admits k slot origin t b c) {v : Fin 6} (kept : (∀ j, (b.voiceRec v).owner = some j → ¬ loses t b slot j) ∨
      (b.voiceRec v).state ≠ .priming ∧ (b.voiceRec v).state ≠ .playing) : c.voiceRec v = b.voiceRec v := by
  refine (h.voice v).trans (if_neg ?_)
  rintro ⟨⟨j, own, lost⟩, active⟩
  rcases kept with kept | silent
  · exact kept j own lost
  · simp [VoiceState.active, silent] at active

/-- Settles O42: how a request is decided, what an admission and a restart come to, and the answer to START-SCENE. -/
theorem requestsAreDecided : Obligations.RequestsAreDecided := by
  refine ⟨?_, ?_, ?_, ?_, ?_⟩
  · rintro t b q h rfl
    refine ⟨fun out => decideRequest_of_discards ((discards_iff t b q.slot).mpr out),
      fun mode enabled steps duration => ?_⟩
    have taken := not_discards mode enabled steps duration
    refine ⟨fun k carries => decideRequest_of_carrier taken carries, fun idle blocked hblocked => ?_⟩
    obtain rfl : anyBlocks t b q.slot = blocked := Bool.eq_iff_iff.mpr (anyBlocks_iff.trans hblocked.symm)
    refine ⟨fun gives k free first => decideRequest_of_admissible taken idle (admissible_of_first gives free first),
      fun h => ?_⟩
    rw [decideRequest_of_inadmissible taken idle (admissible_none h)]
    refine ⟨fun discards => waitOrNot_of_discard discards, fun waits here => waitOrNot_of_queued waits here,
      fun waits absent full => waitOrNot_of_full waits absent full, fun new hnew waits absent room => ?_⟩
    exact waitOrNot_of_room waits absent room hnew
  · intro t b u k slot origin h hh long free unowned hu
    subst hh
    exact admitScene_outcome (endK := endRun) long hu
  · intro endK t b k slot origin h lost hh free unowned hlost
    subst hh
    obtain rfl : lost = loses t b slot := funext fun j => propext (hlost j)
    have admits := admitted_admits k slot origin t b
    have goes := admitScene_eq endK k slot origin t b
    generalize admitted k slot origin t b = c at admits goes
    refine ⟨c, goes, admits.rest, admits.run, fun j y ne hy now lost kept => ?_, admits.fixture, admits.axis,
      fun v x hx => ?_, fun n x hx => ?_, fun i => Tab.get_const _ _, fun a => Tab.get_const _ _⟩
    · exact admits.other j ne now lost fun h => (kept h).trans hy
    · subst hx
      exact ⟨admits.voice_of_lost, admits.voice_of_kept⟩
    · subst hx
      exact admits.trigger n
  · rintro endK k origin t b r slot rfl running runs
    obtain ⟨c, goes, rest, run, fixture, axis, trigger⟩ := restart_eq endK origin t running runs
    refine ⟨c, goes, rest, run, fixture, axis, ?_⟩
    rintro n x rfl
    exact trigger n
  · intro s p slot d taken hp settled decides last
    refine (taken_ask slotParam startSceneAsk taken (finParam_one (by decide) hp)).trans ?_
    rw [startSceneAsk_eq (waiting_of_asked taken.2) settled decides last]
    cases d.1 <;> rfl

end Sys2Proof.Machine
end

end
